-- ==== Sys2Proof/Word.lean ====
section
/-! DEFINITION. The word types of the HUF core: 64-bit host registers and counts (R11, R12), bytes, and the 4-entry BitSequence register index (R12). -/

namespace Sys2Proof

/-- A host register, a count or a symbol value: 64 bits (R11, R12, R15). -/
abbrev Word := BitVec 64

/-- A stream byte (R64, R65). -/
abbrev Byte := BitVec 8

/-- The index of a BitSequence register, BS[0] to BS[3] (R12, R119: all four values are valid). -/
abbrev BsIdx := Fin 4

/-- 2^64 - 1: the largest count (R11) and "no limit" in BITLIMIT (R45). -/
abbrev maxWord : Word := 0xFFFFFFFFFFFFFFFF#64

end Sys2Proof
end

