-- ==== Sys2Proof/Config.lean ====
section
/-! DEFINITION. What an implementation fixes (the OPEN parameters of R8, R9, R10) and the free values (93 O1, O2). Every constant declared opaque here is uninterpreted: nothing in Lean evaluates it. -/

namespace Sys2Proof

/-- The build-time parameters of one implementation: SYM_CAP, NODE_CAP, IN_CAP and OUT_CAP (R8, R9, R10). The machine's state carries them, so that every statement about a state holds for every implementation. -/
structure Params where
  symCap : Nat
  nodeCap : Nat
  inCap : Nat
  outCap : Nat
  deriving DecidableEq, Repr

/-- The constraints the spec puts on the parameters: 1 ≤ SYM_CAP ≤ 2^32 − 1 (R8), NODE_CAP ≥ 2·SYM_CAP (R9), and NODE_CAP is readable in a 64-bit register (R53). -/
abbrev Params.ok (p : Params) : Prop :=
  1 ≤ p.symCap ∧ p.symCap ≤ 4294967295 ∧ 2 * p.symCap ≤ p.nodeCap ∧ p.nodeCap < 2 ^ 64

namespace Config

/-- Uninterpreted: selects SYM_CAP (93 O6; log 1). -/
opaque rawSymCap : Nat
/-- Uninterpreted: selects NODE_CAP (93 O6; log 1). -/
opaque rawNodeCap : Nat
/-- Uninterpreted: IN_CAP (93 O5; log 2). -/
opaque rawInCap : Nat
/-- Uninterpreted: OUT_CAP (93 O5; log 2). -/
opaque rawOutCap : Nat

/-- SYM_CAP: any value from 1 to 2^32 − 1, and no other (R8). -/
def symCap : Nat := 1 + rawSymCap % 4294967295

/-- NODE_CAP: any 64-bit value from 2·SYM_CAP up, and no other (R9, R53). -/
def nodeCap : Nat := 2 * symCap + rawNodeCap % (2 ^ 64 - 2 * symCap)

/-- The parameters of the implementation whose reset state is `State.reset`. -/
def params : Params := ⟨symCap, nodeCap, rawInCap, rawOutCap⟩

/-- The value the n-th unspecified register read returns (R367, 93 O1; log 3). Free: nothing constrains it. -/
opaque freeRead : Nat → Word

/-- How many InRead boundaries a command still passes after the n-th draw, an IOFAIL write, before it aborts (R331, 93 O2; log 4). Free: nothing constrains it. -/
opaque freeIofSkip : Nat → Nat

end Config

end Sys2Proof
end

