-- ==== Sys2Proof/Syntax.lean ====
section
/-! DEFINITION. The 34 commands of the HUF core, one constructor per row of the opcode map (R114). -/

namespace Sys2Proof

/-- One command. Operands are those the word encodes (R111, R119); the arguments A0, A1 and LIM come from the latches in the machine's state. `n` and `i` are IMM8 operands: a well-formed command has them below 256. -/
inductive Instr where
  | nop
  | sreset
  | errClr
  | setWidth (n : Nat)
  | bsClr (rd : BsIdx)
  | bsApp (rd : BsIdx) (b : Bool)
  | bsGet (rs : BsIdx) (i : Nat)
  | bsLen (rs : BsIdx)
  | bsCpy (rd rs : BsIdx)
  | bsEq (rs rt : BsIdx)
  | bsLd (rd : BsIdx)
  | bsRd (rs : BsIdx)
  | bsCat (rd rs : BsIdx)
  | freqClr
  | freqAdd
  | freqSet
  | freqGet
  | freqScan
  | buildTree
  | assignCodes
  | codeGet
  | codeSet (rs : BsIdx)
  | codeClr
  | serTable
  | deserTable
  | reconTree
  | packInit
  | packSym
  | packBs (rs : BsIdx)
  | packFlush
  | pack
  | unpackInit
  | unpackByte
  | unpack
  deriving DecidableEq, Repr

end Sys2Proof
end

