-- ==== Sys2Proof/Machine/State.lean ====
section
/-! DEFINITION. The state of the HUF core and of the host program that drives it, as plain data; the reasons a step stops; the reset state (file 10, R360, R378). -/

namespace Sys2Proof.Machine

/-- A bit sequence {len, bits}: bit i of the sequence is `bits[i]` (R16). The invariant len ≤ 64 and bits[63:len] = 0 is `BitSeq.wf` in Safety.lean. -/
structure BitSeq where
  len : Nat
  bits : Word
  deriving DecidableEq, Repr

/-- `empty = {0, 0}` (R16). -/
abbrev BitSeq.empty : BitSeq := ⟨0, 0⟩

/-- A finite map from symbol value, as entries in strictly ascending key order (R57, R58; the iteration order of R197). -/
abbrev FMap (α : Type) := List (Word × α)

/-- The encoder tree's nodes (R59). -/
inductive ETree where
  | leaf (sym freq : Word)
  | node (freq : Word) (left right : ETree)
  | wrap (freq : Word) (child : ETree)
  deriving DecidableEq, Repr

/-- The decode tree (R60) as a binary trie: `absent` where the set of nodes ends, `node` for a node in the set, with its symbol if it holds one. The path of a node, and so its stored code, is its position. Prefix closure holds by construction, and equal sets of nodes are equal trees (log 13). -/
inductive DTree where
  | absent
  | node (sym : Option Word) (left right : DTree)
  deriving DecidableEq, Repr

/-- One IN entry (R64). -/
inductive Token where
  | byte (b : Byte)
  | eos
  | err
  deriving DecidableEq, Repr

/-- The packer: PB, PBN, PK_BITS, PK_SYMS (R46, R61). -/
structure Packer where
  pb : Byte
  pbn : BitVec 3
  bits : Word
  syms : Word
  deriving DecidableEq, Repr

/-- The packer after PACK_INIT or reset (R281, R30). -/
abbrev Packer.init : Packer := ⟨0, 0, 0, 0⟩

/-- The decoder: CUR, ACC, DC_BITS, DC_SYMS and its two flags MISMATCH and LIMIT_HIT (R41, R42, R47, R62). -/
structure Decoder where
  cur : BitSeq
  acc : BitSeq
  bits : Word
  syms : Word
  mismatch : Bool
  limitHit : Bool
  deriving DecidableEq, Repr

/-- The decoder after UNPACK_INIT or reset (R301, R30). -/
abbrev Decoder.init : Decoder := ⟨.empty, .empty, 0, 0, false, false⟩

/-- A0, A1 and LIM, copied when a command is accepted (R63). -/
structure Latches where
  a0 : Word
  a1 : Word
  lim : Word
  deriving DecidableEq, Repr

/-- The host registers that are storage: ARG0, ARG1, RES0, RES1, BITLIMIT, INT_EN (R31). -/
structure HostRegs where
  arg0 : Word
  arg1 : Word
  res0 : Word
  res1 : Word
  bitlimit : Word
  intEn : BitVec 2
  deriving DecidableEq, Repr

/-- The error record (R44). -/
structure ErrRec where
  cause : BitVec 8
  offset : Word
  expected : Word
  actual : Word
  symbol : Word
  deriving DecidableEq, Repr

/-- The error record when ERR = 0 (R44). -/
abbrev ErrRec.zero : ErrRec := ⟨0, 0, 0, 0, 0⟩

/-- Which field of the table DESER_TABLE is reading (R247): T, an entry's symbol, its L, its code bytes. -/
inductive Field where
  | count
  | symbol
  | length
  | code
  deriving DecidableEq, Repr

/-- Where DESER_TABLE stands (R247): the field, its start `fo`, the bytes of it read so far, `n` bytes consumed, T, the entries done `e`, the entry's start `so`, its symbol `s`, and L. -/
structure Deser where
  field : Field
  fo : Word
  got : List Byte
  n : Word
  t : Nat
  e : Nat
  so : Word
  s : Word
  l : Nat
  deriving DecidableEq, Repr

/-- The end of a stream command: what it writes to RES0 and RES1 (R34). -/
inductive Finish where
  /-- FREQ_SCAN: nsym and nbytes (R196). -/
  | freqScan (nsym nbytes : Word)
  /-- SER_TABLE: nb, the bytes written, and T (R246). -/
  | serTable (t : Word)
  /-- DESER_TABLE: n and T (R247). -/
  | deserTable (n t : Word)
  /-- PACK_SYM: PK_BITS and the code's length (R282). -/
  | packSym (len : Word)
  /-- PACK_BS: PK_BITS; RES1 is not written (R283). -/
  | packBs
  /-- PACK_FLUSH: PK_BITS and k (R284). -/
  | packFlush (k : Word)
  /-- PACK: PK_BITS and PK_SYMS (R285). -/
  | pack
  /-- UNPACK_BYTE and UNPACK: DC_SYMS and ACC.len (R302, R303). -/
  | unpack
  deriving DecidableEq, Repr

/-- One micro-operation of a stream command: the piece of its pseudocode between two points at which the host may act. -/
inductive Micro where
  /-- EmitBit(b) (R280). -/
  | emitBit (b : Bool)
  /-- "OutWrite(PB); PB <- 0; PBN <- 0" (R280, R284, R285). -/
  | outPB
  /-- "if PBN > 0" before the flush at the end of PACK (R285). -/
  | pad
  /-- DecodeBit(b) (R300). -/
  | decodeBit (b : Bool)
  /-- OutWrite(b) (R83). -/
  | out (b : Byte)
  /-- CUR <- empty; ACC <- empty (R300). -/
  | toRoot
  /-- The loop of FREQ_SCAN with its nsym, nbytes, start and chunk (R196). -/
  | scan (nsym nbytes start : Word) (chunk : List Byte)
  /-- The loop of PACK with its nbytes, start and chunk (R285). -/
  | packIn (nbytes start : Word) (chunk : List Byte)
  /-- The loop of UNPACK with its nbytes (R303). -/
  | unpackIn (nbytes : Word)
  /-- The next InRead of DESER_TABLE (R247). -/
  | deser (d : Deser)
  /-- The end of the command (R145). -/
  | finish (f : Finish)
  deriving DecidableEq, Repr

/-- What the core is doing. BUSY = 0 exactly when it is `idle` (R36). -/
inductive Run where
  | idle
  /-- A command word has been accepted and is not decoded yet (R144). -/
  | accepted (w : BitVec 32)
  /-- A stream command has these micro-operations left; no other command is ever interrupted by the host (R331, R375). -/
  | running (todo : List Micro)
  deriving DecidableEq, Repr

/-- One action of a host program (R122, R378), and the reset input (R360). `PUSH b0 b1 ...` is one `push` for each token (log 25). -/
inductive HostAction where
  /-- WR: RegWrite(idx, v) (R81). -/
  | wr (idx : BitVec 8) (v : Word)
  /-- RD: RegRead(idx), its value recorded. -/
  | rd (idx : BitVec 8)
  /-- WAIT: completes when BUSY = 0. -/
  | wait
  /-- PUSH of one token; waits while IN is full (R10). -/
  | push (t : Token)
  /-- Pop one byte of OUT and record it; waits while OUT is empty (R83, log 9). -/
  | pop
  /-- DRAIN: pop every byte now in OUT and record them. -/
  | drain
  /-- Assert and release the hardware reset input (R360). -/
  | hwReset
  deriving DecidableEq, Repr

/-- Who moves next while BUSY = 1 and both could (R367, R375; log 5). -/
inductive Agent where
  | core
  | host
  deriving DecidableEq, Repr

/-- The host's side (R378): its program, the index of the next action, the record of bytes popped, the values RD returned; and the model's own two fields: whose turn it is while BUSY = 1 (empty: the core runs until it waits or completes, R375) and how many free values have been drawn. -/
structure HostSide where
  prog : List HostAction
  pc : Nat
  outRec : List Byte
  rdRec : List Word
  turns : List Agent
  draws : Nat
  deriving DecidableEq, Repr

/-- The whole machine (R30, R31, R331, R378). ETREE_V, DTREE_V and BUSY are views of `etree`, `dtree` and `run` (log 12; Flags.lean). -/
structure State where
  /-- SYM_CAP, NODE_CAP, IN_CAP, OUT_CAP: never written (R8, R9, R10). -/
  params : Params
  /-- WIDTH (R55). -/
  width : BitVec 4
  /-- BS[0..3] (R56). -/
  bs : Vector BitSeq 4
  /-- FT (R57). -/
  ft : FMap Word
  /-- CT (R58). -/
  ct : FMap BitSeq
  /-- ETREE (R59). -/
  etree : Option ETree
  /-- DTREE (R60). -/
  dtree : Option DTree
  packer : Packer
  decoder : Decoder
  latch : Latches
  regs : HostRegs
  /-- STATUS.DONE (R37). -/
  done : Bool
  /-- STATUS.ERR (R38). -/
  err : Bool
  /-- STATUS.OVR (R39). -/
  ovr : Bool
  errRec : ErrRec
  /-- IN, oldest token first (R64). -/
  inq : List Token
  /-- OUT, oldest byte first (R65). -/
  outq : List Byte
  run : Run
  /-- The hidden flag IOF (R331). -/
  iof : Bool
  /-- The drawn number of InRead boundaries the pending IOFAIL abort still passes (log 4). -/
  iofSkip : Nat
  /-- w: the bytes the running command has written to OUT (R331). -/
  wrote : Nat
  host : HostSide
  deriving DecidableEq, Repr

/-- Why a step stops. The spec records these runs as stuck: they never end (93 O4). -/
inductive Fault where
  /-- Raised by `step` when the core waits in InRead or OutWrite, no IOFAIL abort is pending, and no host action can follow that would end the wait: the program is over, or its next action waits too (R102, R369, R370). Safe: the hardware stays BUSY for ever (log 7). -/
  | coreStuck
  /-- Raised by `step` when the core is idle and the host's next action can never complete: a push on a full IN, a pop of an empty OUT. Safe: the run never ends (log 7). -/
  | hostStuck
  deriving DecidableEq, Repr

/-- Why a command has no meaning. -/
inductive Refusal where
  /-- Raised by `exec` for a command this model gives no meaning yet; no arm raises it now. Safe. -/
  | notModelled (mnemonic : String)
  deriving DecidableEq, Repr

/-- What a meaning or a step answers. -/
abbrev Out := Host.Outcome State Fault Refusal

/-- The reset state (R360, the reset columns of R30 and R31) of the implementation with parameters `p`, with no host program (log 6). -/
def State.resetWith (p : Params) : State where
  params := p
  width := 0
  bs := #v[.empty, .empty, .empty, .empty]
  ft := []
  ct := []
  etree := none
  dtree := none
  packer := .init
  decoder := .init
  latch := ⟨0, 0, maxWord⟩
  regs := ⟨0, 0, 0, 0, maxWord, 0⟩
  done := false
  err := false
  ovr := false
  errRec := .zero
  inq := []
  outq := []
  run := .idle
  iof := false
  iofSkip := 0
  wrote := 0
  host := ⟨[], 0, [], [], [], 0⟩

/-- The machine right after reset (R360). -/
def State.reset : State := .resetWith Config.params

end Sys2Proof.Machine
end

