-- ==== Sys2Proof/Machine/Ops.lean ====
section
/-! DEFINITION. The named operations every command is written over: finite maps (R57, R58), bit sequences (R160), byte order (R85 to R87), the end of a command (R145), error entry (R323) and the return from it (R142), acceptance (R144). -/

namespace Sys2Proof.Machine

/-! ### Finite maps -/

/-- M[k], `none` where absent (R17). -/
def FMap.get {α : Type} : FMap α → Word → Option α
  | [], _ => none
  | (k', v) :: m, k => if k = k' then some v else FMap.get m k

/-- M[k] <- v, the entries kept in strictly ascending key order (R17, R197). -/
def FMap.put {α : Type} : FMap α → Word → α → FMap α
  | [], k, v => [(k, v)]
  | (k', v') :: m, k, v =>
    if k = k' then (k, v) :: m
    else if k < k' then (k, v) :: (k', v') :: m
    else (k', v') :: FMap.put m k v

/-- The canonical form: keys strictly ascending, so equal maps are equal lists and `keys_asc` is the list order (R197). -/
abbrev FMap.wf {α : Type} (m : FMap α) : Prop := m.Pairwise (fun a b => a.1 < b.1)

/-! ### Bit sequences (R16, R160) -/

/-- The k low bits set (R160). -/
def maskBits (k : Nat) : Word := if k = 64 then maxWord else (1#64 <<< k) - 1#64

/-- mk(k, v) (R160). -/
def BitSeq.mk' (k : Nat) (v : Word) : BitSeq := ⟨k, v &&& maskBits k⟩

/-- get(c, i) (R160). -/
def BitSeq.get (c : BitSeq) (i : Nat) : Bool := c.bits.getLsbD i

/-- One bit as a word. -/
def bitWord (b : Bool) : Word := if b then 1 else 0

/-- append(c, b) (R160). -/
def BitSeq.append (c : BitSeq) (b : Bool) : BitSeq := ⟨c.len + 1, c.bits ||| (bitWord b <<< c.len)⟩

/-- concat(c, d) (R160). -/
def BitSeq.concat (c d : BitSeq) : BitSeq := ⟨c.len + d.len, c.bits ||| (d.bits <<< c.len)⟩

/-- prefix(c, k) (R160). -/
def BitSeq.prefix (c : BitSeq) (k : Nat) : BitSeq := ⟨k, c.bits &&& maskBits k⟩

/-- eq(c, d) (R160). -/
def BitSeq.eq (c d : BitSeq) : Bool := c.len == d.len && c.bits == d.bits

/-- The bits c[0], ..., c[len-1] in sequence order (R16). -/
def BitSeq.toBits (c : BitSeq) : List Bool := (List.range c.len).map c.get

/-- The word whose bit i is p[i] (R214: "sum p[i] << i"). -/
def bitsWord : List Bool → Word
  | [] => 0
  | b :: p => bitWord b ||| (bitsWord p <<< 1)

/-- The bit sequence of a list of bits, the first bit first (R214). -/
def BitSeq.ofBits (p : List Bool) : BitSeq := ⟨p.length, bitsWord p⟩

/-! ### Byte order -/

/-- The value of bytes read big-endian: val(s) of R15, ReadBE32 of R86. -/
def beWord (bytes : List Byte) : Word := bytes.foldl (fun acc b => (acc <<< 8) ||| b.setWidth 64) 0

/-- Bytes of weight 2^(8j), the first byte lowest (R247: "sum B[j] << 8j"). -/
def leWord : List Byte → Word
  | [] => 0
  | b :: bs => b.setWidth 64 ||| (leWord bs <<< 8)

/-- The k low bytes of v, most significant first: SymBytes of R15 with k = N, BE32 of R86 with k = 4. -/
def beBytes (k : Nat) (v : Word) : List Byte :=
  (List.range k).map (fun j => (v >>> (8 * (k - 1 - j))).setWidth 8)

/-- CodeBytes(c): the ceil(L/8) bytes of a code, bit i at byte i/8, position i%8 (R243). -/
def codeBytes (c : BitSeq) : List Byte :=
  (List.range ((c.len + 7) / 8)).map (fun j => (c.bits >>> (8 * j)).setWidth 8)

/-- The bits of a byte in stream order, least significant first (R87, R88). -/
def byteBits (x : Byte) : List Bool := (List.range 8).map x.getLsbD

/-! ### Causes and error entry -/

/-- The causes a command can raise (R320). -/
inductive Cause where
  | emptyInput
  | malformedTable
  | invalidCodeTable
  | ioError
  | codeOverflow
  | unknownSymbol
  | capacity
  | countOverflow
  | illegalCommand
  | illegalArgument
  | stateError
  deriving DecidableEq, Repr

/-- The cause codes (R320). 0x00 is NONE, and 0x0C to 0xFF are never written. -/
def causeCode : Cause → BitVec 8
  | .emptyInput => 0x01
  | .malformedTable => 0x02
  | .invalidCodeTable => 0x03
  | .ioError => 0x04
  | .codeOverflow => 0x05
  | .unknownSymbol => 0x06
  | .capacity => 0x07
  | .countOverflow => 0x08
  | .illegalCommand => 0x09
  | .illegalArgument => 0x0A
  | .stateError => 0x0B

/-- The arguments of `raise CAUSE(offset, expected, actual, symbol)` (R17, R322). -/
structure Raise where
  cause : Cause
  offset : Word := 0
  expected : Word := 0
  actual : Word := 0
  symbol : Word := 0
  deriving DecidableEq, Repr

/-- CAPACITY for one entry more than SYM_CAP (R193, R194, R218, R322). -/
def capacityRaise (cap : Nat) (v : Word) : Raise :=
  { cause := .capacity, expected := BitVec.ofNat 64 cap, actual := BitVec.ofNat 64 (cap + 1), symbol := v }

/-- STATE_ERROR(0, id, OP, 0) for a missing precondition (R322, R329). -/
def stateError (id : Word) (op : BitVec 8) : Raise :=
  { cause := .stateError, expected := id, actual := op.setWidth 64 }

/-- What every end of a command does: BUSY <- 0, DONE <- 1 (R145, R323), and IOF and the byte count w of R331 are cleared. -/
def State.endCommand (s : State) : State :=
  { s with run := .idle, done := true, iof := false, iofSkip := 0, wrote := 0 }

/-- `complete()` (R145). -/
def State.complete (s : State) : State := s.endCommand

/-- TAKING AN ERROR (R323): ERR <- 1, the record is written, BUSY <- 0, DONE <- 1. RES0 and RES1 are not written (R34). -/
def State.raise (s : State) (r : Raise) : State :=
  { s.endCommand with
    err := true
    errRec := ⟨causeCode r.cause, r.offset, r.expected, r.actual, r.symbol⟩ }

/-- The return from an error (R142, R327): the record, ERR and OVR are cleared. -/
def State.clearError (s : State) : State := { s with err := false, ovr := false, errRec := .zero }

/-- The meaning ends here, successfully. -/
def State.succeed (s : State) : Out := .next s.complete

/-- The meaning ends here with an error. -/
def State.fail (s : State) (r : Raise) : Out := .next (s.raise r)

/-- Go on with `k` unless a check has failed; only the first failing check raises (R329). -/
def State.checked (s : State) (check : Option Raise) (k : Out) : Out :=
  match check with
  | some r => s.fail r
  | none => k

/-! ### Writes of registers and tables -/

/-- RES0 <- v. -/
def State.setRes0 (s : State) (v : Word) : State := { s with regs := { s.regs with res0 := v } }

/-- RES0 <- v; RES1 <- w. -/
def State.setRes (s : State) (v w : Word) : State := { s with regs := { s.regs with res0 := v, res1 := w } }

/-- BS[i] <- c (R17). -/
def State.setBs (s : State) (i : BsIdx) (c : BitSeq) : State := { s with bs := s.bs.set i c }

/-- FT <- m, with the encoder tree invalidated (R191). -/
def State.setFt (s : State) (m : FMap Word) : State := { s with ft := m, etree := none }

/-- CT <- m, with the decode tree invalidated (R220). -/
def State.setCt (s : State) (m : FMap BitSeq) : State := { s with ct := m, dtree := none }

/-- The packer's state becomes p. -/
def State.setPacker (s : State) (p : Packer) : State := { s with packer := p }

/-- The decoder's state becomes d. -/
def State.setDecoder (s : State) (d : Decoder) : State := { s with decoder := d }

/-- ETREE <- t (R59). -/
def State.setEtree (s : State) (t : Option ETree) : State := { s with etree := t }

/-- DTREE <- t (R60). -/
def State.setDtree (s : State) (t : Option DTree) : State := { s with dtree := t }

/-- FT <- m within FREQ_SCAN, which has made ETREE none before its loop (R196). -/
def State.putFt (s : State) (m : FMap Word) : State := { s with ft := m }

/-- CT <- m within DESER_TABLE, which has made DTREE none before its loop (R247). -/
def State.putCt (s : State) (m : FMap BitSeq) : State := { s with ct := m }

/-! ### Acceptance (R144) -/

/-- BUSY <- 1; DONE <- 0; A0, A1, LIM latched; the word waits to be decoded (R63, R144). -/
def State.accept (s : State) (w : BitVec 32) : State :=
  { s with
    run := .accepted w
    done := false
    latch := ⟨s.regs.arg0, s.regs.arg1, s.regs.bitlimit⟩
    iof := false
    iofSkip := 0
    wrote := 0 }

/-- A CMD write with this word is dropped: BUSY = 1, or ERR = 1 and the word is neither SRESET nor ERR_CLR (R144, R326). -/
def State.drops (s : State) (w : BitVec 32) : Bool :=
  s.run != .idle || (s.err && w != 0x00000001#32 && w != 0x00000002#32)

end Sys2Proof.Machine
end

