-- ==== Sys2Proof/Machine/Flags.lean ====
section
/-! DEFINITION. The views of status: BUSY, the valid bits, the STATUS word (R35), PACK_STATE and DEC_STATE (R50, R51), CAPS (R53), and the output IRQ (R332). The block has no arithmetic flags (R68). -/

namespace Sys2Proof.Machine

/-- BUSY (R36). -/
def State.busy (s : State) : Bool := s.run != .idle

/-- ETREE_V, and STATUS.ETREE_VALID (R40): the tree is not none. -/
def State.etreeV (s : State) : Bool := s.etree.isSome

/-- STATUS.CT_VALID: CT is not empty (R40). -/
def State.ctValid (s : State) : Bool := !s.ct.isEmpty

/-- DTREE_V, and STATUS.DTREE_VALID (R40): the tree is not none. -/
def State.dtreeV (s : State) : Bool := s.dtree.isSome

/-- A flag at bit position k of a 64-bit register. -/
def flagAt (k : Nat) (b : Bool) : Word := bitWord b <<< k

/-- STATUS (R35): bits 11:9 and 63:16 read 0. -/
def State.statusWord (s : State) : Word :=
  flagAt 0 s.busy ||| flagAt 1 s.done ||| flagAt 2 s.err ||| flagAt 3 s.ovr |||
  flagAt 4 s.etreeV ||| flagAt 5 s.ctValid ||| flagAt 6 s.dtreeV |||
  flagAt 7 s.decoder.mismatch ||| flagAt 8 s.decoder.limitHit ||| (s.width.setWidth 64 <<< 12)

/-- PACK_STATE: PB in bits 7:0, PBN in bits 10:8 (R50). -/
def State.packState (s : State) : Word := (s.packer.pbn.setWidth 64 <<< 8) ||| s.packer.pb.setWidth 64

/-- DEC_STATE: ACC.len (R51). -/
def State.decState (s : State) : Word := BitVec.ofNat 64 s.decoder.acc.len

/-- CAPS (R53): MAX_CODE_LEN 64, BS_COUNT 4, maximum width 8. -/
def capsWord : Word := 0x8440

/-- IRQ = (INT_EN[0] & DONE) | (INT_EN[1] & ERR), at every instant (R332). -/
def State.irq (s : State) : Bool :=
  (s.regs.intEn.getLsbD 0 && s.done) || (s.regs.intEn.getLsbD 1 && s.err)

end Sys2Proof.Machine
end

