-- ==== Sys2Proof/Machine/Operands.lean ====
section
/-! DEFINITION. Operands and preconditions: N, the symbol operand (R120), the preconditions of R329, and the host's view of the registers (R31): reading one, and writing any but CMD and IOFAIL. -/

namespace Sys2Proof.Machine

/-- N, the symbol width in bytes (R55). -/
def State.symWidth (s : State) : Nat := s.width.toNat

/-- BS[i] (R56, R119). -/
def State.bsAt (s : State) (i : BsIdx) : BitSeq := s.bs[i]

/-- R329 check 2: an N-dependent command needs WIDTH ≠ 0; precondition id 1. -/
def State.needWidth (s : State) (op : BitVec 8) : Option Raise :=
  if s.width = 0 then some (stateError 1 op) else none

/-- R329 check 3, id 3: SER_TABLE, RECON_TREE, PACK_SYM and PACK need a non-empty CT. -/
def State.needCt (s : State) (op : BitVec 8) : Option Raise :=
  if s.ctValid then none else some (stateError 3 op)

/-- R329 check 3, id 4: UNPACK_BYTE and UNPACK need DTREE_V = 1. -/
def State.needDtree (s : State) (op : BitVec 8) : Option Raise :=
  if s.dtreeV then none else some (stateError 4 op)

/-- R329 check 4, R120: the symbol operand A0 is below 2^(8·WIDTH). -/
def State.needSymbol (s : State) : Option Raise :=
  if s.latch.a0.toNat < 2 ^ (8 * s.symWidth) then none
  else some { cause := .illegalArgument, expected := BitVec.ofNat 64 (2 ^ (8 * s.symWidth) - 1), actual := s.latch.a0 }

/-- inc(x, id) (R17): x + 1, or COUNT_OVERFLOW(0, 2^64−1, id, 0) when x = 2^64 − 1. -/
def incCount (x : Word) (id : Word) : Except Raise Word :=
  if x = maxWord then .error { cause := .countOverflow, expected := maxWord, actual := id } else .ok (x + 1)

/-- RegRead(idx) of a core that is not busy (R31, R54): a write-only or reserved index reads 0. -/
def State.readReg (s : State) (idx : BitVec 8) : Word :=
  match idx.toNat with
  | 0x01 => s.statusWord
  | 0x02 => s.regs.arg0
  | 0x03 => s.regs.arg1
  | 0x04 => s.regs.res0
  | 0x05 => s.regs.res1
  | 0x06 => s.errRec.cause.setWidth 64
  | 0x07 => s.errRec.offset
  | 0x08 => s.errRec.expected
  | 0x09 => s.errRec.actual
  | 0x0A => s.errRec.symbol
  | 0x0B => s.regs.bitlimit
  | 0x0C => s.packer.bits
  | 0x0D => s.packer.syms
  | 0x0E => s.decoder.bits
  | 0x0F => s.decoder.syms
  | 0x10 => BitVec.ofNat 64 s.ft.length
  | 0x11 => BitVec.ofNat 64 s.ct.length
  | 0x12 => s.regs.intEn.setWidth 64
  | 0x13 => s.packState
  | 0x14 => s.decState
  | 0x15 => s.decoder.acc.bits
  | 0x17 => capsWord
  | 0x18 => BitVec.ofNat 64 s.params.symCap
  | 0x19 => BitVec.ofNat 64 s.params.nodeCap
  | _ => 0

/-- RegWrite(idx, v) of the four read-write registers (R31, R33, R45, R49); a write to any other index changes nothing here (R54). CMD and IOFAIL are in Step.lean's host actions. -/
def State.writeReg (s : State) (idx : BitVec 8) (v : Word) : State :=
  match idx.toNat with
  | 0x02 => { s with regs := { s.regs with arg0 := v } }
  | 0x03 => { s with regs := { s.regs with arg1 := v } }
  | 0x0B => { s with regs := { s.regs with bitlimit := v } }
  | 0x12 => { s with regs := { s.regs with intEn := v.setWidth 2 } }
  | _ => s

end Sys2Proof.Machine
end

