-- ==== Sys2Proof/Machine/Engine.lean ====
section
/-! DEFINITION. The running of stream commands as micro-operations: InRead and OutWrite with their waits (R82, R83, R102), the IOFAIL abort at a boundary (R331), EmitBit (R280), DecodeBit (R300), and the read loops of FREQ_SCAN (R196), PACK (R285), UNPACK (R303) and DESER_TABLE (R247). -/

namespace Sys2Proof.Machine

/-- The running command has `todo` left. -/
def State.goOn (s : State) (todo : List Micro) : State := { s with run := .running todo }

/-! ### Boundaries -/

/-- The IOFAIL abort (R331): IO_ERROR(w, 0, 1, 0). -/
def State.abortIO (s : State) : State :=
  s.raise { cause := .ioError, offset := BitVec.ofNat 64 s.wrote, actual := 1 }

/-- `fail X(...)` of DESER_TABLE: CT <- {} and raise (R247). -/
def State.failDeser (s : State) (r : Raise) : State := (s.putCt []).raise r

/-- The IOFAIL abort of DESER_TABLE, which leaves CT empty like each of its errors (R247, R325; log 11). -/
def State.abortDeser (s : State) : State := (s.putCt []).abortIO

/-- The IN queue holds a token, or an IOFAIL abort is due at this InRead. -/
def State.readReady (s : State) : Bool := !s.inq.isEmpty || (s.iof && s.iofSkip == 0)

/-- OUT has room for a byte, or an IOFAIL abort is due at this OutWrite. -/
def State.writeReady (s : State) : Bool := decide (s.outq.length < s.params.outCap) || s.iof

/-- A token has been taken, and one boundary of a pending IOFAIL abort passed (R82, R331). -/
def State.took (s : State) (rest : List Token) : State := { s with inq := rest, iofSkip := s.iofSkip - 1 }

/-- A byte has been appended to OUT, and counted in w (R83, R331). -/
def State.wroteByte (s : State) (b : Byte) : State := { s with outq := s.outq ++ [b], wrote := s.wrote + 1 }

/-- `InRead()` (R82): abort if an IOFAIL abort is due here, else pop the oldest token and go on with `k`; wait while IN is empty. A pending abort whose drawn boundary is a later one waits too (log 4). -/
def State.inRead (s : State) (abort : State) (k : Token → State → State) : State :=
  if s.iof && s.iofSkip == 0 then abort
  else match s.inq with
    | [] => s
    | t :: rest => k t (s.took rest)

/-- `OutWrite(b)` (R83): abort if IOF is set (R331), else append b and go on with `k`; wait while OUT is full. -/
def State.outWrite (s : State) (b : Byte) (k : State → State) : State :=
  if s.iof then s.abortIO
  else if s.outq.length < s.params.outCap then k (s.wroteByte b)
  else s

/-! ### The packer (R280, R285) -/

/-- PB <- 0; PBN <- 0 (R280, R284). -/
def State.clearPB (s : State) : State := s.setPacker { s.packer with pb := 0, pbn := 0 }

/-- PB with bit b at position PBN: the value EmitBit gives it (R280). -/
def Packer.filled (p : Packer) (b : Bool) : Byte := p.pb ||| ((if b then 1#8 else 0#8) <<< p.pbn.toNat)

/-- EmitBit(b) (R280) up to its OutWrite, which follows as a micro-operation. The lines before that OutWrite stay if an IOFAIL abort is taken there: PB then has its eighth bit, PBN = 7 (R324, R325, D46; log 10). -/
def State.emitBit (s : State) (b : Bool) (rest : List Micro) : State :=
  match incCount s.packer.bits 3 with
  | .error r => s.raise r
  | .ok n =>
    if s.packer.pbn = 7 then (s.setPacker { s.packer with bits := n, pb := s.packer.filled b }).goOn (.outPB :: rest)
    else (s.setPacker { s.packer with bits := n, pb := s.packer.filled b, pbn := s.packer.pbn + 1 }).goOn rest

/-- The micro-operations that emit a code, bit 0 first (R282, R283). -/
def emitAll (c : BitSeq) : List Micro := c.toBits.map Micro.emitBit

/-- sym(v) of PACK (R285), the symbol's first byte at offset `start`. -/
def State.packSymbol (s : State) (start v : Word) (rest : List Micro) : State :=
  match s.ct.get v with
  | none => s.raise { cause := .unknownSymbol, offset := start, symbol := v }
  | some c =>
    match incCount s.packer.syms 4 with
    | .error r => s.raise r
    | .ok n => (s.setPacker { s.packer with syms := n }).goOn (emitAll c ++ rest)

/-- N - |chunk| zero bytes after the chunk (R89). -/
def padChunk (n : Nat) (chunk : List Byte) : List Byte := chunk ++ List.replicate (n - chunk.length) 0

/-- The offset of the chunk's first byte: `if chunk == []: start <- nbytes` (R196, R285). -/
def chunkStart (chunk : List Byte) (nbytes start : Word) : Word := if chunk.isEmpty then nbytes else start

/-- One turn of PACK's loop after its InRead (R285). -/
def State.packToken (s : State) (nbytes start : Word) (chunk : List Byte) (t : Token) : State :=
  match t with
  | .err => s.raise { cause := .ioError, offset := nbytes }
  | .byte b =>
    match incCount nbytes 7 with
    | .error r => s.raise r
    | .ok n =>
      let start' := chunkStart chunk nbytes start
      let chunk' := chunk ++ [b]
      if chunk'.length = s.symWidth then s.packSymbol start' (beWord chunk') [.packIn n start' []]
      else s.goOn [.packIn n start' chunk']
  | .eos =>
    if chunk.isEmpty then s.goOn [.pad, .finish .pack]
    else s.packSymbol start (beWord (padChunk s.symWidth chunk)) [.pad, .finish .pack]

/-! ### The frequency scan (R196) -/

/-- One more occurrence of v in FT: the body of FREQ_ADD (R193) and count(v) of FREQ_SCAN (R196), which differ in the offset they report. -/
def bumpCount (cap : Nat) (ft : FMap Word) (start v : Word) : Except Raise (FMap Word) :=
  match ft.get v with
  | none =>
    if ft.length = cap then .error { capacityRaise cap v with offset := start }
    else .ok (ft.put v 1)
  | some n =>
    if n = maxWord then .error { cause := .countOverflow, offset := start, expected := maxWord, actual := 1, symbol := v }
    else .ok (ft.put v (n + 1))

/-- count(v) of FREQ_SCAN (R196), then `k` with the new nsym. -/
def State.scanCount (s : State) (nsym start v : Word) (k : Word → State → State) : State :=
  match bumpCount s.params.symCap s.ft start v with
  | .error r => s.raise r
  | .ok m =>
    match incCount nsym 7 with
    | .error r => (s.putFt m).raise r
    | .ok n => k n (s.putFt m)

/-- One turn of FREQ_SCAN's loop after its InRead (R196). -/
def State.scanToken (s : State) (nsym nbytes start : Word) (chunk : List Byte) (t : Token) : State :=
  match t with
  | .err => s.raise { cause := .ioError, offset := nbytes }
  | .byte b =>
    match incCount nbytes 7 with
    | .error r => s.raise r
    | .ok n =>
      let start' := chunkStart chunk nbytes start
      let chunk' := chunk ++ [b]
      if chunk'.length = s.symWidth then
        s.scanCount nsym start' (beWord chunk') (fun m s' => s'.goOn [.scan m n start' []])
      else s.goOn [.scan nsym n start' chunk']
  | .eos =>
    if chunk.isEmpty then s.goOn [.finish (.freqScan nsym nbytes)]
    else s.scanCount nsym start (beWord (padChunk s.symWidth chunk))
      (fun m s' => s'.goOn [.finish (.freqScan m nbytes)])

/-! ### The decoder (R300, R303) -/

/-- The node has a symbol, if it is a node. -/
def DTree.symAt : DTree → Option Word
  | .absent => none
  | .node sy _ _ => sy

/-- The child of a node: bit 0 left, bit 1 right (R260, R300). -/
def DTree.child : DTree → Bool → DTree
  | .absent, _ => .absent
  | .node _ l r, b => if b then r else l

/-- No node here. -/
def DTree.isAbsent : DTree → Bool
  | .absent => true
  | .node _ _ _ => false

/-- The subtree at a path; `absent` where the path is not in the set of nodes (R60). -/
def DTree.sub : DTree → List Bool → DTree
  | t, [] => t
  | t, b :: p => (t.child b).sub p

/-- A node with no children (R60). -/
def DTree.isLeaf (t : DTree) : Bool := !t.isAbsent && (t.child false).isAbsent && (t.child true).isAbsent

/-- The node of DTREE at a path: DTREE none has no nodes. -/
def State.dnode (s : State) (path : BitSeq) : DTree :=
  match s.dtree with
  | none => .absent
  | some t => t.sub path.toBits

/-- CUR <- empty; ACC <- empty (R300). -/
def State.rootDecoder (s : State) : State := s.setDecoder { s.decoder with cur := .empty, acc := .empty }

/-- MISMATCH <- 1, and back to the root (R300). -/
def State.mismatched (s : State) : State :=
  s.setDecoder { s.decoder with cur := .empty, acc := .empty, mismatch := true }

/-- DecodeBit at a leaf whose stored code is ACC: DC_SYMS is counted, the symbol written, then back to the root (R300). -/
def State.deliver (s : State) (sy : Word) (rest : List Micro) : State :=
  match incCount s.decoder.syms 6 with
  | .error r => s.raise r
  | .ok m =>
    (s.setDecoder { s.decoder with syms := m }).goOn ((beBytes s.symWidth sy).map Micro.out ++ Micro.toRoot :: rest)

/-- DecodeBit after CUR and ACC have taken the bit: at a leaf, the symbol is delivered if ACC is the leaf's stored code, which is its path CUR (R60), and else MISMATCH (R300). -/
def State.arrive (s : State) (rest : List Micro) : State :=
  if (s.dnode s.decoder.cur).isLeaf then
    match (s.dnode s.decoder.cur).symAt with
    | some sy => if s.decoder.acc.eq s.decoder.cur then s.deliver sy rest else s.mismatched.goOn rest
    | none => s.mismatched.goOn rest
  else s.goOn rest

/-- DecodeBit after DC_BITS is counted: to the child on side b, or MISMATCH where there is none (R300). -/
def State.follow (s : State) (b : Bool) (rest : List Micro) : State :=
  if (s.dnode (s.decoder.cur.append b)).isAbsent then s.mismatched.goOn rest
  else
    (s.setDecoder { s.decoder with cur := s.decoder.cur.append b, acc := s.decoder.acc.append b }).arrive rest

/-- DecodeBit(b) (R300) up to its OutWrites, which follow as micro-operations. -/
def State.decodeBit (s : State) (b : Bool) (rest : List Micro) : State :=
  if s.latch.lim ≠ maxWord ∧ s.decoder.bits = s.latch.lim then
    (s.setDecoder { s.decoder with limitHit := true }).goOn rest
  else
    match incCount s.decoder.bits 5 with
    | .error r => s.raise r
    | .ok n => (s.setDecoder { s.decoder with bits := n }).follow b rest

/-- One turn of UNPACK's loop after its InRead (R303). -/
def State.unpackToken (s : State) (nbytes : Word) (t : Token) : State :=
  match t with
  | .err => s.raise { cause := .ioError, offset := nbytes }
  | .eos => s.goOn [.finish .unpack]
  | .byte x =>
    match incCount nbytes 7 with
    | .error r => s.raise r
    | .ok n => s.goOn ((byteBits x).map Micro.decodeBit ++ [.unpackIn n])

/-! ### The table reader (R247) -/

/-- How many bytes the field being read has (R240, R247). -/
def Deser.want (d : Deser) (symWidth : Nat) : Nat :=
  match d.field with
  | .count => 4
  | .symbol => symWidth
  | .length => 4
  | .code => (d.l + 7) / 8

/-- Start reading a field: fo <- n, nothing received. -/
def Deser.begin (d : Deser) (f : Field) : Deser := { d with field := f, fo := d.n, got := [] }

/-- The next entry: so <- n; s <- 0; its symbol field (R247). -/
def Deser.nextEntry (d : Deser) : Deser := { d with so := d.n, s := 0 }.begin .symbol

/-- The field is complete: check it, store it, and go to the next one (R247). -/
def State.deserField (s : State) (d : Deser) : State :=
  match d.field with
  | .count =>
    let t := beWord d.got
    if t = 0 then s.failDeser { cause := .malformedTable, expected := 1 }
    else if t.toNat > s.params.symCap then
      s.failDeser { cause := .capacity, expected := BitVec.ofNat 64 s.params.symCap, actual := t }
    else s.goOn [.deser { d with t := t.toNat }.nextEntry]
  | .symbol =>
    let v := beWord d.got
    if (s.ct.get v).isSome then
      s.failDeser { cause := .malformedTable, offset := d.so, expected := 1, actual := 2, symbol := v }
    else s.goOn [.deser ({ d with s := v }.begin .length)]
  | .length =>
    let l := beWord d.got
    if l = 0 then s.failDeser { cause := .malformedTable, offset := d.fo, expected := 1, symbol := d.s }
    else if l.toNat > 64 then
      s.failDeser { cause := .codeOverflow, offset := d.fo, expected := 64, actual := l, symbol := d.s }
    else s.goOn [.deser ({ d with l := l.toNat }.begin .code)]
  | .code =>
    let s := s.putCt (s.ct.put d.s (.mk' d.l (leWord d.got)))
    let e := d.e + 1
    if e = d.t then s.goOn [.finish (.deserTable d.n (BitVec.ofNat 64 d.t))]
    else s.goOn [.deser { d with e := e }.nextEntry]

/-- One turn of get(k) of DESER_TABLE after its InRead (R247). -/
def State.deserToken (s : State) (d : Deser) (t : Token) : State :=
  match t with
  | .err => s.failDeser { cause := .ioError, offset := d.n }
  | .eos =>
    s.failDeser { cause := .malformedTable, offset := d.fo, expected := BitVec.ofNat 64 (d.want s.symWidth),
                  actual := BitVec.ofNat 64 d.got.length, symbol := d.s }
  | .byte b =>
    let d := { d with got := d.got ++ [b], n := d.n + 1 }
    if d.got.length = d.want s.symWidth then s.deserField d else s.goOn [.deser d]

/-! ### The end of a stream command -/

/-- RES0 and RES1 as the command's rule gives them (R34; log 20). -/
def State.writeResults (s : State) (f : Finish) : State :=
  match f with
  | .freqScan nsym nbytes => s.setRes nsym nbytes
  | .serTable t => s.setRes (BitVec.ofNat 64 s.wrote) t
  | .deserTable n t => s.setRes n t
  | .packSym len => s.setRes s.packer.bits len
  | .packBs => s.setRes0 s.packer.bits
  | .packFlush k => s.setRes s.packer.bits k
  | .pack => s.setRes s.packer.bits s.packer.syms
  | .unpack => s.setRes s.decoder.syms (BitVec.ofNat 64 s.decoder.acc.len)

/-- The IOFAIL abort at the end of a command (R331). -/
def State.abortFinish (s : State) (f : Finish) : State :=
  match f with
  | .deserTable _ _ => s.abortDeser
  | _ => s.abortIO

/-- The end of a stream command (R145), itself a boundary (R331): with IOF = 1 it raises, and RES is not written (R34; log 22). -/
def State.finish (s : State) (f : Finish) : State :=
  if s.iof then s.abortFinish f else (s.writeResults f).complete

/-! ### Micro-steps -/

/-- The micro-operation can go on: an InRead has a token, an OutWrite has room, or an abort is due. -/
def Micro.ready (m : Micro) (s : State) : Bool :=
  match m with
  | .outPB => s.writeReady
  | .out _ => s.writeReady
  | .scan _ _ _ _ => s.readReady
  | .packIn _ _ _ => s.readReady
  | .unpackIn _ => s.readReady
  | .deser _ => s.readReady
  | .emitBit _ => true
  | .pad => true
  | .decodeBit _ => true
  | .toRoot => true
  | .finish _ => true

/-- Perform one micro-operation, `rest` being what follows it. A raise other than the IOFAIL abort, met while IOF = 1 and before the abort's boundary, ends the command with its own cause (log 26). -/
def State.perform (s : State) (m : Micro) (rest : List Micro) : State :=
  match m with
  | .emitBit b => s.emitBit b rest
  | .outPB => s.outWrite s.packer.pb (fun s' => s'.clearPB.goOn rest)
  | .pad => if s.packer.pbn = 0 then s.goOn rest else s.goOn (.outPB :: rest)
  | .decodeBit b => s.decodeBit b rest
  | .out b => s.outWrite b (fun s' => s'.goOn rest)
  | .toRoot => s.rootDecoder.goOn rest
  | .scan nsym nbytes start chunk => s.inRead s.abortIO (fun t s' => s'.scanToken nsym nbytes start chunk t)
  | .packIn nbytes start chunk => s.inRead s.abortIO (fun t s' => s'.packToken nbytes start chunk t)
  | .unpackIn nbytes => s.inRead s.abortIO (fun t s' => s'.unpackToken nbytes t)
  | .deser d => s.inRead s.abortDeser (fun t s' => s'.deserToken d t)
  | .finish f => s.finish f

/-- A stream command is running and does not wait (R102). -/
def State.canMove (s : State) : Bool :=
  match s.run with
  | .idle => false
  | .accepted _ => false
  | .running [] => true
  | .running (m :: _) => m.ready s

/-- The core's smallest move: one micro-operation of the running stream command. -/
def State.microStep (s : State) : State :=
  match s.run with
  | .idle => s
  | .accepted _ => s
  | .running [] => s.complete
  | .running (m :: rest) => s.perform m rest

/-- At most `n` micro-steps, stopping where the command waits or has ended. -/
def runMicro : Nat → State → State
  | 0, s => s
  | n + 1, s => if s.canMove then runMicro n s.microStep else s

/-- The longest code in CT, and at least 64: DESER_TABLE may add a code of 64 bits. -/
def maxCodeLen (ct : FMap BitSeq) : Nat := ct.foldl (fun n e => max n e.2.len) 64

/-- An upper bound on the micro-steps a micro-operation causes before the next token is needed. -/
def Micro.weight : Micro → Nat
  | .emitBit _ => 2
  | .outPB => 1
  | .pad => 2
  | .decodeBit _ => 18
  | .out _ => 1
  | .toRoot => 1
  | .scan _ _ _ _ => 1
  | .packIn _ _ _ => 1
  | .unpackIn _ => 1
  | .deser _ => 1
  | .finish _ => 1

/-- An upper bound on the micro-steps the running command can take before it waits or ends: what it has left, and what each token in IN can add. -/
def State.work (s : State) : Nat :=
  match s.run with
  | .idle => 0
  | .accepted _ => 0
  | .running todo => 1 + (todo.map Micro.weight).sum + s.inq.length * (150 + 2 * maxCodeLen s.ct)

/-- Let the core run: until the command waits or has ended (R375), unless `host.turns` says who moves next (log 5). -/
def State.settle (s : State) : State :=
  if s.host.turns.isEmpty then runMicro s.work s else s

/-- A stream command begins: nothing written yet (w = 0, R331), `todo` to do. -/
def State.begin (s : State) (todo : List Micro) : State := { s with wrote := 0, run := .running todo }

/-- Begin a stream command's pseudocode after its checks, and let it run. -/
def State.start (s : State) (todo : List Micro) : Out := .next (s.begin todo).settle

end Sys2Proof.Machine
end

