-- ==== Sys2Proof/Machine/BitSequence.lean ====
section
/-! DEFINITION. The BitSequence commands (file 41). -/

namespace Sys2Proof.Machine

/-- `BS_CLR rd` (R161). -/
def execBsClr (rd : BsIdx) (s : State) : Out := (s.setBs rd .empty).succeed

/-- `BS_APP rd, b` (R162). -/
def execBsApp (rd : BsIdx) (b : Bool) (s : State) : Out :=
  if (s.bsAt rd).len = 64 then s.fail { cause := .codeOverflow, expected := 64, actual := 65 }
  else (s.setBs rd ((s.bsAt rd).append b)).succeed

/-- `BS_GET rs, #i` (R163). -/
def execBsGet (rs : BsIdx) (i : Nat) (s : State) : Out :=
  if i ≥ (s.bsAt rs).len then
    s.fail { cause := .illegalArgument, expected := BitVec.ofNat 64 (s.bsAt rs).len, actual := BitVec.ofNat 64 i }
  else (s.setRes0 (bitWord ((s.bsAt rs).get i))).succeed

/-- `BS_LEN rs` (R164). -/
def execBsLen (rs : BsIdx) (s : State) : Out := (s.setRes0 (BitVec.ofNat 64 (s.bsAt rs).len)).succeed

/-- `BS_CPY rd, rs` (R165). -/
def execBsCpy (rd rs : BsIdx) (s : State) : Out := (s.setBs rd (s.bsAt rs)).succeed

/-- `BS_EQ rs, rt` (R166). -/
def execBsEq (rs rt : BsIdx) (s : State) : Out := (s.setRes0 (bitWord ((s.bsAt rs).eq (s.bsAt rt)))).succeed

/-- `BS_LD rd` (R167): the bits from A0, the length from A1. -/
def execBsLd (rd : BsIdx) (s : State) : Out :=
  if s.latch.a1.toNat > 64 then s.fail { cause := .illegalArgument, expected := 64, actual := s.latch.a1 }
  else (s.setBs rd (.mk' s.latch.a1.toNat s.latch.a0)).succeed

/-- `BS_RD rs` (R168). -/
def execBsRd (rs : BsIdx) (s : State) : Out :=
  (s.setRes (s.bsAt rs).bits (BitVec.ofNat 64 (s.bsAt rs).len)).succeed

/-- `BS_CAT rd, rs` (R169): both registers are read before the write. -/
def execBsCat (rd rs : BsIdx) (s : State) : Out :=
  if (s.bsAt rd).len + (s.bsAt rs).len > 64 then
    s.fail { cause := .codeOverflow, expected := 64, actual := BitVec.ofNat 64 ((s.bsAt rd).len + (s.bsAt rs).len) }
  else (s.setBs rd ((s.bsAt rd).concat (s.bsAt rs))).succeed

end Sys2Proof.Machine
end

