-- ==== Sys2Proof/Machine/Codec.lean ====
section
/-! DEFINITION. The container codec (file 44): SER_TABLE and DESER_TABLE. -/

namespace Sys2Proof.Machine

/-- One table entry: SymBytes(s), BE32(L), CodeBytes(c) (R240, R242). -/
def entryBytes (n : Nat) (e : Word × BitSeq) : List Byte :=
  beBytes n e.1 ++ beBytes 4 (BitVec.ofNat 64 e.2.len) ++ codeBytes e.2

/-- The table: BE32(T) and the entries in ascending symbol order (R240, R241, R197). -/
def tableBytes (n : Nat) (ct : FMap BitSeq) : List Byte :=
  beBytes 4 (BitVec.ofNat 64 ct.length) ++ ct.flatMap (entryBytes n)

/-- `SER_TABLE` (R246). -/
def execSerTable (s : State) : Out :=
  s.checked ((s.needWidth 0x40).or (s.needCt 0x40))
    (s.start ((tableBytes s.symWidth s.ct).map Micro.out ++ [Micro.finish (.serTable (BitVec.ofNat 64 s.ct.length))]))

/-- DESER_TABLE before its first InRead: the T field, nothing consumed (R247). -/
def deserStart : Deser := ⟨.count, 0, [], 0, 0, 0, 0, 0, 0⟩

/-- `DESER_TABLE` (R247). -/
def execDeserTable (s : State) : Out :=
  s.checked (s.needWidth 0x41) ((s.setCt []).start [.deser deserStart])

end Sys2Proof.Machine
end

