-- ==== Sys2Proof/Machine/Pack.lean ====
section
/-! DEFINITION. The packer's commands (file 46). -/

namespace Sys2Proof.Machine

/-- `PACK_INIT` (R281). -/
def execPackInit (s : State) : Out := (s.setPacker .init).succeed

/-- PACK_SYM past its checks, its symbol's code looked up (R282). -/
def State.packCode (s : State) (code : Option BitSeq) : Out :=
  match code with
  | none => s.fail { cause := .unknownSymbol, symbol := s.latch.a0 }
  | some c =>
    match incCount s.packer.syms 4 with
    | .error r => s.fail r
    | .ok n =>
      (s.setPacker { s.packer with syms := n }).start
        (emitAll c ++ [Micro.finish (.packSym (BitVec.ofNat 64 c.len))])

/-- `PACK_SYM` (R282). -/
def execPackSym (s : State) : Out :=
  s.checked (((s.needWidth 0x61).or (s.needCt 0x61)).or s.needSymbol) (s.packCode (s.ct.get s.latch.a0))

/-- `PACK_BS rs` (R283). -/
def execPackBs (rs : BsIdx) (s : State) : Out := s.start (emitAll (s.bsAt rs) ++ [Micro.finish .packBs])

/-- `PACK_FLUSH` (R284). -/
def execPackFlush (s : State) : Out :=
  if s.packer.pbn = 0 then s.start [.finish (.packFlush 0)]
  else s.start [.outPB, .finish (.packFlush 1)]

/-- `PACK` (R285): past its checks the packer is reset, then the loop runs. -/
def execPack (s : State) : Out :=
  s.checked ((s.needWidth 0x64).or (s.needCt 0x64)) ((s.setPacker .init).start [.packIn 0 0 []])

end Sys2Proof.Machine
end

