-- ==== Sys2Proof/Machine/Recon.lean ====
section
/-! DEFINITION. The tree reconstructor (file 45): RECON_TREE. -/

namespace Sys2Proof.Machine

/-- A node with no symbol and no children. -/
abbrev DTree.bare : DTree := .node none .absent .absent

/-- The node with its child on side b replaced. -/
def DTree.withChild (t : DTree) (b : Bool) (c : DTree) : DTree :=
  if b then .node t.symAt (t.child false) c else .node t.symAt c (t.child true)

/-- What stays fixed while one entry is inserted: NODE_CAP, the entry index e, the symbol and the code length (R261). -/
structure Entry where
  cap : Nat
  e : Nat
  sym : Word
  len : Nat
  deriving DecidableEq, Repr

/-- INVALID_CODE_TABLE(e, d, c.len, s) (R261, R262). -/
def Entry.invalid (x : Entry) (d : Nat) : Raise :=
  { cause := .invalidCodeTable, offset := BitVec.ofNat 64 x.e, expected := BitVec.ofNat 64 d,
    actual := BitVec.ofNat 64 x.len, symbol := x.sym }

/-- CAPACITY(e, NODE_CAP, NODE_CAP + 1, s) (R261). -/
def Entry.full (x : Entry) : Raise :=
  { cause := .capacity, offset := BitVec.ofNat 64 x.e, expected := BitVec.ofNat 64 x.cap,
    actual := BitVec.ofNat 64 (x.cap + 1), symbol := x.sym }

/-- Insert a code below node `t` of depth `d`, `count` being |nodes|: the inner loop of R261 and the checks after it (R262 cases 1, 2, 3). -/
def insertCode (x : Entry) : List Bool → Nat → DTree → Nat → Except Raise (DTree × Nat)
  | [], _, t, count =>
    if t.symAt.isSome then .error (x.invalid x.len)
    else if !(t.child false).isAbsent || !(t.child true).isAbsent then .error (x.invalid x.len)
    else .ok (.node (some x.sym) .absent .absent, count)
  | b :: p, d, t, count =>
    if t.symAt.isSome then .error (x.invalid d)
    else if (t.child b).isAbsent then
      if count = x.cap then .error x.full
      else match insertCode x p (d + 1) .bare (count + 1) with
        | .error r => .error r
        | .ok (c, n) => .ok (t.withChild b c, n)
    else match insertCode x p (d + 1) (t.child b) count with
      | .error r => .error r
      | .ok (c, n) => .ok (t.withChild b c, n)

/-- "for s in keys_asc(CT)": the entries from index `e` on, with the tree, |nodes| and maxd so far (R261). -/
def insertAll (cap : Nat) : FMap BitSeq → Nat → DTree → Nat → Nat → Except Raise (DTree × Nat × Nat)
  | [], _, t, count, maxd => .ok (t, count, maxd)
  | (v, c) :: ct, e, t, count, maxd =>
    match insertCode ⟨cap, e, v, c.len⟩ c.toBits 0 t count with
    | .error r => .error r
    | .ok (t', count') => insertAll cap ct (e + 1) t' count' (max maxd c.len)

/-- The decode tree of a code table, with |nodes| and maxd (R260, R261): it starts from the root alone. -/
def reconTree (cap : Nat) (ct : FMap BitSeq) : Except Raise (DTree × Nat × Nat) := insertAll cap ct 0 .bare 1 0

/-- `RECON_TREE` (R261): past its checks the decoder is reset, and the tree is none until it is built. -/
def execReconTree (s : State) : Out :=
  s.checked ((s.needWidth 0x50).or (s.needCt 0x50))
    (match reconTree s.params.nodeCap s.ct with
     | .error r => ((s.setDtree none).setDecoder .init).fail r
     | .ok (t, count, maxd) =>
       (((s.setDtree (some t)).setDecoder .init).setRes (BitVec.ofNat 64 count) (BitVec.ofNat 64 maxd)).succeed)

end Sys2Proof.Machine
end

