-- ==== Sys2Proof/Machine/SymTab.lean ====
section
/-! DEFINITION. The frequency-table commands (file 42). -/

namespace Sys2Proof.Machine

/-- `FREQ_CLR` (R192). -/
def execFreqClr (s : State) : Out := (s.setFt []).succeed

/-- `FREQ_ADD` (R193). -/
def execFreqAdd (s : State) : Out :=
  s.checked ((s.needWidth 0x21).or s.needSymbol)
    (match bumpCount s.params.symCap s.ft 0 s.latch.a0 with
     | .error r => s.fail r
     | .ok m => (s.setFt m).succeed)

/-- `FREQ_SET` (R194). -/
def execFreqSet (s : State) : Out :=
  s.checked ((s.needWidth 0x22).or s.needSymbol)
    (if s.ft.get s.latch.a0 = none ∧ s.ft.length = s.params.symCap then
       s.fail (capacityRaise s.params.symCap s.latch.a0)
     else (s.setFt (s.ft.put s.latch.a0 s.latch.a1)).succeed)

/-- `FREQ_GET` (R195). -/
def execFreqGet (s : State) : Out :=
  s.checked ((s.needWidth 0x23).or s.needSymbol)
    (match s.ft.get s.latch.a0 with
     | none => (s.setRes 0 0).succeed
     | some n => (s.setRes n 1).succeed)

/-- `FREQ_SCAN` (R196): past its check the encoder tree is invalid, then the loop runs. -/
def execFreqScan (s : State) : Out :=
  s.checked (s.needWidth 0x24) ((s.setEtree none).start [.scan 0 0 0 []])

end Sys2Proof.Machine
end

