-- ==== Sys2Proof/Machine/System.lean ====
section
/-! DEFINITION. The system commands (file 40): NOP, SRESET, ERR_CLR, SET_WIDTH; and the hardware reset (R360). -/

namespace Sys2Proof.Machine

/-- `NOP` has no effect (R140). -/
def execNop (s : State) : Out := s.succeed

/-- Every component of R30 and register of R31 at its reset value; the parameters and the host's side, which are not the block's, stay (R360; log 19). -/
def State.hardReset (s : State) : State := { State.resetWith s.params with host := s.host }

/-- The soft reset's state change: the reset state, but for INT_EN and the IN and OUT FIFOs (R141, R361). -/
def State.softReset (s : State) : State :=
  { s.hardReset with
    inq := s.inq
    outq := s.outq
    regs := { s.hardReset.regs with intEn := s.regs.intEn } }

/-- `SRESET` (R141): the soft reset, completed like any command. -/
def execSreset (s : State) : Out := s.softReset.succeed

/-- `ERR_CLR` (R142): the return from an error. -/
def execErrClr (s : State) : Out := s.clearError.succeed

/-- WIDTH <- n, with everything that depends on the width cleared (R143, R373). -/
def State.installWidth (s : State) (n : Nat) : State :=
  { s with
    width := BitVec.ofNat 4 n
    ft := []
    ct := []
    etree := none
    dtree := none
    packer := .init
    decoder := .init }

/-- `SET_WIDTH #n` (R143). -/
def execSetWidth (n : Nat) (s : State) : Out :=
  if n < 1 ∨ n > 8 then s.fail { cause := .illegalArgument, expected := 8, actual := BitVec.ofNat 64 n }
  else (s.installWidth n).succeed

end Sys2Proof.Machine
end

