-- ==== Sys2Proof/Machine/TreeCodes.lean ====
section
/-! DEFINITION. The tree builder, the code assigner and the code-table commands (file 43). -/

namespace Sys2Proof.Machine

/-- freq(t): the frequency a node carries (R59). -/
def ETree.freq : ETree → Word
  | .leaf _ f => f
  | .node f _ _ => f
  | .wrap f _ => f

/-- An entry of BUILD_TREE's queue: its sequence number and its tree; its key is (freq, seq) (R211). -/
structure QEntry where
  seq : Nat
  tree : ETree
  deriving DecidableEq, Repr

/-- The key of `a` is below the key of `b`, lexicographically (R211). -/
def QEntry.before (a b : QEntry) : Bool :=
  decide (a.tree.freq < b.tree.freq) || (a.tree.freq == b.tree.freq && decide (a.seq < b.seq))

/-- Q.insert: the queue is held in key order, so extractMin takes the head (R211, R212). -/
def qInsert (e : QEntry) : List QEntry → List QEntry
  | [] => [e]
  | x :: q => if e.before x then e :: x :: q else x :: qInsert e q

/-- The leaves, with sequence numbers from `seq` up in ascending symbol order (R211, R212). -/
def qLeaves : Nat → FMap Word → List QEntry
  | _, [] => []
  | seq, (v, f) :: ft => qInsert ⟨seq, .leaf v f⟩ (qLeaves (seq + 1) ft)

/-- "while |Q| >= 2": the two least entries merge, the first as left child; a sum above 2^64 − 1 raises (R212). The first argument bounds the merges: there are |FT| − 1. -/
def mergeAll : Nat → Nat → List QEntry → Except Raise (List QEntry)
  | 0, _, q => .ok q
  | _ + 1, _, [] => .ok []
  | _ + 1, _, [e] => .ok [e]
  | n + 1, seq, a :: b :: q =>
    if a.tree.freq.toNat + b.tree.freq.toNat > 2 ^ 64 - 1 then
      .error { cause := .countOverflow, expected := maxWord, actual := 2 }
    else
      mergeAll n (seq + 1) (qInsert ⟨seq, .node (a.tree.freq + b.tree.freq) a.tree b.tree⟩ q)

/-- The encoder tree of a frequency table (R212, R213). -/
def buildTree (ft : FMap Word) : Except Raise ETree :=
  match qLeaves 0 ft with
  | [] => .error { cause := .emptyInput }
  | [e] => .ok (.wrap e.tree.freq e.tree)
  | q =>
    match mergeAll q.length ft.length q with
    | .error r => .error r
    | .ok (e :: _) => .ok e.tree
    | .ok [] => .error { cause := .emptyInput }

/-- RES1 of BUILD_TREE: the node count (R212). -/
def nodeCount (n : Nat) : Nat := if n = 1 then 2 else 2 * n - 1

/-- `BUILD_TREE` (R212): past its check the tree is none until it is built. -/
def execBuildTree (s : State) : Out :=
  s.checked (s.needWidth 0x30)
    (match buildTree s.ft with
     | .error r => (s.setEtree none).fail r
     | .ok root =>
       ((s.setEtree (some root)).setRes root.freq (BitVec.ofNat 64 (nodeCount s.ft.length))).succeed)

/-- visit(t, p) with CT' and maxlen so far (R214): left subtree first; the first leaf deeper than 64 raises. -/
def visit : ETree → List Bool → FMap BitSeq → Nat → Except Raise (FMap BitSeq × Nat)
  | .leaf v _, p, ct, m =>
    if p.length > 64 then
      .error { cause := .codeOverflow, expected := 64, actual := BitVec.ofNat 64 p.length, symbol := v }
    else .ok (ct.put v (.ofBits p), max m p.length)
  | .node _ l r, p, ct, m =>
    match visit l (p ++ [false]) ct m with
    | .error e => .error e
    | .ok (ct', m') => visit r (p ++ [true]) ct' m'
  | .wrap _ l, p, ct, m => visit l (p ++ [false]) ct m

/-- ASSIGN_CODES past its checks (R214). -/
def State.assignFrom (s : State) (t : ETree) : Out :=
  match visit t [] [] 0 with
  | .error r => (s.setCt []).fail r
  | .ok (ct, m) => ((s.setCt ct).setRes (BitVec.ofNat 64 ct.length) (BitVec.ofNat 64 m)).succeed

/-- `ASSIGN_CODES` (R214). ETREE_V = 0 is ETREE none (log 12), and raises STATE_ERROR with id 2, which like every check of R329 changes nothing: CT and DTREE stay (log 27: the error of R220 and R373 is CODE_OVERFLOW). -/
def execAssignCodes (s : State) : Out :=
  s.checked (s.needWidth 0x31)
    (match s.etree with
     | none => s.fail (stateError 2 0x31)
     | some t => s.assignFrom t)

/-- `CODE_GET` (R217). -/
def execCodeGet (s : State) : Out :=
  s.checked ((s.needWidth 0x32).or s.needSymbol)
    (match s.ct.get s.latch.a0 with
     | none => (s.setRes 0 0).succeed
     | some c => (s.setRes c.bits (BitVec.ofNat 64 c.len)).succeed)

/-- `CODE_SET rs` (R218). -/
def execCodeSet (rs : BsIdx) (s : State) : Out :=
  s.checked ((s.needWidth 0x33).or s.needSymbol)
    (if (s.bsAt rs).len = 0 then
       s.fail { cause := .illegalArgument, expected := 1, symbol := s.latch.a0 }
     else if s.ct.get s.latch.a0 = none ∧ s.ct.length = s.params.symCap then
       s.fail (capacityRaise s.params.symCap s.latch.a0)
     else (s.setCt (s.ct.put s.latch.a0 (s.bsAt rs))).succeed)

/-- `CODE_CLR` (R219). -/
def execCodeClr (s : State) : Out := (s.setCt []).succeed

end Sys2Proof.Machine
end

