-- ==== Sys2Proof/Machine/Unpack.lean ====
section
/-! DEFINITION. The unpacker's commands (file 47). -/

namespace Sys2Proof.Machine

/-- `UNPACK_INIT` (R301). -/
def execUnpackInit (s : State) : Out := (s.setDecoder .init).succeed

/-- `UNPACK_BYTE` (R302): A0's eight bits, bit 0 first. -/
def execUnpackByte (s : State) : Out :=
  s.checked ((s.needWidth 0x71).or (s.needDtree 0x71))
    (if s.latch.a0.toNat > 0xFF then
       s.fail { cause := .illegalArgument, expected := 0xFF, actual := s.latch.a0 }
     else s.start ((byteBits (s.latch.a0.setWidth 8)).map Micro.decodeBit ++ [Micro.finish .unpack]))

/-- `UNPACK` (R303): past its checks the decoder is reset, then the loop runs. -/
def execUnpack (s : State) : Out :=
  s.checked ((s.needWidth 0x72).or (s.needDtree 0x72)) ((s.setDecoder .init).start [.unpackIn 0])

end Sys2Proof.Machine
end

