-- ==== Sys2Proof/Machine/Dispatch.lean ====
section
/-! DEFINITION. exec: one arm per command (R114), each one call of its meaning. -/

namespace Sys2Proof.Machine

def exec (i : Instr) (s : State) : Host.Outcome State Fault Refusal :=
  match i with
  | .nop => Sys2Proof.Machine.execNop s
  | .sreset => Sys2Proof.Machine.execSreset s
  | .errClr => Sys2Proof.Machine.execErrClr s
  | .setWidth n => Sys2Proof.Machine.execSetWidth n s
  | .bsClr rd => Sys2Proof.Machine.execBsClr rd s
  | .bsApp rd b => Sys2Proof.Machine.execBsApp rd b s
  | .bsGet rs n => Sys2Proof.Machine.execBsGet rs n s
  | .bsLen rs => Sys2Proof.Machine.execBsLen rs s
  | .bsCpy rd rs => Sys2Proof.Machine.execBsCpy rd rs s
  | .bsEq rs rt => Sys2Proof.Machine.execBsEq rs rt s
  | .bsLd rd => Sys2Proof.Machine.execBsLd rd s
  | .bsRd rs => Sys2Proof.Machine.execBsRd rs s
  | .bsCat rd rs => Sys2Proof.Machine.execBsCat rd rs s
  | .freqClr => Sys2Proof.Machine.execFreqClr s
  | .freqAdd => Sys2Proof.Machine.execFreqAdd s
  | .freqSet => Sys2Proof.Machine.execFreqSet s
  | .freqGet => Sys2Proof.Machine.execFreqGet s
  | .freqScan => Sys2Proof.Machine.execFreqScan s
  | .buildTree => Sys2Proof.Machine.execBuildTree s
  | .assignCodes => Sys2Proof.Machine.execAssignCodes s
  | .codeGet => Sys2Proof.Machine.execCodeGet s
  | .codeSet rs => Sys2Proof.Machine.execCodeSet rs s
  | .codeClr => Sys2Proof.Machine.execCodeClr s
  | .serTable => Sys2Proof.Machine.execSerTable s
  | .deserTable => Sys2Proof.Machine.execDeserTable s
  | .reconTree => Sys2Proof.Machine.execReconTree s
  | .packInit => Sys2Proof.Machine.execPackInit s
  | .packSym => Sys2Proof.Machine.execPackSym s
  | .packBs rs => Sys2Proof.Machine.execPackBs rs s
  | .packFlush => Sys2Proof.Machine.execPackFlush s
  | .pack => Sys2Proof.Machine.execPack s
  | .unpackInit => Sys2Proof.Machine.execUnpackInit s
  | .unpackByte => Sys2Proof.Machine.execUnpackByte s
  | .unpack => Sys2Proof.Machine.execUnpack s

end Sys2Proof.Machine
end

