-- ==== Sys2Proof/WellFormed.lean ====
section
/-! DEFINITION. Which commands exist as words: every IMM8 operand fits its 8 bits (R111, R121: "n ... in 0..255"). The register operands are in range by their type. -/

namespace Sys2Proof

/-- The command can be encoded: its IMM8 operand, if it has one, is in 0..255. SET_WIDTH #9 is well formed and raises when it runs (R143). -/
def Instr.wellFormed : Instr → Bool
  | .setWidth n => decide (n < 256)
  | .bsGet _ i => decide (i < 256)
  | _ => true

end Sys2Proof
end

