-- ==== Sys2Proof/Decode.lean ====
section
/-! DEFINITION. The opcode map as rows (R112, R114), the decoder (R116), total on all 32-bit words and rejecting by name, and the encoder written from the same rows. -/

namespace Sys2Proof

/-- Which fields of format C a row uses (R111, R112). -/
structure FieldUse where
  rd : Bool := false
  rs : Bool := false
  rt : Bool := false
  b : Bool := false
  imm : Bool := false
  deriving DecidableEq, Repr

/-- The operand fields of a word (R111, R119). -/
structure Fields where
  rd : BsIdx
  rs : BsIdx
  rt : BsIdx
  b : Bool
  imm : Nat
  deriving DecidableEq, Repr

/-- One row of the opcode map: OP, the fields used, and the command the fields select. -/
structure Row where
  op : BitVec 8
  mnemonic : String
  uses : FieldUse
  build : Fields → Instr

/-- Why a word is no command (R113, R115). Each one raises ILLEGAL_COMMAND (R116). -/
inductive Reject where
  /-- OP is in no row of the opcode map (R115). -/
  | unassignedOpcode
  /-- Bit 15 or a bit of [31:24] is set (R113). -/
  | reservedBit
  /-- A field the opcode does not use is not zero (R113). -/
  | unusedField
  deriving DecidableEq, Repr

/-- The system commands (file 40). -/
def systemRows : List Row :=
  [⟨0x00, "NOP", {}, fun _ => .nop⟩, ⟨0x01, "SRESET", {}, fun _ => .sreset⟩,
   ⟨0x02, "ERR_CLR", {}, fun _ => .errClr⟩,
   ⟨0x03, "SET_WIDTH", { imm := true }, fun f => .setWidth f.imm⟩]

/-- The BitSequence commands (file 41). -/
def bitSeqRows : List Row :=
  [⟨0x10, "BS_CLR", { rd := true }, fun f => .bsClr f.rd⟩,
   ⟨0x11, "BS_APP", { rd := true, b := true }, fun f => .bsApp f.rd f.b⟩,
   ⟨0x12, "BS_GET", { rs := true, imm := true }, fun f => .bsGet f.rs f.imm⟩,
   ⟨0x13, "BS_LEN", { rs := true }, fun f => .bsLen f.rs⟩,
   ⟨0x14, "BS_CPY", { rd := true, rs := true }, fun f => .bsCpy f.rd f.rs⟩,
   ⟨0x15, "BS_EQ", { rs := true, rt := true }, fun f => .bsEq f.rs f.rt⟩,
   ⟨0x16, "BS_LD", { rd := true }, fun f => .bsLd f.rd⟩,
   ⟨0x17, "BS_RD", { rs := true }, fun f => .bsRd f.rs⟩,
   ⟨0x18, "BS_CAT", { rd := true, rs := true }, fun f => .bsCat f.rd f.rs⟩]

/-- The frequency-table and tree-and-code commands (files 42, 43). -/
def tableRows : List Row :=
  [⟨0x20, "FREQ_CLR", {}, fun _ => .freqClr⟩, ⟨0x21, "FREQ_ADD", {}, fun _ => .freqAdd⟩,
   ⟨0x22, "FREQ_SET", {}, fun _ => .freqSet⟩, ⟨0x23, "FREQ_GET", {}, fun _ => .freqGet⟩,
   ⟨0x24, "FREQ_SCAN", {}, fun _ => .freqScan⟩,
   ⟨0x30, "BUILD_TREE", {}, fun _ => .buildTree⟩,
   ⟨0x31, "ASSIGN_CODES", {}, fun _ => .assignCodes⟩,
   ⟨0x32, "CODE_GET", {}, fun _ => .codeGet⟩,
   ⟨0x33, "CODE_SET", { rs := true }, fun f => .codeSet f.rs⟩,
   ⟨0x34, "CODE_CLR", {}, fun _ => .codeClr⟩]

/-- The codec, reconstruction, packer and unpacker commands (files 44 to 47). -/
def streamRows : List Row :=
  [⟨0x40, "SER_TABLE", {}, fun _ => .serTable⟩, ⟨0x41, "DESER_TABLE", {}, fun _ => .deserTable⟩,
   ⟨0x50, "RECON_TREE", {}, fun _ => .reconTree⟩,
   ⟨0x60, "PACK_INIT", {}, fun _ => .packInit⟩, ⟨0x61, "PACK_SYM", {}, fun _ => .packSym⟩,
   ⟨0x62, "PACK_BS", { rs := true }, fun f => .packBs f.rs⟩,
   ⟨0x63, "PACK_FLUSH", {}, fun _ => .packFlush⟩, ⟨0x64, "PACK", {}, fun _ => .pack⟩,
   ⟨0x70, "UNPACK_INIT", {}, fun _ => .unpackInit⟩,
   ⟨0x71, "UNPACK_BYTE", {}, fun _ => .unpackByte⟩, ⟨0x72, "UNPACK", {}, fun _ => .unpack⟩]

/-- The opcode map, 34 rows in the order of R114. -/
def rows : List Row := systemRows ++ bitSeqRows ++ tableRows ++ streamRows

/-- The bits of the fields a row uses (R112: RD = 0x300, RS = 0xC00, RT = 0x3000, B = 0x4000, IMM8 = 0xFF0000). -/
def FieldUse.bits (u : FieldUse) : BitVec 32 :=
  (if u.rd then 0x00000300#32 else 0#32) ||| (if u.rs then 0x00000C00#32 else 0#32) |||
  (if u.rt then 0x00003000#32 else 0#32) ||| (if u.b then 0x00004000#32 else 0#32) |||
  (if u.imm then 0x00FF0000#32 else 0#32)

/-- The mask of a row: all bits but those of the fields it uses (R112). -/
def Row.mask (r : Row) : BitVec 32 := ~~~ r.uses.bits

/-- The match of a row: OP with every field zero (R112). -/
def Row.pattern (r : Row) : BitVec 32 := r.op.setWidth 32

/-- The word is one of the row's words (R116). -/
def Row.matches (r : Row) (w : BitVec 32) : Bool := (w &&& r.mask) == r.pattern

/-- OP, bits 7:0 (R111). -/
def opField (w : BitVec 32) : BitVec 8 := w.extractLsb' 0 8

/-- The operand fields of a word (R111). -/
def fieldsOf (w : BitVec 32) : Fields where
  rd := (w.extractLsb' 8 2).toFin
  rs := (w.extractLsb' 10 2).toFin
  rt := (w.extractLsb' 12 2).toFin
  b := w.getLsbD 14
  imm := (w.extractLsb' 16 8).toNat

/-- The name of the reason a word matches no row (R113, R115). The spec gives every such word the same ILLEGAL_COMMAND; the order of the reasons is the model's (log 24). -/
def rejectReason (w : BitVec 32) : Reject :=
  if rows.all (fun r => r.op != opField w) then .unassignedOpcode
  else if (w &&& 0xFF008000#32) != 0#32 then .reservedBit
  else .unusedField

/-- R116: the row whose match equals the word under the row's mask, with the word's fields; a word that matches no row is rejected by name. -/
def decode (w : BitVec 32) : Except Reject Instr :=
  match rows.find? (fun r => r.matches w) with
  | some r => .ok (r.build (fieldsOf w))
  | none => .error (rejectReason w)

/-- Read an instruction numbered as spec/opcode_table.json numbers its bits: one 32-bit word, bits above `nbits` zero (R110). -/
def decodeTableWord (nbits w : Nat) : Option Instr :=
  match decode (BitVec.ofNat 32 (w % 2 ^ nbits)) with
  | .ok i => some i
  | .error _ => none

/-- Format C laid out: bits 31:24 and 15 zero, then IMM8, B, RT, RS, RD, OP (R111). -/
def assemble (op : BitVec 8) (rd rs rt : BsIdx) (b : Bool) (imm : Nat) : BitVec 32 :=
  0#8 ++ BitVec.ofNat 8 imm ++ 0#1 ++ BitVec.ofBool b ++ BitVec.ofNat 2 rt ++ BitVec.ofNat 2 rs ++
    BitVec.ofNat 2 rd ++ op

/-- The OP value of a command (R114). -/
def Instr.op : Instr → BitVec 8
  | .nop => 0x00
  | .sreset => 0x01
  | .errClr => 0x02
  | .setWidth _ => 0x03
  | .bsClr _ => 0x10
  | .bsApp _ _ => 0x11
  | .bsGet _ _ => 0x12
  | .bsLen _ => 0x13
  | .bsCpy _ _ => 0x14
  | .bsEq _ _ => 0x15
  | .bsLd _ => 0x16
  | .bsRd _ => 0x17
  | .bsCat _ _ => 0x18
  | .freqClr => 0x20
  | .freqAdd => 0x21
  | .freqSet => 0x22
  | .freqGet => 0x23
  | .freqScan => 0x24
  | .buildTree => 0x30
  | .assignCodes => 0x31
  | .codeGet => 0x32
  | .codeSet _ => 0x33
  | .codeClr => 0x34
  | .serTable => 0x40
  | .deserTable => 0x41
  | .reconTree => 0x50
  | .packInit => 0x60
  | .packSym => 0x61
  | .packBs _ => 0x62
  | .packFlush => 0x63
  | .pack => 0x64
  | .unpackInit => 0x70
  | .unpackByte => 0x71
  | .unpack => 0x72

/-- The fields of a command's word, those it does not use at zero (R112). -/
def Instr.fields : Instr → Fields
  | .setWidth n => ⟨0, 0, 0, false, n⟩
  | .bsClr rd => ⟨rd, 0, 0, false, 0⟩
  | .bsApp rd b => ⟨rd, 0, 0, b, 0⟩
  | .bsGet rs i => ⟨0, rs, 0, false, i⟩
  | .bsLen rs => ⟨0, rs, 0, false, 0⟩
  | .bsCpy rd rs => ⟨rd, rs, 0, false, 0⟩
  | .bsEq rs rt => ⟨0, rs, rt, false, 0⟩
  | .bsLd rd => ⟨rd, 0, 0, false, 0⟩
  | .bsRd rs => ⟨0, rs, 0, false, 0⟩
  | .bsCat rd rs => ⟨rd, rs, 0, false, 0⟩
  | .codeSet rs => ⟨0, rs, 0, false, 0⟩
  | .packBs rs => ⟨0, rs, 0, false, 0⟩
  | _ => ⟨0, 0, 0, false, 0⟩

/-- The word of a command. For a well-formed command this is the only word that decodes to it. -/
def encode (i : Instr) : BitVec 32 :=
  assemble i.op i.fields.rd i.fields.rs i.fields.rt i.fields.b i.fields.imm

end Sys2Proof
end

