-- ==== Sys2Proof/Machine/Issue.lean ====
section
/-! DEFINITION. What the host does (R122, R378): which action is next, whether it can complete, its effect on the registers, the FIFOs and the records; who moves next while BUSY = 1. -/

namespace Sys2Proof.Machine

/-- The next action of the host's program (R378). -/
def State.nextAction (s : State) : Option HostAction := s.host.prog[s.host.pc]?

/-- The action has completed: the index advances by one (R67, R378). -/
def State.advance (s : State) : State := { s with host := { s.host with pc := s.host.pc + 1 } }

/-- The command word an action presents to CMD: bits 31:0 of a write to index 0x00 (R32). -/
def State.cmdWord (_s : State) (a : HostAction) : Option (BitVec 32) :=
  match a with
  | .wr idx v => if idx = 0x00#8 then some (v.setWidth 32) else none
  | _ => none

/-- The action can complete now: WAIT needs BUSY = 0 (R122), a push room in IN (R10), a pop a byte in OUT (log 9). -/
def State.hostReady (s : State) (a : HostAction) : Bool :=
  match a with
  | .wr _ _ => true
  | .rd _ => true
  | .wait => !s.busy
  | .push _ => decide (s.inq.length < s.params.inCap)
  | .pop => !s.outq.isEmpty
  | .drain => true
  | .hwReset => true

/-- The running command is a stream command (R331): the only kind that is ever seen `running`, and an accepted word that decodes to one. -/
def isStream : Instr → Bool
  | .freqScan => true
  | .serTable => true
  | .deserTable => true
  | .packSym => true
  | .packBs _ => true
  | .packFlush => true
  | .pack => true
  | .unpackByte => true
  | .unpack => true
  | .nop => false
  | .sreset => false
  | .errClr => false
  | .setWidth _ => false
  | .bsClr _ => false
  | .bsApp _ _ => false
  | .bsGet _ _ => false
  | .bsLen _ => false
  | .bsCpy _ _ => false
  | .bsEq _ _ => false
  | .bsLd _ => false
  | .bsRd _ => false
  | .bsCat _ _ => false
  | .freqClr => false
  | .freqAdd => false
  | .freqSet => false
  | .freqGet => false
  | .buildTree => false
  | .assignCodes => false
  | .codeGet => false
  | .codeSet _ => false
  | .codeClr => false
  | .reconTree => false
  | .packInit => false
  | .unpackInit => false

/-- BUSY = 1 and a stream command runs (R331; log 18). -/
def State.streaming (s : State) : Bool :=
  match s.run with
  | .idle => false
  | .running _ => true
  | .accepted w => match decode w with
    | .ok i => isStream i
    | .error _ => false

/-- One free value has been drawn. -/
def State.drawn (s : State) : State := { s with host := { s.host with draws := s.host.draws + 1 } }

/-- A write to IOFAIL (R52, R331): with bit 0 = 1 while a stream command runs it sets IOF and draws the boundary (log 4: one the run never reaches is taken at the wait nobody can end); a second one changes nothing (log 17). -/
def State.ioFail (s : State) (v : Word) : State :=
  if v.getLsbD 0 && s.streaming && !s.iof then
    { s with iof := true, iofSkip := Config.freeIofSkip s.host.draws }.drawn
  else s

/-- RegRead(idx), recorded (R31, R378). While BUSY = 1 a register other than STATUS reads a free value (R367; log 3; CMD and IOFAIL: log 21); a reserved index reads 0 always (R54, R93). -/
def State.regRead (s : State) (idx : BitVec 8) : State :=
  if s.busy && idx != 0x01#8 && decide (idx.toNat < 0x1A) then
    { s with host := { s.host with rdRec := s.host.rdRec ++ [Config.freeRead s.host.draws] } }.drawn
  else { s with host := { s.host with rdRec := s.host.rdRec ++ [s.readReg idx] } }

/-- Pop the oldest byte of OUT and record it (R65). -/
def State.popOut (s : State) : State :=
  match s.outq with
  | [] => s
  | b :: rest => { s with outq := rest, host := { s.host with outRec := s.host.outRec ++ [b] } }

/-- DRAIN (R122). -/
def State.drainOut (s : State) : State :=
  { s with outq := [], host := { s.host with outRec := s.host.outRec ++ s.outq } }

/-- The effect of a host action other than a CMD write. -/
def State.hostAct (s : State) (a : HostAction) : State :=
  match a with
  | .wr idx v => if idx = 0x16#8 then s.ioFail v else s.writeReg idx v
  | .rd idx => s.regRead idx
  | .wait => s
  | .push t => { s with inq := s.inq ++ [t] }
  | .pop => s.popOut
  | .drain => s.drainOut
  | .hwReset => s.hardReset

/-! ### Who moves while BUSY = 1 -/

/-- The core can move: it has a word to decode, or its command does not wait. -/
def State.coreReady (s : State) : Bool :=
  match s.run with
  | .idle => false
  | .accepted _ => true
  | .running _ => s.canMove

/-- The host has a next action and it can complete. -/
def State.hostCanAct (s : State) : Bool :=
  match s.nextAction with
  | none => false
  | some a => s.hostReady a

/-- The agent the head of `host.turns` names, the core when there is none. -/
def State.preferred (s : State) : Agent := s.host.turns.head?.getD .core

/-- Who moves while BUSY = 1: the preferred agent if it can, else the other one, else nobody. -/
def State.mover (s : State) : Option Agent :=
  match s.preferred with
  | .core => if s.coreReady then some .core else if s.hostCanAct then some .host else none
  | .host => if s.hostCanAct then some .host else if s.coreReady then some .core else none

/-- One turn is used up. -/
def State.popTurn (s : State) : State := { s with host := { s.host with turns := s.host.turns.tail } }

/-! ### Placing a command -/

/-- The host's program with action `a` at index `pc`, padded with WAITs if it is shorter. -/
def placeAction (prog : List HostAction) (pc : Nat) (a : HostAction) : List HostAction :=
  prog.take pc ++ List.replicate (pc - prog.length) .wait ++ a :: prog.drop (pc + 1)

/-- An idle core, no turns, no error that would drop the word `w`, and the next action a write of `w` to CMD (log 23). -/
def State.placeCommand (s : State) (w : BitVec 32) : State :=
  let s := { s with
    run := .idle
    host := { s.host with turns := [], prog := placeAction s.host.prog s.host.pc (.wr 0x00 (w.setWidth 64)) } }
  if s.drops w then s.clearError else s

end Sys2Proof.Machine
end

