-- ==== Sys2Proof/Machine/Cycle.lean ====
section
/-! DEFINITION. One move of the core or of the host (R5, R378): decoding and running an accepted word, going on with a running command, the host's actions, and the choice of who moves. -/

namespace Sys2Proof.Machine

/-- Decode an accepted word and run it; a word that matches no row raises ILLEGAL_COMMAND(0, 0, w, 0) (R116, R144). -/
def State.runWord (s : State) (w : BitVec 32) : Out :=
  match decode w with
  | .ok i => exec i s
  | .error _ => s.fail { cause := .illegalCommand, actual := w.setWidth 64 }

/-- The core's move: decode an accepted word, or go on with the running command. -/
def State.coreStep (s : State) : Out :=
  match s.run with
  | .idle => .next s
  | .accepted w => s.runWord w
  | .running _ => .next s.microStep.settle

/-- The host's move: a CMD write issues a command, and when no turns are given the core runs it at once; any other action is done and counted. -/
def State.hostStep (s : State) (a : HostAction) : Out :=
  match s.cmdWord a with
  | some w =>
    if s.drops w then .next { s.advance with ovr := true }
    else if s.host.turns.isEmpty then (s.advance.accept w).runWord w
    else .next (s.advance.accept w)
  | none => .next (s.hostAct a).advance

/-- A pending IOFAIL abort whose drawn boundary lies beyond a wait that nobody can end is taken at that wait: R331 has the command raise, and R369 has a write to IOFAIL end a stuck command (log 4). -/
def State.abortWait (s : State) : Out := { s with iofSkip := 0 }.coreStep

/-- One move. While BUSY = 1 the head of `host.turns` says who is to move (an empty list: the core); if that agent cannot, the other moves; if neither can, the run is stuck (R369), unless an IOFAIL abort is pending. While BUSY = 0 the host moves; when its program is over the machine stays as it is (R340, R378). -/
def State.cycle (s : State) : Out :=
  if s.busy then
    let t := s.popTurn
    match s.mover with
    | some .core => t.coreStep
    | some .host => match s.nextAction with
      | some a => t.hostStep a
      | none => .fault .coreStuck
    | none => if s.iof then t.abortWait else .fault .coreStuck
  else match s.nextAction with
    | none => .next s
    | some a => if s.hostReady a then s.hostStep a else .fault .hostStuck

end Sys2Proof.Machine
end

