-- ==== Sys2Proof/Machine/Step.lean ====
section
/-! DEFINITION. step: one move of the core or of the host (R5, R378). The host's program is in the state, and a CMD write of it is what fetching is on this machine (R67, R100). -/

namespace Sys2Proof.Machine

/-- One step of the machine. -/
def step (s : State) : Host.Outcome State Fault Refusal := s.cycle

/-- `s` with the word of a command stored where `step` fetches its next one: the action at the index of the host's program is a write of that word to CMD, the core is idle and no turns are left, and an error that would make the core drop the word is cleared (log 23). -/
def State.withFetchWord (s : State) (nbits w : Nat) : State :=
  s.placeCommand (BitVec.ofNat 32 (w % 2 ^ nbits))

end Sys2Proof.Machine
end

