-- ==== Sys2Proof/Safety.lean ====
section
/-! DEFINITION. The terms in which claims are stated: the invariant of the machine (R66), what each command may write (R84, R325, R373), which causes it may raise (R321), and the container, payload and chunk formats as plain functions (R89, R240, R244). -/

namespace Sys2Proof.Machine

/-! ### The invariant (R66) -/

/-- len ≤ 64 and bits[63:len] = 0 (R16). -/
abbrev BitSeq.wf (c : BitSeq) : Prop := c.len ≤ 64 ∧ c.bits >>> c.len = 0#64

/-- A stored code: a bit sequence of length 1 to 64 (R58). -/
abbrev BitSeq.isCode (c : BitSeq) : Prop := c.wf ∧ 1 ≤ c.len

/-- The leaves of an encoder tree, left to right, as (symbol, frequency) (R59). -/
def ETree.leaves : ETree → List (Word × Word)
  | .leaf v f => [(v, f)]
  | .node _ l r => l.leaves ++ r.leaves
  | .wrap _ c => c.leaves

/-- The leaves of an encoder tree, left to right, each with its path from the root: left appends 0, right appends 1 (R214). -/
def ETree.paths : ETree → List Bool → List (Word × List Bool)
  | .leaf v _, p => [(v, p)]
  | .node _ l r, p => l.paths (p ++ [false]) ++ r.paths (p ++ [true])
  | .wrap _ c, p => c.paths (p ++ [false])

/-- The root is a leaf; BUILD_TREE never makes such a tree (R210). -/
def ETree.isLeaf : ETree → Bool
  | .leaf _ _ => true
  | .node _ _ _ => false
  | .wrap _ _ => false

/-- The number of internal nodes (R210). -/
def ETree.internal : ETree → Nat
  | .leaf _ _ => 0
  | .node _ l r => l.internal + r.internal + 1
  | .wrap _ c => c.internal + 1

/-- Every internal node has exactly two children (R210; a `wrap` node has one). -/
def ETree.binary : ETree → Bool
  | .leaf _ _ => true
  | .node _ l r => l.binary && r.binary
  | .wrap _ _ => false

/-- Every internal node carries the sum of its children's frequencies (R210). -/
def ETree.sums : ETree → Bool
  | .leaf _ _ => true
  | .node f l r => decide (f.toNat = l.freq.toNat + r.freq.toNat) && l.sums && r.sums
  | .wrap f c => decide (f = c.freq) && c.sums

/-- Every node with a symbol is a leaf (R66). -/
def DTree.symLeaf : DTree → Bool
  | .absent => true
  | .node sy l r => (sy.isNone || (l.isAbsent && r.isAbsent)) && l.symLeaf && r.symLeaf

/-- Every leaf holds a symbol (R262). -/
def DTree.leafSym : DTree → Bool
  | .absent => true
  | .node sy l r => (sy.isSome || !(l.isAbsent && r.isAbsent)) && l.leafSym && r.leafSym

/-- No node lies deeper than n. -/
def DTree.depthLe : DTree → Nat → Bool
  | .absent, _ => true
  | .node _ l r, 0 => l.isAbsent && r.isAbsent
  | .node _ l r, n + 1 => l.depthLe n && r.depthLe n

/-- |nodes| (R60). -/
def DTree.size : DTree → Nat
  | .absent => 0
  | .node _ l r => l.size + r.size + 1

/-- What holds of DESER_TABLE's position while it runs: entries read, T and L stay within R247's checks. -/
def Deser.ok (d : Deser) (s : State) : Prop :=
  match d.field with
  | .count => s.ct = [] ∧ d.e = 0
  | .symbol => s.ct.length ≤ d.e ∧ d.e < d.t ∧ d.t ≤ s.params.symCap
  | .length => s.ct.length ≤ d.e ∧ d.e < d.t ∧ d.t ≤ s.params.symCap
  | .code => s.ct.length ≤ d.e ∧ d.e < d.t ∧ d.t ≤ s.params.symCap ∧ 1 ≤ d.l ∧ d.l ≤ 64

/-- What holds of an end still to come: DESER_TABLE's has DTREE none, as from its beginning (R247). -/
def Finish.ok (f : Finish) (s : State) : Prop :=
  match f with
  | .deserTable _ _ => s.dtree = none
  | .freqScan _ _ | .serTable _ | .packSym _ | .packBs | .packFlush _ | .pack | .unpack => True

/-- What holds of a micro-operation still to do: the loops that fill FT and CT run only with WIDTH set (R329) and the tree of that table none (R196, R247). -/
def Micro.ok (m : Micro) (s : State) : Prop :=
  match m with
  | .scan _ _ _ _ => s.width ≠ 0 ∧ s.etree = none
  | .deser d => s.width ≠ 0 ∧ s.dtree = none ∧ d.ok s
  | .finish f => f.ok s
  | .emitBit _ | .outPB | .pad | .decodeBit _ | .out _ | .toRoot | .packIn _ _ _ | .unpackIn _ => True

/-- The micro-operations a command's pseudocode ends with: its end, or a read loop, which goes on to its end. -/
def Micro.closing : Micro → Bool
  | .scan _ _ _ _ | .packIn _ _ _ | .unpackIn _ | .deser _ | .finish _ => true
  | .emitBit _ | .outPB | .pad | .decodeBit _ | .out _ | .toRoot => false

/-- The running command, if there is one, is at a position its pseudocode can reach. -/
def State.runOk (s : State) : Prop :=
  match s.run with
  | .idle => True
  | .accepted _ => True
  | .running todo => (∀ m ∈ todo, m.ok s) ∧ todo.getLast?.any Micro.closing = true

/-- While ERR = 1 only SRESET and ERR_CLR can be running (R326, R328). -/
def State.errQuiet (s : State) : Prop :=
  s.err = true → s.run = .idle ∨ s.run = .accepted 0x00000001#32 ∨ s.run = .accepted 0x00000002#32

/-- The invariant of the machine: R66's list (its clause on PB for PBN ≠ 7: an IOFAIL abort inside EmitBit leaves the eighth bit in PB with PBN = 7, by R324, R325 and D46, log 10), the canonical form of the tables, the parameters' constraints (R8, R9), the zero record of R44, and what R326 says of a machine in error. -/
structure State.Inv (s : State) : Prop where
  params : s.params.ok
  width : s.width.toNat ≤ 8
  bs : ∀ i : BsIdx, (s.bsAt i).wf
  ftForm : s.ft.wf
  ftCap : s.ft.length ≤ s.params.symCap
  ctForm : s.ct.wf
  ctCap : s.ct.length ≤ s.params.symCap
  ctCodes : ∀ e ∈ s.ct, e.2.isCode
  etree : ∀ t, s.etree = some t → t.isLeaf = false ∧ t.leaves.length ≤ s.params.symCap
  unset : s.width = 0 → s.ft = [] ∧ s.ct = [] ∧ s.etree = none ∧ s.dtree = none
  packer : s.packer.pbn ≠ 7 → s.packer.pb >>> s.packer.pbn.toNat = 0#8
  cur : s.decoder.cur.wf
  acc : s.decoder.acc.wf
  dtree : ∀ t, s.dtree = some t → t.isAbsent = false ∧ t.symLeaf = true ∧ t.depthLe 64 = true ∧
    s.decoder.acc = s.decoder.cur ∧ (t.sub s.decoder.cur.toBits).isAbsent = false
  record : s.err = false → s.errRec = .zero
  errQuiet : s.errQuiet
  runOk : s.runOk

/-! ### Frames (R84, R325, R373) -/

/-- The parts of the state a command can leave unchanged or change. BUSY and DONE, which every command writes (R145), are not parts. -/
inductive Part where
  | params
  | width
  | bs (i : BsIdx)
  | ft
  | ct
  | etree
  | dtree
  /-- PB and PBN. -/
  | pb
  | pkBits
  | pkSyms
  /-- CUR and ACC. -/
  | path
  | dcBits
  | dcSyms
  | mismatch
  | limitHit
  /-- A0, A1, LIM. -/
  | latch
  /-- ARG0, ARG1, BITLIMIT. -/
  | args
  | intEn
  | res0
  | res1
  /-- ERR and the five registers of the error record. -/
  | error
  | ovr
  | inq
  | outq
  /-- The host's program, index and records, the turns and the draws. -/
  | host
  deriving DecidableEq, Repr

/-- The two states agree on a part. -/
def Part.same (p : Part) (s t : State) : Prop :=
  match p with
  | .params => t.params = s.params
  | .width => t.width = s.width
  | .bs i => t.bsAt i = s.bsAt i
  | .ft => t.ft = s.ft
  | .ct => t.ct = s.ct
  | .etree => t.etree = s.etree
  | .dtree => t.dtree = s.dtree
  | .pb => t.packer.pb = s.packer.pb ∧ t.packer.pbn = s.packer.pbn
  | .pkBits => t.packer.bits = s.packer.bits
  | .pkSyms => t.packer.syms = s.packer.syms
  | .path => t.decoder.cur = s.decoder.cur ∧ t.decoder.acc = s.decoder.acc
  | .dcBits => t.decoder.bits = s.decoder.bits
  | .dcSyms => t.decoder.syms = s.decoder.syms
  | .mismatch => t.decoder.mismatch = s.decoder.mismatch
  | .limitHit => t.decoder.limitHit = s.decoder.limitHit
  | .latch => t.latch = s.latch
  | .args => t.regs.arg0 = s.regs.arg0 ∧ t.regs.arg1 = s.regs.arg1 ∧ t.regs.bitlimit = s.regs.bitlimit
  | .intEn => t.regs.intEn = s.regs.intEn
  | .res0 => t.regs.res0 = s.regs.res0
  | .res1 => t.regs.res1 = s.regs.res1
  | .error => t.err = s.err ∧ t.errRec = s.errRec
  | .ovr => t.ovr = s.ovr
  | .inq => t.inq = s.inq
  | .outq => t.outq = s.outq
  | .host => t.host = s.host

/-- The two states agree on every part but those listed. -/
def State.sameBut (s t : State) (ps : List Part) : Prop := ∀ p : Part, p ∉ ps → p.same s t

/-- The decoder's parts, which RECON_TREE, UNPACK_INIT, UNPACK and SET_WIDTH reset together (R373). -/
def decoderParts : List Part := [.path, .dcBits, .dcSyms, .mismatch, .limitHit]

/-- The packer's parts (R373). -/
def packerParts : List Part := [.pb, .pkBits, .pkSyms]

end Sys2Proof.Machine

namespace Sys2Proof

open Sys2Proof.Machine

/-- What a command may write besides BUSY and DONE: the tables of R84 and R373, the RES registers its rule lists (R34), the streams it uses (R82, R83), and the error record if it can raise (R321). -/
def Instr.mayWrite : Instr → List Part
  | .nop => []
  | .sreset => [.width, .bs 0, .bs 1, .bs 2, .bs 3, .ft, .ct, .etree, .dtree, .latch, .args, .res0, .res1, .error, .ovr]
      ++ packerParts ++ decoderParts
  | .errClr => [.error, .ovr]
  | .setWidth _ => [.width, .ft, .ct, .etree, .dtree, .error] ++ packerParts ++ decoderParts
  | .bsClr rd => [.bs rd]
  | .bsApp rd _ => [.bs rd, .error]
  | .bsGet _ _ => [.res0, .error]
  | .bsLen _ => [.res0]
  | .bsCpy rd _ => [.bs rd]
  | .bsEq _ _ => [.res0]
  | .bsLd rd => [.bs rd, .error]
  | .bsRd _ => [.res0, .res1]
  | .bsCat rd _ => [.bs rd, .error]
  | .freqClr => [.ft, .etree]
  | .freqAdd => [.ft, .etree, .error]
  | .freqSet => [.ft, .etree, .error]
  | .freqGet => [.res0, .res1, .error]
  | .freqScan => [.ft, .etree, .inq, .res0, .res1, .error]
  | .buildTree => [.etree, .res0, .res1, .error]
  | .assignCodes => [.ct, .dtree, .res0, .res1, .error]
  | .codeGet => [.res0, .res1, .error]
  | .codeSet _ => [.ct, .dtree, .error]
  | .codeClr => [.ct, .dtree]
  | .serTable => [.outq, .res0, .res1, .error]
  | .deserTable => [.ct, .dtree, .inq, .res0, .res1, .error]
  | .reconTree => [.dtree, .res0, .res1, .error] ++ decoderParts
  | .packInit => packerParts
  | .packSym => [.outq, .res0, .res1, .error] ++ packerParts
  | .packBs _ => [.pb, .pkBits, .outq, .res0, .error]
  | .packFlush => [.pb, .outq, .res0, .res1, .error]
  | .pack => [.inq, .outq, .res0, .res1, .error] ++ packerParts
  | .unpackInit => decoderParts
  | .unpackByte => [.outq, .res0, .res1, .error] ++ decoderParts
  | .unpack => [.inq, .outq, .res0, .res1, .error] ++ decoderParts

/-- The causes a command can raise once it is decoded (R321). -/
def Instr.raises : Instr → List Cause
  | .nop => []
  | .sreset => []
  | .errClr => []
  | .setWidth _ => [.illegalArgument]
  | .bsClr _ => []
  | .bsApp _ _ => [.codeOverflow]
  | .bsGet _ _ => [.illegalArgument]
  | .bsLen _ => []
  | .bsCpy _ _ => []
  | .bsEq _ _ => []
  | .bsLd _ => [.illegalArgument]
  | .bsRd _ => []
  | .bsCat _ _ => [.codeOverflow]
  | .freqClr => []
  | .freqAdd => [.stateError, .illegalArgument, .capacity, .countOverflow]
  | .freqSet => [.stateError, .illegalArgument, .capacity]
  | .freqGet => [.stateError, .illegalArgument]
  | .freqScan => [.stateError, .ioError, .capacity, .countOverflow]
  | .buildTree => [.stateError, .emptyInput, .countOverflow]
  | .assignCodes => [.stateError, .codeOverflow]
  | .codeGet => [.stateError, .illegalArgument]
  | .codeSet _ => [.stateError, .illegalArgument, .capacity]
  | .codeClr => []
  | .serTable => [.stateError, .ioError]
  | .deserTable => [.stateError, .malformedTable, .ioError, .codeOverflow, .capacity]
  | .reconTree => [.stateError, .invalidCodeTable, .capacity]
  | .packInit => []
  | .packSym => [.stateError, .illegalArgument, .unknownSymbol, .countOverflow, .ioError]
  | .packBs _ => [.countOverflow, .ioError]
  | .packFlush => [.ioError]
  | .pack => [.stateError, .ioError, .unknownSymbol, .countOverflow]
  | .unpackInit => []
  | .unpackByte => [.stateError, .illegalArgument, .countOverflow, .ioError]
  | .unpack => [.stateError, .ioError, .countOverflow]

/-- The N-dependent commands (R329, check 2). -/
def Instr.needsWidth : Instr → Bool
  | .freqAdd | .freqSet | .freqGet | .freqScan | .buildTree | .assignCodes | .codeGet | .codeSet _
  | .serTable | .deserTable | .reconTree | .packSym | .pack | .unpackByte | .unpack => true
  | .nop | .sreset | .errClr | .setWidth _ | .bsClr _ | .bsApp _ _ | .bsGet _ _ | .bsLen _ | .bsCpy _ _
  | .bsEq _ _ | .bsLd _ | .bsRd _ | .bsCat _ _ | .freqClr | .codeClr | .packInit | .packBs _ | .packFlush
  | .unpackInit => false

/-- The commands that take a symbol in A0 (R120). -/
def Instr.takesSymbol : Instr → Bool
  | .freqAdd | .freqSet | .freqGet | .codeGet | .codeSet _ | .packSym => true
  | .nop | .sreset | .errClr | .setWidth _ | .bsClr _ | .bsApp _ _ | .bsGet _ _ | .bsLen _ | .bsCpy _ _
  | .bsEq _ _ | .bsLd _ | .bsRd _ | .bsCat _ _ | .freqClr | .freqScan | .buildTree | .assignCodes | .codeClr
  | .serTable | .deserTable | .reconTree | .packInit | .packBs _ | .packFlush | .pack | .unpackInit
  | .unpackByte | .unpack => false

/-- The micro-operations a command's pseudocode is made of: none but for the stream commands (R331). -/
def Instr.does (i : Instr) (m : Micro) : Bool :=
  match i, m with
  | .freqScan, .scan _ _ _ _ | .freqScan, .finish (.freqScan _ _) => true
  | .serTable, .out _ | .serTable, .finish (.serTable _) => true
  | .deserTable, .deser _ | .deserTable, .finish (.deserTable _ _) => true
  | .packSym, .emitBit _ | .packSym, .outPB | .packSym, .finish (.packSym _) => true
  | .packBs _, .emitBit _ | .packBs _, .outPB | .packBs _, .finish .packBs => true
  | .packFlush, .outPB | .packFlush, .finish (.packFlush _) => true
  | .pack, .packIn _ _ _ | .pack, .emitBit _ | .pack, .outPB | .pack, .pad | .pack, .finish .pack => true
  | .unpackByte, .decodeBit _ | .unpackByte, .out _ | .unpackByte, .toRoot | .unpackByte, .finish .unpack => true
  | .unpack, .unpackIn _ | .unpack, .decodeBit _ | .unpack, .out _ | .unpack, .toRoot | .unpack, .finish .unpack => true
  | .nop, _ | .sreset, _ | .errClr, _ | .setWidth _, _ | .bsClr _, _ | .bsApp _ _, _ | .bsGet _ _, _
  | .bsLen _, _ | .bsCpy _ _, _ | .bsEq _ _, _ | .bsLd _, _ | .bsRd _, _ | .bsCat _ _, _ | .freqClr, _
  | .freqAdd, _ | .freqSet, _ | .freqGet, _ | .freqScan, _ | .buildTree, _ | .assignCodes, _ | .codeGet, _
  | .codeSet _, _ | .codeClr, _ | .serTable, _ | .deserTable, _ | .reconTree, _ | .packInit, _ | .packSym, _
  | .packBs _, _ | .packFlush, _ | .pack, _ | .unpackInit, _ | .unpackByte, _ | .unpack, _ => false

end Sys2Proof

namespace Sys2Proof.Machine

/-- The command i has ended, or what is left to do is i's. -/
def State.doing (s : State) (i : Instr) : Prop :=
  match s.run with
  | .idle => True
  | .accepted _ => False
  | .running todo => ∀ m ∈ todo, i.does m = true

/-- t follows s by a move of the core for command i: its beginning, or, while i runs, one more move. -/
def State.advances (s : State) (i : Instr) (t : State) : Prop :=
  exec i s = .next t ∨ (s.doing i ∧ s.coreStep = .next t)

/-! ### How a command ends -/

/-- The micro-operation begins with an InRead (R82). -/
def Micro.reads : Micro → Bool
  | .scan _ _ _ _ | .packIn _ _ _ | .unpackIn _ | .deser _ => true
  | .emitBit _ | .outPB | .pad | .decodeBit _ | .out _ | .toRoot | .finish _ => false

/-- The micro-operation is an OutWrite (R83). -/
def Micro.writes : Micro → Bool
  | .outPB | .out _ => true
  | .scan _ _ _ _ | .packIn _ _ _ | .unpackIn _ | .deser _ | .emitBit _ | .pad | .decodeBit _ | .toRoot | .finish _ => false

/-- The running command waits in an InRead on an empty IN, or in an OutWrite on a full OUT (R102). -/
def State.waits (s : State) : Prop :=
  ∃ m rest, s.run = .running (m :: rest) ∧ m.ready s = false ∧
    ((m.reads = true ∧ s.inq = []) ∨ (m.writes = true ∧ s.params.outCap ≤ s.outq.length))

/-- The command has completed without an error (R145): BUSY = 0, DONE = 1, the error record and OVR as before. -/
def State.completes (s t : State) : Prop :=
  t.run = .idle ∧ t.done = true ∧ t.err = s.err ∧ t.errRec = s.errRec ∧ t.ovr = s.ovr

/-- No IOFAIL abort is pending, and the core runs until its command waits or ends (R375). -/
abbrev State.quiet (s : State) : Prop := s.iof = false ∧ s.host.turns = []

/-- OUT has room for n more bytes (R83). -/
abbrev State.room (s : State) (n : Nat) : Prop := s.outq.length + n ≤ s.params.outCap

/-- The symbol operand A0 is below 2^(8·WIDTH), and WIDTH is set (R120, R329). -/
abbrev State.symbolOk (s : State) : Prop := s.width ≠ 0 ∧ s.latch.a0.toNat < 2 ^ (8 * s.symWidth)

/-! ### Formats as plain functions -/

/-- The symbols of a byte stream of width n: chunk j is the n bytes from n·j on, the last zero-padded (R89). -/
def chunkWords (n : Nat) (bytes : List Byte) : List Word :=
  (List.range ((bytes.length + n - 1) / n)).map (fun j => beWord (padChunk n ((bytes.drop (n * j)).take n)))

/-- The symbols of the complete chunks of a stream: what a reader has taken when the stream breaks off (R89, R330). -/
def fullChunks (n : Nat) (bytes : List Byte) : List Word := chunkWords n (bytes.take (n * (bytes.length / n)))

/-- ft' is ft with the symbols ws counted, one by one (R196). -/
def FMap.counted (ft : FMap Word) (ws : List Word) (ft' : FMap Word) : Prop :=
  ∀ v, ft'.get v =
    match ft.get v with
    | some n => some (n + BitVec.ofNat 64 (ws.count v))
    | none => if v ∈ ws then some (BitVec.ofNat 64 (ws.count v)) else none

/-- FT has room for the symbols ws, and no count passes 2^64 − 1 (R193). -/
def State.canCount (s : State) (ws : List Word) : Prop :=
  s.ft.wf ∧ (s.ft.map Prod.fst ++ ws).dedup.length ≤ s.params.symCap ∧
    ∀ v ∈ ws, ((s.ft.get v).getD 0).toNat + ws.count v < 2 ^ 64

/-- BUILD_TREE's merging as R211 and R212 give it: while two or more entries are left, the one with the least key (freq, seq) and the next least become the left and right child of an internal node, which gets the next sequence number. -/
inductive Merged : Nat → List QEntry → ETree → Prop where
  | one (seq : Nat) (e : QEntry) : Merged seq [e] e.tree
  | two (seq : Nat) (q r : List QEntry) (a b : QEntry) (root : ETree) (h : q.Perm (a :: b :: r))
      (hab : a.before b = true) (hb : ∀ x ∈ r, b.before x = true)
      (hr : Merged (seq + 1) (⟨seq, .node (a.tree.freq + b.tree.freq) a.tree b.tree⟩ :: r) root) : Merged seq q root

/-- BUILD_TREE's leaves, with sequence numbers 0, 1, ... in ascending symbol order (R211). -/
def leafEntries (ft : FMap Word) : List QEntry := ft.mapIdx (fun k e => ⟨k, .leaf e.1 e.2⟩)

/-- A table entry as bytes may give it: a symbol, L, and the code bytes, whose bits above L are free (R242, R247). -/
structure RawEntry where
  sym : Word
  len : Nat
  code : List Byte
  deriving DecidableEq, Repr

/-- The entry is one DESER_TABLE accepts at width n (R247). -/
abbrev RawEntry.ok (n : Nat) (e : RawEntry) : Prop :=
  e.sym.toNat < 2 ^ (8 * n) ∧ 1 ≤ e.len ∧ e.len ≤ 64 ∧ e.code.length = (e.len + 7) / 8

/-- The code an entry gives (R247). -/
def RawEntry.value (e : RawEntry) : BitSeq := .mk' e.len (leWord e.code)

/-- The bytes of a header that announces t entries and of the entries es (R241, R242). -/
def rawBytes (n t : Nat) (es : List RawEntry) : List Byte :=
  beBytes 4 (BitVec.ofNat 64 t) ++
    es.flatMap (fun e => beBytes n e.sym ++ beBytes 4 (BitVec.ofNat 64 e.len) ++ e.code)

/-- DESER_TABLE fails with this record and these tokens left in IN; CT is empty, DTREE none, and nothing else changes (R247, R325). -/
def State.deserFails (s : State) (r : ErrRec) (rest : List Token) : Prop :=
  ∃ t, exec .deserTable s = .next t ∧ t.run = .idle ∧ t.done = true ∧ t.err = true ∧ t.errRec = r ∧
    t.ct = [] ∧ t.dtree = none ∧ t.inq = rest ∧ s.sameBut t [.ct, .dtree, .inq, .error]

/-- The bits of codes one after the other: the bit stream they are packed as (R244). -/
def codeBits (codes : List BitSeq) : List Bool := codes.flatMap BitSeq.toBits

/-- The payload of a bit string: bit i at byte i/8, position i%8, the last byte's remaining bits zero (R244). -/
def payloadBytes (bits : List Bool) : List Byte :=
  (List.range ((bits.length + 7) / 8)).map (fun j => (bitsWord ((bits.drop (8 * j)).take 8)).setWidth 8)

/-- The bits the packer holds back: the low PBN bits of PB (R61). -/
def Packer.pending (p : Packer) : List Bool := (List.range p.pbn.toNat).map p.pb.getLsbD

/-- PB has no bit at PBN or above (R61, R66). -/
abbrev Packer.clean (p : Packer) : Prop := p.pb >>> p.pbn.toNat = 0#8

/-- The bits EmitBit puts into the stream for these: a set bit 7 that an aborted EmitBit left in PB stands in place of the next bit (R280's PB | (b << PBN); log 10). -/
def Packer.merged (p : Packer) (bits : List Bool) : List Bool :=
  if p.pbn = 7 ∧ p.pb.getLsbD 7 = true then (bits.take 1).map (fun _ => true) ++ bits.drop 1 else bits

/-- The packer holds, after these bytes, the stream of these bits: what R280 says of the bytes written and of PB. -/
def Packer.holds (p : Packer) (out : List Byte) (bits : List Bool) : Prop :=
  out.flatMap byteBits ++ p.pending = bits ∧ p.clean

/-- PACK fails with this record and these tokens left in IN, after the symbols with these codes: the bytes written and PB hold their bits, PK_BITS and PK_SYMS count them, and nothing else changes (R285, R325). -/
def State.packFails (s : State) (codes : List BitSeq) (r : ErrRec) (rest : List Token) : Prop :=
  ∃ t out, exec .pack s = .next t ∧ t.run = .idle ∧ t.done = true ∧ t.err = true ∧ t.errRec = r ∧ t.inq = rest ∧
    t.outq = s.outq ++ out ∧ t.packer.holds out (codeBits codes) ∧
    t.packer.bits = BitVec.ofNat 64 (codeBits codes).length ∧ t.packer.syms = BitVec.ofNat 64 codes.length ∧
    s.sameBut t ([.inq, .outq, .error] ++ packerParts)

/-- No code of the table is a prefix of another one, equal codes included (R215, R262). -/
abbrev FMap.prefixFree (ct : FMap BitSeq) : Prop :=
  ct.Pairwise (fun a b => ¬ (a.2.toBits <+: b.2.toBits) ∧ ¬ (b.2.toBits <+: a.2.toBits))

/-- The paths of the nodes a code table needs: every prefix of every code, the root's and the code itself among them (R60, R260). -/
def FMap.nodePaths (ct : FMap BitSeq) : List (List Bool) := (ct.flatMap (fun e => e.2.toBits.inits)).dedup

/-- The node at code c is a leaf with symbol v (R60). -/
abbrev DTree.holds (t : DTree) (v : Word) (c : BitSeq) : Prop :=
  t.sub c.toBits = .node (some v) .absent .absent

/-- The bytes as IN tokens. -/
def byteTokens (bytes : List Byte) : List Token := bytes.map Token.byte

/-- UNPACK_BYTE once for each byte, the byte in A0 each time (R302, R306). -/
def feedBytes : List Byte → State → Out
  | [], s => .next s
  | x :: xs, s =>
    match execUnpackByte { s with latch := { s.latch with a0 := x.setWidth 64 } } with
    | .next t => feedBytes xs t
    | .fault f => .fault f
    | .refused r => .refused r

end Sys2Proof.Machine
end

