-- ==== Sys2Proof/Certificates/Slice0/Obligations.lean ====
section
/-! DEFINITION. The statements for the provers. Each docstring names the rules it rests on; a clause that rests on the model's own choice names its log entry. -/

section

open Sys2Proof Sys2Proof.Machine

/-! ### Encoding (file 30) -/

/-- R123: the words of its table decode to the commands written beside them, and the five words below it do not decode. A sanity statement on words written out from the spec. -/
def Obligations.DecodesTheEncodingExamples : Prop :=
  (∀ e ∈ [(0x00000000#32, Instr.nop), (0x00010003#32, .setWidth 1), (0x00020003#32, .setWidth 2),
      (0x00000010#32, .bsClr 0), (0x00004011#32, .bsApp 0 true), (0x00000011#32, .bsApp 0 false),
      (0x00004211#32, .bsApp 2 true), (0x00050412#32, .bsGet 1 5), (0x00000013#32, .bsLen 0),
      (0x00000114#32, .bsCpy 1 0), (0x00001015#32, .bsEq 0 1), (0x00000316#32, .bsLd 3),
      (0x00000417#32, .bsRd 1), (0x00000418#32, .bsCat 0 1), (0x00000433#32, .codeSet 1),
      (0x00000062#32, .packBs 0), (0x00000862#32, .packBs 2), (0x00000072#32, .unpack)],
    decode e.1 = .ok e.2) ∧
  ∀ w ∈ [0x00000104#32, 0x00008000#32, 0x01000000#32, 0x00000100#32, 0x00010010#32],
    (decode w).toOption = none

/-- Every well-formed command is what its word decodes to (R112, R114, R116). -/
def Obligations.DecodeOfEncodeIsTheCommand : Prop :=
  ∀ i : Instr, i.wellFormed = true → decode (encode i) = .ok i

/-- R113, and with R112 and R116: a word that decodes is the word of the command it decodes to, which is well formed, so no two words mean one command; its bits 31:24 and 15 are zero, and so is every field its opcode does not use (`Instr.fields` has those at zero). -/
def Obligations.EncodeOfDecodeIsTheWord : Prop :=
  ∀ (w : BitVec 32) (i : Instr), decode w = .ok i →
    encode i = w ∧ i.wellFormed = true ∧ w &&& 0xFF008000#32 = 0#32 ∧ fieldsOf w = i.fields ∧ opField w = i.op

/-- R116: at most one row of the opcode map matches a word. -/
def Obligations.AtMostOneRowMatches : Prop :=
  ∀ w : BitVec 32, (rows.filter (fun r => r.matches w)).length ≤ 1

/-! ### Issue, acceptance and errors (files 40 and 60) -/

/-- R144, R63: when the host's next action writes to CMD a word that decodes to i, the core is idle, no turns are left, and the word is not dropped, then the step is `exec i` on the accepted state: BUSY = 1, DONE = 0, A0, A1 and LIM latched from ARG0, ARG1 and BITLIMIT, the host's index one further, every other part as before. -/
def Obligations.StepRunsTheDecodedCommand : Prop :=
  ∀ (s : State) (v : Word) (i : Instr),
    s.run = .idle → s.host.turns = [] → s.nextAction = some (.wr 0x00 v) →
    decode (v.setWidth 32) = .ok i → (s.err = false ∨ i = .sreset ∨ i = .errClr) →
    let a := s.advance.accept (v.setWidth 32)
    step s = exec i a ∧ a.busy = true ∧ a.done = false ∧
      a.latch = ⟨s.regs.arg0, s.regs.arg1, s.regs.bitlimit⟩ ∧ a.host.pc = s.host.pc + 1 ∧
      s.sameBut a [.latch, .host]

/-- R115, R116, R323: an accepted word that decodes to no command raises ILLEGAL_COMMAND(0, 0, w, 0), and changes nothing but the status, the record and the latches. -/
def Obligations.UndecodableWordRaisesIllegalCommand : Prop :=
  ∀ (s : State) (v : Word) (r : Reject),
    s.run = .idle → s.host.turns = [] → s.err = false → s.nextAction = some (.wr 0x00 v) →
    decode (v.setWidth 32) = .error r →
    ∃ t, step s = .next t ∧ t.run = .idle ∧ t.done = true ∧ t.err = true ∧
      t.errRec = ⟨0x09, 0, 0, (v.setWidth 32).setWidth 64, 0⟩ ∧
      t.latch = ⟨s.regs.arg0, s.regs.arg1, s.regs.bitlimit⟩ ∧
      t.host = s.advance.host ∧ s.sameBut t [.error, .latch, .host]

/-- R144: a dropped command word (the core busy, or ERR = 1 and the word neither SRESET nor ERR_CLR) sets OVR, and has no other effect; the host's action is done. While the core is busy the host moves if the core waits or a turn is the host's (log 5). -/
def Obligations.DroppedWordOnlySetsOverrun : Prop :=
  ∀ (s : State) (v : Word), s.nextAction = some (.wr 0x00 v) →
    (s.run = .idle → s.err = true → v.setWidth 32 ≠ 0x00000001#32 → v.setWidth 32 ≠ 0x00000002#32 →
      step s = .next { s.advance with ovr := true }) ∧
    (s.run ≠ .idle → (s.coreReady = false ∨ s.host.turns.head? = some .host) →
      step s = .next { s.popTurn.advance with ovr := true })

/-- R321, R323, R34: a command that ends in an error, at its beginning or at any later move of the core (after a wait, or between moves of the host), has ended (BUSY = 0, DONE = 1), leaves RES0 and RES1 as they were, and its cause is one of those R321 lists for it. -/
def Obligations.ErrorsAreListedAndKeepResults : Prop :=
  ∀ (i : Instr) (s t : State), s.err = false → s.advances i t → t.err = true →
    t.run = .idle ∧ t.done = true ∧ t.regs.res0 = s.regs.res0 ∧ t.regs.res1 = s.regs.res1 ∧
      ∃ c ∈ i.raises, t.errRec.cause = causeCode c

/-- R328: the error record is never overwritten before it is cleared: a step of a machine in error (in a state the invariant allows) keeps ERR and the record, or clears both. -/
def Obligations.RecordIsKeptUntilCleared : Prop :=
  ∀ s t : State, s.Inv → s.err = true → step s = .next t →
    (t.err = true ∧ t.errRec = s.errRec) ∨ (t.err = false ∧ t.errRec = .zero)

/-- R329: the order of the checks that consume and change nothing: WIDTH first (id 1), then ETREE_V (id 2; for ASSIGN_CODES log 27: R220 and R325 are read as speaking of CODE_OVERFLOW), CT (id 3) or DTREE_V (id 4), then the symbol operand and the commands' own arguments. Each failing check raises its record and nothing else happens. -/
def Obligations.ChecksComeInOrder : Prop :=
  ∀ s : State,
    (∀ i : Instr, i.needsWidth = true → s.width = 0 → exec i s = .next (s.raise (stateError 1 i.op))) ∧
    (s.width ≠ 0 →
      (s.etreeV = false → exec .assignCodes s = .next (s.raise (stateError 2 0x31))) ∧
      (s.ctValid = false → ∀ i ∈ [Instr.serTable, .reconTree, .packSym, .pack],
        exec i s = .next (s.raise (stateError 3 i.op))) ∧
      (s.dtreeV = false → ∀ i ∈ [Instr.unpackByte, .unpack], exec i s = .next (s.raise (stateError 4 i.op))) ∧
      (∀ i : Instr, i.takesSymbol = true → (i = .packSym → s.ctValid = true) →
        2 ^ (8 * s.symWidth) ≤ s.latch.a0.toNat →
        exec i s = .next (s.raise ⟨.illegalArgument, 0, BitVec.ofNat 64 (2 ^ (8 * s.symWidth) - 1), s.latch.a0, 0⟩)) ∧
      (∀ rs : BsIdx, s.latch.a0.toNat < 2 ^ (8 * s.symWidth) → (s.bsAt rs).len = 0 →
        exec (.codeSet rs) s = .next (s.raise ⟨.illegalArgument, 0, 1, 0, s.latch.a0⟩)) ∧
      (s.dtreeV = true → 0xFF < s.latch.a0.toNat →
        exec .unpackByte s = .next (s.raise ⟨.illegalArgument, 0, 0xFF, s.latch.a0, 0⟩)))

/-! ### System commands (file 40) -/

/-- R140, R142, R192, R219, R281, R301: NOP has no effect; ERR_CLR clears ERR, OVR and the record; FREQ_CLR empties FT and invalidates ETREE; CODE_CLR empties CT and invalidates DTREE; PACK_INIT and UNPACK_INIT reset the packer and the decoder. Each completes in every state, WIDTH = 0 included, and changes nothing else. -/
def Obligations.NopAndTheClears : Prop :=
  ∀ s : State,
    (∃ t, exec .nop s = .next t ∧ s.completes t ∧ s.sameBut t []) ∧
    (∃ t, exec .errClr s = .next t ∧ t.run = .idle ∧ t.done = true ∧ t.err = false ∧ t.ovr = false ∧
      t.errRec = ⟨0, 0, 0, 0, 0⟩ ∧ s.sameBut t [.error, .ovr]) ∧
    (∃ t, exec .freqClr s = .next t ∧ s.completes t ∧ t.ft = [] ∧ t.etree = none ∧ s.sameBut t [.ft, .etree]) ∧
    (∃ t, exec .codeClr s = .next t ∧ s.completes t ∧ t.ct = [] ∧ t.dtree = none ∧ s.sameBut t [.ct, .dtree]) ∧
    (∃ t, exec .packInit s = .next t ∧ s.completes t ∧ t.packer = ⟨0, 0, 0, 0⟩ ∧ s.sameBut t packerParts) ∧
    (∃ t, exec .unpackInit s = .next t ∧ s.completes t ∧ t.decoder = ⟨.empty, .empty, 0, 0, false, false⟩ ∧
      s.sameBut t decoderParts)

/-- R141, R361: SRESET completes with DONE = 1 in the reset state, but for INT_EN and the IN and OUT FIFOs, which keep their contents. -/
def Obligations.SresetRestoresTheResetState : Prop :=
  ∀ s : State, ∃ t, exec .sreset s = .next t ∧ t.run = .idle ∧ t.done = true ∧ t.iof = false ∧
    t.inq = s.inq ∧ t.outq = s.outq ∧ t.regs.intEn = s.regs.intEn ∧ t.params = s.params ∧ t.host = s.host ∧
    (State.resetWith s.params).sameBut t [.inq, .outq, .intEn, .host]

/-- R143: SET_WIDTH #n with n in 1..8 sets WIDTH and clears both tables, both trees, the packer and the decoder with its flags; any other n raises ILLEGAL_ARGUMENT(0, 8, n, 0) with nothing changed. -/
def Obligations.SetWidthInstallsAndClears : Prop :=
  ∀ (s : State) (n : Nat),
    (1 ≤ n → n ≤ 8 → ∃ t, exec (.setWidth n) s = .next t ∧ s.completes t ∧ t.width.toNat = n ∧
      t.ft = [] ∧ t.ct = [] ∧ t.etree = none ∧ t.dtree = none ∧ t.packer = ⟨0, 0, 0, 0⟩ ∧
      t.decoder = ⟨.empty, .empty, 0, 0, false, false⟩ ∧
      s.sameBut t ([.width, .ft, .ct, .etree, .dtree] ++ packerParts ++ decoderParts)) ∧
    (n = 0 ∨ 8 < n → ∃ t, exec (.setWidth n) s = .next t ∧ t.run = .idle ∧ t.done = true ∧ t.err = true ∧
      t.errRec = ⟨0x0A, 0, 8, BitVec.ofNat 64 n, 0⟩ ∧ s.sameBut t [.error])

/-- R360: a hardware reset, asserted in any state, the core busy or not (while busy: when the host moves), gives the reset state, whose values are those of the reset columns of R30 and R31; the parameters and the host's program and records are not the block's and stay (log 19). -/
def Obligations.HardwareResetGivesTheResetState : Prop :=
  (∀ s : State, s.nextAction = some .hwReset →
    (s.run = .idle → step s = .next { State.resetWith s.params with host := s.advance.host }) ∧
    (s.run ≠ .idle → (s.coreReady = false ∨ s.host.turns.head? = some .host) →
      step s = .next { State.resetWith s.params with host := s.popTurn.advance.host })) ∧
  ∀ p : Params, let r := State.resetWith p
    r.params = p ∧ r.width = 0 ∧ (∀ i, r.bsAt i = ⟨0, 0⟩) ∧ r.ft = [] ∧ r.ct = [] ∧ r.etree = none ∧ r.dtree = none ∧
    r.packer = ⟨0, 0, 0, 0⟩ ∧ r.decoder = ⟨⟨0, 0⟩, ⟨0, 0⟩, 0, 0, false, false⟩ ∧ r.latch = ⟨0, 0, maxWord⟩ ∧
    r.regs = ⟨0, 0, 0, 0, maxWord, 0⟩ ∧ r.statusWord = 0 ∧ r.errRec = ⟨0, 0, 0, 0, 0⟩ ∧ r.inq = [] ∧ r.outq = [] ∧
    r.iof = false ∧ r.irq = false

/-! ### BitSequence commands (file 41) -/

/-- R161, R165: BS_CLR empties rd, and BS_CPY copies rs into rd by value; no other register changes. -/
def Obligations.BitSequenceClearAndCopy : Prop :=
  ∀ (s : State) (rd rs : BsIdx),
    (∃ t, exec (.bsClr rd) s = .next t ∧ s.completes t ∧ (t.bsAt rd).toBits = [] ∧ (t.bsAt rd).bits = 0 ∧
      s.sameBut t [.bs rd]) ∧
    (∃ t, exec (.bsCpy rd rs) s = .next t ∧ s.completes t ∧ t.bsAt rd = s.bsAt rs ∧ s.sameBut t [.bs rd])

/-- R160, R162, R169: BS_APP appends its bit at the end of a register of fewer than 64 bits; BS_CAT appends all bits of rs to rd where the lengths sum to at most 64, rd = rs included. Both keep bits[63:len] = 0. -/
def Obligations.AppendAndConcatenate : Prop :=
  ∀ (s : State) (rd rs : BsIdx) (b : Bool), (s.bsAt rd).wf → (s.bsAt rs).wf →
    ((s.bsAt rd).len < 64 → ∃ t, exec (.bsApp rd b) s = .next t ∧ s.completes t ∧
      (t.bsAt rd).toBits = (s.bsAt rd).toBits ++ [b] ∧ (t.bsAt rd).wf ∧ s.sameBut t [.bs rd]) ∧
    ((s.bsAt rd).len + (s.bsAt rs).len ≤ 64 → ∃ t, exec (.bsCat rd rs) s = .next t ∧ s.completes t ∧
      (t.bsAt rd).toBits = (s.bsAt rd).toBits ++ (s.bsAt rs).toBits ∧ (t.bsAt rd).wf ∧ s.sameBut t [.bs rd])

/-- R167: BS_LD takes length A1 and the low A1 bits of A0; bits of A0 at and above A1 are ignored. -/
def Obligations.LoadTakesTheLowBits : Prop :=
  ∀ (s : State) (rd : BsIdx), s.latch.a1.toNat ≤ 64 →
    ∃ t, exec (.bsLd rd) s = .next t ∧ s.completes t ∧
      (t.bsAt rd).toBits = (List.range s.latch.a1.toNat).map (fun i => s.latch.a0.getLsbD i) ∧
      (t.bsAt rd).wf ∧ s.sameBut t [.bs rd]

/-- R164, R166, R168, and R163 where the bit exists: the reading commands report bits, length, equality as bit sequences, and both words of a register; RES1 changes only with BS_RD. -/
def Obligations.BitSequenceReads : Prop :=
  ∀ (s : State) (rs rt : BsIdx), (s.bsAt rs).wf → (s.bsAt rt).wf →
    (∀ (i : Nat) (b : Bool), (s.bsAt rs).toBits[i]? = some b → ∃ t, exec (.bsGet rs i) s = .next t ∧
      s.completes t ∧ t.regs.res0 = (if b then 1 else 0) ∧ s.sameBut t [.res0]) ∧
    (∃ t, exec (.bsLen rs) s = .next t ∧ s.completes t ∧ t.regs.res0.toNat = (s.bsAt rs).toBits.length ∧
      s.sameBut t [.res0]) ∧
    (∃ t, exec (.bsEq rs rt) s = .next t ∧ s.completes t ∧
      t.regs.res0 = (if (s.bsAt rs).toBits = (s.bsAt rt).toBits then 1 else 0) ∧ s.sameBut t [.res0]) ∧
    (∃ t, exec (.bsRd rs) s = .next t ∧ s.completes t ∧ t.regs.res0 = (s.bsAt rs).bits ∧
      t.regs.res1.toNat = (s.bsAt rs).len ∧
      (∀ k, t.regs.res1.toNat ≤ k → t.regs.res0.getLsbD k = false) ∧ s.sameBut t [.res0, .res1])

/-- R162, R163, R167, R169, R323: where the BitSequence commands raise, with their records, and every register unchanged. -/
def Obligations.BitSequenceErrors : Prop :=
  ∀ (s : State) (rd rs : BsIdx) (b : Bool) (i : Nat),
    ((s.bsAt rd).len = 64 → ∃ t, exec (.bsApp rd b) s = .next t ∧ t.err = true ∧
      t.errRec = ⟨0x05, 0, 64, 65, 0⟩ ∧ s.sameBut t [.error]) ∧
    ((s.bsAt rs).len ≤ i → ∃ t, exec (.bsGet rs i) s = .next t ∧ t.err = true ∧
      t.errRec = ⟨0x0A, 0, BitVec.ofNat 64 (s.bsAt rs).len, BitVec.ofNat 64 i, 0⟩ ∧ s.sameBut t [.error]) ∧
    (64 < s.latch.a1.toNat → ∃ t, exec (.bsLd rd) s = .next t ∧ t.err = true ∧
      t.errRec = ⟨0x0A, 0, 64, s.latch.a1, 0⟩ ∧ s.sameBut t [.error]) ∧
    (64 < (s.bsAt rd).len + (s.bsAt rs).len → ∃ t, exec (.bsCat rd rs) s = .next t ∧ t.err = true ∧
      t.errRec = ⟨0x05, 0, 64, BitVec.ofNat 64 ((s.bsAt rd).len + (s.bsAt rs).len), 0⟩ ∧ s.sameBut t [.error])

/-! ### Frequency table (file 42) -/

/-- R193: FREQ_ADD adds one to the symbol's count, 1 for an absent one, where the table has room and the count is not at its largest; no other entry changes, and the encoder tree is invalidated. -/
def Obligations.FreqAddCountsOneMore : Prop :=
  ∀ s : State, s.symbolOk → s.ft.get s.latch.a0 ≠ some maxWord →
    (s.ft.get s.latch.a0 = none → s.ft.length < s.params.symCap) →
    ∃ t, exec .freqAdd s = .next t ∧ s.completes t ∧
      t.ft.get s.latch.a0 = some ((s.ft.get s.latch.a0).getD 0 + 1) ∧
      (∀ k, k ≠ s.latch.a0 → t.ft.get k = s.ft.get k) ∧ t.etree = none ∧ s.sameBut t [.ft, .etree]

/-- R194, R195: FREQ_SET stores any count, 0 included; FREQ_GET reports a present count with RES1 = 1 and an absent symbol as 0, 0. -/
def Obligations.FreqSetAndGet : Prop :=
  ∀ s : State, s.symbolOk →
    ((s.ft.get s.latch.a0 = none → s.ft.length < s.params.symCap) →
      ∃ t, exec .freqSet s = .next t ∧ s.completes t ∧ t.ft.get s.latch.a0 = some s.latch.a1 ∧
        (∀ k, k ≠ s.latch.a0 → t.ft.get k = s.ft.get k) ∧ t.etree = none ∧ s.sameBut t [.ft, .etree]) ∧
    (∃ t, exec .freqGet s = .next t ∧ s.completes t ∧
      (∀ n, s.ft.get s.latch.a0 = some n → t.regs.res0 = n ∧ t.regs.res1 = 1) ∧
      (s.ft.get s.latch.a0 = none → t.regs.res0 = 0 ∧ t.regs.res1 = 0) ∧ s.sameBut t [.res0, .res1])

/-- R193, R194: a full table refuses a new symbol with CAPACITY, and FREQ_ADD a count of 2^64 − 1 with COUNT_OVERFLOW; FT and ETREE are unchanged. -/
def Obligations.FreqErrorsChangeNothing : Prop :=
  ∀ s : State, s.symbolOk →
    (s.ft.get s.latch.a0 = none → s.ft.length = s.params.symCap → ∀ i ∈ [Instr.freqAdd, .freqSet],
      ∃ t, exec i s = .next t ∧ t.err = true ∧
        t.errRec = ⟨0x07, 0, BitVec.ofNat 64 s.params.symCap, BitVec.ofNat 64 (s.params.symCap + 1), s.latch.a0⟩ ∧
        s.sameBut t [.error]) ∧
    (s.ft.get s.latch.a0 = some maxWord → ∃ t, exec .freqAdd s = .next t ∧ t.err = true ∧
      t.errRec = ⟨0x08, 0, maxWord, 1, s.latch.a0⟩ ∧ s.sameBut t [.error])

/-- R196, R89: FREQ_SCAN over one stream in IN adds to FT how often each symbol occurs among the stream's N-byte chunks, the last one zero-padded, where the table has room for the symbols that occur and no count passes 2^64 − 1; it consumes the stream with its EOS, and reports the number of symbols and of bytes. R330: over a stream that breaks off with an Err token it has counted the complete chunks, and raises IO_ERROR with the bytes consumed as offset; the Err is consumed, and what follows it stays. -/
def Obligations.FreqScanCountsTheChunks : Prop :=
  ∀ (s : State) (bytes : List Byte) (rest : List Token), s.quiet → s.width ≠ 0 → bytes.length < 2 ^ 64 →
    (s.inq = byteTokens bytes ++ .eos :: rest → s.canCount (chunkWords s.symWidth bytes) →
      ∃ t, exec .freqScan s = .next t ∧ s.completes t ∧ t.inq = rest ∧ t.etree = none ∧
        t.regs.res0 = BitVec.ofNat 64 (chunkWords s.symWidth bytes).length ∧
        t.regs.res1 = BitVec.ofNat 64 bytes.length ∧
        s.ft.counted (chunkWords s.symWidth bytes) t.ft ∧ s.sameBut t [.ft, .etree, .inq, .res0, .res1]) ∧
    (s.inq = byteTokens bytes ++ .err :: rest → s.canCount (fullChunks s.symWidth bytes) →
      ∃ t, exec .freqScan s = .next t ∧ t.run = .idle ∧ t.done = true ∧ t.err = true ∧
        t.errRec = ⟨0x04, BitVec.ofNat 64 bytes.length, 0, 0, 0⟩ ∧ t.inq = rest ∧ t.etree = none ∧
        s.ft.counted (fullChunks s.symWidth bytes) t.ft ∧ s.sameBut t [.ft, .etree, .inq, .error])

/-! ### Tree builder and code assigner (file 43) -/

/-- R210, R212, R213: BUILD_TREE on a non-empty table whose counts sum below 2^64 makes a tree with exactly the table's entries as leaves and the summed frequency at every internal node: n − 1 internal nodes with two children each for n ≥ 2, the one-child wrapper for n = 1; RES0 is the sum of the counts and RES1 the node count. FT is unchanged. -/
def Obligations.BuiltTreeHasTheTablesLeaves : Prop :=
  ∀ s : State, s.width ≠ 0 → s.ft ≠ [] → (s.ft.map (fun e => e.2.toNat)).sum < 2 ^ 64 →
    ∃ t root, exec .buildTree s = .next t ∧ s.completes t ∧ t.etree = some root ∧
      root.leaves.Perm s.ft ∧ root.sums = true ∧
      (s.ft.length = 1 → ∃ v f, s.ft = [(v, f)] ∧ root = .wrap f (.leaf v f)) ∧
      (2 ≤ s.ft.length → root.binary = true ∧ root.internal = s.ft.length - 1) ∧
      t.regs.res0.toNat = (s.ft.map (fun e => e.2.toNat)).sum ∧
      t.regs.res1 = BitVec.ofNat 64 (if s.ft.length = 1 then 2 else 2 * s.ft.length - 1) ∧
      s.sameBut t [.etree, .res0, .res1]

/-- R211, R212: BUILD_TREE on two or more entries merges them in key order (freq, seq): the leaves have the sequence numbers 0, 1, ... in ascending symbol order, each internal node the next one, so among equal frequencies leaves come before internal nodes and older internal nodes before younger ones; the least is the left child and the next least the right one. So of two entries the one with the smaller count, among equal counts the lower symbol, is on the left. -/
def Obligations.EntriesMergeInKeyOrder : Prop :=
  (∀ s : State, s.width ≠ 0 → 2 ≤ s.ft.length → (s.ft.map (fun e => e.2.toNat)).sum < 2 ^ 64 →
    ∃ t root, exec .buildTree s = .next t ∧ s.completes t ∧ t.etree = some root ∧
      Merged s.ft.length (leafEntries s.ft) root ∧ s.sameBut t [.etree, .res0, .res1]) ∧
  ∀ (s : State) (u v f g : Word), s.width ≠ 0 → s.ft = [(u, f), (v, g)] → u < v → f.toNat + g.toNat < 2 ^ 64 →
    ∃ t, exec .buildTree s = .next t ∧ s.completes t ∧
      t.etree = some (if f ≤ g then .node (f + g) (.leaf u f) (.leaf v g) else .node (f + g) (.leaf v g) (.leaf u f)) ∧
      s.sameBut t [.etree, .res0, .res1]

/-- R212: BUILD_TREE on an empty table raises EMPTY_INPUT, and on counts that sum above 2^64 − 1 COUNT_OVERFLOW with id 2; the tree is none, and nothing else changes. -/
def Obligations.BuildTreeErrors : Prop :=
  ∀ s : State, s.width ≠ 0 →
    (s.ft = [] → ∃ t, exec .buildTree s = .next t ∧ t.err = true ∧ t.errRec = ⟨0x01, 0, 0, 0, 0⟩ ∧
      t.etree = none ∧ s.sameBut t [.etree, .error]) ∧
    (2 ^ 64 ≤ (s.ft.map (fun e => e.2.toNat)).sum → ∃ t, exec .buildTree s = .next t ∧ t.err = true ∧
      t.errRec = ⟨0x08, 0, maxWord, 2, 0⟩ ∧ t.etree = none ∧ s.sameBut t [.etree, .error])

/-- R214: ASSIGN_CODES gives each leaf's symbol its path as code, where no leaf lies deeper than 64 and no symbol is at two leaves; CT is replaced as a whole, DTREE invalidated, ETREE kept; RES0 is the number of codes and RES1 the longest one's length. -/
def Obligations.AssignedCodesAreTheLeafPaths : Prop :=
  ∀ (s : State) (root : ETree), s.width ≠ 0 → s.etree = some root →
    (∀ e ∈ root.paths [], e.2.length ≤ 64) → (root.paths []).Pairwise (fun a b => a.1 ≠ b.1) →
    ∃ t, exec .assignCodes s = .next t ∧ s.completes t ∧
      (∀ v c, t.ct.get v = some c ↔ ∃ p, (v, p) ∈ root.paths [] ∧ c = .ofBits p) ∧
      t.ct.wf ∧ t.dtree = none ∧ t.regs.res0 = BitVec.ofNat 64 (root.leaves.length) ∧
      t.regs.res1 = BitVec.ofNat 64 (((root.paths []).map (fun e => e.2.length)).foldl max 0) ∧
      s.sameBut t [.ct, .dtree, .res0, .res1]

/-- R214: when a leaf lies deeper than 64, ASSIGN_CODES raises CODE_OVERFLOW for the first such leaf in left-first order, empties CT and invalidates DTREE; ETREE stays. -/
def Obligations.TooDeepLeafRaisesCodeOverflow : Prop :=
  ∀ (s : State) (root : ETree) (v : Word) (p : List Bool), s.width ≠ 0 → s.etree = some root →
    (root.paths []).find? (fun e => decide (64 < e.2.length)) = some (v, p) →
    ∃ t, exec .assignCodes s = .next t ∧ t.err = true ∧ t.errRec = ⟨0x05, 0, 64, BitVec.ofNat 64 p.length, v⟩ ∧
      t.ct = [] ∧ t.dtree = none ∧ s.sameBut t [.ct, .dtree, .error]

/-- R215: the code table ASSIGN_CODES writes from a tree without repeated symbols is prefix-free, equal codes included. -/
def Obligations.AssignedCodesArePrefixFree : Prop :=
  ∀ (s t : State) (root : ETree), s.width ≠ 0 → s.etree = some root →
    (root.paths []).Pairwise (fun a b => a.1 ≠ b.1) → exec .assignCodes s = .next t → t.ct.prefixFree

/-- R217, R218: CODE_SET stores a non-empty register as the symbol's code, overwriting an existing one, where the table has room, and invalidates DTREE; a full table refuses a new symbol with CAPACITY and nothing changed; CODE_GET reports a code's bits and length, and an absent symbol as 0, 0. -/
def Obligations.CodeSetAndGet : Prop :=
  ∀ (s : State) (rs : BsIdx), s.symbolOk →
    ((s.bsAt rs).len ≠ 0 → (s.ct.get s.latch.a0 = none → s.ct.length < s.params.symCap) →
      ∃ t, exec (.codeSet rs) s = .next t ∧ s.completes t ∧ t.ct.get s.latch.a0 = some (s.bsAt rs) ∧
        (∀ k, k ≠ s.latch.a0 → t.ct.get k = s.ct.get k) ∧ t.dtree = none ∧ s.sameBut t [.ct, .dtree]) ∧
    ((s.bsAt rs).len ≠ 0 → s.ct.get s.latch.a0 = none → s.ct.length = s.params.symCap →
      ∃ t, exec (.codeSet rs) s = .next t ∧ t.run = .idle ∧ t.done = true ∧ t.err = true ∧
        t.errRec = ⟨0x07, 0, BitVec.ofNat 64 s.params.symCap, BitVec.ofNat 64 (s.params.symCap + 1), s.latch.a0⟩ ∧
        s.sameBut t [.error]) ∧
    (∃ t, exec .codeGet s = .next t ∧ s.completes t ∧
      (∀ c, s.ct.get s.latch.a0 = some c → t.regs.res0 = c.bits ∧ t.regs.res1 = BitVec.ofNat 64 c.len) ∧
      (s.ct.get s.latch.a0 = none → t.regs.res0 = 0 ∧ t.regs.res1 = 0) ∧ s.sameBut t [.res0, .res1])

/-! ### Container codec (file 44) -/

/-- R246: SER_TABLE writes the table of R240 to OUT, after what OUT holds, and reports the bytes written and T. -/
def Obligations.SerTableWritesTheTable : Prop :=
  ∀ s : State, s.quiet → s.width ≠ 0 → s.ct ≠ [] → s.room (tableBytes s.symWidth s.ct).length →
    ∃ t, exec .serTable s = .next t ∧ s.completes t ∧ t.outq = s.outq ++ tableBytes s.symWidth s.ct ∧
      t.regs.res0 = BitVec.ofNat 64 (tableBytes s.symWidth s.ct).length ∧
      t.regs.res1 = BitVec.ofNat 64 s.ct.length ∧ s.sameBut t [.outq, .res0, .res1]

/-- R249: the length of a table, and its bounds for codes of length 1 to 64. -/
def Obligations.TableLength : Prop :=
  ∀ (n : Nat) (ct : FMap BitSeq),
    (tableBytes n ct).length = 4 + (ct.map (fun e => n + 4 + (e.2.len + 7) / 8)).sum ∧
    (ct ≠ [] → (∀ e ∈ ct, 1 ≤ e.2.len ∧ e.2.len ≤ 64) →
      4 + n + 5 ≤ (tableBytes n ct).length ∧ (tableBytes n ct).length ≤ 4 + ct.length * (n + 12))

/-- R248: if SER_TABLE writes the bytes X for a table whose symbols are below 2^(8N), then DESER_TABLE with the same WIDTH, on X followed by any tokens, succeeds, consumes exactly X, rebuilds the same table, and returns the RES0 and RES1 that SER_TABLE returned. Beyond it, as R247 has it for any table: the entries may stand in any order, and a code byte's bits above L may have any value; CT is then exactly the entries' codes. -/
def Obligations.DeserTableInvertsSerTable : Prop :=
  (∀ u : State, u.quiet → u.params.ok → u.width ≠ 0 → u.symWidth ≤ 8 → u.ct ≠ [] → u.ct.wf →
    u.ct.length ≤ u.params.symCap → (∀ e ∈ u.ct, e.1.toNat < 2 ^ (8 * u.symWidth) ∧ e.2.isCode) →
    u.room (tableBytes u.symWidth u.ct).length →
    ∃ v x, exec .serTable u = .next v ∧ u.completes v ∧ v.outq = u.outq ++ x ∧
      ∀ (s : State) (rest : List Token), s.quiet → s.params = u.params → s.width = u.width →
        s.inq = byteTokens x ++ rest →
        ∃ t, exec .deserTable s = .next t ∧ s.completes t ∧ t.ct = u.ct ∧ t.inq = rest ∧ t.dtree = none ∧
          t.regs.res0 = v.regs.res0 ∧ t.regs.res1 = v.regs.res1 ∧ s.sameBut t [.ct, .dtree, .inq, .res0, .res1]) ∧
  ∀ (s : State) (es : List RawEntry) (rest : List Token), s.quiet → s.params.ok → s.width ≠ 0 → s.symWidth ≤ 8 →
    es ≠ [] → es.length ≤ s.params.symCap → (∀ e ∈ es, e.ok s.symWidth) → (es.map RawEntry.sym).Nodup →
    s.inq = byteTokens (rawBytes s.symWidth es.length es) ++ rest →
    ∃ t, exec .deserTable s = .next t ∧ s.completes t ∧
      (∀ v c, t.ct.get v = some c ↔ ∃ e ∈ es, e.sym = v ∧ c = e.value) ∧ t.ct.wf ∧ t.inq = rest ∧ t.dtree = none ∧
      t.regs.res0 = BitVec.ofNat 64 (rawBytes s.symWidth es.length es).length ∧
      t.regs.res1 = BitVec.ofNat 64 es.length ∧ s.sameBut t [.ct, .dtree, .inq, .res0, .res1]

/-- R247, R330: what DESER_TABLE refuses, with its records. In the header: a stream that ends inside T, T = 0, and T above SYM_CAP. After a header of T and fewer than T good entries: a stream that ends inside the symbol, a symbol read before, a stream that ends inside L, L = 0, L above 64, and a stream that ends inside the code bytes. An Err token anywhere within a good table: IO_ERROR with the bytes consumed as offset. Each time the bytes read, and a failing EOS or Err, are consumed, CT is empty, DTREE none and the rest unchanged. -/
def Obligations.DeserTableRefusesABadTable : Prop :=
  ∀ (s : State) (rest : List Token), s.quiet → s.width ≠ 0 →
    (∀ bytes : List Byte, bytes.length < 4 → s.inq = byteTokens bytes ++ .eos :: rest →
      s.deserFails ⟨0x02, 0, 4, BitVec.ofNat 64 bytes.length, 0⟩ rest) ∧
    (∀ bytes : List Byte, bytes.length = 4 → s.inq = byteTokens bytes ++ rest →
      (beWord bytes = 0 → s.deserFails ⟨0x02, 0, 1, 0, 0⟩ rest) ∧
      (s.params.symCap < (beWord bytes).toNat →
        s.deserFails ⟨0x07, 0, BitVec.ofNat 64 s.params.symCap, beWord bytes, 0⟩ rest)) ∧
    ∀ (es : List RawEntry) (n : Nat), s.params.ok → s.symWidth ≤ 8 → n ≤ s.params.symCap →
      (∀ e ∈ es, e.ok s.symWidth) → (es.map RawEntry.sym).Nodup →
      (es.length < n → ∀ so, so = (rawBytes s.symWidth n es).length →
        (∀ part : List Byte, part.length < s.symWidth →
          s.inq = byteTokens (rawBytes s.symWidth n es ++ part) ++ .eos :: rest →
          s.deserFails ⟨0x02, BitVec.ofNat 64 so, BitVec.ofNat 64 s.symWidth, BitVec.ofNat 64 part.length, 0⟩ rest) ∧
        (∀ v ∈ es.map RawEntry.sym,
          s.inq = byteTokens (rawBytes s.symWidth n es ++ beBytes s.symWidth v) ++ rest →
          s.deserFails ⟨0x02, BitVec.ofNat 64 so, 1, 2, v⟩ rest) ∧
        (∀ v : Word, v.toNat < 2 ^ (8 * s.symWidth) → v ∉ es.map RawEntry.sym →
          (∀ part : List Byte, part.length < 4 →
            s.inq = byteTokens (rawBytes s.symWidth n es ++ beBytes s.symWidth v ++ part) ++ .eos :: rest →
            s.deserFails ⟨0x02, BitVec.ofNat 64 (so + s.symWidth), 4, BitVec.ofNat 64 part.length, v⟩ rest) ∧
          (∀ l : Nat, l < 2 ^ 32 → l = 0 ∨ 64 < l →
            s.inq = byteTokens (rawBytes s.symWidth n es ++ beBytes s.symWidth v ++ beBytes 4 (BitVec.ofNat 64 l)) ++ rest →
            s.deserFails (if l = 0 then ⟨0x02, BitVec.ofNat 64 (so + s.symWidth), 1, 0, v⟩
              else ⟨0x05, BitVec.ofNat 64 (so + s.symWidth), 64, BitVec.ofNat 64 l, v⟩) rest) ∧
          (∀ (l : Nat) (part : List Byte), 1 ≤ l → l ≤ 64 → part.length < (l + 7) / 8 →
            s.inq = byteTokens (rawBytes s.symWidth n es ++ beBytes s.symWidth v ++ beBytes 4 (BitVec.ofNat 64 l) ++ part) ++
              .eos :: rest →
            s.deserFails ⟨0x02, BitVec.ofNat 64 (so + s.symWidth + 4), BitVec.ofNat 64 ((l + 7) / 8),
              BitVec.ofNat 64 part.length, v⟩ rest))) ∧
      (es.length = n → ∀ bytes more : List Byte, more ≠ [] → bytes ++ more = rawBytes s.symWidth n es →
        s.inq = byteTokens bytes ++ .err :: rest →
        s.deserFails ⟨0x04, BitVec.ofNat 64 bytes.length, 0, 0, 0⟩ rest)

/-- R247, R325: after any error of DESER_TABLE past its WIDTH check, an IOFAIL abort included (log 11), at its beginning or at any later move of the core, CT is empty and DTREE none; while it runs DTREE is none already. -/
def Obligations.FailedDeserTableLeavesNoTable : Prop :=
  (∀ s t : State, s.width ≠ 0 → exec .deserTable s = .next t →
    t.dtree = none ∧ (s.err = false → t.err = true → t.ct = [])) ∧
  ∀ s t : State, s.Inv → s.err = false → s.run ≠ .idle → s.doing .deserTable → s.coreStep = .next t → t.err = true →
    t.ct = [] ∧ t.dtree = none

/-! ### Tree reconstructor (file 45) -/

/-- R260, R261, R262: RECON_TREE on a prefix-free table that needs at most NODE_CAP nodes, one for each prefix of its codes, builds a tree in which each code is a leaf with its symbol, every node with a symbol is a leaf and every leaf has a symbol; RES0 is the number of nodes and RES1 the longest code's length; the decoder is reset. -/
def Obligations.ReconTreeHoldsEveryCode : Prop :=
  ∀ s : State, s.width ≠ 0 → s.ct ≠ [] → (∀ e ∈ s.ct, e.2.isCode) → s.ct.prefixFree →
    s.ct.nodePaths.length ≤ s.params.nodeCap →
    ∃ t dt, exec .reconTree s = .next t ∧ s.completes t ∧ t.dtree = some dt ∧
      (∀ e ∈ s.ct, dt.holds e.1 e.2) ∧ dt.symLeaf = true ∧ dt.leafSym = true ∧
      dt.size = s.ct.nodePaths.length ∧ t.regs.res0 = BitVec.ofNat 64 s.ct.nodePaths.length ∧
      t.regs.res1 = BitVec.ofNat 64 ((s.ct.map (fun e => e.2.len)).foldl max 0) ∧
      t.decoder = ⟨.empty, .empty, 0, 0, false, false⟩ ∧
      s.sameBut t ([.dtree, .res0, .res1] ++ decoderParts)

/-- R261, R262: RECON_TREE refuses every other table: with CAPACITY only where the table needs more than NODE_CAP nodes, with INVALID_CODE_TABLE only where it is not prefix-free. The record names the entry e being inserted, in ascending order from 0, and its symbol; for INVALID_CODE_TABLE also the depth d and the code's length: the code's first d bits are an earlier code (cases 1 and 2), or d is its length and it is a prefix of an earlier code (case 3). DTREE is none, the decoder reset, CT unchanged. -/
def Obligations.ReconTreeRefusesEveryOtherTable : Prop :=
  ∀ s : State, s.width ≠ 0 → (∀ e ∈ s.ct, e.2.isCode) → 1 ≤ s.params.nodeCap →
    (¬ s.ct.prefixFree ∨ s.params.nodeCap < s.ct.nodePaths.length) →
    ∃ t e v c, exec .reconTree s = .next t ∧ t.run = .idle ∧ t.done = true ∧ t.err = true ∧ s.ct[e]? = some (v, c) ∧
      ((s.params.nodeCap < s.ct.nodePaths.length ∧ t.errRec = ⟨0x07, BitVec.ofNat 64 e,
          BitVec.ofNat 64 s.params.nodeCap, BitVec.ofNat 64 (s.params.nodeCap + 1), v⟩) ∨
       (¬ s.ct.prefixFree ∧ ∃ d, d ≤ c.len ∧
          t.errRec = ⟨0x03, BitVec.ofNat 64 e, BitVec.ofNat 64 d, BitVec.ofNat 64 c.len, v⟩ ∧
          ∃ x ∈ s.ct.take e, x.2.toBits = c.toBits.take d ∨ (d = c.len ∧ c.toBits <+: x.2.toBits))) ∧
      t.dtree = none ∧ t.decoder = ⟨.empty, .empty, 0, 0, false, false⟩ ∧
      s.sameBut t ([.dtree, .error] ++ decoderParts)

/-! ### Packer (file 46) -/

/-- R280, R283: PACK_BS appends the register's bits, bit 0 first, to the bit stream the packer carries: the bytes it writes, then the bits it holds back, are the bits held before, then the register's; RES0 is PK_BITS. A bit that an aborted EmitBit left in PB at PBN = 7 stands in place of the first bit (log 10); otherwise PB has no bit at PBN or above (R61). -/
def Obligations.PackBsAppendsTheBits : Prop :=
  ∀ (s : State) (rs : BsIdx), s.quiet → (s.packer.pbn ≠ 7 → s.packer.clean) → s.packer.bits.toNat + (s.bsAt rs).len < 2 ^ 64 →
    s.room ((s.packer.pbn.toNat + (s.bsAt rs).len) / 8) →
    ∃ t out, exec (.packBs rs) s = .next t ∧ s.completes t ∧ t.outq = s.outq ++ out ∧
      out.flatMap byteBits ++ t.packer.pending = s.packer.pending ++ s.packer.merged (s.bsAt rs).toBits ∧
      (s.packer.clean ∨ (s.bsAt rs).toBits ≠ [] → t.packer.clean) ∧
      t.packer.bits = s.packer.bits + BitVec.ofNat 64 (s.bsAt rs).len ∧ t.regs.res0 = t.packer.bits ∧
      s.sameBut t [.pb, .pkBits, .outq, .res0]

/-- R280, R282: PACK_SYM appends the bits of the symbol's code likewise, counts one symbol, and reports PK_BITS and the code's length. A bit that an aborted EmitBit left in PB at PBN = 7 stands in place of the first bit (log 10); otherwise PB has no bit at PBN or above (R61). -/
def Obligations.PackSymAppendsTheCode : Prop :=
  ∀ (s : State) (c : BitSeq), s.quiet → s.symbolOk → s.ct.get s.latch.a0 = some c →
    (s.packer.pbn ≠ 7 → s.packer.clean) →
    s.packer.syms ≠ maxWord → s.packer.bits.toNat + c.len < 2 ^ 64 → s.room ((s.packer.pbn.toNat + c.len) / 8) →
    ∃ t out, exec .packSym s = .next t ∧ s.completes t ∧ t.outq = s.outq ++ out ∧
      out.flatMap byteBits ++ t.packer.pending = s.packer.pending ++ s.packer.merged c.toBits ∧
      (s.packer.clean ∨ c.toBits ≠ [] → t.packer.clean) ∧
      t.packer.bits = s.packer.bits + BitVec.ofNat 64 c.len ∧ t.packer.syms = s.packer.syms + 1 ∧
      t.regs.res0 = t.packer.bits ∧ t.regs.res1 = BitVec.ofNat 64 c.len ∧
      s.sameBut t ([.outq, .res0, .res1] ++ packerParts)

/-- R284: PACK_FLUSH writes the partial byte if there is one, and reports PK_BITS and how many bytes it wrote; PK_BITS and PK_SYMS are kept. -/
def Obligations.PackFlushWritesThePartialByte : Prop :=
  ∀ s : State, s.quiet → (s.packer.pbn ≠ 0 → s.room 1) →
    ∃ t, exec .packFlush s = .next t ∧ s.completes t ∧
      t.outq = (if s.packer.pbn = 0 then s.outq else s.outq ++ [s.packer.pb]) ∧
      t.packer = (if s.packer.pbn = 0 then s.packer else { s.packer with pb := 0, pbn := 0 }) ∧
      t.regs.res0 = s.packer.bits ∧
      t.regs.res1 = (if s.packer.pbn = 0 then 0 else 1) ∧
      s.sameBut t [.pb, .outq, .res0, .res1]

/-- R285, R286, R244: PACK over one stream whose symbols all have codes writes exactly the payload of R244 for the concatenated codes, zero-padded at its end, and reports the payload's bit length and the number of symbols. -/
def Obligations.PackWritesThePayload : Prop :=
  ∀ (s : State) (bytes : List Byte) (codes : List BitSeq) (rest : List Token),
    s.quiet → s.width ≠ 0 → s.ct ≠ [] → s.inq = byteTokens bytes ++ .eos :: rest → bytes.length < 2 ^ 64 →
    (chunkWords s.symWidth bytes).map s.ct.get = codes.map some →
    (codeBits codes).length < 2 ^ 64 → s.room (payloadBytes (codeBits codes)).length →
    ∃ t, exec .pack s = .next t ∧ s.completes t ∧ t.inq = rest ∧
      t.outq = s.outq ++ payloadBytes (codeBits codes) ∧ t.packer.pb = 0 ∧ t.packer.pbn = 0 ∧
      t.regs.res0 = BitVec.ofNat 64 (codeBits codes).length ∧
      t.regs.res1 = BitVec.ofNat 64 codes.length ∧ t.packer.bits = t.regs.res0 ∧ t.packer.syms = t.regs.res1 ∧
      s.sameBut t ([.inq, .outq, .res0, .res1] ++ packerParts)

/-- R282, R285: a symbol without a code raises UNKNOWN_SYMBOL: in PACK_SYM with nothing changed; in PACK, wherever in the stream it stands (a chunk of N bytes, or the zero-padded last one), with the offset of its first byte, the codes of the symbols before it packed and counted, and what follows it left in IN. R330: in PACK an Err token likewise ends the command after the complete chunks before it, with IO_ERROR and the bytes consumed as offset. -/
def Obligations.UnknownSymbolIsRefused : Prop :=
  ∀ s : State, s.quiet → s.width ≠ 0 → s.ct ≠ [] →
    (s.symbolOk → s.ct.get s.latch.a0 = none → ∃ t, exec .packSym s = .next t ∧ t.run = .idle ∧ t.done = true ∧
      t.err = true ∧ t.errRec = ⟨0x06, 0, 0, 0, s.latch.a0⟩ ∧ s.sameBut t [.error]) ∧
    ∀ (pre last : List Byte) (codes : List BitSeq) (rest : List Token),
      pre.length = s.symWidth * codes.length → (chunkWords s.symWidth pre).map s.ct.get = codes.map some →
      (pre ++ last).length < 2 ^ 64 → (codeBits codes).length < 2 ^ 64 → s.room ((codeBits codes).length / 8) →
      ((last.length = s.symWidth ∧ s.inq = byteTokens (pre ++ last) ++ rest ∨
          0 < last.length ∧ last.length < s.symWidth ∧ s.inq = byteTokens (pre ++ last) ++ .eos :: rest) →
        s.ct.get (beWord (padChunk s.symWidth last)) = none →
        s.packFails codes ⟨0x06, BitVec.ofNat 64 pre.length, 0, 0, beWord (padChunk s.symWidth last)⟩ rest) ∧
      (last.length < s.symWidth → s.inq = byteTokens (pre ++ last) ++ .err :: rest →
        s.packFails codes ⟨0x04, BitVec.ofNat 64 (pre ++ last).length, 0, 0, 0⟩ rest)

/-! ### Unpacker (file 47) -/

/-- R300, R303, R305: UNPACK with LIM = P over the payload of a sequence of codes held by DTREE, P being its bit length, writes the codes' symbols, N bytes each, and nothing for the pad bits; RES0 is the number of symbols, RES1 is 0, DC_BITS = P, and LIMIT_HIT says whether there were pad bits. R330: where an Err token stands in place of the EOS, the bytes before it are decoded just so, and UNPACK raises IO_ERROR with the bytes consumed as offset; the Err is consumed. -/
def Obligations.UnpackDecodesThePayload : Prop :=
  ∀ (s : State) (dt : DTree) (items : List (Word × BitSeq)) (rest : List Token) (bits : List Bool),
    s.quiet → s.width ≠ 0 → s.dtree = some dt → (∀ e ∈ items, e.2.isCode ∧ dt.holds e.1 e.2) →
    bits = codeBits (items.map Prod.snd) → s.latch.lim = BitVec.ofNat 64 bits.length → bits.length < 2 ^ 64 - 1 →
    s.room (s.symWidth * items.length) →
    (s.inq = byteTokens (payloadBytes bits) ++ .eos :: rest →
      ∃ t, exec .unpack s = .next t ∧ s.completes t ∧ t.inq = rest ∧
        t.outq = s.outq ++ items.flatMap (fun e => beBytes s.symWidth e.1) ∧
        t.regs.res0 = BitVec.ofNat 64 items.length ∧ t.regs.res1 = 0 ∧
        t.decoder = ⟨.empty, .empty, s.latch.lim, BitVec.ofNat 64 items.length, false, bits.length % 8 != 0⟩ ∧
        s.sameBut t ([.inq, .outq, .res0, .res1] ++ decoderParts)) ∧
    (s.inq = byteTokens (payloadBytes bits) ++ .err :: rest →
      ∃ t, exec .unpack s = .next t ∧ t.run = .idle ∧ t.done = true ∧ t.err = true ∧
        t.errRec = ⟨0x04, BitVec.ofNat 64 (payloadBytes bits).length, 0, 0, 0⟩ ∧ t.inq = rest ∧
        t.outq = s.outq ++ items.flatMap (fun e => beBytes s.symWidth e.1) ∧
        t.decoder = ⟨.empty, .empty, s.latch.lim, BitVec.ofNat 64 items.length, false, bits.length % 8 != 0⟩ ∧
        s.sameBut t ([.inq, .outq, .error] ++ decoderParts))

/-- R302, R300, R47, R41: UNPACK_BYTE processes its 8 bits, fewer where DC_BITS reaches LIM first, and reports DC_SYMS and ACC.len; it writes whole symbols only, and reads no token. MISMATCH is sticky, and becomes 1 when a bit leads from the decoder's path, over no leaf, to a child that is not in the tree. -/
def Obligations.UnpackByteProcessesEightBits : Prop :=
  ∀ s : State, s.quiet → s.width ≠ 0 → s.dtreeV = true → s.latch.a0.toNat ≤ 0xFF →
    s.decoder.bits.toNat + 8 < 2 ^ 64 → s.decoder.syms.toNat + 8 < 2 ^ 64 → s.room (8 * s.symWidth) →
    ∃ t out, exec .unpackByte s = .next t ∧ s.completes t ∧
      t.decoder.bits.toNat = (if s.latch.lim = maxWord ∨ s.latch.lim.toNat < s.decoder.bits.toNat
        then s.decoder.bits.toNat + 8 else min (s.decoder.bits.toNat + 8) s.latch.lim.toNat) ∧
      t.outq = s.outq ++ out ∧
      out.length = s.symWidth * (t.decoder.syms.toNat - s.decoder.syms.toNat) ∧
      t.regs.res0 = t.decoder.syms ∧ t.regs.res1 = BitVec.ofNat 64 t.decoder.acc.len ∧
      (s.decoder.mismatch = true → t.decoder.mismatch = true) ∧
      (s.Inv → ∀ (dt : DTree) (bits : List Bool) (k : Nat), s.dtree = some dt →
        bits = byteBits (s.latch.a0.setWidth 8) → k < 8 →
        (s.latch.lim = maxWord ∨ s.latch.lim.toNat < s.decoder.bits.toNat ∨
          s.decoder.bits.toNat + k < s.latch.lim.toNat) →
        (∀ j ≤ k, (dt.sub (s.decoder.cur.toBits ++ bits.take j)).isLeaf = false) →
        (dt.sub (s.decoder.cur.toBits ++ bits.take (k + 1))).isAbsent = true → t.decoder.mismatch = true) ∧
      s.sameBut t ([.outq, .res0, .res1] ++ decoderParts)

/-- R306: decoding a payload in separate UNPACK_BYTE commands from a reset decoder leaves the same decoder state and writes the same bytes as one UNPACK over it, with the same LIM. -/
def Obligations.UnpackIsIndependentOfBuffers : Prop :=
  ∀ (s : State) (bytes : List Byte) (rest : List Token), s.quiet → s.width ≠ 0 → s.dtreeV = true →
    8 * bytes.length < 2 ^ 64 → s.room (8 * s.symWidth * bytes.length) →
    ∃ t u, feedBytes bytes { s with decoder := .init } = .next t ∧
      exec .unpack { s with inq := byteTokens bytes ++ .eos :: rest } = .next u ∧ s.completes u ∧
      t.decoder = u.decoder ∧ t.outq = u.outq ∧ u.inq = rest

/-- R304 (the packer's and the decoder's half): PACK turns a stream whose symbols all have codes into a payload which UNPACK, with LIM = the bit length PACK reported, turns back into the stream followed by the zero bytes that complete its last symbol, for any decode tree that holds every code of the table. -/
def Obligations.UnpackInvertsPack : Prop :=
  ∀ (s : State) (dt : DTree) (bytes : List Byte) (codes : List BitSeq) (q : List Token),
    s.quiet → s.width ≠ 0 → s.symWidth ≤ 8 → s.ct ≠ [] → (∀ e ∈ s.ct, e.2.isCode) →
    s.inq = byteTokens bytes ++ .eos :: q → bytes.length < 2 ^ 64 →
    (chunkWords s.symWidth bytes).map s.ct.get = codes.map some →
    (codeBits codes).length < 2 ^ 64 - 1 → s.room (payloadBytes (codeBits codes)).length →
    (∀ e ∈ s.ct, dt.holds e.1 e.2) →
    ∃ t payload, exec .pack s = .next t ∧ s.completes t ∧ t.outq = s.outq ++ payload ∧ t.inq = q ∧
      ∀ (u : State) (rest : List Token), u.quiet → u.width = s.width → u.dtree = some dt →
        u.latch.lim = t.regs.res0 → u.inq = byteTokens payload ++ .eos :: rest →
        u.room (s.symWidth * ((bytes.length + s.symWidth - 1) / s.symWidth)) →
        ∃ x, exec .unpack u = .next x ∧ u.completes x ∧ x.inq = rest ∧
          x.outq = u.outq ++ bytes ++
            List.replicate (s.symWidth * ((bytes.length + s.symWidth - 1) / s.symWidth) - bytes.length) 0#8

/-! ### The whole machine -/

/-- R84, R325, R34, R82, R83: the frame of every command, at its beginning and at every later move of the core while it runs: whatever the outcome, a completed command, an error, or a wait, no part of the state changes that is not listed for i. -/
def Obligations.CommandsChangeOnlyTheirParts : Prop :=
  ∀ (i : Instr) (s t : State), s.advances i t → s.sameBut t i.mayWrite

/-- R191, R220 (and D36): a command that changes FT leaves ETREE none, and one that changes CT leaves DTREE none, at its beginning from every state, and at every later move of the core from every state the invariant allows. -/
def Obligations.ChangedTablesInvalidateTheirTrees : Prop :=
  ∀ (i : Instr) (s t : State), exec i s = .next t ∨ (s.Inv ∧ s.doing i ∧ s.coreStep = .next t) →
    (t.ft ≠ s.ft → t.etree = none) ∧ (t.ct ≠ s.ct → t.dtree = none)

/-- R66 and the other clauses of `State.Inv`: every step keeps the invariant, from every state that has it. R66's clause PB[7:PBN] = 0 is in it for PBN ≠ 7: an IOFAIL abort inside EmitBit leaves the eighth bit in PB, by R324, R325 and D46 (log 10). -/
def Obligations.EveryStepKeepsTheInvariant : Prop :=
  ∀ s t : State, s.Inv → step s = .next t → t.Inv

/-- R360, R66: the reset state has the invariant, for every choice of parameters R8 and R9 allow; `State.reset` is one of these. -/
def Obligations.ResetHasTheInvariant : Prop :=
  (∀ p : Params, p.ok → (State.resetWith p).Inv) ∧ State.reset.Inv ∧ core.reset = State.resetWith Config.params

/-- R96, R97, R82: a command, at its beginning and at every later move of the core while it runs, only appends to OUT and only takes from the front of IN. -/
def Obligations.StreamsMoveInOrder : Prop :=
  ∀ (i : Instr) (s t : State), s.advances i t →
    (∃ out, t.outq = s.outq ++ out) ∧ (∃ taken, s.inq = taken ++ t.inq)

/-- R375, R102 (log 5): with no turns given, a command has ended, or it waits in an InRead on an empty IN or in an OutWrite on a full OUT; the same after every later move of the core (in a state the invariant allows). With or without turns, what is left to do is the command's own. -/
def Obligations.CommandsEndOrWait : Prop :=
  ∀ (i : Instr) (s t : State),
    (exec i s = .next t → t.doing i ∧ (s.host.turns = [] → t.run = .idle ∨ t.waits)) ∧
    (s.Inv → s.doing i → s.coreStep = .next t → t.doing i ∧ (s.host.turns = [] → t.run = .idle ∨ t.waits))

/-- R102, R369, R370, 93 O4 (log 7): a step never refuses, and it faults exactly where no agent can ever move: the core waits, no IOFAIL abort is pending, and the host's next action, if there is one, cannot complete, or the core is idle and the next action cannot complete. -/
def Obligations.StepFaultsExactlyWhereStuck : Prop :=
  ∀ s : State,
    (∀ r, step s ≠ .refused r) ∧
    (step s = .fault .coreStuck ↔ s.busy = true ∧ s.coreReady = false ∧ s.hostCanAct = false ∧ s.iof = false) ∧
    (step s = .fault .hostStuck ↔ s.busy = false ∧ ∃ a, s.nextAction = some a ∧ s.hostReady a = false)

/-- R52, R331: what a write to IOFAIL does. With bit 0 = 1, while a stream command runs (from its acceptance on: log 18) and the host moves, it sets the hidden flag IOF and nothing else of the block. It is ignored with bit 0 = 0, where IOF is set already (log 17), where the accepted word is no stream command, and where the core is idle. -/
def Obligations.SinkFailureSetsTheFlag : Prop :=
  ∀ (s : State) (v : Word), s.nextAction = some (.wr 0x16 v) →
    (s.run = .idle → step s = .next s.advance) ∧
    (s.run ≠ .idle → (s.coreReady = false ∨ s.host.turns.head? = some .host) →
      ((∃ todo, s.run = .running todo) ∨ (∃ w i, s.run = .accepted w ∧ decode w = .ok i ∧ isStream i = true) →
        s.iof = false → v.getLsbD 0 = true →
        ∃ t, step s = .next t ∧ t.iof = true ∧ t.run = s.run ∧ t.done = s.done ∧ t.wrote = s.wrote ∧
          t.host.pc = s.host.pc + 1 ∧ s.sameBut t [.host]) ∧
      ((s.iof = true ∨ v.getLsbD 0 = false ∨
          ∃ w, s.run = .accepted w ∧ ∀ i, decode w = .ok i → isStream i = false) →
        step s = .next s.popTurn.advance))

/-- R331, R369: once an IOFAIL abort is pending, the running command writes no further byte to OUT, and if it ends, it ends with an error. Where it waits and the host cannot act either, the next step takes the abort there (log 4). R324, R325: an abort at the OutWrite of the packer's byte leaves PB, PBN and PK_* as at the raise, and in EmitBit PB has the eighth bit by then: it is set before that OutWrite (R280, D46; log 10). -/
def Obligations.NoOutputAfterSinkFailure : Prop :=
  (∀ (s t : State) (todo : List Micro), s.Inv → s.run = .running todo → s.iof = true →
    s.coreStep = .next t → t.outq = s.outq ∧ (t.run = .idle → t.err = true)) ∧
  (∀ (s : State) (todo : List Micro), s.run = .running todo → s.iof = true → s.coreReady = false →
    s.hostCanAct = false →
    ∃ t, step s = .next t ∧ t.run = .idle ∧ t.done = true ∧ t.err = true ∧
      t.errRec = ⟨0x04, BitVec.ofNat 64 s.wrote, 0, 1, 0⟩ ∧ t.inq = s.inq ∧ t.outq = s.outq) ∧
  (∀ (s : State) (rest : List Micro), s.run = .running (.outPB :: rest) → s.iof = true →
    ∃ t, s.coreStep = .next t ∧ t.run = .idle ∧ t.done = true ∧ t.err = true ∧
      t.errRec = ⟨0x04, BitVec.ofNat 64 s.wrote, 0, 1, 0⟩ ∧
      t.packer = s.packer ∧ s.sameBut t [.error]) ∧
  ∀ (s : State) (b : Bool) (rest : List Micro), s.run = .running (.emitBit b :: rest) → s.packer.pbn = 7 →
    s.packer.bits ≠ maxWord → s.iof = true → s.host.turns = [] →
    ∃ t, s.coreStep = .next t ∧ t.run = .idle ∧ t.done = true ∧ t.err = true ∧
      t.errRec = ⟨0x04, BitVec.ofNat 64 s.wrote, 0, 1, 0⟩ ∧
      t.packer.pb = (if b then s.packer.pb ||| 0x80#8 else s.packer.pb) ∧ t.packer.pbn = 7 ∧
      t.packer.bits = s.packer.bits + 1 ∧ s.sameBut t [.pb, .pkBits, .error]

/-- R35, R332: the STATUS word has its fields at their bits, and the reserved bits read 0; IRQ is (INT_EN[0] and DONE) or (INT_EN[1] and ERR), as the host reads INT_EN and STATUS. -/
def Obligations.StatusAndInterrupt : Prop :=
  ∀ s : State,
    (s.readReg 0x01).getLsbD 0 = s.busy ∧ (s.readReg 0x01).getLsbD 1 = s.done ∧
    (s.readReg 0x01).getLsbD 2 = s.err ∧ (s.readReg 0x01).getLsbD 3 = s.ovr ∧
    (s.readReg 0x01).getLsbD 4 = s.etree.isSome ∧ (s.readReg 0x01).getLsbD 5 = !s.ct.isEmpty ∧
    (s.readReg 0x01).getLsbD 6 = s.dtree.isSome ∧ (s.readReg 0x01).getLsbD 7 = s.decoder.mismatch ∧
    (s.readReg 0x01).getLsbD 8 = s.decoder.limitHit ∧ (s.readReg 0x01).extractLsb' 9 3 = 0#3 ∧
    (s.readReg 0x01).extractLsb' 12 4 = s.width ∧ (s.readReg 0x01).extractLsb' 16 48 = 0#48 ∧
    s.irq = (((s.readReg 0x12).getLsbD 0 && (s.readReg 0x01).getLsbD 1) ||
      ((s.readReg 0x12).getLsbD 1 && (s.readReg 0x01).getLsbD 2))

/-- R31, R49: a write to ARG0, ARG1, BITLIMIT or INT_EN by the host of an idle core is what the register then reads (INT_EN: its two bits); every other register, and every other part of the state, stays. -/
def Obligations.WritableRegistersReadBack : Prop :=
  ∀ (s : State) (idx : BitVec 8) (v : Word), idx ∈ [0x02#8, 0x03#8, 0x0B#8, 0x12#8] → s.run = .idle →
    s.nextAction = some (.wr idx v) →
    ∃ t, step s = .next t ∧ t.readReg idx = (if idx = 0x12#8 then v &&& 3 else v) ∧
      (∀ j, j ≠ idx → t.readReg j = s.readReg j) ∧ t.run = .idle ∧ t.done = s.done ∧
      t.host.pc = s.host.pc + 1 ∧ s.sameBut t [.args, .intEn, .host]

/-- R64, R65, R122, R378: the host's other actions on an idle core. A push of one token (log 25: PUSH is one action for each token) appends it to IN where there is room; a pop of one byte (log 9: an action of the model beside DRAIN) takes OUT's oldest byte and DRAIN all of them, recorded in order; RD records the register's value; WAIT completes. When the program is over the step changes nothing (log 8). -/
def Obligations.HostActionsOnAnIdleCore : Prop :=
  ∀ s : State, s.run = .idle →
    (∀ x, s.nextAction = some (.push x) → s.inq.length < s.params.inCap →
      step s = .next { s.advance with inq := s.inq ++ [x] }) ∧
    (∀ b rest, s.nextAction = some .pop → s.outq = b :: rest → ∃ t, step s = .next t ∧ t.outq = rest ∧
      t.host = { s.advance.host with outRec := s.host.outRec ++ [b] } ∧ t.run = .idle ∧ s.sameBut t [.outq, .host]) ∧
    (s.nextAction = some .drain → ∃ t, step s = .next t ∧ t.outq = [] ∧
      t.host = { s.advance.host with outRec := s.host.outRec ++ s.outq } ∧ t.run = .idle ∧
      s.sameBut t [.outq, .host]) ∧
    (∀ idx, s.nextAction = some (.rd idx) → ∃ t, step s = .next t ∧
      t.host = { s.advance.host with rdRec := s.host.rdRec ++ [s.readReg idx] } ∧ t.run = .idle ∧
      s.sameBut t [.host]) ∧
    (s.nextAction = some .wait → step s = .next s.advance) ∧ (s.nextAction = none → step s = .next s)

/-- R54, with R31 and R53: a read of a reserved index, of CMD or of IOFAIL returns 0; a write to an index that is neither CMD, IOFAIL nor a read-write register is ignored; reserved bits inside a register read 0; no read changes the block, so none raises. CAPS, SYM_CAP and NODE_CAP read the capabilities. -/
def Obligations.ReservedAndReadOnlyRegisters : Prop :=
  ∀ (s : State) (idx : BitVec 8) (v : Word),
    (0x1A ≤ idx.toNat ∨ idx = 0x00#8 ∨ idx = 0x16#8 → s.readReg idx = 0) ∧
    (idx ∉ [0x00#8, 0x02#8, 0x03#8, 0x0B#8, 0x12#8, 0x16#8] → s.hostAct (.wr idx v) = s) ∧
    s.sameBut (s.hostAct (.rd idx)) [.host] ∧
    s.readReg 0x01 &&& 0xFFFFFFFFFFFF0E00 = 0 ∧ s.readReg 0x06 >>> 8 = 0 ∧ s.readReg 0x12 >>> 2 = 0 ∧
    s.readReg 0x13 >>> 11 = 0 ∧ (s.decoder.acc.wf → s.readReg 0x14 >>> 7 = 0) ∧
    s.readReg 0x17 = 0x0000000000008440 ∧
    s.readReg 0x18 = BitVec.ofNat 64 s.params.symCap ∧ s.readReg 0x19 = BitVec.ofNat 64 s.params.nodeCap

/-- R367, 93 O1, R54: while BUSY = 1 a register read by the host returns and records the current STATUS for STATUS, 0 for a reserved index, and for any other register a free value (log 3: the draw is the model's; log 21: for CMD and IOFAIL too, which R31 has read 0); nothing of the block changes. -/
def Obligations.ReadsWhileBusy : Prop :=
  ∀ (s : State) (idx : BitVec 8), s.run ≠ .idle → s.nextAction = some (.rd idx) →
    (s.coreReady = false ∨ s.host.turns.head? = some .host) →
    ∃ t, step s = .next t ∧ t.run = s.run ∧ t.done = s.done ∧ s.sameBut t [.host] ∧
      t.host.pc = s.host.pc + 1 ∧
      t.host.rdRec = s.host.rdRec ++ [if idx = 0x01#8 then s.readReg 0x01
        else if 0x1A ≤ idx.toNat then 0 else Config.freeRead s.host.draws]

end
end

