-- ==== Sys2Proof/Laws/Bits.lean ====
section
/-! SUPPORT. The laws of bit sequences and of the byte orders: what the bits of a result are, that the form of R16 is kept, and that reading undoes writing. -/

namespace Sys2Proof.Machine

/-! ### Bit sequences -/

@[simp] theorem BitSeq.toBits_length (c : BitSeq) : c.toBits.length = c.len := by simp [BitSeq.toBits]

@[simp] theorem BitSeq.toBits_empty : BitSeq.empty.toBits = [] := rfl

theorem BitSeq.toBits_getElem (c : BitSeq) (i : Nat) (h : i < c.toBits.length) : c.toBits[i] = c.bits.getLsbD i := by
  simp [BitSeq.toBits, BitSeq.get]

/-- The form of R16, bit by bit. -/
theorem BitSeq.wf_iff (c : BitSeq) : c.wf ↔ c.len ≤ 64 ∧ ∀ i, c.len ≤ i → c.bits.getLsbD i = false := by
  refine and_congr_right fun _ => ⟨fun h i hi => ?_, fun h => ?_⟩
  · have := congrArg (fun w : Word => w.getLsbD (i - c.len)) h
    simpa [BitVec.getLsbD_ushiftRight, Nat.add_sub_cancel' hi] using this
  · refine BitVec.eq_of_getLsbD_eq fun i _ => ?_
    simp [BitVec.getLsbD_ushiftRight, h (c.len + i) (Nat.le_add_right _ _)]

@[simp] theorem BitSeq.wf_empty : BitSeq.empty.wf := by simp [BitSeq.wf]

theorem bitWord_getLsbD (b : Bool) (i : Nat) : (bitWord b).getLsbD i = (decide (i = 0) && b) := by
  cases b <;> simp [bitWord]

theorem BitSeq.append_get (c : BitSeq) (b : Bool) (i : Nat) (h : i < 64) :
    (c.append b).bits.getLsbD i = (c.bits.getLsbD i || (decide (i = c.len) && b)) := by
  simp only [BitSeq.append, BitVec.getLsbD_or, BitVec.getLsbD_shiftLeft, bitWord_getLsbD, h, decide_true, Bool.true_and]
  rcases Nat.lt_trichotomy i c.len with hi | hi | hi
  · simp [hi, Nat.ne_of_lt hi]
  · simp [hi]
  · simp [Nat.not_lt.2 (Nat.le_of_lt hi), Nat.ne_of_gt hi, Nat.sub_ne_zero_of_lt hi]

theorem BitSeq.append_wf (c : BitSeq) (b : Bool) (h : c.wf) (hl : c.len < 64) : (c.append b).wf := by
  rw [BitSeq.wf_iff] at h ⊢
  refine ⟨hl, fun i hi => ?_⟩
  have hi' : c.len < i := hi
  by_cases h64 : i < 64
  · simp [BitSeq.append_get c b i h64, h.2 i (Nat.le_of_lt hi'), Nat.ne_of_gt hi']
  · exact BitVec.getLsbD_of_ge _ _ (Nat.le_of_not_lt h64)

/-- append puts its bit at the end (R160). -/
theorem BitSeq.toBits_append (c : BitSeq) (b : Bool) (h : c.wf) (hl : c.len < 64) :
    (c.append b).toBits = c.toBits ++ [b] := by
  refine List.ext_getElem (by simp [BitSeq.append]) fun i h1 h2 => ?_
  have hi : i < c.len + 1 := by simpa [BitSeq.append] using h1
  have h64 : i < 64 := by omega
  rw [BitSeq.toBits_getElem, BitSeq.append_get c b i h64]
  rcases Nat.lt_or_ge i c.len with hlt | hge
  · rw [List.getElem_append_left (by simpa using hlt), BitSeq.toBits_getElem]
    simp [Nat.ne_of_lt hlt]
  · have : i = c.len := by omega
    subst this
    simp [((BitSeq.wf_iff c).1 h).2 c.len (Nat.le_refl _)]

theorem BitSeq.concat_get (c d : BitSeq) (i : Nat) (h : i < 64) :
    (c.concat d).bits.getLsbD i = (c.bits.getLsbD i || (decide (c.len ≤ i) && d.bits.getLsbD (i - c.len))) := by
  simp only [BitSeq.concat, BitVec.getLsbD_or, BitVec.getLsbD_shiftLeft, h, decide_true, Bool.true_and]
  by_cases hi : c.len ≤ i <;> simp [hi, Nat.not_lt.2, Nat.lt_of_not_le]

theorem BitSeq.concat_wf (c d : BitSeq) (hc : c.wf) (hd : d.wf) (hl : c.len + d.len ≤ 64) : (c.concat d).wf := by
  rw [BitSeq.wf_iff] at hc hd ⊢
  refine ⟨hl, fun i hi => ?_⟩
  have hi' : c.len + d.len ≤ i := hi
  by_cases h64 : i < 64
  · simp [BitSeq.concat_get c d i h64, hc.2 i (by omega), hd.2 (i - c.len) (by omega)]
  · exact BitVec.getLsbD_of_ge _ _ (Nat.le_of_not_lt h64)

/-- concat joins the sequences (R160). -/
theorem BitSeq.toBits_concat (c d : BitSeq) (hc : c.wf) (hl : c.len + d.len ≤ 64) :
    (c.concat d).toBits = c.toBits ++ d.toBits := by
  refine List.ext_getElem (by simp [BitSeq.concat]) fun i h1 h2 => ?_
  have hi : i < c.len + d.len := by simpa [BitSeq.concat] using h1
  rw [BitSeq.toBits_getElem, BitSeq.concat_get c d i (by omega)]
  rcases Nat.lt_or_ge i c.len with hlt | hge
  · rw [List.getElem_append_left (by simpa using hlt), BitSeq.toBits_getElem]
    simp [Nat.not_le.2 hlt]
  · rw [List.getElem_append_right (by simpa using hge), BitSeq.toBits_getElem]
    simp [hge, ((BitSeq.wf_iff c).1 hc).2 i hge]

theorem maskBits_getLsbD (k i : Nat) (hk : k ≤ 64) : (maskBits k).getLsbD i = decide (i < k) := by
  unfold maskBits
  split_ifs with h
  · subst h
    have : maxWord = BitVec.allOnes 64 := rfl
    rw [this, BitVec.getLsbD_allOnes]
  · have hk' : k < 64 := by omega
    have e : (1#64 <<< k) - 1#64 = BitVec.ofNat 64 (2 ^ k - 1) := by
      apply BitVec.eq_of_toNat_eq
      have h1 : 2 ^ k < 2 ^ 64 := Nat.pow_lt_pow_right (by omega) hk'
      have h2 : 0 < 2 ^ k := Nat.two_pow_pos k
      rw [BitVec.toNat_sub, BitVec.toNat_shiftLeft, BitVec.toNat_ofNat, BitVec.toNat_ofNat, Nat.shiftLeft_eq]
      rw [show (1 % 2 ^ 64) * 2 ^ k = 2 ^ k by simp, Nat.mod_eq_of_lt h1, Nat.mod_eq_of_lt (by omega : 2 ^ k - 1 < 2 ^ 64)]
      omega
    rw [e, BitVec.getLsbD_ofNat, Nat.testBit_two_pow_sub_one]
    by_cases hi : i < k
    · simp [hi]; omega
    · simp [hi]

theorem BitSeq.mk'_wf (k : Nat) (v : Word) (hk : k ≤ 64) : (BitSeq.mk' k v).wf := by
  rw [BitSeq.wf_iff]
  refine ⟨hk, fun i hi => ?_⟩
  have hi' : k ≤ i := hi
  simp [BitSeq.mk', maskBits_getLsbD k i hk, Nat.not_lt.2 hi']

theorem BitSeq.mk'_get (k : Nat) (v : Word) (hk : k ≤ 64) (i : Nat) :
    (BitSeq.mk' k v).bits.getLsbD i = (v.getLsbD i && decide (i < k)) := by
  simp [BitSeq.mk', maskBits_getLsbD k i hk]

theorem BitSeq.toBits_mk' (k : Nat) (v : Word) (hk : k ≤ 64) :
    (BitSeq.mk' k v).toBits = (List.range k).map v.getLsbD := by
  refine List.ext_getElem (by simp [BitSeq.mk']) fun i h1 h2 => ?_
  have hi : i < k := by simpa using h2
  rw [BitSeq.toBits_getElem, BitSeq.mk'_get k v hk]
  simp [hi]

/-- Two bit sequences in the form of R16 are equal exactly when their bits are. -/
theorem BitSeq.ext_bits (c d : BitSeq) (hc : c.wf) (hd : d.wf) (h : c.toBits = d.toBits) : c = d := by
  have hl : c.len = d.len := by rw [← BitSeq.toBits_length c, h, BitSeq.toBits_length]
  obtain ⟨cl, cb⟩ := c
  obtain ⟨dl, db⟩ := d
  simp only at hl
  subst hl
  congr 1
  refine BitVec.eq_of_getLsbD_eq fun i _ => ?_
  by_cases hi : i < cl
  · have := BitSeq.toBits_getElem ⟨cl, cb⟩ i (by simpa using hi)
    have h2 := BitSeq.toBits_getElem ⟨cl, db⟩ i (by simpa using hi)
    simp only [h] at this
    rw [← this, h2]
  · rw [((BitSeq.wf_iff _).1 hc).2 i (Nat.le_of_not_lt hi), ((BitSeq.wf_iff _).1 hd).2 i (Nat.le_of_not_lt hi)]

theorem BitSeq.eq_iff (c d : BitSeq) : c.eq d = true ↔ c = d := by
  obtain ⟨cl, cb⟩ := c
  obtain ⟨dl, db⟩ := d
  simp [BitSeq.eq]

theorem bitsWord_getLsbD (p : List Bool) (i : Nat) (h : i < 64) : (bitsWord p).getLsbD i = p.getD i false := by
  induction p generalizing i with
  | nil => simp [bitsWord]
  | cons b p ih =>
    simp only [bitsWord, BitVec.getLsbD_or, bitWord_getLsbD, BitVec.getLsbD_shiftLeft]
    cases i with
    | zero => simp
    | succ i => simp [h, ih i (by omega)]

theorem BitSeq.ofBits_wf (p : List Bool) (h : p.length ≤ 64) : (BitSeq.ofBits p).wf := by
  rw [BitSeq.wf_iff]
  refine ⟨h, fun i hi => ?_⟩
  have hi' : p.length ≤ i := hi
  by_cases h64 : i < 64
  · simp [BitSeq.ofBits, bitsWord_getLsbD p i h64, hi']
  · exact BitVec.getLsbD_of_ge _ _ (Nat.le_of_not_lt h64)

@[simp] theorem BitSeq.ofBits_len (p : List Bool) : (BitSeq.ofBits p).len = p.length := rfl

theorem BitSeq.toBits_ofBits (p : List Bool) (h : p.length ≤ 64) : (BitSeq.ofBits p).toBits = p := by
  refine List.ext_getElem (by simp) fun i h1 h2 => ?_
  rw [BitSeq.toBits_getElem]
  simp [BitSeq.ofBits, bitsWord_getLsbD p i (by omega), h2]

/-! ### Bytes -/

@[simp] theorem byteBits_length (x : Byte) : (byteBits x).length = 8 := by simp [byteBits]

/-- The byte is the word of its bits. -/
theorem bitsWord_byteBits (x : Byte) : (bitsWord (byteBits x)).setWidth 8 = x := by
  refine BitVec.eq_of_getLsbD_eq fun i hi => ?_
  simp only [BitVec.getLsbD_setWidth, hi, decide_true, Bool.true_and]
  rw [bitsWord_getLsbD _ i (by omega)]
  simp [byteBits, List.getD, hi]

/-- The bits of the byte made of eight bits. -/
theorem byteBits_bitsWord (p : List Bool) (h : p.length = 8) : byteBits ((bitsWord p).setWidth 8) = p := by
  refine List.ext_getElem (by simp [h]) fun i h1 h2 => ?_
  have hi : i < 8 := by omega
  simp [byteBits, hi, bitsWord_getLsbD p i (by omega), h2]

@[simp] theorem beBytes_length (k : Nat) (v : Word) : (beBytes k v).length = k := by simp [beBytes]

@[simp] theorem codeBytes_length (c : BitSeq) : (codeBytes c).length = (c.len + 7) / 8 := by simp [codeBytes]

theorem beBytes_succ (k : Nat) (v : Word) : beBytes (k + 1) v = (v >>> (8 * k)).setWidth 8 :: beBytes k v := by
  simp only [beBytes, List.range_succ_eq_map, List.map_cons, List.map_map]
  congr 1
  refine List.map_congr_left fun j hj => ?_
  have : k + 1 - 1 - (j + 1) = k - 1 - j := by omega
  simp only [Function.comp, Nat.succ_eq_add_one, this]

/-- Reading a big-endian number digit by digit. -/
theorem beWord_append (l : List Byte) (b : Byte) : beWord (l ++ [b]) = (beWord l <<< 8) ||| b.setWidth 64 := by
  simp [beWord]

theorem foldl_be (l : List Byte) (a : Word) :
    l.foldl (fun (acc : Word) (b : Byte) => (acc <<< 8) ||| b.setWidth 64) a = (a <<< (8 * l.length)) ||| beWord l := by
  induction l using List.reverseRecOn with
  | nil => simp [beWord]
  | append_singleton l b ih =>
    rw [List.foldl_append, ih, beWord_append]
    simp only [List.foldl_cons, List.foldl_nil, List.length_append, List.length_singleton]
    rw [BitVec.shiftLeft_or_distrib, ← BitVec.shiftLeft_add, BitVec.or_assoc, Nat.mul_add]

theorem beWord_cons (b : Byte) (l : List Byte) : beWord (b :: l) = (b.setWidth 64 <<< (8 * l.length)) ||| beWord l := by
  rw [beWord, List.foldl_cons, foldl_be]
  simp

/-- The value of the big-endian bytes of v is v below 2^(8k). -/
theorem beWord_beBytes (k : Nat) (v : Word) (i : Nat) (hi : i < 64) :
    (beWord (beBytes k v)).getLsbD i = (decide (i < 8 * k) && v.getLsbD i) := by
  induction k with
  | zero => simp [beBytes, beWord]
  | succ k ih =>
    rw [beBytes_succ, beWord_cons, beBytes_length, BitVec.getLsbD_or, ih]
    simp only [BitVec.getLsbD_shiftLeft, BitVec.getLsbD_setWidth, BitVec.getLsbD_ushiftRight, hi, decide_true, Bool.true_and]
    by_cases h1 : i < 8 * k
    · simp [h1]; omega
    · by_cases h2 : i < 8 * (k + 1)
      · have : 8 * k + (i - 8 * k) = i := by omega
        simp [h1, h2, this, show i - 8 * k < 64 by omega, show i - 8 * k < 8 by omega]
      · simp [h1, h2, show ¬ (i - 8 * k < 8) by omega]

/-- ReadBE undoes BE (R15, R86). -/
theorem beWord_beBytes_of_lt (k : Nat) (v : Word) (h : v.toNat < 2 ^ (8 * k)) : beWord (beBytes k v) = v := by
  refine BitVec.eq_of_getLsbD_eq fun i hi => ?_
  rw [beWord_beBytes k v i hi]
  by_cases hk : i < 8 * k
  · simp [hk]
  · have : v.getLsbD i = false := by
      rw [← BitVec.testBit_toNat]
      exact Nat.testBit_lt_two_pow (Nat.lt_of_lt_of_le h (Nat.pow_le_pow_right (by omega) (Nat.le_of_not_lt hk)))
    simp [hk, this]

/-- Bits of a big-endian value above its bytes are zero. -/
theorem beWord_getLsbD_ge (l : List Byte) (i : Nat) (h : 8 * l.length ≤ i) : (beWord l).getLsbD i = false := by
  induction l with
  | nil => simp [beWord]
  | cons b l ih =>
    simp only [List.length_cons] at h
    rw [beWord_cons, BitVec.getLsbD_or, ih (by omega)]
    simp [BitVec.getLsbD_shiftLeft, BitVec.getLsbD_setWidth, BitVec.getLsbD_of_ge b (i - 8 * l.length) (by omega)]

theorem beWord_toNat_lt (l : List Byte) : (beWord l).toNat < 2 ^ (8 * l.length) :=
  Nat.lt_pow_two_of_testBit _ fun i hi => by rw [BitVec.testBit_toNat]; exact beWord_getLsbD_ge l i hi

/-- BE undoes ReadBE: up to 8 bytes (R15). -/
theorem beBytes_beWord (l : List Byte) (h : l.length ≤ 8) : beBytes l.length (beWord l) = l := by
  induction l with
  | nil => rfl
  | cons b l ih =>
    simp only [List.length_cons] at h
    have hb : ((beWord (b :: l)) >>> (8 * l.length)).setWidth 8 = b := by
      refine BitVec.eq_of_getLsbD_eq fun i hi => ?_
      simp only [BitVec.getLsbD_setWidth, hi, decide_true, Bool.true_and, BitVec.getLsbD_ushiftRight, beWord_cons,
        BitVec.getLsbD_or, BitVec.getLsbD_shiftLeft]
      rw [beWord_getLsbD_ge l _ (by omega)]
      simp [show 8 * l.length + i < 64 by omega, show i < 64 by omega]
    have hl : beBytes l.length (beWord (b :: l)) = beBytes l.length (beWord l) := by
      refine List.map_congr_left fun j hj => ?_
      have hj' : j < l.length := List.mem_range.1 hj
      refine BitVec.eq_of_getLsbD_eq fun i hi => ?_
      simp only [BitVec.getLsbD_setWidth, hi, decide_true, Bool.true_and, BitVec.getLsbD_ushiftRight, beWord_cons,
        BitVec.getLsbD_or, BitVec.getLsbD_shiftLeft]
      simp [show 8 * (l.length - 1 - j) + i < 8 * l.length by omega]
    rw [List.length_cons, beBytes_succ, hb, hl, ih (by omega)]

theorem leWord_getLsbD (l : List Byte) (i : Nat) (h : i < 64) :
    (leWord l).getLsbD i = (l.getD (i / 8) 0).getLsbD (i % 8) := by
  induction l generalizing i with
  | nil => simp [leWord]
  | cons b l ih =>
    simp only [leWord, BitVec.getLsbD_or, BitVec.getLsbD_shiftLeft, BitVec.getLsbD_setWidth, h, decide_true, Bool.true_and]
    rcases Nat.lt_or_ge i 8 with h8 | h8
    · simp [h8, Nat.div_eq_of_lt h8, Nat.mod_eq_of_lt h8]
    · obtain ⟨j, rfl⟩ := Nat.exists_eq_add_of_le h8
      have hq : (8 + j) / 8 = j / 8 + 1 := by omega
      have hm : (8 + j) % 8 = j % 8 := by omega
      rw [hq, hm, BitVec.getLsbD_of_ge b (8 + j) (by omega)]
      simp [ih j (by omega)]

/-- Reading the bytes of a code gives the code back (R243, R247). -/
theorem mk'_codeBytes (c : BitSeq) (h : c.wf) : BitSeq.mk' c.len (leWord (codeBytes c)) = c := by
  have hc := (BitSeq.wf_iff c).1 h
  refine BitSeq.ext_bits _ _ (BitSeq.mk'_wf _ _ hc.1) h ?_
  rw [BitSeq.toBits_mk' _ _ hc.1]
  refine List.map_congr_left fun i hi => ?_
  have hi' : i < c.len := List.mem_range.1 hi
  rw [leWord_getLsbD _ i (by omega), BitSeq.get]
  have hb : i / 8 < (c.len + 7) / 8 := by omega
  have hm : i % 8 < 8 := Nat.mod_lt _ (by omega)
  simp [codeBytes, List.getD, hb, hm, BitVec.getLsbD_ushiftRight, Nat.div_add_mod]

end Sys2Proof.Machine
end

