-- ==== Sys2Proof/Laws/State.lean ====
section
/-! SUPPORT. One lemma per field per update of the state: what the update gives the field, or that it leaves it alone. -/

namespace Sys2Proof.Machine

/-! ### endCommand: The end of a command (R145). -/

@[simp] theorem State.endCommand_params (s : State) : s.endCommand.params = s.params := rfl
@[simp] theorem State.endCommand_width (s : State) : s.endCommand.width = s.width := rfl
@[simp] theorem State.endCommand_bs (s : State) : s.endCommand.bs = s.bs := rfl
@[simp] theorem State.endCommand_ft (s : State) : s.endCommand.ft = s.ft := rfl
@[simp] theorem State.endCommand_ct (s : State) : s.endCommand.ct = s.ct := rfl
@[simp] theorem State.endCommand_etree (s : State) : s.endCommand.etree = s.etree := rfl
@[simp] theorem State.endCommand_dtree (s : State) : s.endCommand.dtree = s.dtree := rfl
@[simp] theorem State.endCommand_packer (s : State) : s.endCommand.packer = s.packer := rfl
@[simp] theorem State.endCommand_decoder (s : State) : s.endCommand.decoder = s.decoder := rfl
@[simp] theorem State.endCommand_latch (s : State) : s.endCommand.latch = s.latch := rfl
@[simp] theorem State.endCommand_regs (s : State) : s.endCommand.regs = s.regs := rfl
@[simp] theorem State.endCommand_done (s : State) : s.endCommand.done = true := rfl
@[simp] theorem State.endCommand_err (s : State) : s.endCommand.err = s.err := rfl
@[simp] theorem State.endCommand_ovr (s : State) : s.endCommand.ovr = s.ovr := rfl
@[simp] theorem State.endCommand_errRec (s : State) : s.endCommand.errRec = s.errRec := rfl
@[simp] theorem State.endCommand_inq (s : State) : s.endCommand.inq = s.inq := rfl
@[simp] theorem State.endCommand_outq (s : State) : s.endCommand.outq = s.outq := rfl
@[simp] theorem State.endCommand_run (s : State) : s.endCommand.run = .idle := rfl
@[simp] theorem State.endCommand_iof (s : State) : s.endCommand.iof = false := rfl
@[simp] theorem State.endCommand_iofSkip (s : State) : s.endCommand.iofSkip = 0 := rfl
@[simp] theorem State.endCommand_wrote (s : State) : s.endCommand.wrote = 0 := rfl
@[simp] theorem State.endCommand_host (s : State) : s.endCommand.host = s.host := rfl

/-! ### complete: complete() (R145). -/

@[simp] theorem State.complete_params (s : State) : s.complete.params = s.params := rfl
@[simp] theorem State.complete_width (s : State) : s.complete.width = s.width := rfl
@[simp] theorem State.complete_bs (s : State) : s.complete.bs = s.bs := rfl
@[simp] theorem State.complete_ft (s : State) : s.complete.ft = s.ft := rfl
@[simp] theorem State.complete_ct (s : State) : s.complete.ct = s.ct := rfl
@[simp] theorem State.complete_etree (s : State) : s.complete.etree = s.etree := rfl
@[simp] theorem State.complete_dtree (s : State) : s.complete.dtree = s.dtree := rfl
@[simp] theorem State.complete_packer (s : State) : s.complete.packer = s.packer := rfl
@[simp] theorem State.complete_decoder (s : State) : s.complete.decoder = s.decoder := rfl
@[simp] theorem State.complete_latch (s : State) : s.complete.latch = s.latch := rfl
@[simp] theorem State.complete_regs (s : State) : s.complete.regs = s.regs := rfl
@[simp] theorem State.complete_done (s : State) : s.complete.done = true := rfl
@[simp] theorem State.complete_err (s : State) : s.complete.err = s.err := rfl
@[simp] theorem State.complete_ovr (s : State) : s.complete.ovr = s.ovr := rfl
@[simp] theorem State.complete_errRec (s : State) : s.complete.errRec = s.errRec := rfl
@[simp] theorem State.complete_inq (s : State) : s.complete.inq = s.inq := rfl
@[simp] theorem State.complete_outq (s : State) : s.complete.outq = s.outq := rfl
@[simp] theorem State.complete_run (s : State) : s.complete.run = .idle := rfl
@[simp] theorem State.complete_iof (s : State) : s.complete.iof = false := rfl
@[simp] theorem State.complete_iofSkip (s : State) : s.complete.iofSkip = 0 := rfl
@[simp] theorem State.complete_wrote (s : State) : s.complete.wrote = 0 := rfl
@[simp] theorem State.complete_host (s : State) : s.complete.host = s.host := rfl

/-! ### raise: Error entry (R323): the record, ERR, and the end of the command; nothing else. -/

@[simp] theorem State.raise_params (s : State) (r : Raise) : (s.raise r).params = s.params := rfl
@[simp] theorem State.raise_width (s : State) (r : Raise) : (s.raise r).width = s.width := rfl
@[simp] theorem State.raise_bs (s : State) (r : Raise) : (s.raise r).bs = s.bs := rfl
@[simp] theorem State.raise_ft (s : State) (r : Raise) : (s.raise r).ft = s.ft := rfl
@[simp] theorem State.raise_ct (s : State) (r : Raise) : (s.raise r).ct = s.ct := rfl
@[simp] theorem State.raise_etree (s : State) (r : Raise) : (s.raise r).etree = s.etree := rfl
@[simp] theorem State.raise_dtree (s : State) (r : Raise) : (s.raise r).dtree = s.dtree := rfl
@[simp] theorem State.raise_packer (s : State) (r : Raise) : (s.raise r).packer = s.packer := rfl
@[simp] theorem State.raise_decoder (s : State) (r : Raise) : (s.raise r).decoder = s.decoder := rfl
@[simp] theorem State.raise_latch (s : State) (r : Raise) : (s.raise r).latch = s.latch := rfl
@[simp] theorem State.raise_regs (s : State) (r : Raise) : (s.raise r).regs = s.regs := rfl
@[simp] theorem State.raise_done (s : State) (r : Raise) : (s.raise r).done = true := rfl
@[simp] theorem State.raise_err (s : State) (r : Raise) : (s.raise r).err = true := rfl
@[simp] theorem State.raise_ovr (s : State) (r : Raise) : (s.raise r).ovr = s.ovr := rfl
@[simp] theorem State.raise_errRec (s : State) (r : Raise) : (s.raise r).errRec = ⟨causeCode r.cause, r.offset, r.expected, r.actual, r.symbol⟩ := rfl
@[simp] theorem State.raise_inq (s : State) (r : Raise) : (s.raise r).inq = s.inq := rfl
@[simp] theorem State.raise_outq (s : State) (r : Raise) : (s.raise r).outq = s.outq := rfl
@[simp] theorem State.raise_run (s : State) (r : Raise) : (s.raise r).run = .idle := rfl
@[simp] theorem State.raise_iof (s : State) (r : Raise) : (s.raise r).iof = false := rfl
@[simp] theorem State.raise_iofSkip (s : State) (r : Raise) : (s.raise r).iofSkip = 0 := rfl
@[simp] theorem State.raise_wrote (s : State) (r : Raise) : (s.raise r).wrote = 0 := rfl
@[simp] theorem State.raise_host (s : State) (r : Raise) : (s.raise r).host = s.host := rfl

/-! ### clearError: The return from an error (R142, R327). -/

@[simp] theorem State.clearError_params (s : State) : s.clearError.params = s.params := rfl
@[simp] theorem State.clearError_width (s : State) : s.clearError.width = s.width := rfl
@[simp] theorem State.clearError_bs (s : State) : s.clearError.bs = s.bs := rfl
@[simp] theorem State.clearError_ft (s : State) : s.clearError.ft = s.ft := rfl
@[simp] theorem State.clearError_ct (s : State) : s.clearError.ct = s.ct := rfl
@[simp] theorem State.clearError_etree (s : State) : s.clearError.etree = s.etree := rfl
@[simp] theorem State.clearError_dtree (s : State) : s.clearError.dtree = s.dtree := rfl
@[simp] theorem State.clearError_packer (s : State) : s.clearError.packer = s.packer := rfl
@[simp] theorem State.clearError_decoder (s : State) : s.clearError.decoder = s.decoder := rfl
@[simp] theorem State.clearError_latch (s : State) : s.clearError.latch = s.latch := rfl
@[simp] theorem State.clearError_regs (s : State) : s.clearError.regs = s.regs := rfl
@[simp] theorem State.clearError_done (s : State) : s.clearError.done = s.done := rfl
@[simp] theorem State.clearError_err (s : State) : s.clearError.err = false := rfl
@[simp] theorem State.clearError_ovr (s : State) : s.clearError.ovr = false := rfl
@[simp] theorem State.clearError_errRec (s : State) : s.clearError.errRec = .zero := rfl
@[simp] theorem State.clearError_inq (s : State) : s.clearError.inq = s.inq := rfl
@[simp] theorem State.clearError_outq (s : State) : s.clearError.outq = s.outq := rfl
@[simp] theorem State.clearError_run (s : State) : s.clearError.run = s.run := rfl
@[simp] theorem State.clearError_iof (s : State) : s.clearError.iof = s.iof := rfl
@[simp] theorem State.clearError_iofSkip (s : State) : s.clearError.iofSkip = s.iofSkip := rfl
@[simp] theorem State.clearError_wrote (s : State) : s.clearError.wrote = s.wrote := rfl
@[simp] theorem State.clearError_host (s : State) : s.clearError.host = s.host := rfl

/-! ### setRes0: RES0 <- v. -/

@[simp] theorem State.setRes0_params (s : State) (v : Word) : (s.setRes0 v).params = s.params := rfl
@[simp] theorem State.setRes0_width (s : State) (v : Word) : (s.setRes0 v).width = s.width := rfl
@[simp] theorem State.setRes0_bs (s : State) (v : Word) : (s.setRes0 v).bs = s.bs := rfl
@[simp] theorem State.setRes0_ft (s : State) (v : Word) : (s.setRes0 v).ft = s.ft := rfl
@[simp] theorem State.setRes0_ct (s : State) (v : Word) : (s.setRes0 v).ct = s.ct := rfl
@[simp] theorem State.setRes0_etree (s : State) (v : Word) : (s.setRes0 v).etree = s.etree := rfl
@[simp] theorem State.setRes0_dtree (s : State) (v : Word) : (s.setRes0 v).dtree = s.dtree := rfl
@[simp] theorem State.setRes0_packer (s : State) (v : Word) : (s.setRes0 v).packer = s.packer := rfl
@[simp] theorem State.setRes0_decoder (s : State) (v : Word) : (s.setRes0 v).decoder = s.decoder := rfl
@[simp] theorem State.setRes0_latch (s : State) (v : Word) : (s.setRes0 v).latch = s.latch := rfl
@[simp] theorem State.setRes0_regs (s : State) (v : Word) : (s.setRes0 v).regs = { s.regs with res0 := v } := rfl
@[simp] theorem State.setRes0_done (s : State) (v : Word) : (s.setRes0 v).done = s.done := rfl
@[simp] theorem State.setRes0_err (s : State) (v : Word) : (s.setRes0 v).err = s.err := rfl
@[simp] theorem State.setRes0_ovr (s : State) (v : Word) : (s.setRes0 v).ovr = s.ovr := rfl
@[simp] theorem State.setRes0_errRec (s : State) (v : Word) : (s.setRes0 v).errRec = s.errRec := rfl
@[simp] theorem State.setRes0_inq (s : State) (v : Word) : (s.setRes0 v).inq = s.inq := rfl
@[simp] theorem State.setRes0_outq (s : State) (v : Word) : (s.setRes0 v).outq = s.outq := rfl
@[simp] theorem State.setRes0_run (s : State) (v : Word) : (s.setRes0 v).run = s.run := rfl
@[simp] theorem State.setRes0_iof (s : State) (v : Word) : (s.setRes0 v).iof = s.iof := rfl
@[simp] theorem State.setRes0_iofSkip (s : State) (v : Word) : (s.setRes0 v).iofSkip = s.iofSkip := rfl
@[simp] theorem State.setRes0_wrote (s : State) (v : Word) : (s.setRes0 v).wrote = s.wrote := rfl
@[simp] theorem State.setRes0_host (s : State) (v : Word) : (s.setRes0 v).host = s.host := rfl

/-! ### setRes: RES0 <- v; RES1 <- w. -/

@[simp] theorem State.setRes_params (s : State) (v w : Word) : (s.setRes v w).params = s.params := rfl
@[simp] theorem State.setRes_width (s : State) (v w : Word) : (s.setRes v w).width = s.width := rfl
@[simp] theorem State.setRes_bs (s : State) (v w : Word) : (s.setRes v w).bs = s.bs := rfl
@[simp] theorem State.setRes_ft (s : State) (v w : Word) : (s.setRes v w).ft = s.ft := rfl
@[simp] theorem State.setRes_ct (s : State) (v w : Word) : (s.setRes v w).ct = s.ct := rfl
@[simp] theorem State.setRes_etree (s : State) (v w : Word) : (s.setRes v w).etree = s.etree := rfl
@[simp] theorem State.setRes_dtree (s : State) (v w : Word) : (s.setRes v w).dtree = s.dtree := rfl
@[simp] theorem State.setRes_packer (s : State) (v w : Word) : (s.setRes v w).packer = s.packer := rfl
@[simp] theorem State.setRes_decoder (s : State) (v w : Word) : (s.setRes v w).decoder = s.decoder := rfl
@[simp] theorem State.setRes_latch (s : State) (v w : Word) : (s.setRes v w).latch = s.latch := rfl
@[simp] theorem State.setRes_regs (s : State) (v w : Word) : (s.setRes v w).regs = { s.regs with res0 := v, res1 := w } := rfl
@[simp] theorem State.setRes_done (s : State) (v w : Word) : (s.setRes v w).done = s.done := rfl
@[simp] theorem State.setRes_err (s : State) (v w : Word) : (s.setRes v w).err = s.err := rfl
@[simp] theorem State.setRes_ovr (s : State) (v w : Word) : (s.setRes v w).ovr = s.ovr := rfl
@[simp] theorem State.setRes_errRec (s : State) (v w : Word) : (s.setRes v w).errRec = s.errRec := rfl
@[simp] theorem State.setRes_inq (s : State) (v w : Word) : (s.setRes v w).inq = s.inq := rfl
@[simp] theorem State.setRes_outq (s : State) (v w : Word) : (s.setRes v w).outq = s.outq := rfl
@[simp] theorem State.setRes_run (s : State) (v w : Word) : (s.setRes v w).run = s.run := rfl
@[simp] theorem State.setRes_iof (s : State) (v w : Word) : (s.setRes v w).iof = s.iof := rfl
@[simp] theorem State.setRes_iofSkip (s : State) (v w : Word) : (s.setRes v w).iofSkip = s.iofSkip := rfl
@[simp] theorem State.setRes_wrote (s : State) (v w : Word) : (s.setRes v w).wrote = s.wrote := rfl
@[simp] theorem State.setRes_host (s : State) (v w : Word) : (s.setRes v w).host = s.host := rfl

/-! ### setBs: BS[i] <- c (R17). -/

@[simp] theorem State.setBs_params (s : State) (i : BsIdx) (c : BitSeq) : (s.setBs i c).params = s.params := rfl
@[simp] theorem State.setBs_width (s : State) (i : BsIdx) (c : BitSeq) : (s.setBs i c).width = s.width := rfl
@[simp] theorem State.setBs_bs (s : State) (i : BsIdx) (c : BitSeq) : (s.setBs i c).bs = s.bs.set i c := rfl
@[simp] theorem State.setBs_ft (s : State) (i : BsIdx) (c : BitSeq) : (s.setBs i c).ft = s.ft := rfl
@[simp] theorem State.setBs_ct (s : State) (i : BsIdx) (c : BitSeq) : (s.setBs i c).ct = s.ct := rfl
@[simp] theorem State.setBs_etree (s : State) (i : BsIdx) (c : BitSeq) : (s.setBs i c).etree = s.etree := rfl
@[simp] theorem State.setBs_dtree (s : State) (i : BsIdx) (c : BitSeq) : (s.setBs i c).dtree = s.dtree := rfl
@[simp] theorem State.setBs_packer (s : State) (i : BsIdx) (c : BitSeq) : (s.setBs i c).packer = s.packer := rfl
@[simp] theorem State.setBs_decoder (s : State) (i : BsIdx) (c : BitSeq) : (s.setBs i c).decoder = s.decoder := rfl
@[simp] theorem State.setBs_latch (s : State) (i : BsIdx) (c : BitSeq) : (s.setBs i c).latch = s.latch := rfl
@[simp] theorem State.setBs_regs (s : State) (i : BsIdx) (c : BitSeq) : (s.setBs i c).regs = s.regs := rfl
@[simp] theorem State.setBs_done (s : State) (i : BsIdx) (c : BitSeq) : (s.setBs i c).done = s.done := rfl
@[simp] theorem State.setBs_err (s : State) (i : BsIdx) (c : BitSeq) : (s.setBs i c).err = s.err := rfl
@[simp] theorem State.setBs_ovr (s : State) (i : BsIdx) (c : BitSeq) : (s.setBs i c).ovr = s.ovr := rfl
@[simp] theorem State.setBs_errRec (s : State) (i : BsIdx) (c : BitSeq) : (s.setBs i c).errRec = s.errRec := rfl
@[simp] theorem State.setBs_inq (s : State) (i : BsIdx) (c : BitSeq) : (s.setBs i c).inq = s.inq := rfl
@[simp] theorem State.setBs_outq (s : State) (i : BsIdx) (c : BitSeq) : (s.setBs i c).outq = s.outq := rfl
@[simp] theorem State.setBs_run (s : State) (i : BsIdx) (c : BitSeq) : (s.setBs i c).run = s.run := rfl
@[simp] theorem State.setBs_iof (s : State) (i : BsIdx) (c : BitSeq) : (s.setBs i c).iof = s.iof := rfl
@[simp] theorem State.setBs_iofSkip (s : State) (i : BsIdx) (c : BitSeq) : (s.setBs i c).iofSkip = s.iofSkip := rfl
@[simp] theorem State.setBs_wrote (s : State) (i : BsIdx) (c : BitSeq) : (s.setBs i c).wrote = s.wrote := rfl
@[simp] theorem State.setBs_host (s : State) (i : BsIdx) (c : BitSeq) : (s.setBs i c).host = s.host := rfl

/-! ### setFt: FT <- m with ETREE invalidated (R191). -/

@[simp] theorem State.setFt_params (s : State) (m : FMap Word) : (s.setFt m).params = s.params := rfl
@[simp] theorem State.setFt_width (s : State) (m : FMap Word) : (s.setFt m).width = s.width := rfl
@[simp] theorem State.setFt_bs (s : State) (m : FMap Word) : (s.setFt m).bs = s.bs := rfl
@[simp] theorem State.setFt_ft (s : State) (m : FMap Word) : (s.setFt m).ft = m := rfl
@[simp] theorem State.setFt_ct (s : State) (m : FMap Word) : (s.setFt m).ct = s.ct := rfl
@[simp] theorem State.setFt_etree (s : State) (m : FMap Word) : (s.setFt m).etree = none := rfl
@[simp] theorem State.setFt_dtree (s : State) (m : FMap Word) : (s.setFt m).dtree = s.dtree := rfl
@[simp] theorem State.setFt_packer (s : State) (m : FMap Word) : (s.setFt m).packer = s.packer := rfl
@[simp] theorem State.setFt_decoder (s : State) (m : FMap Word) : (s.setFt m).decoder = s.decoder := rfl
@[simp] theorem State.setFt_latch (s : State) (m : FMap Word) : (s.setFt m).latch = s.latch := rfl
@[simp] theorem State.setFt_regs (s : State) (m : FMap Word) : (s.setFt m).regs = s.regs := rfl
@[simp] theorem State.setFt_done (s : State) (m : FMap Word) : (s.setFt m).done = s.done := rfl
@[simp] theorem State.setFt_err (s : State) (m : FMap Word) : (s.setFt m).err = s.err := rfl
@[simp] theorem State.setFt_ovr (s : State) (m : FMap Word) : (s.setFt m).ovr = s.ovr := rfl
@[simp] theorem State.setFt_errRec (s : State) (m : FMap Word) : (s.setFt m).errRec = s.errRec := rfl
@[simp] theorem State.setFt_inq (s : State) (m : FMap Word) : (s.setFt m).inq = s.inq := rfl
@[simp] theorem State.setFt_outq (s : State) (m : FMap Word) : (s.setFt m).outq = s.outq := rfl
@[simp] theorem State.setFt_run (s : State) (m : FMap Word) : (s.setFt m).run = s.run := rfl
@[simp] theorem State.setFt_iof (s : State) (m : FMap Word) : (s.setFt m).iof = s.iof := rfl
@[simp] theorem State.setFt_iofSkip (s : State) (m : FMap Word) : (s.setFt m).iofSkip = s.iofSkip := rfl
@[simp] theorem State.setFt_wrote (s : State) (m : FMap Word) : (s.setFt m).wrote = s.wrote := rfl
@[simp] theorem State.setFt_host (s : State) (m : FMap Word) : (s.setFt m).host = s.host := rfl

/-! ### setCt: CT <- m with DTREE invalidated (R220). -/

@[simp] theorem State.setCt_params (s : State) (m : FMap BitSeq) : (s.setCt m).params = s.params := rfl
@[simp] theorem State.setCt_width (s : State) (m : FMap BitSeq) : (s.setCt m).width = s.width := rfl
@[simp] theorem State.setCt_bs (s : State) (m : FMap BitSeq) : (s.setCt m).bs = s.bs := rfl
@[simp] theorem State.setCt_ft (s : State) (m : FMap BitSeq) : (s.setCt m).ft = s.ft := rfl
@[simp] theorem State.setCt_ct (s : State) (m : FMap BitSeq) : (s.setCt m).ct = m := rfl
@[simp] theorem State.setCt_etree (s : State) (m : FMap BitSeq) : (s.setCt m).etree = s.etree := rfl
@[simp] theorem State.setCt_dtree (s : State) (m : FMap BitSeq) : (s.setCt m).dtree = none := rfl
@[simp] theorem State.setCt_packer (s : State) (m : FMap BitSeq) : (s.setCt m).packer = s.packer := rfl
@[simp] theorem State.setCt_decoder (s : State) (m : FMap BitSeq) : (s.setCt m).decoder = s.decoder := rfl
@[simp] theorem State.setCt_latch (s : State) (m : FMap BitSeq) : (s.setCt m).latch = s.latch := rfl
@[simp] theorem State.setCt_regs (s : State) (m : FMap BitSeq) : (s.setCt m).regs = s.regs := rfl
@[simp] theorem State.setCt_done (s : State) (m : FMap BitSeq) : (s.setCt m).done = s.done := rfl
@[simp] theorem State.setCt_err (s : State) (m : FMap BitSeq) : (s.setCt m).err = s.err := rfl
@[simp] theorem State.setCt_ovr (s : State) (m : FMap BitSeq) : (s.setCt m).ovr = s.ovr := rfl
@[simp] theorem State.setCt_errRec (s : State) (m : FMap BitSeq) : (s.setCt m).errRec = s.errRec := rfl
@[simp] theorem State.setCt_inq (s : State) (m : FMap BitSeq) : (s.setCt m).inq = s.inq := rfl
@[simp] theorem State.setCt_outq (s : State) (m : FMap BitSeq) : (s.setCt m).outq = s.outq := rfl
@[simp] theorem State.setCt_run (s : State) (m : FMap BitSeq) : (s.setCt m).run = s.run := rfl
@[simp] theorem State.setCt_iof (s : State) (m : FMap BitSeq) : (s.setCt m).iof = s.iof := rfl
@[simp] theorem State.setCt_iofSkip (s : State) (m : FMap BitSeq) : (s.setCt m).iofSkip = s.iofSkip := rfl
@[simp] theorem State.setCt_wrote (s : State) (m : FMap BitSeq) : (s.setCt m).wrote = s.wrote := rfl
@[simp] theorem State.setCt_host (s : State) (m : FMap BitSeq) : (s.setCt m).host = s.host := rfl

/-! ### accept: Acceptance (R144). -/

@[simp] theorem State.accept_params (s : State) (w : BitVec 32) : (s.accept w).params = s.params := rfl
@[simp] theorem State.accept_width (s : State) (w : BitVec 32) : (s.accept w).width = s.width := rfl
@[simp] theorem State.accept_bs (s : State) (w : BitVec 32) : (s.accept w).bs = s.bs := rfl
@[simp] theorem State.accept_ft (s : State) (w : BitVec 32) : (s.accept w).ft = s.ft := rfl
@[simp] theorem State.accept_ct (s : State) (w : BitVec 32) : (s.accept w).ct = s.ct := rfl
@[simp] theorem State.accept_etree (s : State) (w : BitVec 32) : (s.accept w).etree = s.etree := rfl
@[simp] theorem State.accept_dtree (s : State) (w : BitVec 32) : (s.accept w).dtree = s.dtree := rfl
@[simp] theorem State.accept_packer (s : State) (w : BitVec 32) : (s.accept w).packer = s.packer := rfl
@[simp] theorem State.accept_decoder (s : State) (w : BitVec 32) : (s.accept w).decoder = s.decoder := rfl
@[simp] theorem State.accept_latch (s : State) (w : BitVec 32) : (s.accept w).latch = ⟨s.regs.arg0, s.regs.arg1, s.regs.bitlimit⟩ := rfl
@[simp] theorem State.accept_regs (s : State) (w : BitVec 32) : (s.accept w).regs = s.regs := rfl
@[simp] theorem State.accept_done (s : State) (w : BitVec 32) : (s.accept w).done = false := rfl
@[simp] theorem State.accept_err (s : State) (w : BitVec 32) : (s.accept w).err = s.err := rfl
@[simp] theorem State.accept_ovr (s : State) (w : BitVec 32) : (s.accept w).ovr = s.ovr := rfl
@[simp] theorem State.accept_errRec (s : State) (w : BitVec 32) : (s.accept w).errRec = s.errRec := rfl
@[simp] theorem State.accept_inq (s : State) (w : BitVec 32) : (s.accept w).inq = s.inq := rfl
@[simp] theorem State.accept_outq (s : State) (w : BitVec 32) : (s.accept w).outq = s.outq := rfl
@[simp] theorem State.accept_run (s : State) (w : BitVec 32) : (s.accept w).run = .accepted w := rfl
@[simp] theorem State.accept_iof (s : State) (w : BitVec 32) : (s.accept w).iof = false := rfl
@[simp] theorem State.accept_iofSkip (s : State) (w : BitVec 32) : (s.accept w).iofSkip = 0 := rfl
@[simp] theorem State.accept_wrote (s : State) (w : BitVec 32) : (s.accept w).wrote = 0 := rfl
@[simp] theorem State.accept_host (s : State) (w : BitVec 32) : (s.accept w).host = s.host := rfl

/-! ### goOn: The running command goes on with todo. -/

@[simp] theorem State.goOn_params (s : State) (todo : List Micro) : (s.goOn todo).params = s.params := rfl
@[simp] theorem State.goOn_width (s : State) (todo : List Micro) : (s.goOn todo).width = s.width := rfl
@[simp] theorem State.goOn_bs (s : State) (todo : List Micro) : (s.goOn todo).bs = s.bs := rfl
@[simp] theorem State.goOn_ft (s : State) (todo : List Micro) : (s.goOn todo).ft = s.ft := rfl
@[simp] theorem State.goOn_ct (s : State) (todo : List Micro) : (s.goOn todo).ct = s.ct := rfl
@[simp] theorem State.goOn_etree (s : State) (todo : List Micro) : (s.goOn todo).etree = s.etree := rfl
@[simp] theorem State.goOn_dtree (s : State) (todo : List Micro) : (s.goOn todo).dtree = s.dtree := rfl
@[simp] theorem State.goOn_packer (s : State) (todo : List Micro) : (s.goOn todo).packer = s.packer := rfl
@[simp] theorem State.goOn_decoder (s : State) (todo : List Micro) : (s.goOn todo).decoder = s.decoder := rfl
@[simp] theorem State.goOn_latch (s : State) (todo : List Micro) : (s.goOn todo).latch = s.latch := rfl
@[simp] theorem State.goOn_regs (s : State) (todo : List Micro) : (s.goOn todo).regs = s.regs := rfl
@[simp] theorem State.goOn_done (s : State) (todo : List Micro) : (s.goOn todo).done = s.done := rfl
@[simp] theorem State.goOn_err (s : State) (todo : List Micro) : (s.goOn todo).err = s.err := rfl
@[simp] theorem State.goOn_ovr (s : State) (todo : List Micro) : (s.goOn todo).ovr = s.ovr := rfl
@[simp] theorem State.goOn_errRec (s : State) (todo : List Micro) : (s.goOn todo).errRec = s.errRec := rfl
@[simp] theorem State.goOn_inq (s : State) (todo : List Micro) : (s.goOn todo).inq = s.inq := rfl
@[simp] theorem State.goOn_outq (s : State) (todo : List Micro) : (s.goOn todo).outq = s.outq := rfl
@[simp] theorem State.goOn_run (s : State) (todo : List Micro) : (s.goOn todo).run = .running todo := rfl
@[simp] theorem State.goOn_iof (s : State) (todo : List Micro) : (s.goOn todo).iof = s.iof := rfl
@[simp] theorem State.goOn_iofSkip (s : State) (todo : List Micro) : (s.goOn todo).iofSkip = s.iofSkip := rfl
@[simp] theorem State.goOn_wrote (s : State) (todo : List Micro) : (s.goOn todo).wrote = s.wrote := rfl
@[simp] theorem State.goOn_host (s : State) (todo : List Micro) : (s.goOn todo).host = s.host := rfl

/-! ### clearPB: PB <- 0; PBN <- 0 (R280). -/

@[simp] theorem State.clearPB_params (s : State) : s.clearPB.params = s.params := rfl
@[simp] theorem State.clearPB_width (s : State) : s.clearPB.width = s.width := rfl
@[simp] theorem State.clearPB_bs (s : State) : s.clearPB.bs = s.bs := rfl
@[simp] theorem State.clearPB_ft (s : State) : s.clearPB.ft = s.ft := rfl
@[simp] theorem State.clearPB_ct (s : State) : s.clearPB.ct = s.ct := rfl
@[simp] theorem State.clearPB_etree (s : State) : s.clearPB.etree = s.etree := rfl
@[simp] theorem State.clearPB_dtree (s : State) : s.clearPB.dtree = s.dtree := rfl
@[simp] theorem State.clearPB_packer (s : State) : s.clearPB.packer = { s.packer with pb := 0, pbn := 0 } := rfl
@[simp] theorem State.clearPB_decoder (s : State) : s.clearPB.decoder = s.decoder := rfl
@[simp] theorem State.clearPB_latch (s : State) : s.clearPB.latch = s.latch := rfl
@[simp] theorem State.clearPB_regs (s : State) : s.clearPB.regs = s.regs := rfl
@[simp] theorem State.clearPB_done (s : State) : s.clearPB.done = s.done := rfl
@[simp] theorem State.clearPB_err (s : State) : s.clearPB.err = s.err := rfl
@[simp] theorem State.clearPB_ovr (s : State) : s.clearPB.ovr = s.ovr := rfl
@[simp] theorem State.clearPB_errRec (s : State) : s.clearPB.errRec = s.errRec := rfl
@[simp] theorem State.clearPB_inq (s : State) : s.clearPB.inq = s.inq := rfl
@[simp] theorem State.clearPB_outq (s : State) : s.clearPB.outq = s.outq := rfl
@[simp] theorem State.clearPB_run (s : State) : s.clearPB.run = s.run := rfl
@[simp] theorem State.clearPB_iof (s : State) : s.clearPB.iof = s.iof := rfl
@[simp] theorem State.clearPB_iofSkip (s : State) : s.clearPB.iofSkip = s.iofSkip := rfl
@[simp] theorem State.clearPB_wrote (s : State) : s.clearPB.wrote = s.wrote := rfl
@[simp] theorem State.clearPB_host (s : State) : s.clearPB.host = s.host := rfl

/-! ### rootDecoder: CUR <- empty; ACC <- empty (R300). -/

@[simp] theorem State.rootDecoder_params (s : State) : s.rootDecoder.params = s.params := rfl
@[simp] theorem State.rootDecoder_width (s : State) : s.rootDecoder.width = s.width := rfl
@[simp] theorem State.rootDecoder_bs (s : State) : s.rootDecoder.bs = s.bs := rfl
@[simp] theorem State.rootDecoder_ft (s : State) : s.rootDecoder.ft = s.ft := rfl
@[simp] theorem State.rootDecoder_ct (s : State) : s.rootDecoder.ct = s.ct := rfl
@[simp] theorem State.rootDecoder_etree (s : State) : s.rootDecoder.etree = s.etree := rfl
@[simp] theorem State.rootDecoder_dtree (s : State) : s.rootDecoder.dtree = s.dtree := rfl
@[simp] theorem State.rootDecoder_packer (s : State) : s.rootDecoder.packer = s.packer := rfl
@[simp] theorem State.rootDecoder_decoder (s : State) : s.rootDecoder.decoder = { s.decoder with cur := .empty, acc := .empty } := rfl
@[simp] theorem State.rootDecoder_latch (s : State) : s.rootDecoder.latch = s.latch := rfl
@[simp] theorem State.rootDecoder_regs (s : State) : s.rootDecoder.regs = s.regs := rfl
@[simp] theorem State.rootDecoder_done (s : State) : s.rootDecoder.done = s.done := rfl
@[simp] theorem State.rootDecoder_err (s : State) : s.rootDecoder.err = s.err := rfl
@[simp] theorem State.rootDecoder_ovr (s : State) : s.rootDecoder.ovr = s.ovr := rfl
@[simp] theorem State.rootDecoder_errRec (s : State) : s.rootDecoder.errRec = s.errRec := rfl
@[simp] theorem State.rootDecoder_inq (s : State) : s.rootDecoder.inq = s.inq := rfl
@[simp] theorem State.rootDecoder_outq (s : State) : s.rootDecoder.outq = s.outq := rfl
@[simp] theorem State.rootDecoder_run (s : State) : s.rootDecoder.run = s.run := rfl
@[simp] theorem State.rootDecoder_iof (s : State) : s.rootDecoder.iof = s.iof := rfl
@[simp] theorem State.rootDecoder_iofSkip (s : State) : s.rootDecoder.iofSkip = s.iofSkip := rfl
@[simp] theorem State.rootDecoder_wrote (s : State) : s.rootDecoder.wrote = s.wrote := rfl
@[simp] theorem State.rootDecoder_host (s : State) : s.rootDecoder.host = s.host := rfl

/-! ### mismatched: MISMATCH <- 1, and back to the root (R300). -/

@[simp] theorem State.mismatched_params (s : State) : s.mismatched.params = s.params := rfl
@[simp] theorem State.mismatched_width (s : State) : s.mismatched.width = s.width := rfl
@[simp] theorem State.mismatched_bs (s : State) : s.mismatched.bs = s.bs := rfl
@[simp] theorem State.mismatched_ft (s : State) : s.mismatched.ft = s.ft := rfl
@[simp] theorem State.mismatched_ct (s : State) : s.mismatched.ct = s.ct := rfl
@[simp] theorem State.mismatched_etree (s : State) : s.mismatched.etree = s.etree := rfl
@[simp] theorem State.mismatched_dtree (s : State) : s.mismatched.dtree = s.dtree := rfl
@[simp] theorem State.mismatched_packer (s : State) : s.mismatched.packer = s.packer := rfl
@[simp] theorem State.mismatched_decoder (s : State) : s.mismatched.decoder = { s.decoder with cur := .empty, acc := .empty, mismatch := true } := rfl
@[simp] theorem State.mismatched_latch (s : State) : s.mismatched.latch = s.latch := rfl
@[simp] theorem State.mismatched_regs (s : State) : s.mismatched.regs = s.regs := rfl
@[simp] theorem State.mismatched_done (s : State) : s.mismatched.done = s.done := rfl
@[simp] theorem State.mismatched_err (s : State) : s.mismatched.err = s.err := rfl
@[simp] theorem State.mismatched_ovr (s : State) : s.mismatched.ovr = s.ovr := rfl
@[simp] theorem State.mismatched_errRec (s : State) : s.mismatched.errRec = s.errRec := rfl
@[simp] theorem State.mismatched_inq (s : State) : s.mismatched.inq = s.inq := rfl
@[simp] theorem State.mismatched_outq (s : State) : s.mismatched.outq = s.outq := rfl
@[simp] theorem State.mismatched_run (s : State) : s.mismatched.run = s.run := rfl
@[simp] theorem State.mismatched_iof (s : State) : s.mismatched.iof = s.iof := rfl
@[simp] theorem State.mismatched_iofSkip (s : State) : s.mismatched.iofSkip = s.iofSkip := rfl
@[simp] theorem State.mismatched_wrote (s : State) : s.mismatched.wrote = s.wrote := rfl
@[simp] theorem State.mismatched_host (s : State) : s.mismatched.host = s.host := rfl

/-! ### setPacker: The packer's state becomes p. -/

@[simp] theorem State.setPacker_params (s : State) (p : Packer) : (s.setPacker p).params = s.params := rfl
@[simp] theorem State.setPacker_width (s : State) (p : Packer) : (s.setPacker p).width = s.width := rfl
@[simp] theorem State.setPacker_bs (s : State) (p : Packer) : (s.setPacker p).bs = s.bs := rfl
@[simp] theorem State.setPacker_ft (s : State) (p : Packer) : (s.setPacker p).ft = s.ft := rfl
@[simp] theorem State.setPacker_ct (s : State) (p : Packer) : (s.setPacker p).ct = s.ct := rfl
@[simp] theorem State.setPacker_etree (s : State) (p : Packer) : (s.setPacker p).etree = s.etree := rfl
@[simp] theorem State.setPacker_dtree (s : State) (p : Packer) : (s.setPacker p).dtree = s.dtree := rfl
@[simp] theorem State.setPacker_packer (s : State) (p : Packer) : (s.setPacker p).packer = p := rfl
@[simp] theorem State.setPacker_decoder (s : State) (p : Packer) : (s.setPacker p).decoder = s.decoder := rfl
@[simp] theorem State.setPacker_latch (s : State) (p : Packer) : (s.setPacker p).latch = s.latch := rfl
@[simp] theorem State.setPacker_regs (s : State) (p : Packer) : (s.setPacker p).regs = s.regs := rfl
@[simp] theorem State.setPacker_done (s : State) (p : Packer) : (s.setPacker p).done = s.done := rfl
@[simp] theorem State.setPacker_err (s : State) (p : Packer) : (s.setPacker p).err = s.err := rfl
@[simp] theorem State.setPacker_ovr (s : State) (p : Packer) : (s.setPacker p).ovr = s.ovr := rfl
@[simp] theorem State.setPacker_errRec (s : State) (p : Packer) : (s.setPacker p).errRec = s.errRec := rfl
@[simp] theorem State.setPacker_inq (s : State) (p : Packer) : (s.setPacker p).inq = s.inq := rfl
@[simp] theorem State.setPacker_outq (s : State) (p : Packer) : (s.setPacker p).outq = s.outq := rfl
@[simp] theorem State.setPacker_run (s : State) (p : Packer) : (s.setPacker p).run = s.run := rfl
@[simp] theorem State.setPacker_iof (s : State) (p : Packer) : (s.setPacker p).iof = s.iof := rfl
@[simp] theorem State.setPacker_iofSkip (s : State) (p : Packer) : (s.setPacker p).iofSkip = s.iofSkip := rfl
@[simp] theorem State.setPacker_wrote (s : State) (p : Packer) : (s.setPacker p).wrote = s.wrote := rfl
@[simp] theorem State.setPacker_host (s : State) (p : Packer) : (s.setPacker p).host = s.host := rfl

/-! ### setDecoder: The decoder's state becomes d. -/

@[simp] theorem State.setDecoder_params (s : State) (d : Decoder) : (s.setDecoder d).params = s.params := rfl
@[simp] theorem State.setDecoder_width (s : State) (d : Decoder) : (s.setDecoder d).width = s.width := rfl
@[simp] theorem State.setDecoder_bs (s : State) (d : Decoder) : (s.setDecoder d).bs = s.bs := rfl
@[simp] theorem State.setDecoder_ft (s : State) (d : Decoder) : (s.setDecoder d).ft = s.ft := rfl
@[simp] theorem State.setDecoder_ct (s : State) (d : Decoder) : (s.setDecoder d).ct = s.ct := rfl
@[simp] theorem State.setDecoder_etree (s : State) (d : Decoder) : (s.setDecoder d).etree = s.etree := rfl
@[simp] theorem State.setDecoder_dtree (s : State) (d : Decoder) : (s.setDecoder d).dtree = s.dtree := rfl
@[simp] theorem State.setDecoder_packer (s : State) (d : Decoder) : (s.setDecoder d).packer = s.packer := rfl
@[simp] theorem State.setDecoder_decoder (s : State) (d : Decoder) : (s.setDecoder d).decoder = d := rfl
@[simp] theorem State.setDecoder_latch (s : State) (d : Decoder) : (s.setDecoder d).latch = s.latch := rfl
@[simp] theorem State.setDecoder_regs (s : State) (d : Decoder) : (s.setDecoder d).regs = s.regs := rfl
@[simp] theorem State.setDecoder_done (s : State) (d : Decoder) : (s.setDecoder d).done = s.done := rfl
@[simp] theorem State.setDecoder_err (s : State) (d : Decoder) : (s.setDecoder d).err = s.err := rfl
@[simp] theorem State.setDecoder_ovr (s : State) (d : Decoder) : (s.setDecoder d).ovr = s.ovr := rfl
@[simp] theorem State.setDecoder_errRec (s : State) (d : Decoder) : (s.setDecoder d).errRec = s.errRec := rfl
@[simp] theorem State.setDecoder_inq (s : State) (d : Decoder) : (s.setDecoder d).inq = s.inq := rfl
@[simp] theorem State.setDecoder_outq (s : State) (d : Decoder) : (s.setDecoder d).outq = s.outq := rfl
@[simp] theorem State.setDecoder_run (s : State) (d : Decoder) : (s.setDecoder d).run = s.run := rfl
@[simp] theorem State.setDecoder_iof (s : State) (d : Decoder) : (s.setDecoder d).iof = s.iof := rfl
@[simp] theorem State.setDecoder_iofSkip (s : State) (d : Decoder) : (s.setDecoder d).iofSkip = s.iofSkip := rfl
@[simp] theorem State.setDecoder_wrote (s : State) (d : Decoder) : (s.setDecoder d).wrote = s.wrote := rfl
@[simp] theorem State.setDecoder_host (s : State) (d : Decoder) : (s.setDecoder d).host = s.host := rfl

/-! ### setEtree: ETREE <- t. -/

@[simp] theorem State.setEtree_params (s : State) (t : Option ETree) : (s.setEtree t).params = s.params := rfl
@[simp] theorem State.setEtree_width (s : State) (t : Option ETree) : (s.setEtree t).width = s.width := rfl
@[simp] theorem State.setEtree_bs (s : State) (t : Option ETree) : (s.setEtree t).bs = s.bs := rfl
@[simp] theorem State.setEtree_ft (s : State) (t : Option ETree) : (s.setEtree t).ft = s.ft := rfl
@[simp] theorem State.setEtree_ct (s : State) (t : Option ETree) : (s.setEtree t).ct = s.ct := rfl
@[simp] theorem State.setEtree_etree (s : State) (t : Option ETree) : (s.setEtree t).etree = t := rfl
@[simp] theorem State.setEtree_dtree (s : State) (t : Option ETree) : (s.setEtree t).dtree = s.dtree := rfl
@[simp] theorem State.setEtree_packer (s : State) (t : Option ETree) : (s.setEtree t).packer = s.packer := rfl
@[simp] theorem State.setEtree_decoder (s : State) (t : Option ETree) : (s.setEtree t).decoder = s.decoder := rfl
@[simp] theorem State.setEtree_latch (s : State) (t : Option ETree) : (s.setEtree t).latch = s.latch := rfl
@[simp] theorem State.setEtree_regs (s : State) (t : Option ETree) : (s.setEtree t).regs = s.regs := rfl
@[simp] theorem State.setEtree_done (s : State) (t : Option ETree) : (s.setEtree t).done = s.done := rfl
@[simp] theorem State.setEtree_err (s : State) (t : Option ETree) : (s.setEtree t).err = s.err := rfl
@[simp] theorem State.setEtree_ovr (s : State) (t : Option ETree) : (s.setEtree t).ovr = s.ovr := rfl
@[simp] theorem State.setEtree_errRec (s : State) (t : Option ETree) : (s.setEtree t).errRec = s.errRec := rfl
@[simp] theorem State.setEtree_inq (s : State) (t : Option ETree) : (s.setEtree t).inq = s.inq := rfl
@[simp] theorem State.setEtree_outq (s : State) (t : Option ETree) : (s.setEtree t).outq = s.outq := rfl
@[simp] theorem State.setEtree_run (s : State) (t : Option ETree) : (s.setEtree t).run = s.run := rfl
@[simp] theorem State.setEtree_iof (s : State) (t : Option ETree) : (s.setEtree t).iof = s.iof := rfl
@[simp] theorem State.setEtree_iofSkip (s : State) (t : Option ETree) : (s.setEtree t).iofSkip = s.iofSkip := rfl
@[simp] theorem State.setEtree_wrote (s : State) (t : Option ETree) : (s.setEtree t).wrote = s.wrote := rfl
@[simp] theorem State.setEtree_host (s : State) (t : Option ETree) : (s.setEtree t).host = s.host := rfl

/-! ### setDtree: DTREE <- t. -/

@[simp] theorem State.setDtree_params (s : State) (t : Option DTree) : (s.setDtree t).params = s.params := rfl
@[simp] theorem State.setDtree_width (s : State) (t : Option DTree) : (s.setDtree t).width = s.width := rfl
@[simp] theorem State.setDtree_bs (s : State) (t : Option DTree) : (s.setDtree t).bs = s.bs := rfl
@[simp] theorem State.setDtree_ft (s : State) (t : Option DTree) : (s.setDtree t).ft = s.ft := rfl
@[simp] theorem State.setDtree_ct (s : State) (t : Option DTree) : (s.setDtree t).ct = s.ct := rfl
@[simp] theorem State.setDtree_etree (s : State) (t : Option DTree) : (s.setDtree t).etree = s.etree := rfl
@[simp] theorem State.setDtree_dtree (s : State) (t : Option DTree) : (s.setDtree t).dtree = t := rfl
@[simp] theorem State.setDtree_packer (s : State) (t : Option DTree) : (s.setDtree t).packer = s.packer := rfl
@[simp] theorem State.setDtree_decoder (s : State) (t : Option DTree) : (s.setDtree t).decoder = s.decoder := rfl
@[simp] theorem State.setDtree_latch (s : State) (t : Option DTree) : (s.setDtree t).latch = s.latch := rfl
@[simp] theorem State.setDtree_regs (s : State) (t : Option DTree) : (s.setDtree t).regs = s.regs := rfl
@[simp] theorem State.setDtree_done (s : State) (t : Option DTree) : (s.setDtree t).done = s.done := rfl
@[simp] theorem State.setDtree_err (s : State) (t : Option DTree) : (s.setDtree t).err = s.err := rfl
@[simp] theorem State.setDtree_ovr (s : State) (t : Option DTree) : (s.setDtree t).ovr = s.ovr := rfl
@[simp] theorem State.setDtree_errRec (s : State) (t : Option DTree) : (s.setDtree t).errRec = s.errRec := rfl
@[simp] theorem State.setDtree_inq (s : State) (t : Option DTree) : (s.setDtree t).inq = s.inq := rfl
@[simp] theorem State.setDtree_outq (s : State) (t : Option DTree) : (s.setDtree t).outq = s.outq := rfl
@[simp] theorem State.setDtree_run (s : State) (t : Option DTree) : (s.setDtree t).run = s.run := rfl
@[simp] theorem State.setDtree_iof (s : State) (t : Option DTree) : (s.setDtree t).iof = s.iof := rfl
@[simp] theorem State.setDtree_iofSkip (s : State) (t : Option DTree) : (s.setDtree t).iofSkip = s.iofSkip := rfl
@[simp] theorem State.setDtree_wrote (s : State) (t : Option DTree) : (s.setDtree t).wrote = s.wrote := rfl
@[simp] theorem State.setDtree_host (s : State) (t : Option DTree) : (s.setDtree t).host = s.host := rfl

/-! ### putFt: FT <- m within FREQ_SCAN. -/

@[simp] theorem State.putFt_params (s : State) (m : FMap Word) : (s.putFt m).params = s.params := rfl
@[simp] theorem State.putFt_width (s : State) (m : FMap Word) : (s.putFt m).width = s.width := rfl
@[simp] theorem State.putFt_bs (s : State) (m : FMap Word) : (s.putFt m).bs = s.bs := rfl
@[simp] theorem State.putFt_ft (s : State) (m : FMap Word) : (s.putFt m).ft = m := rfl
@[simp] theorem State.putFt_ct (s : State) (m : FMap Word) : (s.putFt m).ct = s.ct := rfl
@[simp] theorem State.putFt_etree (s : State) (m : FMap Word) : (s.putFt m).etree = s.etree := rfl
@[simp] theorem State.putFt_dtree (s : State) (m : FMap Word) : (s.putFt m).dtree = s.dtree := rfl
@[simp] theorem State.putFt_packer (s : State) (m : FMap Word) : (s.putFt m).packer = s.packer := rfl
@[simp] theorem State.putFt_decoder (s : State) (m : FMap Word) : (s.putFt m).decoder = s.decoder := rfl
@[simp] theorem State.putFt_latch (s : State) (m : FMap Word) : (s.putFt m).latch = s.latch := rfl
@[simp] theorem State.putFt_regs (s : State) (m : FMap Word) : (s.putFt m).regs = s.regs := rfl
@[simp] theorem State.putFt_done (s : State) (m : FMap Word) : (s.putFt m).done = s.done := rfl
@[simp] theorem State.putFt_err (s : State) (m : FMap Word) : (s.putFt m).err = s.err := rfl
@[simp] theorem State.putFt_ovr (s : State) (m : FMap Word) : (s.putFt m).ovr = s.ovr := rfl
@[simp] theorem State.putFt_errRec (s : State) (m : FMap Word) : (s.putFt m).errRec = s.errRec := rfl
@[simp] theorem State.putFt_inq (s : State) (m : FMap Word) : (s.putFt m).inq = s.inq := rfl
@[simp] theorem State.putFt_outq (s : State) (m : FMap Word) : (s.putFt m).outq = s.outq := rfl
@[simp] theorem State.putFt_run (s : State) (m : FMap Word) : (s.putFt m).run = s.run := rfl
@[simp] theorem State.putFt_iof (s : State) (m : FMap Word) : (s.putFt m).iof = s.iof := rfl
@[simp] theorem State.putFt_iofSkip (s : State) (m : FMap Word) : (s.putFt m).iofSkip = s.iofSkip := rfl
@[simp] theorem State.putFt_wrote (s : State) (m : FMap Word) : (s.putFt m).wrote = s.wrote := rfl
@[simp] theorem State.putFt_host (s : State) (m : FMap Word) : (s.putFt m).host = s.host := rfl

/-! ### putCt: CT <- m within DESER_TABLE. -/

@[simp] theorem State.putCt_params (s : State) (m : FMap BitSeq) : (s.putCt m).params = s.params := rfl
@[simp] theorem State.putCt_width (s : State) (m : FMap BitSeq) : (s.putCt m).width = s.width := rfl
@[simp] theorem State.putCt_bs (s : State) (m : FMap BitSeq) : (s.putCt m).bs = s.bs := rfl
@[simp] theorem State.putCt_ft (s : State) (m : FMap BitSeq) : (s.putCt m).ft = s.ft := rfl
@[simp] theorem State.putCt_ct (s : State) (m : FMap BitSeq) : (s.putCt m).ct = m := rfl
@[simp] theorem State.putCt_etree (s : State) (m : FMap BitSeq) : (s.putCt m).etree = s.etree := rfl
@[simp] theorem State.putCt_dtree (s : State) (m : FMap BitSeq) : (s.putCt m).dtree = s.dtree := rfl
@[simp] theorem State.putCt_packer (s : State) (m : FMap BitSeq) : (s.putCt m).packer = s.packer := rfl
@[simp] theorem State.putCt_decoder (s : State) (m : FMap BitSeq) : (s.putCt m).decoder = s.decoder := rfl
@[simp] theorem State.putCt_latch (s : State) (m : FMap BitSeq) : (s.putCt m).latch = s.latch := rfl
@[simp] theorem State.putCt_regs (s : State) (m : FMap BitSeq) : (s.putCt m).regs = s.regs := rfl
@[simp] theorem State.putCt_done (s : State) (m : FMap BitSeq) : (s.putCt m).done = s.done := rfl
@[simp] theorem State.putCt_err (s : State) (m : FMap BitSeq) : (s.putCt m).err = s.err := rfl
@[simp] theorem State.putCt_ovr (s : State) (m : FMap BitSeq) : (s.putCt m).ovr = s.ovr := rfl
@[simp] theorem State.putCt_errRec (s : State) (m : FMap BitSeq) : (s.putCt m).errRec = s.errRec := rfl
@[simp] theorem State.putCt_inq (s : State) (m : FMap BitSeq) : (s.putCt m).inq = s.inq := rfl
@[simp] theorem State.putCt_outq (s : State) (m : FMap BitSeq) : (s.putCt m).outq = s.outq := rfl
@[simp] theorem State.putCt_run (s : State) (m : FMap BitSeq) : (s.putCt m).run = s.run := rfl
@[simp] theorem State.putCt_iof (s : State) (m : FMap BitSeq) : (s.putCt m).iof = s.iof := rfl
@[simp] theorem State.putCt_iofSkip (s : State) (m : FMap BitSeq) : (s.putCt m).iofSkip = s.iofSkip := rfl
@[simp] theorem State.putCt_wrote (s : State) (m : FMap BitSeq) : (s.putCt m).wrote = s.wrote := rfl
@[simp] theorem State.putCt_host (s : State) (m : FMap BitSeq) : (s.putCt m).host = s.host := rfl

/-! ### took: A token has been taken (R82). -/

@[simp] theorem State.took_params (s : State) (rest : List Token) : (s.took rest).params = s.params := rfl
@[simp] theorem State.took_width (s : State) (rest : List Token) : (s.took rest).width = s.width := rfl
@[simp] theorem State.took_bs (s : State) (rest : List Token) : (s.took rest).bs = s.bs := rfl
@[simp] theorem State.took_ft (s : State) (rest : List Token) : (s.took rest).ft = s.ft := rfl
@[simp] theorem State.took_ct (s : State) (rest : List Token) : (s.took rest).ct = s.ct := rfl
@[simp] theorem State.took_etree (s : State) (rest : List Token) : (s.took rest).etree = s.etree := rfl
@[simp] theorem State.took_dtree (s : State) (rest : List Token) : (s.took rest).dtree = s.dtree := rfl
@[simp] theorem State.took_packer (s : State) (rest : List Token) : (s.took rest).packer = s.packer := rfl
@[simp] theorem State.took_decoder (s : State) (rest : List Token) : (s.took rest).decoder = s.decoder := rfl
@[simp] theorem State.took_latch (s : State) (rest : List Token) : (s.took rest).latch = s.latch := rfl
@[simp] theorem State.took_regs (s : State) (rest : List Token) : (s.took rest).regs = s.regs := rfl
@[simp] theorem State.took_done (s : State) (rest : List Token) : (s.took rest).done = s.done := rfl
@[simp] theorem State.took_err (s : State) (rest : List Token) : (s.took rest).err = s.err := rfl
@[simp] theorem State.took_ovr (s : State) (rest : List Token) : (s.took rest).ovr = s.ovr := rfl
@[simp] theorem State.took_errRec (s : State) (rest : List Token) : (s.took rest).errRec = s.errRec := rfl
@[simp] theorem State.took_inq (s : State) (rest : List Token) : (s.took rest).inq = rest := rfl
@[simp] theorem State.took_outq (s : State) (rest : List Token) : (s.took rest).outq = s.outq := rfl
@[simp] theorem State.took_run (s : State) (rest : List Token) : (s.took rest).run = s.run := rfl
@[simp] theorem State.took_iof (s : State) (rest : List Token) : (s.took rest).iof = s.iof := rfl
@[simp] theorem State.took_iofSkip (s : State) (rest : List Token) : (s.took rest).iofSkip = s.iofSkip - 1 := rfl
@[simp] theorem State.took_wrote (s : State) (rest : List Token) : (s.took rest).wrote = s.wrote := rfl
@[simp] theorem State.took_host (s : State) (rest : List Token) : (s.took rest).host = s.host := rfl

/-! ### wroteByte: A byte has been written (R83). -/

@[simp] theorem State.wroteByte_params (s : State) (b : Byte) : (s.wroteByte b).params = s.params := rfl
@[simp] theorem State.wroteByte_width (s : State) (b : Byte) : (s.wroteByte b).width = s.width := rfl
@[simp] theorem State.wroteByte_bs (s : State) (b : Byte) : (s.wroteByte b).bs = s.bs := rfl
@[simp] theorem State.wroteByte_ft (s : State) (b : Byte) : (s.wroteByte b).ft = s.ft := rfl
@[simp] theorem State.wroteByte_ct (s : State) (b : Byte) : (s.wroteByte b).ct = s.ct := rfl
@[simp] theorem State.wroteByte_etree (s : State) (b : Byte) : (s.wroteByte b).etree = s.etree := rfl
@[simp] theorem State.wroteByte_dtree (s : State) (b : Byte) : (s.wroteByte b).dtree = s.dtree := rfl
@[simp] theorem State.wroteByte_packer (s : State) (b : Byte) : (s.wroteByte b).packer = s.packer := rfl
@[simp] theorem State.wroteByte_decoder (s : State) (b : Byte) : (s.wroteByte b).decoder = s.decoder := rfl
@[simp] theorem State.wroteByte_latch (s : State) (b : Byte) : (s.wroteByte b).latch = s.latch := rfl
@[simp] theorem State.wroteByte_regs (s : State) (b : Byte) : (s.wroteByte b).regs = s.regs := rfl
@[simp] theorem State.wroteByte_done (s : State) (b : Byte) : (s.wroteByte b).done = s.done := rfl
@[simp] theorem State.wroteByte_err (s : State) (b : Byte) : (s.wroteByte b).err = s.err := rfl
@[simp] theorem State.wroteByte_ovr (s : State) (b : Byte) : (s.wroteByte b).ovr = s.ovr := rfl
@[simp] theorem State.wroteByte_errRec (s : State) (b : Byte) : (s.wroteByte b).errRec = s.errRec := rfl
@[simp] theorem State.wroteByte_inq (s : State) (b : Byte) : (s.wroteByte b).inq = s.inq := rfl
@[simp] theorem State.wroteByte_outq (s : State) (b : Byte) : (s.wroteByte b).outq = s.outq ++ [b] := rfl
@[simp] theorem State.wroteByte_run (s : State) (b : Byte) : (s.wroteByte b).run = s.run := rfl
@[simp] theorem State.wroteByte_iof (s : State) (b : Byte) : (s.wroteByte b).iof = s.iof := rfl
@[simp] theorem State.wroteByte_iofSkip (s : State) (b : Byte) : (s.wroteByte b).iofSkip = s.iofSkip := rfl
@[simp] theorem State.wroteByte_wrote (s : State) (b : Byte) : (s.wroteByte b).wrote = s.wrote + 1 := rfl
@[simp] theorem State.wroteByte_host (s : State) (b : Byte) : (s.wroteByte b).host = s.host := rfl

/-! ### begin: A stream command begins. -/

@[simp] theorem State.begin_params (s : State) (todo : List Micro) : (s.begin todo).params = s.params := rfl
@[simp] theorem State.begin_width (s : State) (todo : List Micro) : (s.begin todo).width = s.width := rfl
@[simp] theorem State.begin_bs (s : State) (todo : List Micro) : (s.begin todo).bs = s.bs := rfl
@[simp] theorem State.begin_ft (s : State) (todo : List Micro) : (s.begin todo).ft = s.ft := rfl
@[simp] theorem State.begin_ct (s : State) (todo : List Micro) : (s.begin todo).ct = s.ct := rfl
@[simp] theorem State.begin_etree (s : State) (todo : List Micro) : (s.begin todo).etree = s.etree := rfl
@[simp] theorem State.begin_dtree (s : State) (todo : List Micro) : (s.begin todo).dtree = s.dtree := rfl
@[simp] theorem State.begin_packer (s : State) (todo : List Micro) : (s.begin todo).packer = s.packer := rfl
@[simp] theorem State.begin_decoder (s : State) (todo : List Micro) : (s.begin todo).decoder = s.decoder := rfl
@[simp] theorem State.begin_latch (s : State) (todo : List Micro) : (s.begin todo).latch = s.latch := rfl
@[simp] theorem State.begin_regs (s : State) (todo : List Micro) : (s.begin todo).regs = s.regs := rfl
@[simp] theorem State.begin_done (s : State) (todo : List Micro) : (s.begin todo).done = s.done := rfl
@[simp] theorem State.begin_err (s : State) (todo : List Micro) : (s.begin todo).err = s.err := rfl
@[simp] theorem State.begin_ovr (s : State) (todo : List Micro) : (s.begin todo).ovr = s.ovr := rfl
@[simp] theorem State.begin_errRec (s : State) (todo : List Micro) : (s.begin todo).errRec = s.errRec := rfl
@[simp] theorem State.begin_inq (s : State) (todo : List Micro) : (s.begin todo).inq = s.inq := rfl
@[simp] theorem State.begin_outq (s : State) (todo : List Micro) : (s.begin todo).outq = s.outq := rfl
@[simp] theorem State.begin_run (s : State) (todo : List Micro) : (s.begin todo).run = .running todo := rfl
@[simp] theorem State.begin_iof (s : State) (todo : List Micro) : (s.begin todo).iof = s.iof := rfl
@[simp] theorem State.begin_iofSkip (s : State) (todo : List Micro) : (s.begin todo).iofSkip = s.iofSkip := rfl
@[simp] theorem State.begin_wrote (s : State) (todo : List Micro) : (s.begin todo).wrote = 0 := rfl
@[simp] theorem State.begin_host (s : State) (todo : List Micro) : (s.begin todo).host = s.host := rfl

/-! ### installWidth: The change SET_WIDTH makes (R143). -/

@[simp] theorem State.installWidth_params (s : State) (n : Nat) : (s.installWidth n).params = s.params := rfl
@[simp] theorem State.installWidth_width (s : State) (n : Nat) : (s.installWidth n).width = BitVec.ofNat 4 n := rfl
@[simp] theorem State.installWidth_bs (s : State) (n : Nat) : (s.installWidth n).bs = s.bs := rfl
@[simp] theorem State.installWidth_ft (s : State) (n : Nat) : (s.installWidth n).ft = [] := rfl
@[simp] theorem State.installWidth_ct (s : State) (n : Nat) : (s.installWidth n).ct = [] := rfl
@[simp] theorem State.installWidth_etree (s : State) (n : Nat) : (s.installWidth n).etree = none := rfl
@[simp] theorem State.installWidth_dtree (s : State) (n : Nat) : (s.installWidth n).dtree = none := rfl
@[simp] theorem State.installWidth_packer (s : State) (n : Nat) : (s.installWidth n).packer = .init := rfl
@[simp] theorem State.installWidth_decoder (s : State) (n : Nat) : (s.installWidth n).decoder = .init := rfl
@[simp] theorem State.installWidth_latch (s : State) (n : Nat) : (s.installWidth n).latch = s.latch := rfl
@[simp] theorem State.installWidth_regs (s : State) (n : Nat) : (s.installWidth n).regs = s.regs := rfl
@[simp] theorem State.installWidth_done (s : State) (n : Nat) : (s.installWidth n).done = s.done := rfl
@[simp] theorem State.installWidth_err (s : State) (n : Nat) : (s.installWidth n).err = s.err := rfl
@[simp] theorem State.installWidth_ovr (s : State) (n : Nat) : (s.installWidth n).ovr = s.ovr := rfl
@[simp] theorem State.installWidth_errRec (s : State) (n : Nat) : (s.installWidth n).errRec = s.errRec := rfl
@[simp] theorem State.installWidth_inq (s : State) (n : Nat) : (s.installWidth n).inq = s.inq := rfl
@[simp] theorem State.installWidth_outq (s : State) (n : Nat) : (s.installWidth n).outq = s.outq := rfl
@[simp] theorem State.installWidth_run (s : State) (n : Nat) : (s.installWidth n).run = s.run := rfl
@[simp] theorem State.installWidth_iof (s : State) (n : Nat) : (s.installWidth n).iof = s.iof := rfl
@[simp] theorem State.installWidth_iofSkip (s : State) (n : Nat) : (s.installWidth n).iofSkip = s.iofSkip := rfl
@[simp] theorem State.installWidth_wrote (s : State) (n : Nat) : (s.installWidth n).wrote = s.wrote := rfl
@[simp] theorem State.installWidth_host (s : State) (n : Nat) : (s.installWidth n).host = s.host := rfl

/-! ### advance: The host's index goes on by one (R67, R378). -/

@[simp] theorem State.advance_params (s : State) : s.advance.params = s.params := rfl
@[simp] theorem State.advance_width (s : State) : s.advance.width = s.width := rfl
@[simp] theorem State.advance_bs (s : State) : s.advance.bs = s.bs := rfl
@[simp] theorem State.advance_ft (s : State) : s.advance.ft = s.ft := rfl
@[simp] theorem State.advance_ct (s : State) : s.advance.ct = s.ct := rfl
@[simp] theorem State.advance_etree (s : State) : s.advance.etree = s.etree := rfl
@[simp] theorem State.advance_dtree (s : State) : s.advance.dtree = s.dtree := rfl
@[simp] theorem State.advance_packer (s : State) : s.advance.packer = s.packer := rfl
@[simp] theorem State.advance_decoder (s : State) : s.advance.decoder = s.decoder := rfl
@[simp] theorem State.advance_latch (s : State) : s.advance.latch = s.latch := rfl
@[simp] theorem State.advance_regs (s : State) : s.advance.regs = s.regs := rfl
@[simp] theorem State.advance_done (s : State) : s.advance.done = s.done := rfl
@[simp] theorem State.advance_err (s : State) : s.advance.err = s.err := rfl
@[simp] theorem State.advance_ovr (s : State) : s.advance.ovr = s.ovr := rfl
@[simp] theorem State.advance_errRec (s : State) : s.advance.errRec = s.errRec := rfl
@[simp] theorem State.advance_inq (s : State) : s.advance.inq = s.inq := rfl
@[simp] theorem State.advance_outq (s : State) : s.advance.outq = s.outq := rfl
@[simp] theorem State.advance_run (s : State) : s.advance.run = s.run := rfl
@[simp] theorem State.advance_iof (s : State) : s.advance.iof = s.iof := rfl
@[simp] theorem State.advance_iofSkip (s : State) : s.advance.iofSkip = s.iofSkip := rfl
@[simp] theorem State.advance_wrote (s : State) : s.advance.wrote = s.wrote := rfl
@[simp] theorem State.advance_host (s : State) : s.advance.host = { s.host with pc := s.host.pc + 1 } := rfl

/-! ### popTurn: One turn is used up (log 5). -/

@[simp] theorem State.popTurn_params (s : State) : s.popTurn.params = s.params := rfl
@[simp] theorem State.popTurn_width (s : State) : s.popTurn.width = s.width := rfl
@[simp] theorem State.popTurn_bs (s : State) : s.popTurn.bs = s.bs := rfl
@[simp] theorem State.popTurn_ft (s : State) : s.popTurn.ft = s.ft := rfl
@[simp] theorem State.popTurn_ct (s : State) : s.popTurn.ct = s.ct := rfl
@[simp] theorem State.popTurn_etree (s : State) : s.popTurn.etree = s.etree := rfl
@[simp] theorem State.popTurn_dtree (s : State) : s.popTurn.dtree = s.dtree := rfl
@[simp] theorem State.popTurn_packer (s : State) : s.popTurn.packer = s.packer := rfl
@[simp] theorem State.popTurn_decoder (s : State) : s.popTurn.decoder = s.decoder := rfl
@[simp] theorem State.popTurn_latch (s : State) : s.popTurn.latch = s.latch := rfl
@[simp] theorem State.popTurn_regs (s : State) : s.popTurn.regs = s.regs := rfl
@[simp] theorem State.popTurn_done (s : State) : s.popTurn.done = s.done := rfl
@[simp] theorem State.popTurn_err (s : State) : s.popTurn.err = s.err := rfl
@[simp] theorem State.popTurn_ovr (s : State) : s.popTurn.ovr = s.ovr := rfl
@[simp] theorem State.popTurn_errRec (s : State) : s.popTurn.errRec = s.errRec := rfl
@[simp] theorem State.popTurn_inq (s : State) : s.popTurn.inq = s.inq := rfl
@[simp] theorem State.popTurn_outq (s : State) : s.popTurn.outq = s.outq := rfl
@[simp] theorem State.popTurn_run (s : State) : s.popTurn.run = s.run := rfl
@[simp] theorem State.popTurn_iof (s : State) : s.popTurn.iof = s.iof := rfl
@[simp] theorem State.popTurn_iofSkip (s : State) : s.popTurn.iofSkip = s.iofSkip := rfl
@[simp] theorem State.popTurn_wrote (s : State) : s.popTurn.wrote = s.wrote := rfl
@[simp] theorem State.popTurn_host (s : State) : s.popTurn.host = { s.host with turns := s.host.turns.tail } := rfl

/-! ### drawn: One free value has been drawn. -/

@[simp] theorem State.drawn_params (s : State) : s.drawn.params = s.params := rfl
@[simp] theorem State.drawn_width (s : State) : s.drawn.width = s.width := rfl
@[simp] theorem State.drawn_bs (s : State) : s.drawn.bs = s.bs := rfl
@[simp] theorem State.drawn_ft (s : State) : s.drawn.ft = s.ft := rfl
@[simp] theorem State.drawn_ct (s : State) : s.drawn.ct = s.ct := rfl
@[simp] theorem State.drawn_etree (s : State) : s.drawn.etree = s.etree := rfl
@[simp] theorem State.drawn_dtree (s : State) : s.drawn.dtree = s.dtree := rfl
@[simp] theorem State.drawn_packer (s : State) : s.drawn.packer = s.packer := rfl
@[simp] theorem State.drawn_decoder (s : State) : s.drawn.decoder = s.decoder := rfl
@[simp] theorem State.drawn_latch (s : State) : s.drawn.latch = s.latch := rfl
@[simp] theorem State.drawn_regs (s : State) : s.drawn.regs = s.regs := rfl
@[simp] theorem State.drawn_done (s : State) : s.drawn.done = s.done := rfl
@[simp] theorem State.drawn_err (s : State) : s.drawn.err = s.err := rfl
@[simp] theorem State.drawn_ovr (s : State) : s.drawn.ovr = s.ovr := rfl
@[simp] theorem State.drawn_errRec (s : State) : s.drawn.errRec = s.errRec := rfl
@[simp] theorem State.drawn_inq (s : State) : s.drawn.inq = s.inq := rfl
@[simp] theorem State.drawn_outq (s : State) : s.drawn.outq = s.outq := rfl
@[simp] theorem State.drawn_run (s : State) : s.drawn.run = s.run := rfl
@[simp] theorem State.drawn_iof (s : State) : s.drawn.iof = s.iof := rfl
@[simp] theorem State.drawn_iofSkip (s : State) : s.drawn.iofSkip = s.iofSkip := rfl
@[simp] theorem State.drawn_wrote (s : State) : s.drawn.wrote = s.wrote := rfl
@[simp] theorem State.drawn_host (s : State) : s.drawn.host = { s.host with draws := s.host.draws + 1 } := rfl

/-! ### Registers -/

@[simp] theorem State.setBs_bsAt_self (s : State) (i : BsIdx) (c : BitSeq) : (s.setBs i c).bsAt i = c := by
  simp [State.bsAt, State.setBs]

theorem State.setBs_bsAt_ne (s : State) (i j : BsIdx) (c : BitSeq) (h : j ≠ i) : (s.setBs i c).bsAt j = s.bsAt j := by
  have hv : i.val ≠ j.val := fun e => h (Fin.ext e.symm)
  simp [State.bsAt, State.setBs, hv]

theorem State.bsAt_congr (s t : State) (i : BsIdx) (h : t.bs = s.bs) : t.bsAt i = s.bsAt i := by
  simp [State.bsAt, h]

end Sys2Proof.Machine
end

