-- ==== Sys2Proof/Laws/Checks.lean ====
section
/-! SUPPORT. What each precondition of R329 answers, that every command answers a next state, and how frames compose. -/

namespace Sys2Proof.Machine

/-! ### Preconditions -/

theorem State.needWidth_ok (s : State) (op : BitVec 8) (h : s.width ≠ 0) : s.needWidth op = none := if_neg h

theorem State.needWidth_fail (s : State) (op : BitVec 8) (h : s.width = 0) : s.needWidth op = some (stateError 1 op) :=
  if_pos h

theorem State.needCt_ok (s : State) (op : BitVec 8) (h : s.ctValid = true) : s.needCt op = none := if_pos h

theorem State.needCt_fail (s : State) (op : BitVec 8) (h : s.ctValid = false) : s.needCt op = some (stateError 3 op) := by
  simp [State.needCt, h]

theorem State.needDtree_ok (s : State) (op : BitVec 8) (h : s.dtreeV = true) : s.needDtree op = none := if_pos h

theorem State.needDtree_fail (s : State) (op : BitVec 8) (h : s.dtreeV = false) :
    s.needDtree op = some (stateError 4 op) := by simp [State.needDtree, h]

theorem State.needSymbol_ok (s : State) (h : s.latch.a0.toNat < 2 ^ (8 * s.symWidth)) : s.needSymbol = none := if_pos h

theorem State.needSymbol_fail (s : State) (h : 2 ^ (8 * s.symWidth) ≤ s.latch.a0.toNat) :
    s.needSymbol =
      some ⟨.illegalArgument, 0, BitVec.ofNat 64 (2 ^ (8 * s.symWidth) - 1), s.latch.a0, 0⟩ := if_neg (Nat.not_lt.2 h)

@[simp] theorem State.checked_none (s : State) (k : Out) : s.checked none k = k := rfl

@[simp] theorem State.checked_some (s : State) (r : Raise) (k : Out) : s.checked (some r) k = .next (s.raise r) := rfl

@[simp] theorem none_or_raise (o : Option Raise) : (none : Option Raise).or o = o := by cases o <;> rfl

@[simp] theorem some_or_raise (r : Raise) (o : Option Raise) : (some r).or o = some r := rfl

/-- With WIDTH set, N is at least 1 (R55). -/
theorem State.symWidth_pos (s : State) (h : s.width ≠ 0) : 0 < s.symWidth := by
  unfold State.symWidth
  rcases Nat.eq_zero_or_pos s.width.toNat with h0 | h0
  · exact absurd (BitVec.eq_of_toNat_eq h0) h
  · exact h0

theorem State.ctValid_of_ne (s : State) (h : s.ct ≠ []) : s.ctValid = true := by
  unfold State.ctValid
  cases hc : s.ct with
  | nil => exact absurd hc h
  | cons e m => rfl

theorem State.dtreeV_of_some (s : State) (t : DTree) (h : s.dtree = some t) : s.dtreeV = true := by
  simp [State.dtreeV, h]

@[simp] theorem incCount_max (id : Word) :
    incCount maxWord id = .error { cause := .countOverflow, expected := maxWord, actual := id } := if_pos rfl

theorem incCount_ok (x id : Word) (h : x ≠ maxWord) : incCount x id = .ok (x + 1) := if_neg h

/-! ### Every command answers a next state -/

/-- The outcome is a next state. -/
def Out.isNext : Out → Prop
  | .next _ => True
  | .fault _ => False
  | .refused _ => False

theorem State.checked_isNext (s : State) (o : Option Raise) (k : Out) (h : Out.isNext k) : Out.isNext (s.checked o k) := by
  cases o with
  | none => exact h
  | some r => trivial

/-- No command faults, and none is refused. -/
theorem exec_isNext (i : Instr) (s : State) : Out.isNext (exec i s) := by
  cases i <;> dsimp only [exec]
  all_goals first
    | trivial
    | (refine State.checked_isNext _ _ _ ?_; first | trivial | skip)
    | skip
  case setWidth n => unfold execSetWidth; split <;> trivial
  case bsApp rd b => unfold execBsApp; split <;> trivial
  case bsGet rs n => unfold execBsGet; split <;> trivial
  case bsLd rd => unfold execBsLd; split <;> trivial
  case bsCat rd rs => unfold execBsCat; split <;> trivial
  case freqAdd => split <;> trivial
  case freqSet => split <;> trivial
  case freqGet => split <;> trivial
  case buildTree => split <;> trivial
  case assignCodes =>
    split
    · trivial
    · unfold State.assignFrom; split <;> trivial
  case codeGet => split <;> trivial
  case codeSet rs => split; · trivial
                     · split <;> trivial
  case reconTree => split <;> trivial
  case packSym =>
    unfold State.packCode
    split
    · trivial
    · split <;> trivial
  case packFlush => unfold execPackFlush; split <;> trivial
  case unpackByte => split <;> trivial

/-- The next state of a command. -/
theorem exec_next (i : Instr) (s : State) : ∃ t, exec i s = .next t := by
  have h := exec_isNext i s
  cases he : exec i s with
  | next t => exact ⟨t, rfl⟩
  | fault f => rw [he] at h; exact h.elim
  | refused r => rw [he] at h; exact h.elim

/-! ### Frames -/

theorem Part.same_refl (p : Part) (s : State) : p.same s s := by cases p <;> simp [Part.same]

theorem Part.same_trans (p : Part) {s t u : State} (h : p.same s t) (h' : p.same t u) : p.same s u := by
  cases p <;> simp only [Part.same] at * <;> simp_all

theorem State.sameBut_refl (s : State) (ps : List Part) : s.sameBut s ps := fun p _ => p.same_refl s

theorem State.sameBut_mono {s t : State} {ps qs : List Part} (h : s.sameBut t ps) (hs : ∀ p ∈ ps, p ∈ qs) :
    s.sameBut t qs := fun p hp => h p fun hm => hp (hs p hm)

theorem State.sameBut_trans {s t u : State} {ps : List Part} (h : s.sameBut t ps) (h' : t.sameBut u ps) :
    s.sameBut u ps := fun p hp => p.same_trans (h p hp) (h' p hp)

theorem State.sameBut_endCommand (s : State) : s.sameBut s.endCommand [] := by
  intro p _; cases p <;> simp [Part.same, State.bsAt]

theorem State.sameBut_complete (s : State) : s.sameBut s.complete [] := s.sameBut_endCommand

theorem State.sameBut_raise (s : State) (r : Raise) : s.sameBut (s.raise r) [.error] := by
  intro p hp; cases p <;> simp_all [Part.same, State.bsAt]

theorem State.sameBut_setBs (s : State) (i : BsIdx) (c : BitSeq) : s.sameBut (s.setBs i c) [.bs i] := by
  intro p hp
  cases p with
  | bs j => exact State.setBs_bsAt_ne s i j c (by simpa using hp)
  | _ => simp [Part.same]

theorem State.sameBut_setRes (s : State) (v w : Word) : s.sameBut (s.setRes v w) [.res0, .res1] := by
  intro p hp; cases p <;> simp_all [Part.same, State.bsAt]

theorem State.sameBut_setRes0 (s : State) (v : Word) : s.sameBut (s.setRes0 v) [.res0] := by
  intro p hp; cases p <;> simp_all [Part.same, State.bsAt]

theorem State.sameBut_setFt (s : State) (m : FMap Word) : s.sameBut (s.setFt m) [.ft, .etree] := by
  intro p hp; cases p <;> simp_all [Part.same, State.bsAt]

theorem State.sameBut_setCt (s : State) (m : FMap BitSeq) : s.sameBut (s.setCt m) [.ct, .dtree] := by
  intro p hp; cases p <;> simp_all [Part.same, State.bsAt]

theorem State.sameBut_setPacker (s : State) (p : Packer) : s.sameBut (s.setPacker p) packerParts := by
  intro q hq; cases q <;> simp_all [Part.same, State.bsAt, packerParts]

theorem State.sameBut_setPacker_of_syms (s : State) (p : Packer) (h : p.syms = s.packer.syms) :
    s.sameBut (s.setPacker p) [.pb, .pkBits] := by
  intro q hq; cases q <;> simp_all [Part.same, State.bsAt]

theorem State.sameBut_setDecoder (s : State) (d : Decoder) : s.sameBut (s.setDecoder d) decoderParts := by
  intro q hq; cases q <;> simp_all [Part.same, State.bsAt, decoderParts]

end Sys2Proof.Machine
end

