-- ==== Sys2Proof/Laws/Maps.lean ====
section
/-! SUPPORT. The laws of the finite maps FT and CT: reading after a write, the canonical form, sizes. -/

namespace Sys2Proof.Machine

theorem word_lt_trans {a b c : Word} (h : a < b) (h' : b < c) : a < c := BitVec.lt_trans h h'

theorem word_ne_of_lt {a b : Word} (h : a < b) : a ≠ b := fun e => absurd h (e ▸ BitVec.lt_irrefl a)

theorem word_lt_trichotomy (a b : Word) : a < b ∨ a = b ∨ b < a := by
  rcases Nat.lt_trichotomy a.toNat b.toNat with h | h | h
  · exact .inl (BitVec.lt_def.2 h)
  · exact .inr (.inl (BitVec.eq_of_toNat_eq h))
  · exact .inr (.inr (BitVec.lt_def.2 h))

theorem word_lt_asymm {a b : Word} (h : a < b) : ¬ b < a := fun h' => absurd (word_lt_trans h h') (BitVec.lt_irrefl a)

variable {α : Type}

@[simp] theorem FMap.get_nil (k : Word) : FMap.get ([] : FMap α) k = none := rfl

theorem FMap.get_put_self (m : FMap α) (k : Word) (v : α) : (FMap.put m k v).get k = some v := by
  induction m with
  | nil => simp [FMap.put, FMap.get]
  | cons e m ih =>
    obtain ⟨k', v'⟩ := e
    simp only [FMap.put]
    split_ifs with h1 h2
    · simp [FMap.get]
    · simp [FMap.get]
    · simp [FMap.get, h1, ih]

theorem FMap.get_put_ne (m : FMap α) (k k₂ : Word) (v : α) (h : k₂ ≠ k) : (FMap.put m k v).get k₂ = m.get k₂ := by
  induction m with
  | nil => simp [FMap.put, FMap.get, h]
  | cons e m ih =>
    obtain ⟨k', v'⟩ := e
    simp only [FMap.put]
    split_ifs with h1 h2
    · subst h1; simp [FMap.get, h]
    · simp [FMap.get, h]
    · simp [FMap.get, ih]

/-- Reading after a write, both cases. -/
theorem FMap.get_put (m : FMap α) (k k₂ : Word) (v : α) :
    (FMap.put m k v).get k₂ = if k₂ = k then some v else m.get k₂ := by
  split_ifs with h
  · rw [h, FMap.get_put_self]
  · exact FMap.get_put_ne m k k₂ v h

/-- An entry after a write is the one written or an old one. -/
theorem FMap.mem_put (m : FMap α) (k : Word) (v : α) (e : Word × α) (h : e ∈ FMap.put m k v) :
    e = (k, v) ∨ e ∈ m := by
  induction m with
  | nil => simpa [FMap.put] using h
  | cons x m ih =>
    obtain ⟨k', v'⟩ := x
    simp only [FMap.put] at h
    split_ifs at h with h1 h2
    · rcases List.mem_cons.1 h with h | h
      · exact .inl h
      · exact .inr (List.mem_cons_of_mem _ h)
    · rcases List.mem_cons.1 h with h | h
      · exact .inl h
      · exact .inr h
    · rcases List.mem_cons.1 h with h | h
      · exact .inr (h ▸ List.mem_cons_self)
      · rcases ih h with h | h
        · exact .inl h
        · exact .inr (List.mem_cons_of_mem _ h)

/-- A write keeps the canonical form. -/
theorem FMap.wf_put (m : FMap α) (k : Word) (v : α) (h : FMap.wf m) : FMap.wf (FMap.put m k v) := by
  induction m with
  | nil => simp [FMap.put, FMap.wf]
  | cons x m ih =>
    obtain ⟨k', v'⟩ := x
    have hx := List.pairwise_cons.1 h
    simp only [FMap.put]
    split_ifs with h1 h2
    · subst h1
      exact List.pairwise_cons.2 ⟨hx.1, hx.2⟩
    · refine List.pairwise_cons.2 ⟨?_, h⟩
      intro e he
      rcases List.mem_cons.1 he with rfl | he
      · exact h2
      · exact word_lt_trans h2 (hx.1 e he)
    · refine List.pairwise_cons.2 ⟨?_, ih hx.2⟩
      intro e he
      rcases FMap.mem_put m k v e he with rfl | he
      · exact ((word_lt_trichotomy k k').resolve_left h2).resolve_left h1
      · exact hx.1 e he

/-- A key that is present is the key of an entry. -/
theorem FMap.mem_of_get (m : FMap α) (k : Word) (v : α) (h : FMap.get m k = some v) : (k, v) ∈ m := by
  induction m with
  | nil => simp at h
  | cons x m ih =>
    obtain ⟨k', v'⟩ := x
    simp only [FMap.get] at h
    split_ifs at h with h1
    · cases h; subst h1; exact List.mem_cons_self
    · exact List.mem_cons_of_mem _ (ih h)

/-- In canonical form every entry is what its key reads as. -/
theorem FMap.get_of_mem (m : FMap α) (k : Word) (v : α) (hm : FMap.wf m) (h : (k, v) ∈ m) : FMap.get m k = some v := by
  induction m with
  | nil => simp at h
  | cons x m ih =>
    obtain ⟨k', v'⟩ := x
    have hx := List.pairwise_cons.1 hm
    simp only [FMap.get]
    rcases List.mem_cons.1 h with h | h
    · cases h; simp
    · have : k' < k := hx.1 _ h
      rw [if_neg (word_ne_of_lt this).symm]
      exact ih hx.2 h

/-- No entry has a key that reads as absent. -/
theorem FMap.get_eq_none (m : FMap α) (k : Word) : FMap.get m k = none ↔ ∀ e ∈ m, e.1 ≠ k := by
  induction m with
  | nil => simp
  | cons x m ih =>
    obtain ⟨k', v'⟩ := x
    simp only [FMap.get]
    split_ifs with h
    · subst h; simp
    · rw [ih]; simp [Ne.symm h]

/-- A write of an absent key adds one entry. -/
theorem FMap.length_put_new (m : FMap α) (k : Word) (v : α) (h : FMap.get m k = none) :
    (FMap.put m k v).length = m.length + 1 := by
  induction m with
  | nil => rfl
  | cons x m ih =>
    obtain ⟨k', v'⟩ := x
    simp only [FMap.get] at h
    split_ifs at h with h1
    simp only [FMap.put, if_neg h1]
    split_ifs with h2
    · rfl
    · simp [ih h]

/-- In canonical form a write of a present key keeps the number of entries. -/
theorem FMap.length_put_old (m : FMap α) (k : Word) (v : α) (hm : FMap.wf m) (h : FMap.get m k ≠ none) :
    (FMap.put m k v).length = m.length := by
  induction m with
  | nil => simp at h
  | cons x m ih =>
    obtain ⟨k', v'⟩ := x
    have hx := List.pairwise_cons.1 hm
    simp only [FMap.get] at h
    simp only [FMap.put]
    split_ifs at h ⊢ with h1 h2
    · rfl
    · exfalso
      obtain ⟨w, hw⟩ := Option.ne_none_iff_exists'.1 h
      have := hx.1 _ (FMap.mem_of_get m k w hw)
      exact absurd (word_lt_trans h2 this) (BitVec.lt_irrefl _)
    · simp [ih hx.2 h]

/-- A write adds at most one entry. -/
theorem FMap.length_put_le (m : FMap α) (k : Word) (v : α) : (FMap.put m k v).length ≤ m.length + 1 := by
  induction m with
  | nil => simp [FMap.put]
  | cons x m ih =>
    obtain ⟨k', v'⟩ := x
    simp only [FMap.put]
    split_ifs <;> simp_all

/-- A write above every key appends. -/
theorem FMap.put_append (m : FMap α) (k : Word) (v : α) (h : ∀ e ∈ m, e.1 < k) : FMap.put m k v = m ++ [(k, v)] := by
  induction m with
  | nil => rfl
  | cons x m ih =>
    obtain ⟨k', v'⟩ := x
    have hk : k' < k := h _ List.mem_cons_self
    simp only [FMap.put, if_neg (word_ne_of_lt hk).symm, if_neg (word_lt_asymm hk), List.cons_append]
    rw [ih (fun e he => h e (List.mem_cons_of_mem _ he))]

/-- Canonical maps that read alike are equal. -/
theorem FMap.ext_of_wf (m n : FMap α) (hm : FMap.wf m) (hn : FMap.wf n) (h : ∀ k, FMap.get m k = FMap.get n k) : m = n := by
  induction m generalizing n with
  | nil =>
    cases n with
    | nil => rfl
    | cons y n => obtain ⟨k, v⟩ := y; have := h k; simp [FMap.get] at this
  | cons x m ih =>
    obtain ⟨k, v⟩ := x
    cases n with
    | nil => have := h k; simp [FMap.get] at this
    | cons y n =>
      obtain ⟨k', v'⟩ := y
      have hx := List.pairwise_cons.1 hm
      have hy := List.pairwise_cons.1 hn
      have key : k = k' := by
        rcases word_lt_trichotomy k k' with hlt | heq | hgt
        · exfalso
          have h1 := h k
          simp only [FMap.get, if_true] at h1
          rw [if_neg (word_ne_of_lt hlt)] at h1
          have := hy.1 _ (FMap.mem_of_get n k v h1.symm)
          exact absurd (word_lt_trans hlt this) (BitVec.lt_irrefl _)
        · exact heq
        · exfalso
          have h1 := h k'
          simp only [FMap.get, if_true] at h1
          rw [if_neg (word_ne_of_lt hgt)] at h1
          have := hx.1 _ (FMap.mem_of_get m k' v' h1)
          exact absurd (word_lt_trans hgt this) (BitVec.lt_irrefl _)
      subst key
      have hv := h k
      simp [FMap.get] at hv
      subst hv
      congr 1
      refine ih n hx.2 hy.2 (fun j => ?_)
      have hj := h j
      simp only [FMap.get] at hj
      split_ifs at hj with e
      · subst e
        rw [(FMap.get_eq_none m j).2 (fun e he => (word_ne_of_lt (hx.1 e he)).symm),
          (FMap.get_eq_none n j).2 (fun e he => (word_ne_of_lt (hy.1 e he)).symm)]
      · exact hj

end Sys2Proof.Machine
end

