-- ==== Sys2Proof/Laws/Engine.lean ====
section
/-! SUPPORT. How a stream command runs: the reads and writes it is made of, an induction principle for what every micro-step keeps, and that a run of the core ends where the command waits or has ended. -/

namespace Sys2Proof.Machine

/-! ### InRead, OutWrite -/

/-- InRead with no abort due: it waits, or takes the oldest token. -/
theorem State.inRead_cases (s a : State) (k : Token → State → State) :
    (s.iof = true ∧ s.iofSkip = 0 ∧ s.inRead a k = a) ∨
    (s.inq = [] ∧ s.inRead a k = s) ∨
    (∃ t rest, s.inq = t :: rest ∧ ¬ (s.iof = true ∧ s.iofSkip = 0) ∧
      s.inRead a k = k t (s.took rest)) := by
  unfold State.inRead
  by_cases h : s.iof = true ∧ s.iofSkip = 0
  · left; simp [h.1, h.2]
  · have h' : (s.iof && s.iofSkip == 0) = false := by
      rcases hb : (s.iof && s.iofSkip == 0) with _ | _
      · rfl
      · exact absurd (by simpa using hb) h
    right
    simp only [h']
    cases hq : s.inq with
    | nil => left; simp
    | cons t rest => right; exact ⟨t, rest, rfl, h, by simp⟩

theorem State.inRead_token (s a : State) (k : Token → State → State) (t : Token) (rest : List Token)
    (hi : s.iof = false) (hq : s.inq = t :: rest) :
    s.inRead a k = k t (s.took rest) := by
  simp [State.inRead, hi, hq]

/-- OutWrite: it aborts with IOF set, appends where there is room, and else waits. -/
theorem State.outWrite_cases (s : State) (b : Byte) (k : State → State) :
    (s.iof = true ∧ s.outWrite b k = s.abortIO) ∨
    (s.iof = false ∧ s.outq.length < s.params.outCap ∧
      s.outWrite b k = k (s.wroteByte b)) ∨
    (s.iof = false ∧ ¬ s.outq.length < s.params.outCap ∧ s.outWrite b k = s) := by
  unfold State.outWrite
  cases s.iof with
  | true => left; simp
  | false =>
    right
    by_cases h : s.outq.length < s.params.outCap
    · left; simp [h]
    · right; simp [h]

/-! ### The decoder and the packer -/

/-- DecodeBit at the node it has reached (R300): an inner node, a leaf that does not fit, a leaf whose symbol is delivered. -/
theorem State.arrive_cases (s : State) (rest : List Micro) :
    ((s.dnode s.decoder.cur).isLeaf = false ∧ s.arrive rest = s.goOn rest) ∨
    ((s.dnode s.decoder.cur).isLeaf = true ∧
      ((s.dnode s.decoder.cur).symAt = none ∨ s.decoder.acc ≠ s.decoder.cur) ∧ s.arrive rest = s.mismatched.goOn rest) ∨
    (∃ sy, (s.dnode s.decoder.cur).isLeaf = true ∧ (s.dnode s.decoder.cur).symAt = some sy ∧
      s.decoder.acc = s.decoder.cur ∧ s.arrive rest = s.deliver sy rest) := by
  unfold State.arrive
  cases hl : (s.dnode s.decoder.cur).isLeaf with
  | false => left; simp
  | true =>
    right
    rw [if_pos rfl]
    cases hs : (s.dnode s.decoder.cur).symAt with
    | none => left; simp
    | some sy =>
      by_cases he : s.decoder.acc = s.decoder.cur
      · right
        refine ⟨sy, rfl, rfl, he, ?_⟩
        rw [(BitSeq.eq_iff _ _).2 he]
        rfl
      · left
        refine ⟨rfl, .inr he, ?_⟩
        have : s.decoder.acc.eq s.decoder.cur = false := by
          rw [← Bool.not_eq_true, BitSeq.eq_iff]; exact he
        rw [this]
        rfl

/-- DecodeBit (R300): LIM is met, a counter overflows, or the bit is followed. -/
theorem State.decodeBit_cases (s : State) (b : Bool) (rest : List Micro) :
    (s.latch.lim ≠ maxWord ∧ s.decoder.bits = s.latch.lim ∧
      s.decodeBit b rest = (s.setDecoder { s.decoder with limitHit := true }).goOn rest) ∨
    (¬ (s.latch.lim ≠ maxWord ∧ s.decoder.bits = s.latch.lim) ∧ s.decoder.bits = maxWord ∧
      s.decodeBit b rest = s.raise { cause := .countOverflow, expected := maxWord, actual := 5 }) ∨
    (¬ (s.latch.lim ≠ maxWord ∧ s.decoder.bits = s.latch.lim) ∧ s.decoder.bits ≠ maxWord ∧
      s.decodeBit b rest = (s.setDecoder { s.decoder with bits := s.decoder.bits + 1 }).follow b rest) := by
  unfold State.decodeBit
  by_cases hl : s.latch.lim ≠ maxWord ∧ s.decoder.bits = s.latch.lim
  · left; rw [if_pos hl]; exact ⟨hl.1, hl.2, rfl⟩
  · right
    rw [if_neg hl]
    by_cases hm : s.decoder.bits = maxWord
    · left; simp [incCount, hm]; simpa [hm] using hl
    · right; simp [incCount, hm]; simpa using hl

/-- EmitBit (R280): a counter overflows, the byte is full, or it is not. -/
theorem State.emitBit_cases (s : State) (b : Bool) (rest : List Micro) :
    (s.packer.bits = maxWord ∧
      s.emitBit b rest = s.raise { cause := .countOverflow, expected := maxWord, actual := 3 }) ∨
    (s.packer.bits ≠ maxWord ∧ s.packer.pbn = 7 ∧ s.emitBit b rest =
      (s.setPacker { s.packer with bits := s.packer.bits + 1, pb := s.packer.filled b }).goOn (.outPB :: rest)) ∨
    (s.packer.bits ≠ maxWord ∧ s.packer.pbn ≠ 7 ∧ s.emitBit b rest =
      (s.setPacker { s.packer with bits := s.packer.bits + 1, pb := s.packer.filled b,
                                   pbn := s.packer.pbn + 1 }).goOn rest) := by
  unfold State.emitBit
  by_cases hm : s.packer.bits = maxWord
  · left; simp [incCount, hm]
  · right
    by_cases h7 : s.packer.pbn = 7
    · left; exact ⟨hm, h7, by simp only [incCount, if_neg hm, if_pos h7]⟩
    · right; exact ⟨hm, h7, by simp only [incCount, if_neg hm, if_neg h7]⟩

/-! ### Runs of the core -/

/-- What every micro-step keeps, a run keeps. -/
theorem runMicro_induct (P : State → Prop) (h : ∀ s, P s → s.canMove = true → P s.microStep) :
    ∀ n s, P s → P (runMicro n s)
  | 0, _, hs => hs
  | n + 1, s, hs => by
    unfold runMicro
    split_ifs with hc
    · exact runMicro_induct P h n _ (h s hs hc)
    · exact hs

theorem State.settle_induct (P : State → Prop) (h : ∀ s, P s → s.canMove = true → P s.microStep) (s : State) (hs : P s) :
    P s.settle := by
  unfold State.settle
  split_ifs
  · exact runMicro_induct P h _ s hs
  · exact hs

/-- The core gets from s to t by micro-steps. -/
inductive Moves : State → State → Prop where
  | refl (s : State) : Moves s s
  | step (s t : State) : s.canMove = true → Moves s.microStep t → Moves s t

theorem Moves.trans {s t u : State} (h : Moves s t) (h' : Moves t u) : Moves s u := by
  induction h with
  | refl => exact h'
  | step s t hc _ ih => exact .step _ _ hc (ih h')

theorem Moves.one {s t : State} (hc : s.canMove = true) (h : s.microStep = t) : Moves s t := .step _ _ hc (h ▸ .refl _)

/-- The core is deterministic: where it stops is where every path of micro-steps that cannot go on ends. -/
theorem runMicro_eq_of_moves {s t : State} (h : Moves s t) (ht : t.canMove = false) :
    ∀ n, (runMicro n s).canMove = false → runMicro n s = t := by
  induction h with
  | refl s =>
    intro n _
    cases n with
    | zero => rfl
    | succ n => simp [runMicro, ht]
  | step s t hc _ ih =>
    intro n hn
    cases n with
    | zero => simp [runMicro, hc] at hn
    | succ n =>
      simp only [runMicro, hc, if_true] at hn ⊢
      exact ih ht n hn

/-- The bound of `State.work` is right for this micro-operation: DESER_TABLE adds no code longer than 64. -/
def Micro.bounded : Micro → Prop
  | .deser d => d.field = .code → d.l ≤ 64
  | _ => True

/-- The bound of `State.work` is right for what the command has left. -/
def State.bounded (s : State) : Prop := ∀ todo, s.run = .running todo → ∀ m ∈ todo, m.bounded

theorem State.work_running (s : State) (todo : List Micro) (h : s.run = .running todo) :
    s.work = 1 + (todo.map Micro.weight).sum + s.inq.length * (150 + 2 * maxCodeLen s.ct) := by
  simp [State.work, h]

theorem foldl_max_ge (ct : FMap BitSeq) (n : Nat) : n ≤ ct.foldl (fun n e => max n e.2.len) n := by
  induction ct generalizing n with
  | nil => exact Nat.le_refl _
  | cons e ct ih => exact Nat.le_trans (Nat.le_max_left n e.2.len) (ih (max n e.2.len))

theorem maxCodeLen_ge (ct : FMap BitSeq) : 64 ≤ maxCodeLen ct := foldl_max_ge ct 64

theorem foldl_max_mem (ct : FMap BitSeq) (n : Nat) (e : Word × BitSeq) (h : e ∈ ct) :
    e.2.len ≤ ct.foldl (fun n e => max n e.2.len) n := by
  induction ct generalizing n with
  | nil => simp at h
  | cons x ct ih =>
    rcases List.mem_cons.1 h with rfl | h
    · exact Nat.le_trans (Nat.le_max_right n e.2.len) (foldl_max_ge ct _)
    · exact ih _ h

theorem foldl_max_le (ct : FMap BitSeq) (n m : Nat) (hn : n ≤ m) (h : ∀ e ∈ ct, e.2.len ≤ m) :
    ct.foldl (fun n e => max n e.2.len) n ≤ m := by
  induction ct generalizing n with
  | nil => exact hn
  | cons x ct ih =>
    exact ih (max n x.2.len) (Nat.max_le.2 ⟨hn, h x List.mem_cons_self⟩) (fun e he => h e (List.mem_cons_of_mem _ he))

/-- A code of at most 64 bits does not raise the bound. -/
theorem maxCodeLen_put (ct : FMap BitSeq) (v : Word) (c : BitSeq) (hc : c.len ≤ 64) :
    maxCodeLen (ct.put v c) ≤ maxCodeLen ct := by
  refine foldl_max_le _ _ _ (maxCodeLen_ge ct) fun e he => ?_
  have : e = (v, c) ∨ e ∈ ct := by
    clear hc
    induction ct with
    | nil => simpa [FMap.put] using he
    | cons x ct ih =>
      obtain ⟨k', v'⟩ := x
      simp only [FMap.put] at he
      split_ifs at he <;> simp only [List.mem_cons] at he ⊢
      · tauto
      · tauto
      · rcases he with he | he
        · tauto
        · have := ih he; tauto
  rcases this with rfl | h
  · exact Nat.le_trans hc (maxCodeLen_ge ct)
  · exact foldl_max_mem ct 64 e h

theorem State.work_idle (s : State) (h : s.run = .idle) : s.work = 0 := by simp [State.work, h]

/-- A measure of what is left: the micro-operations and what IN's tokens can add. -/
def leftOver (todo : List Micro) (tokens cl : Nat) : Nat := 1 + (todo.map Micro.weight).sum + tokens * (150 + 2 * cl)

theorem State.work_goOn (s : State) (todo : List Micro) :
    (s.goOn todo).work = leftOver todo s.inq.length (maxCodeLen s.ct) := rfl

/-- What the measure and the bound need of the state after a micro-step: it has ended, or it is bounded with less left. -/
def State.shrunk (t : State) (n : Nat) : Prop := t.work < n ∧ t.bounded

theorem State.shrunk_idle (t : State) (n : Nat) (h : t.run = .idle) (hn : 0 < n) : t.shrunk n :=
  ⟨by rw [t.work_idle h]; exact hn, fun todo ht => by rw [h] at ht; cases ht⟩

theorem State.shrunk_raise (s : State) (r : Raise) (n : Nat) (hn : 0 < n) : (s.raise r).shrunk n :=
  State.shrunk_idle _ _ rfl hn

theorem State.shrunk_goOn (s : State) (todo : List Micro) (n : Nat)
    (h : leftOver todo s.inq.length (maxCodeLen s.ct) < n) (hb : ∀ m ∈ todo, m.bounded) : (s.goOn todo).shrunk n :=
  ⟨h, fun todo' ht => by cases ht; exact hb⟩

theorem sum_weight_outs (l : List Byte) : ((l.map Micro.out).map Micro.weight).sum = l.length := by
  induction l with
  | nil => rfl
  | cons b l ih => simp only [List.map_cons, List.sum_cons, ih, List.length_cons, Micro.weight]; omega

theorem sum_weight_bits (l : List Bool) : ((l.map Micro.decodeBit).map Micro.weight).sum = 18 * l.length := by
  induction l with
  | nil => rfl
  | cons b l ih => simp only [List.map_cons, List.sum_cons, ih, List.length_cons, Micro.weight]; omega

theorem sum_weight_emits (l : List Bool) : ((l.map Micro.emitBit).map Micro.weight).sum = 2 * l.length := by
  induction l with
  | nil => rfl
  | cons b l ih => simp only [List.map_cons, List.sum_cons, ih, List.length_cons, Micro.weight]; omega

theorem bounded_append {l k : List Micro} (hl : ∀ m ∈ l, m.bounded) (hk : ∀ m ∈ k, m.bounded) : ∀ m ∈ l ++ k, m.bounded :=
  fun m hm => (List.mem_append.1 hm).elim (hl m) (hk m)

theorem bounded_emits (c : BitSeq) : ∀ m ∈ emitAll c, m.bounded := by
  intro m hm
  obtain ⟨b, _, rfl⟩ := List.mem_map.1 hm
  trivial

theorem bounded_outs (l : List Byte) : ∀ m ∈ l.map Micro.out, m.bounded := by
  intro m hm
  obtain ⟨b, _, rfl⟩ := List.mem_map.1 hm
  trivial

theorem bounded_bits (l : List Bool) : ∀ m ∈ l.map Micro.decodeBit, m.bounded := by
  intro m hm
  obtain ⟨b, _, rfl⟩ := List.mem_map.1 hm
  trivial

theorem sum_weight_emitAll (c : BitSeq) : ((emitAll c).map Micro.weight).sum = 2 * c.len := by
  rw [emitAll, sum_weight_emits, BitSeq.toBits_length]

theorem emitBit_shrunk (s : State) (b : Bool) (rest : List Micro) (n : Nat)
    (h : 1 + leftOver rest s.inq.length (maxCodeLen s.ct) < n) (hb : ∀ m ∈ rest, m.bounded) :
    (s.emitBit b rest).shrunk n := by
  unfold State.emitBit
  split
  · exact State.shrunk_raise _ _ _ (by omega)
  · by_cases h7 : s.packer.pbn = 7
    · rw [if_pos h7]
      refine State.shrunk_goOn _ _ _ ?_ (List.forall_mem_cons.2 ⟨trivial, hb⟩)
      simp only [leftOver, List.map_cons, List.sum_cons, Micro.weight, State.setPacker_inq, State.setPacker_ct] at h ⊢
      omega
    · rw [if_neg h7]
      exact State.shrunk_goOn _ _ _ (Nat.lt_of_le_of_lt (Nat.le_add_left _ _) h) hb

theorem deliver_shrunk (s : State) (sy : Word) (rest : List Micro) (n : Nat)
    (h : 17 + leftOver rest s.inq.length (maxCodeLen s.ct) < n) (hb : ∀ m ∈ rest, m.bounded) :
    (s.deliver sy rest).shrunk n := by
  have hw : s.symWidth < 16 := s.width.isLt
  unfold State.deliver
  split
  · exact State.shrunk_raise _ _ _ (by omega)
  · refine State.shrunk_goOn _ _ _ ?_ (bounded_append (bounded_outs _) (List.forall_mem_cons.2 ⟨trivial, hb⟩))
    simp only [leftOver, List.map_append, List.sum_append, sum_weight_outs, beBytes_length, List.map_cons,
      List.sum_cons, Micro.weight, State.setDecoder_inq, State.setDecoder_ct] at h ⊢
    omega

theorem goOn_shrunk (s : State) (rest : List Micro) (n : Nat)
    (h : 17 + leftOver rest s.inq.length (maxCodeLen s.ct) < n) (hb : ∀ m ∈ rest, m.bounded) :
    (s.goOn rest).shrunk n := State.shrunk_goOn _ _ _ (by omega) hb

theorem arrive_shrunk (s : State) (rest : List Micro) (n : Nat)
    (h : 17 + leftOver rest s.inq.length (maxCodeLen s.ct) < n) (hb : ∀ m ∈ rest, m.bounded) :
    (s.arrive rest).shrunk n := by
  rcases s.arrive_cases rest with ⟨_, e⟩ | ⟨_, _, e⟩ | ⟨sy, _, _, _, e⟩
  · rw [e]; exact goOn_shrunk _ _ _ h hb
  · rw [e]; exact goOn_shrunk _ _ _ h hb
  · rw [e]; exact deliver_shrunk _ _ _ _ h hb

theorem follow_shrunk (s : State) (b : Bool) (rest : List Micro) (n : Nat)
    (h : 17 + leftOver rest s.inq.length (maxCodeLen s.ct) < n) (hb : ∀ m ∈ rest, m.bounded) :
    (s.follow b rest).shrunk n := by
  unfold State.follow
  split_ifs
  · exact goOn_shrunk _ _ _ h hb
  · exact arrive_shrunk _ _ _ h hb

theorem decodeBit_shrunk (s : State) (b : Bool) (rest : List Micro) (n : Nat)
    (h : 17 + leftOver rest s.inq.length (maxCodeLen s.ct) < n) (hb : ∀ m ∈ rest, m.bounded) :
    (s.decodeBit b rest).shrunk n := by
  unfold State.decodeBit
  split_ifs
  · exact goOn_shrunk _ _ _ h hb
  · split
    · exact State.shrunk_raise _ _ _ (by omega)
    · exact follow_shrunk _ _ _ _ h hb

theorem packSymbol_shrunk (s : State) (start v : Word) (rest : List Micro) (n : Nat)
    (h : leftOver rest s.inq.length (maxCodeLen s.ct) + 2 * maxCodeLen s.ct < n) (hb : ∀ m ∈ rest, m.bounded) :
    (s.packSymbol start v rest).shrunk n := by
  unfold State.packSymbol
  split
  · exact State.shrunk_raise _ _ _ (by omega)
  · rename_i c hc
    have hcl : c.len ≤ maxCodeLen s.ct := foldl_max_mem s.ct 64 (v, c) (FMap.mem_of_get _ _ _ hc)
    split
    · exact State.shrunk_raise _ _ _ (by omega)
    · refine State.shrunk_goOn _ _ _ ?_ (bounded_append (bounded_emits c) hb)
      simp only [leftOver, List.map_append, List.sum_append, sum_weight_emitAll, State.setPacker_inq,
        State.setPacker_ct] at h ⊢
      omega

theorem packToken_shrunk (s : State) (nbytes start : Word) (chunk : List Byte) (t : Token) (n : Nat)
    (h : s.inq.length * (150 + 2 * maxCodeLen s.ct) + 2 * maxCodeLen s.ct + 5 < n) :
    (s.packToken nbytes start chunk t).shrunk n := by
  unfold State.packToken
  split
  · exact State.shrunk_raise _ _ _ (by omega)
  · split
    · exact State.shrunk_raise _ _ _ (by omega)
    · dsimp only
      split_ifs
      · refine packSymbol_shrunk _ _ _ _ _ ?_ (by simp [Micro.bounded])
        simp [leftOver, Micro.weight]; omega
      · refine State.shrunk_goOn _ _ _ ?_ (by simp [Micro.bounded])
        simp [leftOver, Micro.weight]; omega
  · split_ifs
    · refine State.shrunk_goOn _ _ _ ?_ (by simp [Micro.bounded])
      simp [leftOver, Micro.weight]; omega
    · refine packSymbol_shrunk _ _ _ _ _ ?_ (by simp [Micro.bounded])
      simp [leftOver, Micro.weight]; omega

theorem scanToken_shrunk (s : State) (nsym nbytes start : Word) (chunk : List Byte) (t : Token) (n : Nat)
    (h : s.inq.length * (150 + 2 * maxCodeLen s.ct) + 5 < n) :
    (s.scanToken nsym nbytes start chunk t).shrunk n := by
  have count : ∀ (u : State) (v : Word) (k : Word → State → State), u.inq = s.inq → u.ct = s.ct →
      (∀ m (u' : State), u'.inq = s.inq → u'.ct = s.ct → (k m u').shrunk n) → (u.scanCount nsym start v k).shrunk n := by
    intro u v k hq hc hk
    unfold State.scanCount
    split
    · exact State.shrunk_raise _ _ _ (by omega)
    · split
      · exact State.shrunk_raise _ _ _ (by omega)
      · exact hk _ _ hq hc
  unfold State.scanToken
  split
  · exact State.shrunk_raise _ _ _ (by omega)
  · split
    · exact State.shrunk_raise _ _ _ (by omega)
    · dsimp only
      split_ifs
      · unfold State.scanCount
        split
        · exact State.shrunk_raise _ _ _ (by omega)
        · split
          · exact State.shrunk_raise _ _ _ (by omega)
          · refine State.shrunk_goOn _ _ _ ?_ (by simp [Micro.bounded])
            simp [leftOver, Micro.weight]; omega
      · refine State.shrunk_goOn _ _ _ ?_ (by simp [Micro.bounded])
        simp [leftOver, Micro.weight]; omega
  · split_ifs
    · refine State.shrunk_goOn _ _ _ ?_ (by simp [Micro.bounded])
      simp [leftOver, Micro.weight]; omega
    · refine count _ _ _ rfl rfl fun m u' hq hc => State.shrunk_goOn _ _ _ ?_ (by simp [Micro.bounded])
      rw [hq, hc]
      simp [leftOver, Micro.weight]; omega

theorem unpackToken_shrunk (s : State) (nbytes : Word) (t : Token) (n : Nat)
    (h : s.inq.length * (150 + 2 * maxCodeLen s.ct) + 150 < n) : (s.unpackToken nbytes t).shrunk n := by
  unfold State.unpackToken
  split
  · exact State.shrunk_raise _ _ _ (by omega)
  · refine State.shrunk_goOn _ _ _ ?_ (by simp [Micro.bounded])
    simp [leftOver, Micro.weight]; omega
  · split
    · exact State.shrunk_raise _ _ _ (by omega)
    · refine State.shrunk_goOn _ _ _ ?_ (bounded_append (bounded_bits _) (by simp [Micro.bounded]))
      simp only [leftOver, List.map_append, List.sum_append, sum_weight_bits, byteBits_length, List.map_cons,
        List.map_nil, List.sum_cons, List.sum_nil, Micro.weight]
      omega

theorem deserToken_shrunk (s : State) (d : Deser) (t : Token) (n : Nat) (hd : (Micro.deser d).bounded)
    (h : s.inq.length * (150 + 2 * maxCodeLen s.ct) + 5 < n) : (s.deserToken d t).shrunk n := by
  have fail : ∀ (u : State) (r : Raise), (u.failDeser r).shrunk n := fun u r =>
    State.shrunk_idle _ _ rfl (by omega)
  have go : ∀ d' : Deser, (d'.field = .code → d'.l ≤ 64) → (s.goOn [.deser d']).shrunk n := by
    intro d' hd'
    refine State.shrunk_goOn _ _ _ ?_ (by simpa [Micro.bounded] using hd')
    simp [leftOver, Micro.weight]; omega
  unfold State.deserToken
  split
  · exact fail _ _
  · exact fail _ _
  · rename_i b
    dsimp only
    split_ifs
    · unfold State.deserField
      split
      · dsimp only
        split_ifs
        · exact fail _ _
        · exact fail _ _
        · exact go _ (by simp [Deser.nextEntry, Deser.begin])
      · dsimp only
        split_ifs
        · exact fail _ _
        · exact go _ (by simp [Deser.begin])
      · dsimp only
        split_ifs
        · exact fail _ _
        · exact fail _ _
        · exact go _ (by simp [Deser.begin]; omega)
      · rename_i hf
        have hl : d.l ≤ 64 := hd hf
        dsimp only
        have hm := maxCodeLen_put s.ct d.s (BitSeq.mk' d.l (leWord (d.got ++ [b]))) hl
        have hmul := Nat.mul_le_mul_left s.inq.length (Nat.add_le_add_left (Nat.mul_le_mul_left 2 hm) 150)
        split_ifs
        · refine State.shrunk_goOn _ _ _ ?_ (by simp [Micro.bounded])
          simp only [leftOver, List.map_cons, List.map_nil, List.sum_cons, List.sum_nil, Micro.weight]
          exact Nat.lt_of_le_of_lt (Nat.add_le_add_left hmul _) (by omega)
        · refine State.shrunk_goOn _ _ _ ?_ (by simp [Micro.bounded, Deser.nextEntry, Deser.begin])
          simp only [leftOver, List.map_cons, List.map_nil, List.sum_cons, List.sum_nil, Micro.weight]
          exact Nat.lt_of_le_of_lt (Nat.add_le_add_left hmul _) (by omega)
    · exact go _ hd

/-- One InRead that can go on takes a token away from the measure, or aborts. -/
theorem inRead_shrunk (s a : State) (k : Token → State → State) (n : Nat) (ha : a.run = .idle) (hn : 0 < n)
    (hr : s.readReady = true)
    (hk : ∀ t rest, s.inq = t :: rest → (k t (s.took rest)).shrunk n) :
    (s.inRead a k).shrunk n := by
  rcases s.inRead_cases a k with ⟨_, _, h⟩ | ⟨hq, h⟩ | ⟨t, rest, hq, hne, h⟩
  · rw [h]; exact State.shrunk_idle _ _ ha hn
  · have hab : s.iof = true ∧ s.iofSkip = 0 := by simpa [State.readReady, hq] using hr
    simp only [State.inRead, hab.1, hab.2]
    exact State.shrunk_idle _ _ ha hn
  · rw [h]; exact hk t rest hq

theorem outWrite_shrunk (s : State) (b : Byte) (k : State → State) (n : Nat) (hn : 0 < n)
    (hw : s.writeReady = true)
    (hk : ∀ u : State, u.inq = s.inq → u.ct = s.ct → (k u).shrunk n) : (s.outWrite b k).shrunk n := by
  rcases s.outWrite_cases b k with ⟨_, h⟩ | ⟨_, _, h⟩ | ⟨hi, hl, h⟩
  · rw [h]; exact State.shrunk_idle _ _ rfl hn
  · rw [h]; exact hk _ rfl rfl
  · simp [State.writeReady, hi, hl] at hw

/-- R375: every micro-step leaves less to do. -/
theorem microStep_shrunk (s : State) (hb : s.bounded) (hc : s.canMove = true) : s.microStep.shrunk s.work := by
  unfold State.microStep
  split
  · rename_i h; simp [State.canMove, h] at hc
  · rename_i h; simp [State.canMove, h] at hc
  · rename_i h
    exact State.shrunk_idle _ _ rfl (by rw [s.work_running _ h]; omega)
  · rename_i m rest h
    have hm : m.ready s = true := by simpa [State.canMove, h] using hc
    have hbm := hb _ h m List.mem_cons_self
    have hbr : ∀ x ∈ rest, x.bounded := fun x hx => hb _ h x (List.mem_cons_of_mem _ hx)
    have hw := s.work_running _ h
    simp only [List.map_cons, List.sum_cons] at hw
    have hpos : 0 < s.work := by omega
    have rest_go : ∀ u : State, u.inq = s.inq → u.ct = s.ct → 0 < m.weight → (u.goOn rest).shrunk s.work := by
      intro u hq hct hwt
      refine State.shrunk_goOn _ _ _ ?_ hbr
      rw [hq, hct, leftOver]; omega
    have tok : ∀ (t : Token) (r : List Token), s.inq = t :: r →
        r.length * (150 + 2 * maxCodeLen s.ct) + (150 + 2 * maxCodeLen s.ct) + 1 + m.weight ≤ s.work := by
      intro t r hq
      rw [hw, hq, List.length_cons, Nat.add_mul]; omega
    cases m with
    | emitBit b =>
      refine emitBit_shrunk _ _ _ _ ?_ hbr
      simp only [Micro.weight] at hw; rw [leftOver]; omega
    | outPB => exact outWrite_shrunk _ _ _ _ hpos hm fun u hq hct => rest_go _ hq hct Nat.one_pos
    | pad =>
      simp only [State.perform]
      split_ifs
      · exact rest_go _ rfl rfl (by simp [Micro.weight])
      · refine State.shrunk_goOn _ _ _ ?_ (List.forall_mem_cons.2 ⟨trivial, hbr⟩)
        simp only [Micro.weight] at hw
        simp only [leftOver, List.map_cons, List.sum_cons, Micro.weight]; omega
    | decodeBit b =>
      refine decodeBit_shrunk _ _ _ _ ?_ hbr
      simp only [Micro.weight] at hw; rw [leftOver]; omega
    | out b => exact outWrite_shrunk _ _ _ _ hpos hm fun u hq hct => rest_go _ hq hct Nat.one_pos
    | toRoot => exact rest_go _ rfl rfl (by simp [Micro.weight])
    | scan nsym nbytes start chunk =>
      refine inRead_shrunk _ _ _ _ rfl hpos hm fun t r hq => scanToken_shrunk _ _ _ _ _ _ _ ?_
      have := tok t r hq
      simp only [Micro.weight, State.took_inq, State.took_ct] at this ⊢; omega
    | packIn nbytes start chunk =>
      refine inRead_shrunk _ _ _ _ rfl hpos hm fun t r hq => packToken_shrunk _ _ _ _ _ _ ?_
      have := tok t r hq
      simp only [Micro.weight, State.took_inq, State.took_ct] at this ⊢; omega
    | unpackIn nbytes =>
      refine inRead_shrunk _ _ _ _ rfl hpos hm fun t r hq => unpackToken_shrunk _ _ _ _ ?_
      have := tok t r hq
      have h64 := maxCodeLen_ge s.ct
      simp only [Micro.weight, State.took_inq, State.took_ct] at this ⊢; omega
    | deser d =>
      refine inRead_shrunk _ _ _ _ rfl hpos hm fun t r hq => deserToken_shrunk _ _ _ _ hbm ?_
      have := tok t r hq
      simp only [Micro.weight, State.took_inq, State.took_ct] at this ⊢; omega
    | finish f =>
      simp only [State.perform, State.finish]
      refine State.shrunk_idle _ _ ?_ hpos
      split_ifs
      · cases f <;> rfl
      · rfl

/-- R375: the core stops within the bound. -/
theorem runMicro_stops : ∀ (n : Nat) (s : State), s.bounded → s.work ≤ n → (runMicro n s).canMove = false
  | 0, s, _, hw => by
    unfold runMicro State.canMove
    split
    · rfl
    · rfl
    · rename_i h; rw [s.work_running _ h] at hw; omega
    · rename_i h; rw [s.work_running _ h] at hw; omega
  | n + 1, s, hb, hw => by
    unfold runMicro
    split_ifs with hc
    · have := microStep_shrunk s hb hc
      have hlt : s.microStep.work < s.work := this.1
      exact runMicro_stops n _ this.2 (by omega)
    · simpa using hc

/-- Where the core can get and cannot go on is where it stops, when no turns are given. -/
theorem State.settle_eq (s t : State) (ht : s.host.turns = []) (hb : s.bounded) (h : Moves s t) (hc : t.canMove = false) :
    s.settle = t := by
  unfold State.settle
  rw [ht, List.isEmpty_nil, if_pos rfl]
  exact runMicro_eq_of_moves h hc _ (runMicro_stops _ _ hb (Nat.le_refl _))

/-- A stream command that can get to a state where it cannot go on gets there. -/
theorem State.start_eq (s t : State) (todo : List Micro) (ht : s.host.turns = []) (hb : ∀ m ∈ todo, m.bounded)
    (h : Moves (s.begin todo) t) (hc : t.canMove = false) : s.start todo = .next t := by
  unfold State.start
  rw [State.settle_eq (s.begin todo) t ht (fun todo' h' => by cases h'; exact hb) h hc]

theorem canMove_of_idle {s : State} (h : s.run = .idle) : s.canMove = false := by simp [State.canMove, h]

end Sys2Proof.Machine
end

