-- ==== Sys2Proof/Laws/Streams.lean ====
section
/-! SUPPORT. Stream commands as functions: the packer and the decoder as functions of the bits they are given, and the paths of micro-steps that compute them when no abort is pending and OUT has room. -/

namespace Sys2Proof.Machine

/-! ### Writing bytes -/

/-- The bytes `l` have been appended to OUT. -/
def State.wroteAll (s : State) (l : List Byte) : State := { s with outq := s.outq ++ l, wrote := s.wrote + l.length }

@[simp] theorem State.wroteAll_nil (s : State) : s.wroteAll [] = s := by simp [State.wroteAll]

@[simp] theorem State.wroteAll_wroteAll (s : State) (l k : List Byte) : (s.wroteAll l).wroteAll k = s.wroteAll (l ++ k) := by
  simp [State.wroteAll, Nat.add_assoc]

theorem State.wroteByte_eq (s : State) (b : Byte) : s.wroteByte b = s.wroteAll [b] := rfl

@[simp] theorem State.wroteAll_params (s : State) (l : List Byte) : (s.wroteAll l).params = s.params := rfl
@[simp] theorem State.wroteAll_width (s : State) (l : List Byte) : (s.wroteAll l).width = s.width := rfl
@[simp] theorem State.wroteAll_bs (s : State) (l : List Byte) : (s.wroteAll l).bs = s.bs := rfl
@[simp] theorem State.wroteAll_ft (s : State) (l : List Byte) : (s.wroteAll l).ft = s.ft := rfl
@[simp] theorem State.wroteAll_ct (s : State) (l : List Byte) : (s.wroteAll l).ct = s.ct := rfl
@[simp] theorem State.wroteAll_etree (s : State) (l : List Byte) : (s.wroteAll l).etree = s.etree := rfl
@[simp] theorem State.wroteAll_dtree (s : State) (l : List Byte) : (s.wroteAll l).dtree = s.dtree := rfl
@[simp] theorem State.wroteAll_packer (s : State) (l : List Byte) : (s.wroteAll l).packer = s.packer := rfl
@[simp] theorem State.wroteAll_decoder (s : State) (l : List Byte) : (s.wroteAll l).decoder = s.decoder := rfl
@[simp] theorem State.wroteAll_latch (s : State) (l : List Byte) : (s.wroteAll l).latch = s.latch := rfl
@[simp] theorem State.wroteAll_regs (s : State) (l : List Byte) : (s.wroteAll l).regs = s.regs := rfl
@[simp] theorem State.wroteAll_done (s : State) (l : List Byte) : (s.wroteAll l).done = s.done := rfl
@[simp] theorem State.wroteAll_err (s : State) (l : List Byte) : (s.wroteAll l).err = s.err := rfl
@[simp] theorem State.wroteAll_ovr (s : State) (l : List Byte) : (s.wroteAll l).ovr = s.ovr := rfl
@[simp] theorem State.wroteAll_errRec (s : State) (l : List Byte) : (s.wroteAll l).errRec = s.errRec := rfl
@[simp] theorem State.wroteAll_inq (s : State) (l : List Byte) : (s.wroteAll l).inq = s.inq := rfl
@[simp] theorem State.wroteAll_outq (s : State) (l : List Byte) : (s.wroteAll l).outq = s.outq ++ l := rfl
@[simp] theorem State.wroteAll_run (s : State) (l : List Byte) : (s.wroteAll l).run = s.run := rfl
@[simp] theorem State.wroteAll_iof (s : State) (l : List Byte) : (s.wroteAll l).iof = s.iof := rfl
@[simp] theorem State.wroteAll_iofSkip (s : State) (l : List Byte) : (s.wroteAll l).iofSkip = s.iofSkip := rfl
@[simp] theorem State.wroteAll_wrote (s : State) (l : List Byte) : (s.wroteAll l).wrote = s.wrote + l.length := rfl
@[simp] theorem State.wroteAll_host (s : State) (l : List Byte) : (s.wroteAll l).host = s.host := rfl

/-- The state with w = 0 (R331). -/
def State.fresh (s : State) : State := { s with wrote := 0 }

@[simp] theorem State.fresh_params (s : State) : (s.fresh).params = s.params := rfl
@[simp] theorem State.fresh_width (s : State) : (s.fresh).width = s.width := rfl
@[simp] theorem State.fresh_bs (s : State) : (s.fresh).bs = s.bs := rfl
@[simp] theorem State.fresh_ft (s : State) : (s.fresh).ft = s.ft := rfl
@[simp] theorem State.fresh_ct (s : State) : (s.fresh).ct = s.ct := rfl
@[simp] theorem State.fresh_etree (s : State) : (s.fresh).etree = s.etree := rfl
@[simp] theorem State.fresh_dtree (s : State) : (s.fresh).dtree = s.dtree := rfl
@[simp] theorem State.fresh_packer (s : State) : (s.fresh).packer = s.packer := rfl
@[simp] theorem State.fresh_decoder (s : State) : (s.fresh).decoder = s.decoder := rfl
@[simp] theorem State.fresh_latch (s : State) : (s.fresh).latch = s.latch := rfl
@[simp] theorem State.fresh_regs (s : State) : (s.fresh).regs = s.regs := rfl
@[simp] theorem State.fresh_done (s : State) : (s.fresh).done = s.done := rfl
@[simp] theorem State.fresh_err (s : State) : (s.fresh).err = s.err := rfl
@[simp] theorem State.fresh_ovr (s : State) : (s.fresh).ovr = s.ovr := rfl
@[simp] theorem State.fresh_errRec (s : State) : (s.fresh).errRec = s.errRec := rfl
@[simp] theorem State.fresh_inq (s : State) : (s.fresh).inq = s.inq := rfl
@[simp] theorem State.fresh_outq (s : State) : (s.fresh).outq = s.outq := rfl
@[simp] theorem State.fresh_run (s : State) : (s.fresh).run = s.run := rfl
@[simp] theorem State.fresh_iof (s : State) : (s.fresh).iof = s.iof := rfl
@[simp] theorem State.fresh_iofSkip (s : State) : (s.fresh).iofSkip = s.iofSkip := rfl
@[simp] theorem State.fresh_wrote (s : State) : (s.fresh).wrote = 0 := rfl
@[simp] theorem State.fresh_host (s : State) : (s.fresh).host = s.host := rfl

theorem State.begin_eq (s : State) (todo : List Micro) : s.begin todo = s.fresh.goOn todo := rfl

theorem State.canMove_goOn (s : State) (m : Micro) (rest : List Micro) : (s.goOn (m :: rest)).canMove = m.ready (s.goOn (m :: rest)) := rfl

theorem State.microStep_goOn (s : State) (m : Micro) (rest : List Micro) :
    (s.goOn (m :: rest)).microStep = (s.goOn (m :: rest)).perform m rest := rfl

/-- The end of a command with no abort pending (R34, R145). -/
theorem moves_finish (s : State) (f : Finish) (hi : s.iof = false) :
    Moves (s.goOn [.finish f]) ((s.goOn [.finish f]).writeResults f).complete := by
  refine Moves.one rfl ?_
  show (s.goOn [.finish f]).finish f = _
  unfold State.finish
  rw [State.goOn_iof, hi]
  rfl

/-- A stream command that can go on to its end with no abort pending completes (R145, R375). -/
theorem State.start_completes (s u : State) (todo : List Micro) (f : Finish) (ht : s.host.turns = [])
    (hb : ∀ m ∈ todo, m.bounded) (h : Moves (s.fresh.goOn todo) (u.goOn [.finish f])) (hi : u.iof = false) :
    s.start todo = .next (((u.goOn [.finish f]).writeResults f).complete) :=
  State.start_eq s _ _ ht hb (h.trans (moves_finish u f hi)) (canMove_of_idle rfl)

theorem State.sameBut_fresh (s : State) : s.sameBut s.fresh [] := by
  intro p _; cases p <;> simp [Part.same, State.bsAt]

theorem State.sameBut_goOn (s : State) (todo : List Micro) : s.sameBut (s.goOn todo) [] := by
  intro p _; cases p <;> simp [Part.same, State.bsAt]

theorem State.sameBut_wroteAll (s : State) (l : List Byte) : s.sameBut (s.wroteAll l) [.outq] := by
  intro p hp; cases p <;> simp_all [Part.same, State.bsAt]

theorem State.sameBut_writeResults (s : State) (f : Finish) : s.sameBut (s.writeResults f) [.res0, .res1] := by
  cases f with
  | packBs => exact State.sameBut_mono (s.sameBut_setRes0 _) (by simp)
  | _ => exact s.sameBut_setRes _ _

theorem State.sameBut_append {s t u : State} {ps qs : List Part} (h : s.sameBut t ps) (h' : t.sameBut u qs) :
    s.sameBut u (ps ++ qs) :=
  State.sameBut_trans (State.sameBut_mono h fun _ hp => List.mem_append_left _ hp)
    (State.sameBut_mono h' fun _ hp => List.mem_append_right _ hp)

/-- The end of a command changes RES0 and RES1 only. -/
theorem State.sameBut_finished (s u : State) (f : Finish) (ps : List Part) (h : s.sameBut u ps) :
    s.sameBut (((u.goOn [.finish f]).writeResults f).complete) (ps ++ [.res0, .res1]) := by
  have h1 := State.sameBut_append (u.sameBut_goOn [.finish f]) ((u.goOn [.finish f]).sameBut_writeResults f)
  have h2 := State.sameBut_append h1 (State.sameBut_complete _)
  exact State.sameBut_append h (State.sameBut_mono h2 (by simp))

/-- A command that completes (R145). -/
theorem State.completes_finished (s u : State) (f : Finish) (he : u.err = s.err) (hr : u.errRec = s.errRec)
    (ho : u.ovr = s.ovr) : s.completes (((u.goOn [.finish f]).writeResults f).complete) := by
  cases f <;> exact ⟨rfl, rfl, he, hr, ho⟩

/-- One OutWrite with room (R83). -/
theorem moves_out (s : State) (b : Byte) (rest : List Micro) (hi : s.iof = false) (hr : s.outq.length < s.params.outCap) :
    Moves (s.goOn (.out b :: rest)) ((s.wroteAll [b]).goOn rest) := by
  refine Moves.one ?_ ?_
  · simp [State.canMove_goOn, Micro.ready, State.writeReady, hr]
  · simp only [State.microStep_goOn, State.perform, State.outWrite, State.goOn_iof, hi, State.goOn_outq, State.goOn_params, hr]
    rfl

/-- OutWrites with room. -/
theorem moves_outs (l : List Byte) : ∀ (s : State) (rest : List Micro), s.iof = false →
    s.outq.length + l.length ≤ s.params.outCap → Moves (s.goOn (l.map Micro.out ++ rest)) ((s.wroteAll l).goOn rest) := by
  induction l with
  | nil => intro s rest _ _; simpa using Moves.refl _
  | cons b l ih =>
    intro s rest hi hr
    simp only [List.length_cons] at hr
    refine (moves_out s b _ hi (by omega)).trans ?_
    have := ih (s.wroteAll [b]) rest hi (by simp; omega)
    simpa using this

/-! ### The packer as a function -/

/-- EmitBit(b) as a function: the packer after it, and the byte it writes (R280). -/
def Packer.push (p : Packer) (b : Bool) : Packer × List Byte :=
  if p.pbn = 7 then (⟨0, 0, p.bits + 1, p.syms⟩, [p.filled b])
  else (⟨p.filled b, p.pbn + 1, p.bits + 1, p.syms⟩, [])

/-- EmitBit of each bit in turn. -/
def Packer.pushAll (p : Packer) : List Bool → Packer × List Byte
  | [] => (p, [])
  | b :: bits => (((p.push b).1.pushAll bits).1, (p.push b).2 ++ ((p.push b).1.pushAll bits).2)

theorem Packer.filled_getLsbD (p : Packer) (b : Bool) (i : Nat) (hi : i < 8) :
    (p.filled b).getLsbD i = (p.pb.getLsbD i || (decide (i = p.pbn.toNat) && b)) := by
  have h1 : ((if b then 1#8 else 0#8) : Byte) = BitVec.ofNat 8 b.toNat := by cases b <;> rfl
  simp only [Packer.filled, BitVec.getLsbD_or, BitVec.getLsbD_shiftLeft, hi, decide_true, Bool.true_and]
  congr 1
  rcases Nat.lt_trichotomy i p.pbn.toNat with h | h | h
  · simp [h, Nat.ne_of_lt h]
  · cases b <;> simp [h]
  · have : i - p.pbn.toNat ≠ 0 := by omega
    cases b <;> simp [Nat.ne_of_gt h, Nat.not_lt.2 (Nat.le_of_lt h), this]

theorem Packer.clean_iff (p : Packer) : p.clean ↔ ∀ i, p.pbn.toNat ≤ i → p.pb.getLsbD i = false := by
  refine ⟨fun h i hi => ?_, fun h => ?_⟩
  · have := congrArg (fun w : Byte => w.getLsbD (i - p.pbn.toNat)) (show p.pb >>> p.pbn.toNat = 0#8 from h)
    simpa [BitVec.getLsbD_ushiftRight, Nat.add_sub_cancel' hi] using this
  · refine BitVec.eq_of_getLsbD_eq fun i _ => ?_
    simp [BitVec.getLsbD_ushiftRight, h (p.pbn.toNat + i) (Nat.le_add_right _ _)]

theorem Packer.pending_length (p : Packer) : p.pending.length = p.pbn.toNat := by simp [Packer.pending]

/-- The low bits of the filled byte: those held before, then the new one. -/
theorem Packer.filled_bits (p : Packer) (b : Bool) (h : p.clean) :
    (List.range (p.pbn.toNat + 1)).map (p.filled b).getLsbD = p.pending ++ [b] := by
  have h8 : p.pbn.toNat < 8 := p.pbn.isLt
  rw [List.range_succ, List.map_append]
  congr 1
  · refine List.map_congr_left fun i hi => ?_
    have hi' : i < p.pbn.toNat := List.mem_range.1 hi
    rw [Packer.filled_getLsbD _ _ _ (by omega)]
    simp [Nat.ne_of_lt hi']
  · simp only [List.map_cons, List.map_nil]
    rw [Packer.filled_getLsbD _ _ _ h8, (Packer.clean_iff p).1 h _ (Nat.le_refl _)]
    simp

/-- EmitBit appends its bit to the stream of the bytes written and the bits held back (R280). -/
theorem Packer.push_stream (p : Packer) (b : Bool) (h : p.clean) :
    (p.push b).2.flatMap byteBits ++ (p.push b).1.pending = p.pending ++ [b] ∧ (p.push b).1.clean ∧
      (p.push b).1.bits = p.bits + 1 ∧ (p.push b).1.syms = p.syms ∧
      (p.push b).2.length = (p.pbn.toNat + 1) / 8 ∧ (p.push b).1.pbn.toNat = (p.pbn.toNat + 1) % 8 := by
  have h8 : p.pbn.toNat < 8 := p.pbn.isLt
  have hf := p.filled_bits b h
  unfold Packer.push
  by_cases h7 : p.pbn = 7
  · have h7' : p.pbn.toNat = 7 := by rw [h7]; rfl
    rw [if_pos h7]
    refine ⟨?_, ?_, rfl, rfl, ?_, ?_⟩
    · rw [h7'] at hf
      simp only [List.flatMap_cons, List.flatMap_nil, List.append_nil, byteBits, hf, Packer.pending, h7']
      simp
    · simp [Packer.clean]
    · simp [h7']
    · simp [h7']
  · have h7' : p.pbn.toNat ≠ 7 := fun e => h7 (BitVec.eq_of_toNat_eq e)
    have hn : (p.pbn + 1).toNat = p.pbn.toNat + 1 := by
      rw [BitVec.toNat_add]; simp; omega
    rw [if_neg h7]
    refine ⟨?_, ?_, rfl, rfl, ?_, ?_⟩
    · simp only [List.flatMap_nil, List.nil_append, Packer.pending, hn]
      exact hf
    · rw [Packer.clean_iff]
      intro i hi
      have hi' : p.pbn.toNat + 1 ≤ i := by rw [← hn]; exact hi
      by_cases hi8 : i < 8
      · rw [Packer.filled_getLsbD _ _ _ hi8, (Packer.clean_iff p).1 h i (by omega)]
        simp; omega
      · exact BitVec.getLsbD_of_ge _ _ (by omega)
    · simp; omega
    · simp only [hn]; omega

/-- EmitBit of many bits appends them (R280, R282, R283). -/
theorem Packer.pushAll_stream (bits : List Bool) : ∀ p : Packer, p.clean →
    (p.pushAll bits).2.flatMap byteBits ++ (p.pushAll bits).1.pending = p.pending ++ bits ∧ (p.pushAll bits).1.clean ∧
      (p.pushAll bits).1.bits = p.bits + BitVec.ofNat 64 bits.length ∧ (p.pushAll bits).1.syms = p.syms ∧
      (p.pushAll bits).2.length = (p.pbn.toNat + bits.length) / 8 := by
  induction bits with
  | nil =>
    intro p h
    have h8 : p.pbn.toNat < 8 := p.pbn.isLt
    exact ⟨by simp [Packer.pushAll], h, by simp [Packer.pushAll], rfl, by simp [Packer.pushAll]; omega⟩
  | cons b bits ih =>
    intro p h
    obtain ⟨h1, h2, h3, h4, h5, h6⟩ := p.push_stream b h
    obtain ⟨i1, i2, i3, i4, i5⟩ := ih (p.push b).1 h2
    refine ⟨?_, i2, ?_, i4.trans h4, ?_⟩
    · simp only [Packer.pushAll, List.flatMap_append, List.append_assoc, i1]
      rw [← List.append_assoc, h1]
      simp
    · simp only [Packer.pushAll, i3, h3, List.length_cons]
      rw [BitVec.add_assoc]
      congr 1
      apply BitVec.eq_of_toNat_eq
      simp [BitVec.toNat_add, Nat.add_comm]
    · simp only [Packer.pushAll, List.length_append, h5, i5, h6, List.length_cons]
      have := Nat.div_add_mod (p.pbn.toNat + 1) 8
      omega

theorem Packer.pushAll_length (bits : List Bool) : ∀ p : Packer,
    (p.pushAll bits).2.length = (p.pbn.toNat + bits.length) / 8 := by
  induction bits with
  | nil => intro p; have h8 : p.pbn.toNat < 8 := p.pbn.isLt; simp [Packer.pushAll]; omega
  | cons b bits ih =>
    intro p
    have h8 : p.pbn.toNat < 8 := p.pbn.isLt
    simp only [Packer.pushAll, List.length_append, ih, List.length_cons]
    by_cases h7 : p.pbn = 7
    · have : p.pbn.toNat = 7 := by rw [h7]; rfl
      simp [Packer.push, h7]; omega
    · have : p.pbn.toNat ≠ 7 := fun e => h7 (BitVec.eq_of_toNat_eq e)
      have hn : (p.pbn + 1).toNat = p.pbn.toNat + 1 := by rw [BitVec.toNat_add]; simp; omega
      simp only [Packer.push, if_neg h7, hn, List.length_nil]; omega

theorem word_ne_max_of_lt (x : Word) (n : Nat) (h : x.toNat + (n + 1) < 2 ^ 64) : x ≠ maxWord := by
  intro e
  have : x.toNat = 2 ^ 64 - 1 := by rw [e]; rfl
  omega

theorem word_add_one_toNat (x : Word) (n : Nat) (h : x.toNat + (n + 1) < 2 ^ 64) : (x + 1).toNat = x.toNat + 1 := by
  rw [BitVec.toNat_add]; simp; omega

/-- The packer's OutWrite with room (R280, R284). -/
theorem moves_outPB (s : State) (rest : List Micro) (hi : s.iof = false) (hr : s.outq.length < s.params.outCap) :
    Moves (s.goOn (.outPB :: rest)) ((s.clearPB.wroteAll [s.packer.pb]).goOn rest) := by
  refine Moves.one ?_ ?_
  · simp [State.canMove_goOn, Micro.ready, State.writeReady, hr]
  · simp only [State.microStep_goOn, State.perform, State.outWrite, State.goOn_iof, hi, State.goOn_outq, State.goOn_params, hr]
    rfl

/-- One EmitBit of a state that need not wait. -/
theorem moves_emit (s : State) (b : Bool) (rest : List Micro) (hi : s.iof = false) (hb : s.packer.bits ≠ maxWord)
    (hr : s.outq.length + (s.packer.push b).2.length ≤ s.params.outCap) :
    Moves (s.goOn (.emitBit b :: rest)) (((s.setPacker (s.packer.push b).1).wroteAll (s.packer.push b).2).goOn rest) := by
  have hstep : (s.goOn (.emitBit b :: rest)).microStep = (s.goOn (.emitBit b :: rest)).emitBit b rest := rfl
  rcases (s.goOn (.emitBit b :: rest)).emitBit_cases b rest with ⟨h, _⟩ | ⟨_, h7, h⟩ | ⟨_, h7, h⟩
  · exact absurd h hb
  · have h7' : s.packer.pbn = 7 := h7
    have hr' : s.outq.length < s.params.outCap := by simpa [Packer.push, h7'] using hr
    refine Moves.step _ _ rfl ?_
    rw [hstep, h]
    have hp := moves_outPB (s.setPacker { s.packer with bits := s.packer.bits + 1, pb := s.packer.filled b }) rest hi hr'
    simp only [Packer.push, if_pos h7']
    exact hp
  · have h7' : s.packer.pbn ≠ 7 := h7
    refine Moves.one rfl ?_
    rw [hstep, h]
    simp only [Packer.push, if_neg h7', State.wroteAll_nil]
    rfl

@[simp] theorem State.setPacker_wroteAll_setPacker (s : State) (p q : Packer) (l : List Byte) :
    ((s.setPacker p).wroteAll l).setPacker q = (s.setPacker q).wroteAll l := rfl

/-- EmitBits of a state that need not wait (R282, R283). -/
theorem moves_emits (bits : List Bool) : ∀ (s : State) (rest : List Micro), s.iof = false →
    s.packer.bits.toNat + bits.length < 2 ^ 64 →
    s.outq.length + (s.packer.pushAll bits).2.length ≤ s.params.outCap →
    Moves (s.goOn (bits.map Micro.emitBit ++ rest))
      (((s.setPacker (s.packer.pushAll bits).1).wroteAll (s.packer.pushAll bits).2).goOn rest) := by
  induction bits with
  | nil =>
    intro s rest _ _ _
    simp only [Packer.pushAll, State.wroteAll_nil, List.map_nil, List.nil_append]
    exact Moves.refl _
  | cons b bits ih =>
    intro s rest hi hb hr
    simp only [List.length_cons, Packer.pushAll, List.length_append] at hb hr
    have hm := word_ne_max_of_lt _ _ hb
    have hbits : (s.packer.push b).1.bits = s.packer.bits + 1 := by unfold Packer.push; split <;> rfl
    refine (moves_emit s b _ hi hm (by omega)).trans ?_
    have := ih ((s.setPacker (s.packer.push b).1).wroteAll (s.packer.push b).2) rest hi
      (by simp only [State.wroteAll_packer, State.setPacker_packer, hbits]
          have := word_add_one_toNat _ _ hb
          omega)
      (by simp only [State.wroteAll_packer, State.setPacker_packer, State.wroteAll_outq, State.setPacker_outq,
            List.length_append, State.wroteAll_params, State.setPacker_params]
          omega)
    simpa [Packer.pushAll] using this

/-! ### The decoder as a function -/

/-- What DecodeBit depends on besides the decoder: DTREE, LIM and N. -/
structure DecodeEnv where
  tree : DTree
  lim : Word
  n : Nat

/-- The environment of a state. -/
def State.decodeEnv (s : State) : DecodeEnv := ⟨s.dtree.getD .absent, s.latch.lim, s.symWidth⟩

/-- DecodeBit at the node reached, as a function: the decoder after it and the bytes it writes; `none` where a counter overflows (R300). -/
def Decoder.arrive (e : DecodeEnv) (d : Decoder) : Option (Decoder × List Byte) :=
  if (e.tree.sub d.cur.toBits).isLeaf then
    match (e.tree.sub d.cur.toBits).symAt with
    | some sy =>
      if d.acc.eq d.cur then
        if d.syms = maxWord then none
        else some ({ d with syms := d.syms + 1, cur := .empty, acc := .empty }, beBytes e.n sy)
      else some ({ d with cur := .empty, acc := .empty, mismatch := true }, [])
    | none => some ({ d with cur := .empty, acc := .empty, mismatch := true }, [])
  else some (d, [])

/-- DecodeBit(b) as a function (R300). -/
def Decoder.feed (e : DecodeEnv) (d : Decoder) (b : Bool) : Option (Decoder × List Byte) :=
  if e.lim ≠ maxWord ∧ d.bits = e.lim then some ({ d with limitHit := true }, [])
  else if d.bits = maxWord then none
  else if (e.tree.sub (d.cur.append b).toBits).isAbsent then
    some ({ d with bits := d.bits + 1, cur := .empty, acc := .empty, mismatch := true }, [])
  else Decoder.arrive e { d with bits := d.bits + 1, cur := d.cur.append b, acc := d.acc.append b }

/-- DecodeBit of each bit in turn. -/
def Decoder.feedAll (e : DecodeEnv) (d : Decoder) : List Bool → Option (Decoder × List Byte)
  | [] => some (d, [])
  | b :: bits =>
    match Decoder.feed e d b with
    | none => none
    | some (d', o) =>
      match Decoder.feedAll e d' bits with
      | none => none
      | some (d'', o') => some (d'', o ++ o')

theorem Decoder.feedAll_append (e : DecodeEnv) (k : List Bool) : ∀ (bits : List Bool) (d d' : Decoder) (o : List Byte),
    Decoder.feedAll e d bits = some (d', o) →
    Decoder.feedAll e d (bits ++ k) = (Decoder.feedAll e d' k).map (fun r => (r.1, o ++ r.2)) := by
  intro bits
  induction bits with
  | nil =>
    intro d d' o h
    cases h
    rw [List.nil_append]
    cases Decoder.feedAll e d k with
    | none => rfl
    | some r => simp
  | cons b bits ih =>
    intro d d' o h
    simp only [Decoder.feedAll, List.cons_append] at h ⊢
    cases hf : Decoder.feed e d b with
    | none => rw [hf] at h; cases h
    | some r =>
      obtain ⟨d1, o1⟩ := r
      rw [hf] at h
      dsimp only at h ⊢
      cases hg : Decoder.feedAll e d1 bits with
      | none => rw [hg] at h; cases h
      | some r2 =>
        obtain ⟨d2, o2⟩ := r2
        rw [hg] at h
        cases h
        rw [ih d1 d' o2 hg]
        cases Decoder.feedAll e d' k with
        | none => rfl
        | some r3 => simp

theorem State.dnode_env (s : State) (c : BitSeq) : s.dnode c = s.decodeEnv.tree.sub c.toBits := by
  unfold State.dnode State.decodeEnv
  cases s.dtree with
  | some t => rfl
  | none =>
    have : ∀ p : List Bool, DTree.absent.sub p = .absent := by
      intro p
      induction p with
      | nil => rfl
      | cons b p ih => exact ih
    simp [this]

/-- The path of micro-steps at the node reached. -/
theorem moves_arrive (s : State) (rest : List Micro) (d : Decoder) (o : List Byte) (hi : s.iof = false)
    (hf : s.decoder.arrive s.decodeEnv = some (d, o)) (hr : s.outq.length + o.length ≤ s.params.outCap) :
    Moves (s.arrive rest) (((s.setDecoder d).wroteAll o).goOn rest) := by
  have hn := s.dnode_env s.decoder.cur
  unfold Decoder.arrive at hf
  rw [← hn] at hf
  rcases s.arrive_cases rest with ⟨hl, h⟩ | ⟨hl, hx, h⟩ | ⟨sy, hl, hs, ha, h⟩
  · rw [hl, if_neg (by simp)] at hf
    cases hf
    rw [h, State.wroteAll_nil]
    exact Moves.refl _
  · rw [hl, if_pos rfl] at hf
    have : some ({ s.decoder with cur := .empty, acc := .empty, mismatch := true }, []) = some (d, o) := by
      rw [← hf]
      cases hs : (s.dnode s.decoder.cur).symAt with
      | none => rfl
      | some sy =>
        have hne : s.decoder.acc ≠ s.decoder.cur := hx.resolve_left (by simp [hs])
        have : s.decoder.acc.eq s.decoder.cur = false := by rw [← Bool.not_eq_true, BitSeq.eq_iff]; exact hne
        simp [this]
    cases this
    rw [h, State.wroteAll_nil]
    exact Moves.refl _
  · rw [hl, if_pos rfl, hs] at hf
    simp only [(BitSeq.eq_iff _ _).2 ha, if_true] at hf
    by_cases hm : s.decoder.syms = maxWord
    · rw [if_pos hm] at hf; cases hf
    · rw [if_neg hm] at hf
      cases hf
      have hd : s.deliver sy rest =
          (s.setDecoder { s.decoder with syms := s.decoder.syms + 1 }).goOn
            ((beBytes s.symWidth sy).map Micro.out ++ Micro.toRoot :: rest) := by
        unfold State.deliver
        rw [incCount_ok _ _ hm]
      rw [h, hd]
      refine (moves_outs _ (s.setDecoder { s.decoder with syms := s.decoder.syms + 1 }) _ hi hr).trans ?_
      exact Moves.one rfl rfl

/-- One DecodeBit of a state that need not wait. -/
theorem moves_decode (s : State) (b : Bool) (rest : List Micro) (d : Decoder) (o : List Byte) (hi : s.iof = false)
    (hf : s.decoder.feed s.decodeEnv b = some (d, o)) (hr : s.outq.length + o.length ≤ s.params.outCap) :
    Moves (s.goOn (.decodeBit b :: rest)) (((s.setDecoder d).wroteAll o).goOn rest) := by
  have hlim : s.decodeEnv.lim = s.latch.lim := rfl
  have hstep : (s.goOn (.decodeBit b :: rest)).microStep = (s.goOn (.decodeBit b :: rest)).decodeBit b rest := rfl
  unfold Decoder.feed at hf
  rw [hlim] at hf
  rcases (s.goOn (.decodeBit b :: rest)).decodeBit_cases b rest with ⟨h1, h2, h⟩ | ⟨h1, h2, h⟩ | ⟨h1, h2, h⟩
  · have h12 : s.latch.lim ≠ maxWord ∧ s.decoder.bits = s.latch.lim := ⟨h1, h2⟩
    rw [if_pos h12] at hf
    cases hf
    refine Moves.one rfl ?_
    rw [hstep, h, State.wroteAll_nil]
    rfl
  · have h1' : ¬ (s.latch.lim ≠ maxWord ∧ s.decoder.bits = s.latch.lim) := h1
    have h2' : s.decoder.bits = maxWord := h2
    rw [if_neg h1', if_pos h2'] at hf
    cases hf
  · have h1' : ¬ (s.latch.lim ≠ maxWord ∧ s.decoder.bits = s.latch.lim) := h1
    have h2' : s.decoder.bits ≠ maxWord := h2
    rw [if_neg h1', if_neg h2'] at hf
    refine Moves.step _ _ rfl ?_
    rw [hstep, h]
    unfold State.follow
    have hn : ((s.goOn (.decodeBit b :: rest)).setDecoder { s.decoder with bits := s.decoder.bits + 1 }).dnode
        (s.decoder.cur.append b) = s.decodeEnv.tree.sub (s.decoder.cur.append b).toBits := s.dnode_env _
    by_cases hab : (s.decodeEnv.tree.sub (s.decoder.cur.append b).toBits).isAbsent = true
    · rw [if_pos hab] at hf
      cases hf
      rw [if_pos (by rw [← hab, ← hn]; rfl), State.wroteAll_nil]
      exact Moves.refl _
    · rw [if_neg hab] at hf
      rw [if_neg (by rw [← hn] at hab; exact hab)]
      exact moves_arrive ((s.goOn (.decodeBit b :: rest)).setDecoder
        { s.decoder with bits := s.decoder.bits + 1, cur := s.decoder.cur.append b, acc := s.decoder.acc.append b })
        rest d o hi hf hr

@[simp] theorem State.setDecoder_wroteAll_setDecoder (s : State) (p q : Decoder) (l : List Byte) :
    ((s.setDecoder p).wroteAll l).setDecoder q = (s.setDecoder q).wroteAll l := rfl

/-- DecodeBits of a state that need not wait. -/
theorem moves_decodes (bits : List Bool) : ∀ (s : State) (rest : List Micro) (d : Decoder) (o : List Byte), s.iof = false →
    Decoder.feedAll s.decodeEnv s.decoder bits = some (d, o) → s.outq.length + o.length ≤ s.params.outCap →
    Moves (s.goOn (bits.map Micro.decodeBit ++ rest)) (((s.setDecoder d).wroteAll o).goOn rest) := by
  induction bits with
  | nil =>
    intro s rest d o _ h _
    cases h
    rw [State.wroteAll_nil]
    exact Moves.refl _
  | cons b bits ih =>
    intro s rest d o hi h hr
    simp only [Decoder.feedAll] at h
    cases hf : Decoder.feed s.decodeEnv s.decoder b with
    | none => rw [hf] at h; cases h
    | some r =>
      obtain ⟨d1, o1⟩ := r
      rw [hf] at h
      dsimp only at h
      cases hg : Decoder.feedAll s.decodeEnv d1 bits with
      | none => rw [hg] at h; cases h
      | some r2 =>
        obtain ⟨d2, o2⟩ := r2
        rw [hg] at h
        cases h
        simp only [List.length_append] at hr
        refine (moves_decode s b _ d1 o1 hi hf (by omega)).trans ?_
        have := ih ((s.setDecoder d1).wroteAll o1) rest d o2 hi hg
          (by simp only [State.wroteAll_outq, State.setDecoder_outq, List.length_append, State.wroteAll_params,
                State.setDecoder_params]; omega)
        simpa using this

/-- DecodeBit overflows no counter that has room for one more. -/
theorem Decoder.feed_some (e : DecodeEnv) (d : Decoder) (b : Bool) (n : Nat) (hb : d.bits.toNat + (n + 1) < 2 ^ 64)
    (hs : d.syms.toNat + (n + 1) < 2 ^ 64) : ∃ d' o, Decoder.feed e d b = some (d', o) ∧
      d'.bits.toNat ≤ d.bits.toNat + 1 ∧ d'.syms.toNat ≤ d.syms.toNat + 1 ∧
      o.length = e.n * (d'.syms.toNat - d.syms.toNat) ∧ d.syms.toNat ≤ d'.syms.toNat := by
  have hbm := word_ne_max_of_lt _ _ hb
  have hsm := word_ne_max_of_lt _ _ hs
  have hb1 := word_add_one_toNat _ _ hb
  have hs1 := word_add_one_toNat _ _ hs
  unfold Decoder.feed
  by_cases h1 : e.lim ≠ maxWord ∧ d.bits = e.lim
  · rw [if_pos h1]; exact ⟨_, _, rfl, by simp, by simp, by simp, by simp⟩
  · rw [if_neg h1, if_neg hbm]
    by_cases h2 : (e.tree.sub (d.cur.append b).toBits).isAbsent = true
    · rw [if_pos h2]; exact ⟨_, _, rfl, by simp only [hb1]; omega, by simp, by simp, by simp⟩
    · rw [if_neg h2]
      unfold Decoder.arrive
      dsimp only
      by_cases h3 : (e.tree.sub (d.cur.append b).toBits).isLeaf = true
      · rw [if_pos h3]
        cases (e.tree.sub (d.cur.append b).toBits).symAt with
        | none => exact ⟨_, _, rfl, by simp only [hb1]; omega, by simp, by simp, by simp⟩
        | some sy =>
          dsimp only
          by_cases h4 : (d.acc.append b).eq (d.cur.append b) = true
          · rw [if_pos h4, if_neg hsm]
            refine ⟨_, _, rfl, by simp only [hb1]; omega, by simp only [hs1]; omega, ?_, by simp only [hs1]; omega⟩
            simp only [hs1, beBytes_length]
            rw [Nat.add_sub_cancel_left, Nat.mul_one]
          · rw [if_neg h4]; exact ⟨_, _, rfl, by simp only [hb1]; omega, by simp, by simp, by simp⟩
      · rw [if_neg h3]; exact ⟨_, _, rfl, by simp only [hb1]; omega, by simp, by simp, by simp⟩

/-- DecodeBits overflow no counter that has room for them, and write N bytes for each symbol they count. -/
theorem Decoder.feedAll_some (e : DecodeEnv) (bits : List Bool) : ∀ d : Decoder, d.bits.toNat + bits.length < 2 ^ 64 →
    d.syms.toNat + bits.length < 2 ^ 64 → ∃ d' o, Decoder.feedAll e d bits = some (d', o) ∧
      d'.bits.toNat ≤ d.bits.toNat + bits.length ∧ d'.syms.toNat ≤ d.syms.toNat + bits.length ∧
      o.length = e.n * (d'.syms.toNat - d.syms.toNat) ∧ d.syms.toNat ≤ d'.syms.toNat := by
  induction bits with
  | nil => intro d _ _; exact ⟨d, [], rfl, by simp, by simp, by simp, by simp⟩
  | cons b bits ih =>
    intro d hb hs
    simp only [List.length_cons] at hb hs ⊢
    obtain ⟨d1, o1, h1, k1, k2, k3, k4⟩ := Decoder.feed_some e d b bits.length hb hs
    obtain ⟨d2, o2, h2, j1, j2, j3, j4⟩ := ih d1 (by omega) (by omega)
    refine ⟨d2, o1 ++ o2, by simp only [Decoder.feedAll, h1, h2], by omega, by omega, ?_, by omega⟩
    rw [List.length_append, k3, j3, ← Nat.mul_add]
    congr 1
    omega

/-! ### Chunks (R89) and payloads (R244), read one byte or one bit at a time -/

/-- The symbols of a stream of width n, `chunk` already read (R196, R285). -/
def chunkRun (n : Nat) : List Byte → List Byte → List Word
  | chunk, [] => if chunk.isEmpty then [] else [beWord (padChunk n chunk)]
  | chunk, b :: bytes =>
    if (chunk ++ [b]).length = n then beWord (chunk ++ [b]) :: chunkRun n [] bytes else chunkRun n (chunk ++ [b]) bytes

theorem chunkWords_nil (n : Nat) (hn : 0 < n) : chunkWords n [] = [] := by
  have : (0 + n - 1) / n = 0 := Nat.div_eq_of_lt (by omega)
  rw [chunkWords, List.length_nil, this]
  rfl

theorem chunkWords_short (n : Nat) (l : List Byte) (h0 : l ≠ []) (hl : l.length < n) :
    chunkWords n l = [beWord (padChunk n l)] := by
  have h1 : 0 < l.length := List.length_pos_iff.2 h0
  have : (l.length + n - 1) / n = 1 := by
    rw [show l.length + n - 1 = (l.length - 1) + n by omega, Nat.add_div_right _ (by omega), Nat.div_eq_of_lt (by omega)]
  simp [chunkWords, this, List.take_of_length_le (Nat.le_of_lt hl)]

theorem chunkWords_cons (n : Nat) (c l : List Byte) (hn : 0 < n) (hc : c.length = n) :
    chunkWords n (c ++ l) = beWord c :: chunkWords n l := by
  have : ((c ++ l).length + n - 1) / n = (l.length + n - 1) / n + 1 := by
    rw [List.length_append, hc, show n + l.length + n - 1 = (l.length + n - 1) + n by omega, Nat.add_div_right _ hn]
  simp only [chunkWords, this, List.range_succ_eq_map, List.map_cons, List.map_map]
  congr 1
  · simp [hc, padChunk]
  · refine List.map_congr_left fun j _ => ?_
    simp only [Function.comp, Nat.succ_eq_add_one, Nat.mul_add, Nat.mul_one]
    rw [Nat.add_comm, ← List.drop_drop, List.drop_left' hc]

/-- Reading the stream byte by byte gives its chunks (R89). -/
theorem chunkRun_eq (n : Nat) (hn : 0 < n) (bytes : List Byte) : ∀ chunk : List Byte, chunk.length < n →
    chunkRun n chunk bytes = chunkWords n (chunk ++ bytes) := by
  induction bytes with
  | nil =>
    intro chunk hc
    cases chunk with
    | nil => simp [chunkRun, chunkWords_nil n hn]
    | cons x c => simp only [chunkRun, List.append_nil]; rw [chunkWords_short n _ (by simp) hc]; rfl
  | cons b bytes ih =>
    intro chunk hc
    have e : chunk ++ b :: bytes = (chunk ++ [b]) ++ bytes := by simp
    simp only [chunkRun]
    by_cases h : (chunk ++ [b]).length = n
    · rw [if_pos h, ih [] hn, List.nil_append, e, chunkWords_cons n _ _ hn h]
    · rw [if_neg h, ih _ (by simp only [List.length_append, List.length_singleton] at h ⊢; omega), e]

theorem chunkWords_length (n : Nat) (l : List Byte) : (chunkWords n l).length = (l.length + n - 1) / n := by
  simp [chunkWords]

/-- There are no more symbols than bytes (R89). -/
theorem chunkWords_length_le (n : Nat) (hn : 0 < n) (l : List Byte) : (chunkWords n l).length ≤ l.length := by
  rw [chunkWords_length]
  rcases Nat.eq_zero_or_pos l.length with h0 | h0
  · rw [h0, Nat.div_eq_of_lt (by omega)]
  · refine Nat.div_le_of_le_mul ?_
    obtain ⟨a, rfl⟩ : ∃ a, n = a + 1 := ⟨n - 1, by omega⟩
    obtain ⟨b, hb⟩ : ∃ b, l.length = b + 1 := ⟨l.length - 1, by omega⟩
    rw [hb, Nat.add_mul, Nat.mul_add]
    omega

theorem payloadBytes_nil : payloadBytes [] = [] := rfl

theorem payloadBytes_cons (p l : List Bool) (hp : p.length = 8) :
    payloadBytes (p ++ l) = (bitsWord p).setWidth 8 :: payloadBytes l := by
  have : ((p ++ l).length + 7) / 8 = (l.length + 7) / 8 + 1 := by rw [List.length_append, hp]; omega
  simp only [payloadBytes, this, List.range_succ_eq_map, List.map_cons, List.map_map]
  congr 1
  · simp [hp]
  · refine List.map_congr_left fun j _ => ?_
    simp only [Function.comp, Nat.succ_eq_add_one, Nat.mul_add, Nat.mul_one]
    rw [Nat.add_comm, ← List.drop_drop, List.drop_left' hp]

theorem payloadBytes_short (l : List Bool) (h0 : l ≠ []) (hl : l.length < 8) :
    payloadBytes l = [(bitsWord l).setWidth 8] := by
  have h1 : 0 < l.length := List.length_pos_iff.2 h0
  have : (l.length + 7) / 8 = 1 := by omega
  simp [payloadBytes, this, List.take_of_length_le (Nat.le_of_lt hl)]

/-- Whole bytes and fewer than eight bits more: the payload of their bits (R244). -/
theorem payloadBytes_bytes (out : List Byte) (pend : List Bool) (h : pend.length < 8) :
    payloadBytes (out.flatMap byteBits ++ pend) =
      out ++ (if pend = [] then [] else [(bitsWord pend).setWidth 8]) := by
  induction out with
  | nil =>
    by_cases h0 : pend = []
    · simp [h0, payloadBytes_nil]
    · simp [h0, payloadBytes_short pend h0 h]
  | cons b out ih =>
    rw [List.flatMap_cons, List.append_assoc, payloadBytes_cons _ _ (byteBits_length b), bitsWord_byteBits, ih]
    rfl

/-- A clean PB is the byte of the bits held back (R61). -/
theorem Packer.pb_of_clean (p : Packer) (h : p.clean) : (bitsWord p.pending).setWidth 8 = p.pb := by
  have h8 : p.pbn.toNat < 8 := p.pbn.isLt
  refine BitVec.eq_of_getLsbD_eq fun i hi => ?_
  simp only [BitVec.getLsbD_setWidth, hi, decide_true, Bool.true_and]
  rw [bitsWord_getLsbD _ i (by omega)]
  by_cases hlt : i < p.pbn.toNat
  · simp [Packer.pending, List.getD, hlt]
  · rw [(Packer.clean_iff p).1 h i (Nat.le_of_not_lt hlt)]
    simp [Packer.pending, List.getD, hlt]

/-- The bits of a payload: the bit string, then zeros up to a whole byte (R244). -/
theorem payloadBytes_bits (l : List Bool) :
    (payloadBytes l).flatMap byteBits = l ++ List.replicate (8 * ((l.length + 7) / 8) - l.length) false := by
  induction hk : l.length / 8 generalizing l with
  | zero =>
    by_cases h0 : l = []
    · simp [h0, payloadBytes_nil]
    · have h1 : 0 < l.length := List.length_pos_iff.2 h0
      have hl : l.length < 8 := by omega
      have h7 : (l.length + 7) / 8 = 1 := by omega
      rw [payloadBytes_short l h0 hl, h7]
      refine List.ext_getElem (by simp; omega) fun i hi1 hi2 => ?_
      have hi : i < 8 := by simpa using hi1
      simp only [List.flatMap_cons, List.flatMap_nil, List.append_nil, byteBits, List.getElem_map, List.getElem_range,
        BitVec.getLsbD_setWidth, hi, decide_true, Bool.true_and]
      rw [bitsWord_getLsbD _ i (by omega)]
      by_cases hlt : i < l.length
      · rw [List.getElem_append_left hlt]; simp [List.getD, hlt]
      · rw [List.getElem_append_right (Nat.le_of_not_lt hlt)]; simp [List.getD, hlt]
  | succ k ih =>
    have hl : 8 ≤ l.length := by omega
    have e : l = l.take 8 ++ l.drop 8 := (List.take_append_drop 8 l).symm
    have h8 : (l.take 8).length = 8 := by simp; omega
    have hd : (l.drop 8).length = l.length - 8 := by simp
    conv => lhs; rw [e]
    rw [payloadBytes_cons _ _ h8, List.flatMap_cons, byteBits_bitsWord _ h8, ih (l.drop 8) (by rw [hd]; omega), hd,
      ← List.append_assoc, ← e]
    congr 2
    omega

/-! ### Decoding codes a tree holds -/

theorem DTree.sub_append (t : DTree) (p q : List Bool) : t.sub (p ++ q) = (t.sub p).sub q := by
  induction p generalizing t with
  | nil => rfl
  | cons b p ih => exact ih _

theorem DTree.sub_absent (p : List Bool) : DTree.absent.sub p = .absent := by
  induction p with
  | nil => rfl
  | cons b p ih => exact ih

/-- On the way to a held code every node is an inner one (R300). -/
theorem DTree.inner_of_holds (t : DTree) (v : Word) (p q : List Bool) (b : Bool) (h : t.sub (p ++ b :: q) = .node (some v) .absent .absent) :
    (t.sub p).isAbsent = false ∧ (t.sub p).isLeaf = false := by
  rw [DTree.sub_append] at h
  cases hs : t.sub p with
  | absent => rw [hs, DTree.sub_absent] at h; cases h
  | node sy l r =>
    refine ⟨rfl, ?_⟩
    rw [hs] at h
    have h' : (if b then r else l).sub q = .node (some v) .absent .absent := h
    have : (if b then r else l) ≠ .absent := by intro e; rw [e, DTree.sub_absent] at h'; cases h'
    cases b with
    | true =>
      have hr : r ≠ .absent := by simpa using this
      cases r with
      | absent => exact absurd rfl hr
      | node _ _ _ => simp [DTree.isLeaf, DTree.child, DTree.isAbsent]
    | false =>
      have hl : l ≠ .absent := by simpa using this
      cases l with
      | absent => exact absurd rfl hl
      | node _ _ _ => simp [DTree.isLeaf, DTree.child, DTree.isAbsent]

/-- The bits of a code DTREE holds lead to its leaf: one symbol counted, its bytes written, back at the root (R300). -/
theorem Decoder.feedAll_code (e : DecodeEnv) (v : Word) (c : BitSeq) (hc : c.wf) (hh : e.tree.sub c.toBits = .node (some v) .absent .absent) :
    ∀ (q p : List Bool) (d : Decoder), c.toBits = p ++ q → q ≠ [] → d.cur = .ofBits p → d.acc = .ofBits p →
    d.bits.toNat + q.length < 2 ^ 64 - 1 → (e.lim.toNat < d.bits.toNat ∨ d.bits.toNat + q.length ≤ e.lim.toNat) → d.syms ≠ maxWord →
    Decoder.feedAll e d q = some ({ d with cur := .empty, acc := .empty, bits := d.bits + BitVec.ofNat 64 q.length, syms := d.syms + 1 }, beBytes e.n v) := by
  intro q
  induction q with
  | nil => intro p d _ h; exact absurd rfl h
  | cons b q ih =>
    intro p d hpq _ hcur hacc hb hl hs
    simp only [List.length_cons] at hb hl
    have hclen : c.len ≤ 64 := hc.1
    have hplen : p.length + (q.length + 1) ≤ 64 := by
      have := congrArg List.length hpq; simp at this; omega
    have hlimne : ¬ (e.lim ≠ maxWord ∧ d.bits = e.lim) := by
      rintro ⟨_, h2⟩; rw [h2] at hl; omega
    have hbm : d.bits ≠ maxWord := word_ne_max_of_lt _ 0 (by omega)
    have happ : (BitSeq.ofBits p).append b = .ofBits (p ++ [b]) := by
      refine BitSeq.ext_bits _ _ (BitSeq.append_wf _ _ (BitSeq.ofBits_wf p (by omega)) (by simp; omega)) (BitSeq.ofBits_wf _ (by simp; omega)) ?_
      rw [BitSeq.toBits_append _ _ (BitSeq.ofBits_wf p (by omega)) (by simp; omega), BitSeq.toBits_ofBits _ (by omega), BitSeq.toBits_ofBits _ (by simp; omega)]
    have htb : (BitSeq.ofBits (p ++ [b])).toBits = p ++ [b] := BitSeq.toBits_ofBits _ (by simp; omega)
    have hpq' : c.toBits = (p ++ [b]) ++ q := by rw [hpq]; simp
    have hb1 : (d.bits + 1).toNat = d.bits.toNat + 1 := word_add_one_toNat _ 0 (by omega)
    cases q with
    | nil =>
      have hn : e.tree.sub (p ++ [b]) = .node (some v) .absent .absent := by rw [← hh, hpq']; simp
      simp only [Decoder.feedAll, Decoder.feed, if_neg hlimne, if_neg hbm, hcur, hacc, happ, htb, hn, Decoder.arrive]
      simp [DTree.isAbsent, DTree.isLeaf, DTree.child, DTree.symAt, BitSeq.eq, hs]
    | cons b2 q =>
      have hin := DTree.inner_of_holds e.tree v (p ++ [b]) q b2 (by rw [← hh, hpq'])
      have hf : Decoder.feed e d b = some ({ d with bits := d.bits + 1, cur := .ofBits (p ++ [b]), acc := .ofBits (p ++ [b]) }, []) := by
        simp only [Decoder.feed, if_neg hlimne, if_neg hbm, hcur, hacc, happ, htb, hin.1, Decoder.arrive, hin.2]
        simp
      have := ih (p ++ [b]) { d with bits := d.bits + 1, cur := .ofBits (p ++ [b]), acc := .ofBits (p ++ [b]) } hpq' (by simp) rfl rfl
        (by simp only [hb1, List.length_cons] at hb ⊢; omega) (by simp only [hb1, List.length_cons] at hl ⊢; omega) hs
      simp only [Decoder.feedAll, hf] at this ⊢
      rw [this]
      simp only [List.nil_append, List.length_cons]
      congr 3
      rw [BitVec.add_assoc]
      congr 1
      apply BitVec.eq_of_toNat_eq
      simp [BitVec.toNat_add, Nat.add_comm]

/-- The bits of several held codes, one after the other (R300). -/
theorem Decoder.feedAll_items (e : DecodeEnv) (items : List (Word × BitSeq)) : ∀ d : Decoder, (∀ x ∈ items, x.2.isCode ∧ e.tree.holds x.1 x.2) →
    d.cur = .empty → d.acc = .empty → d.bits.toNat + (items.flatMap (fun x => x.2.toBits)).length < 2 ^ 64 - 1 →
    d.bits.toNat + (items.flatMap (fun x => x.2.toBits)).length ≤ e.lim.toNat → d.syms.toNat + items.length < 2 ^ 64 →
    Decoder.feedAll e d (items.flatMap (fun x => x.2.toBits)) =
      some ({ d with bits := d.bits + BitVec.ofNat 64 (items.flatMap (fun x => x.2.toBits)).length, syms := d.syms + BitVec.ofNat 64 items.length },
        items.flatMap (fun x => beBytes e.n x.1)) := by
  induction items with
  | nil => intro d _ _ _ _ _ _; simp [Decoder.feedAll]
  | cons x items ih =>
    intro d hx hcur hacc hb hl hs
    obtain ⟨hc, hh⟩ := hx x List.mem_cons_self
    simp only [List.flatMap_cons, List.length_append, BitSeq.toBits_length, List.length_cons] at hb hl hs ⊢
    have h1 := Decoder.feedAll_code e x.1 x.2 hc.1 hh x.2.toBits [] d rfl (by intro e; have := congrArg List.length e; have := hc.2; simp at *; omega) hcur hacc
      (by rw [BitSeq.toBits_length]; omega) (by rw [BitSeq.toBits_length]; omega) (word_ne_max_of_lt _ _ hs)
    rw [Decoder.feedAll_append _ _ _ _ _ _ h1]
    have hbb : (d.bits + BitVec.ofNat 64 x.2.len).toNat = d.bits.toNat + x.2.len := by
      rw [BitVec.toNat_add, BitVec.toNat_ofNat, Nat.mod_eq_of_lt (show x.2.len < 2 ^ 64 by omega), Nat.mod_eq_of_lt (by omega)]
    have hss := word_add_one_toNat _ _ hs
    have := ih { d with cur := .empty, acc := .empty, bits := d.bits + BitVec.ofNat 64 x.2.toBits.length, syms := d.syms + 1 }
      (fun y hy => hx y (List.mem_cons_of_mem _ hy)) rfl rfl (by simp only [BitSeq.toBits_length, hbb]; omega) (by simp only [BitSeq.toBits_length, hbb]; omega) (by simp only [hss]; omega)
    rw [this]
    obtain ⟨dc, da, db, ds, dm, dl⟩ := d
    simp only at hcur hacc
    subst hcur hacc
    simp only [Option.map_some, BitSeq.toBits_length]
    have e1 : db + BitVec.ofNat 64 x.2.len + BitVec.ofNat 64 (items.flatMap (fun x => x.2.toBits)).length = db + BitVec.ofNat 64 (x.2.len + (items.flatMap (fun x => x.2.toBits)).length) := by
      rw [BitVec.add_assoc, BitVec.ofNat_add]
    have e2 : ds + 1 + BitVec.ofNat 64 items.length = ds + BitVec.ofNat 64 (items.length + 1) := by
      rw [BitVec.add_assoc, Nat.add_comm items.length 1, BitVec.ofNat_add]; rfl
    rw [e1, e2]

/-- Bits past LIM change LIMIT_HIT only (R300). -/
theorem Decoder.feedAll_pad (e : DecodeEnv) (n : Nat) : ∀ d : Decoder, e.lim ≠ maxWord → d.bits = e.lim →
    Decoder.feedAll e d (List.replicate n false) = some ({ d with limitHit := d.limitHit || n != 0 }, []) := by
  induction n with
  | zero => intro d _ _; simp [Decoder.feedAll]
  | succ n ih =>
    intro d h1 h2
    have := ih { d with limitHit := true } h1 h2
    simp only [List.replicate_succ, Decoder.feedAll, Decoder.feed, if_pos (And.intro h1 h2), this]
    simp

/-! ### The read loops -/

/-- The state with other tokens in IN. -/
def State.atInq (s : State) (q : List Token) (k : Nat) : State := { s with inq := q, iofSkip := k }

@[simp] theorem State.atInq_params (s : State) (q : List Token) (k : Nat) : (s.atInq q k).params = s.params := rfl
@[simp] theorem State.atInq_width (s : State) (q : List Token) (k : Nat) : (s.atInq q k).width = s.width := rfl
@[simp] theorem State.atInq_bs (s : State) (q : List Token) (k : Nat) : (s.atInq q k).bs = s.bs := rfl
@[simp] theorem State.atInq_ft (s : State) (q : List Token) (k : Nat) : (s.atInq q k).ft = s.ft := rfl
@[simp] theorem State.atInq_ct (s : State) (q : List Token) (k : Nat) : (s.atInq q k).ct = s.ct := rfl
@[simp] theorem State.atInq_etree (s : State) (q : List Token) (k : Nat) : (s.atInq q k).etree = s.etree := rfl
@[simp] theorem State.atInq_dtree (s : State) (q : List Token) (k : Nat) : (s.atInq q k).dtree = s.dtree := rfl
@[simp] theorem State.atInq_packer (s : State) (q : List Token) (k : Nat) : (s.atInq q k).packer = s.packer := rfl
@[simp] theorem State.atInq_decoder (s : State) (q : List Token) (k : Nat) : (s.atInq q k).decoder = s.decoder := rfl
@[simp] theorem State.atInq_latch (s : State) (q : List Token) (k : Nat) : (s.atInq q k).latch = s.latch := rfl
@[simp] theorem State.atInq_regs (s : State) (q : List Token) (k : Nat) : (s.atInq q k).regs = s.regs := rfl
@[simp] theorem State.atInq_done (s : State) (q : List Token) (k : Nat) : (s.atInq q k).done = s.done := rfl
@[simp] theorem State.atInq_err (s : State) (q : List Token) (k : Nat) : (s.atInq q k).err = s.err := rfl
@[simp] theorem State.atInq_ovr (s : State) (q : List Token) (k : Nat) : (s.atInq q k).ovr = s.ovr := rfl
@[simp] theorem State.atInq_errRec (s : State) (q : List Token) (k : Nat) : (s.atInq q k).errRec = s.errRec := rfl
@[simp] theorem State.atInq_inq (s : State) (q : List Token) (k : Nat) : (s.atInq q k).inq = q := rfl
@[simp] theorem State.atInq_outq (s : State) (q : List Token) (k : Nat) : (s.atInq q k).outq = s.outq := rfl
@[simp] theorem State.atInq_run (s : State) (q : List Token) (k : Nat) : (s.atInq q k).run = s.run := rfl
@[simp] theorem State.atInq_iof (s : State) (q : List Token) (k : Nat) : (s.atInq q k).iof = s.iof := rfl
@[simp] theorem State.atInq_iofSkip (s : State) (q : List Token) (k : Nat) : (s.atInq q k).iofSkip = k := rfl
@[simp] theorem State.atInq_wrote (s : State) (q : List Token) (k : Nat) : (s.atInq q k).wrote = s.wrote := rfl
@[simp] theorem State.atInq_host (s : State) (q : List Token) (k : Nat) : (s.atInq q k).host = s.host := rfl

@[simp] theorem State.atInq_atInq (s : State) (q r : List Token) (k m : Nat) : (s.atInq q k).atInq r m = s.atInq r m := rfl

theorem State.sameBut_atInq (s : State) (q : List Token) (k : Nat) : s.sameBut (s.atInq q k) [.inq] := by
  intro p hp; cases p <;> simp_all [Part.same, State.bsAt]

/-- Whether the loop goes on to its next token is one step: with a token in IN and no abort pending it does. -/
theorem moves_read (s : State) (m : Micro) (t : Token) (rest : List Token) (hi : s.iof = false) (hq : s.inq = t :: rest)
    (a : State) (k : Token → State → State) (hready : m.ready (s.goOn [m]) = (s.goOn [m]).readReady)
    (hp : (s.goOn [m]).perform m [] = (s.goOn [m]).inRead a k) :
    Moves (s.goOn [m]) (k t ((s.goOn [m]).took rest)) := by
  refine Moves.one ?_ ?_
  · rw [State.canMove_goOn, hready]; simp [State.readReady, hq]
  · rw [State.microStep_goOn, hp]
    exact State.inRead_token _ _ _ _ _ hi hq

theorem moves_scan_token (s : State) (nsym nbytes start : Word) (chunk : List Byte) (t : Token) (rest : List Token)
    (hi : s.iof = false) (hq : s.inq = t :: rest) :
    Moves (s.goOn [.scan nsym nbytes start chunk])
      (((s.goOn [.scan nsym nbytes start chunk]).took rest).scanToken nsym nbytes start chunk t) :=
  moves_read s (.scan nsym nbytes start chunk) t rest hi hq (s.goOn [.scan nsym nbytes start chunk]).abortIO (fun t s' => s'.scanToken nsym nbytes start chunk t) rfl rfl

theorem moves_pack_token (s : State) (nbytes start : Word) (chunk : List Byte) (t : Token) (rest : List Token)
    (hi : s.iof = false) (hq : s.inq = t :: rest) :
    Moves (s.goOn [.packIn nbytes start chunk])
      (((s.goOn [.packIn nbytes start chunk]).took rest).packToken nbytes start chunk t) :=
  moves_read s (.packIn nbytes start chunk) t rest hi hq (s.goOn [.packIn nbytes start chunk]).abortIO (fun t s' => s'.packToken nbytes start chunk t) rfl rfl

theorem moves_unpack_token (s : State) (nbytes : Word) (t : Token) (rest : List Token)
    (hi : s.iof = false) (hq : s.inq = t :: rest) :
    Moves (s.goOn [.unpackIn nbytes]) (((s.goOn [.unpackIn nbytes]).took rest).unpackToken nbytes t) :=
  moves_read s (.unpackIn nbytes) t rest hi hq (s.goOn [.unpackIn nbytes]).abortIO (fun t s' => s'.unpackToken nbytes t) rfl rfl

theorem moves_deser_token (s : State) (d : Deser) (t : Token) (rest : List Token)
    (hi : s.iof = false) (hq : s.inq = t :: rest) :
    Moves (s.goOn [.deser d]) (((s.goOn [.deser d]).took rest).deserToken d t) :=
  moves_read s (.deser d) t rest hi hq (s.goOn [.deser d]).abortDeser (fun t s' => s'.deserToken d t) rfl rfl

/-- The packer with another symbol count. -/
def Packer.withSyms (p : Packer) (x : Word) : Packer := { p with syms := x }

@[simp] theorem Packer.withSyms_syms (p : Packer) (x : Word) : (p.withSyms x).syms = x := rfl
@[simp] theorem Packer.withSyms_bits (p : Packer) (x : Word) : (p.withSyms x).bits = p.bits := rfl
@[simp] theorem Packer.withSyms_pb (p : Packer) (x : Word) : (p.withSyms x).pb = p.pb := rfl
@[simp] theorem Packer.withSyms_pbn (p : Packer) (x : Word) : (p.withSyms x).pbn = p.pbn := rfl
@[simp] theorem Packer.withSyms_withSyms (p : Packer) (x y : Word) : (p.withSyms x).withSyms y = p.withSyms y := rfl

theorem Packer.push_withSyms (p : Packer) (x : Word) (b : Bool) :
    (p.withSyms x).push b = ((p.push b).1.withSyms x, (p.push b).2) := by
  unfold Packer.push
  by_cases h : p.pbn = 7
  · rw [if_pos h, if_pos (show (p.withSyms x).pbn = 7 from h)]; rfl
  · rw [if_neg h, if_neg (show (p.withSyms x).pbn ≠ 7 from h)]; rfl

/-- The packer with its symbol count changed emits the same. -/
theorem Packer.pushAll_withSyms (x : Word) (bits : List Bool) : ∀ p : Packer,
    (p.withSyms x).pushAll bits = ((p.pushAll bits).1.withSyms x, (p.pushAll bits).2) := by
  induction bits with
  | nil => intro p; rfl
  | cons b bits ih => intro p; simp only [Packer.pushAll, Packer.push_withSyms, ih]

theorem Packer.pushAll_append (k : List Bool) : ∀ (bits : List Bool) (p : Packer),
    p.pushAll (bits ++ k) = (((p.pushAll bits).1.pushAll k).1, (p.pushAll bits).2 ++ ((p.pushAll bits).1.pushAll k).2) := by
  intro bits
  induction bits with
  | nil => intro p; rfl
  | cons b bits ih => intro p; simp only [List.cons_append, Packer.pushAll, ih, List.append_assoc]

/-- sym(v) of PACK for a symbol with a code, no counter near its end, OUT with room (R285). -/
theorem moves_packSymbol (s : State) (start v : Word) (rest : List Micro) (c : BitSeq) (hi : s.iof = false)
    (hc : s.ct.get v = some c) (hs : s.packer.syms ≠ maxWord) (hb : s.packer.bits.toNat + c.len < 2 ^ 64)
    (hr : s.outq.length + (s.packer.pushAll c.toBits).2.length ≤ s.params.outCap) :
    Moves (s.packSymbol start v rest)
      (((s.setPacker ((s.packer.pushAll c.toBits).1.withSyms (s.packer.syms + 1))).wroteAll
        (s.packer.pushAll c.toBits).2).goOn rest) := by
  have e : s.packSymbol start v rest = (s.setPacker (s.packer.withSyms (s.packer.syms + 1))).goOn (emitAll c ++ rest) := by
    unfold State.packSymbol
    rw [hc]
    simp only [incCount_ok _ _ hs]
    rfl
  have hp := Packer.pushAll_withSyms (s.packer.syms + 1) c.toBits s.packer
  have hm := moves_emits c.toBits (s.setPacker (s.packer.withSyms (s.packer.syms + 1))) rest hi
    (by simpa using hb) (by rw [State.setPacker_packer, hp]; exact hr)
  rw [e]
  rw [State.setPacker_packer, hp] at hm
  exact hm

/-- PACK's loop over the rest of a stream whose symbols have codes (R285): it reads the stream with its EOS and emits the codes' bits. -/
theorem moves_pack (bytes : List Byte) : ∀ (s : State) (nb start : Word) (chunk : List Byte) (codes : List BitSeq)
    (q : List Token), s.iof = false → chunk.length < s.symWidth → s.inq = byteTokens bytes ++ .eos :: q →
    (chunkRun s.symWidth chunk bytes).map s.ct.get = codes.map some →
    nb.toNat + bytes.length < 2 ^ 64 → s.packer.syms.toNat + codes.length < 2 ^ 64 →
    s.packer.bits.toNat + (codes.flatMap BitSeq.toBits).length < 2 ^ 64 → s.packer.clean →
    s.outq.length + (s.packer.pushAll (codes.flatMap BitSeq.toBits)).2.length ≤ s.params.outCap →
    ∃ k, Moves (s.goOn [.packIn nb start chunk])
      ((((s.setPacker ((s.packer.pushAll (codes.flatMap BitSeq.toBits)).1.withSyms
          (s.packer.syms + BitVec.ofNat 64 codes.length))).wroteAll
        (s.packer.pushAll (codes.flatMap BitSeq.toBits)).2).atInq q k).goOn [.pad, .finish .pack]) := by
  induction bytes with
  | nil =>
    intro s nb start chunk codes q hi hc hq hcodes _ hsy hb hcl hr
    have htok := moves_pack_token s nb start chunk .eos q hi hq
    cases chunk with
    | nil =>
      have : codes = [] := by simpa [chunkRun] using hcodes.symm
      subst this
      refine ⟨s.iofSkip - 1, htok.trans ?_⟩
      have e0 : s.packer.syms + BitVec.ofNat 64 ([] : List BitSeq).length = s.packer.syms := by simp
      rw [e0]
      simp only [List.flatMap_nil, Packer.pushAll, State.wroteAll_nil]
      exact Moves.refl _
    | cons x ch =>
      have h1 : [s.ct.get (beWord (padChunk s.symWidth (x :: ch)))] = codes.map some := by simpa [chunkRun] using hcodes
      obtain ⟨c, rfl, hget⟩ : ∃ c, codes = [c] ∧ s.ct.get (beWord (padChunk s.symWidth (x :: ch))) = some c := by
        cases codes with
        | nil => simp at h1
        | cons c cs => cases cs with
          | nil => exact ⟨c, rfl, by simpa using h1⟩
          | cons d ds => simp at h1
      simp only [List.flatMap_cons, List.flatMap_nil, List.append_nil, List.length_singleton, BitSeq.toBits_length] at *
      have hm := moves_packSymbol ((s.goOn [.packIn nb start (x :: ch)]).took q) start
        (beWord (padChunk s.symWidth (x :: ch))) [.pad, .finish .pack] c hi hget
        (word_ne_max_of_lt _ 0 (by simpa using hsy)) hb hr
      refine ⟨s.iofSkip - 1, htok.trans ?_⟩
      have e : ((s.goOn [.packIn nb start (x :: ch)]).took q).packToken nb start (x :: ch) .eos =
          ((s.goOn [.packIn nb start (x :: ch)]).took q).packSymbol start (beWord (padChunk s.symWidth (x :: ch)))
            [.pad, .finish .pack] := rfl
      rw [e]
      exact hm
  | cons b bytes ih =>
    intro s nb start chunk codes q hi hc hq hcodes hnb hsy hb hcl hr
    simp only [List.length_cons] at hnb
    have htok := moves_pack_token s nb start chunk (.byte b) (byteTokens bytes ++ .eos :: q) hi hq
    have hnm := word_ne_max_of_lt _ _ hnb
    have hn1 := word_add_one_toNat _ _ hnb
    have etok : ((s.goOn [.packIn nb start chunk]).took (byteTokens bytes ++ .eos :: q)).packToken nb start chunk (.byte b) =
        if (chunk ++ [b]).length = s.symWidth then
          ((s.goOn [.packIn nb start chunk]).took (byteTokens bytes ++ .eos :: q)).packSymbol (chunkStart chunk nb start)
            (beWord (chunk ++ [b])) [.packIn (nb + 1) (chunkStart chunk nb start) []]
        else ((s.goOn [.packIn nb start chunk]).took (byteTokens bytes ++ .eos :: q)).goOn
          [.packIn (nb + 1) (chunkStart chunk nb start) (chunk ++ [b])] := by
      simp only [State.packToken, incCount_ok _ _ hnm]
      rfl
    rw [etok] at htok
    by_cases hfull : (chunk ++ [b]).length = s.symWidth
    · rw [if_pos hfull] at htok
      simp only [chunkRun, if_pos hfull, List.map_cons] at hcodes
      cases codes with
      | nil => simp at hcodes
      | cons c cs =>
        simp only [List.map_cons, List.cons.injEq] at hcodes
        simp only [List.flatMap_cons, List.length_append, BitSeq.toBits_length, List.length_cons,
          Packer.pushAll_append] at hsy hb hr ⊢
        have hm := moves_packSymbol ((s.goOn [.packIn nb start chunk]).took (byteTokens bytes ++ .eos :: q))
          (chunkStart chunk nb start) (beWord (chunk ++ [b])) [.packIn (nb + 1) (chunkStart chunk nb start) []] c hi
          hcodes.1 (word_ne_max_of_lt _ cs.length hsy)
          (by show s.packer.bits.toNat + c.len < 2 ^ 64; omega)
          (by show s.outq.length + _ ≤ s.params.outCap; exact Nat.le_trans (Nat.add_le_add_left (Nat.le_add_right _ _) _) hr)
        obtain ⟨_, p2, p3, p4, _⟩ := Packer.pushAll_stream c.toBits s.packer hcl
        have hbits : (s.packer.pushAll c.toBits).1.bits.toNat = s.packer.bits.toNat + c.len := by
          rw [p3, BitSeq.toBits_length, BitVec.toNat_add, BitVec.toNat_ofNat, Nat.mod_eq_of_lt (show c.len < 2 ^ 64 by omega),
            Nat.mod_eq_of_lt (by omega)]
        have hsyms := word_add_one_toNat _ _ hsy
        obtain ⟨k, hk⟩ := ih
          (((s.setPacker ((s.packer.pushAll c.toBits).1.withSyms (s.packer.syms + 1))).wroteAll
            (s.packer.pushAll c.toBits).2).atInq (byteTokens bytes ++ .eos :: q) (s.iofSkip - 1))
          (nb + 1) (chunkStart chunk nb start) [] cs q hi (show 0 < s.symWidth by omega) rfl hcodes.2
          (by omega) (by simp only [State.atInq_packer, State.wroteAll_packer, State.setPacker_packer, Packer.withSyms_syms]; omega)
          (by simp only [State.atInq_packer, State.wroteAll_packer, State.setPacker_packer, Packer.withSyms_bits, hbits]; omega)
          p2
          (by
            have := Packer.pushAll_withSyms (s.packer.syms + 1) (cs.flatMap BitSeq.toBits) (s.packer.pushAll c.toBits).1
            simp only [State.atInq_packer, State.wroteAll_packer, State.setPacker_packer, State.atInq_outq,
              State.wroteAll_outq, State.setPacker_outq, List.length_append, State.atInq_params, State.wroteAll_params,
              State.setPacker_params, this]
            omega)
        refine ⟨k, htok.trans (hm.trans ?_)⟩
        have := Packer.pushAll_withSyms (s.packer.syms + 1) (cs.flatMap BitSeq.toBits) (s.packer.pushAll c.toBits).1
        simp only [State.atInq_packer, State.wroteAll_packer, State.setPacker_packer, Packer.withSyms_syms, this,
          Packer.withSyms_withSyms] at hk
        have e2 : s.packer.syms + 1 + BitVec.ofNat 64 cs.length = s.packer.syms + BitVec.ofNat 64 (cs.length + 1) := by
          rw [BitVec.add_assoc]
          congr 1
          apply BitVec.eq_of_toNat_eq
          simp [BitVec.toNat_add, Nat.add_comm]
        rw [e2] at hk
        have e3 : ∀ (a d : State), a.wroteAll ((s.packer.pushAll c.toBits).2 ++
            ((s.packer.pushAll c.toBits).1.pushAll (cs.flatMap BitSeq.toBits)).2) = d →
            (a.wroteAll (s.packer.pushAll c.toBits).2).wroteAll
              ((s.packer.pushAll c.toBits).1.pushAll (cs.flatMap BitSeq.toBits)).2 = d := by
          intro a d h; rw [State.wroteAll_wroteAll]; exact h
        rw [← e3 _ _ rfl]
        exact hk
    · rw [if_neg hfull] at htok
      simp only [chunkRun, if_neg hfull] at hcodes
      obtain ⟨k, hk⟩ := ih (s.atInq (byteTokens bytes ++ .eos :: q) (s.iofSkip - 1)) (nb + 1) (chunkStart chunk nb start)
        (chunk ++ [b]) codes q hi
        (by show (chunk ++ [b]).length < s.symWidth
            simp only [List.length_append, List.length_singleton] at hfull ⊢; omega)
        rfl hcodes (by omega) hsy hb hcl hr
      exact ⟨k, htok.trans hk⟩

/-- UNPACK's loop over a stream whose bits the decoder takes without an overflow (R303). -/
theorem moves_unpack (bytes : List Byte) : ∀ (s : State) (nb : Word) (q : List Token) (d : Decoder) (o : List Byte),
    s.iof = false → s.inq = byteTokens bytes ++ .eos :: q → nb.toNat + bytes.length < 2 ^ 64 →
    Decoder.feedAll s.decodeEnv s.decoder (bytes.flatMap byteBits) = some (d, o) →
    s.outq.length + o.length ≤ s.params.outCap →
    ∃ k, Moves (s.goOn [.unpackIn nb]) ((((s.setDecoder d).wroteAll o).atInq q k).goOn [.finish .unpack]) := by
  induction bytes with
  | nil =>
    intro s nb q d o hi hq _ hf _
    cases hf
    refine ⟨s.iofSkip - 1, (moves_unpack_token s nb .eos q hi hq).trans ?_⟩
    rw [State.wroteAll_nil]
    exact Moves.refl _
  | cons b bytes ih =>
    intro s nb q d o hi hq hnb hf hr
    simp only [List.length_cons] at hnb
    have htok := moves_unpack_token s nb (.byte b) (byteTokens bytes ++ .eos :: q) hi hq
    have hnm := word_ne_max_of_lt _ _ hnb
    have hn1 := word_add_one_toNat _ _ hnb
    have etok : ((s.goOn [.unpackIn nb]).took (byteTokens bytes ++ .eos :: q)).unpackToken nb (.byte b) =
        ((s.goOn [.unpackIn nb]).took (byteTokens bytes ++ .eos :: q)).goOn
          ((byteBits b).map Micro.decodeBit ++ [.unpackIn (nb + 1)]) := by
      simp only [State.unpackToken, incCount_ok _ _ hnm]
    rw [etok] at htok
    rw [List.flatMap_cons] at hf
    cases h1 : Decoder.feedAll s.decodeEnv s.decoder (byteBits b) with
    | none =>
      exfalso
      have : ∀ (l k : List Bool) (dd : Decoder), Decoder.feedAll s.decodeEnv dd l = none →
          Decoder.feedAll s.decodeEnv dd (l ++ k) = none := by
        intro l k
        induction l with
        | nil => intro dd h; cases h
        | cons x l ihl =>
          intro dd h
          simp only [Decoder.feedAll, List.cons_append] at h ⊢
          cases hx : Decoder.feed s.decodeEnv dd x with
          | none => rfl
          | some r =>
            rw [hx] at h
            dsimp only at h ⊢
            cases hy : Decoder.feedAll s.decodeEnv r.1 l with
            | none => rw [ihl r.1 hy]
            | some r2 => rw [hy] at h; cases h
      rw [this _ _ _ h1] at hf
      cases hf
    | some r =>
      obtain ⟨d1, o1⟩ := r
      rw [Decoder.feedAll_append _ _ _ _ _ _ h1] at hf
      cases h2 : Decoder.feedAll s.decodeEnv d1 (bytes.flatMap byteBits) with
      | none => rw [h2] at hf; cases hf
      | some r2 =>
        obtain ⟨d2, o2⟩ := r2
        rw [h2] at hf
        cases hf
        simp only [List.length_append] at hr
        have hm := moves_decodes (byteBits b) (s.atInq (byteTokens bytes ++ .eos :: q) (s.iofSkip - 1)) [.unpackIn (nb + 1)]
          d1 o1 hi h1 (by show s.outq.length + o1.length ≤ s.params.outCap; omega)
        obtain ⟨k, hk⟩ := ih (((s.atInq (byteTokens bytes ++ .eos :: q) (s.iofSkip - 1)).setDecoder d1).wroteAll o1)
          (nb + 1) q d2 o2 hi rfl (by omega) h2
          (by show (s.outq ++ o1).length + o2.length ≤ s.params.outCap; rw [List.length_append]; omega)
        refine ⟨k, htok.trans (hm.trans ?_)⟩
        rw [State.setDecoder_wroteAll_setDecoder, State.wroteAll_wroteAll] at hk
        exact hk

/-! ### The frequency scan -/

/-- Count each symbol of a list in turn (R196): `none` where the table is full or a count at its largest. -/
def countAll (cap : Nat) (ft : FMap Word) : List Word → Option (FMap Word)
  | [] => some ft
  | v :: vs =>
    match bumpCount cap ft 0 v with
    | .error _ => none
    | .ok m => countAll cap m vs

theorem bumpCount_ok (cap : Nat) (ft : FMap Word) (start v : Word) (m : FMap Word) (h : bumpCount cap ft 0 v = .ok m) :
    bumpCount cap ft start v = .ok m := by
  unfold bumpCount at h ⊢
  cases hg : ft.get v with
  | none =>
    rw [hg] at h
    dsimp only at h ⊢
    by_cases hl : ft.length = cap
    · rw [if_pos hl] at h; cases h
    · rw [if_neg hl] at h ⊢; exact h
  | some n =>
    rw [hg] at h
    dsimp only at h ⊢
    by_cases hl : n = maxWord
    · rw [if_pos hl] at h; cases h
    · rw [if_neg hl] at h ⊢; exact h

theorem scanCount_ok (s : State) (nsym start v : Word) (k : Word → State → State) (m : FMap Word)
    (h : bumpCount s.params.symCap s.ft 0 v = .ok m) (hn : nsym ≠ maxWord) :
    s.scanCount nsym start v k = k (nsym + 1) (s.putFt m) := by
  unfold State.scanCount
  rw [bumpCount_ok _ _ _ _ _ h]
  simp only [incCount_ok _ _ hn]

/-- FREQ_SCAN's loop over the rest of a stream whose symbols can all be counted (R196). -/
theorem moves_scan (bytes : List Byte) : ∀ (s : State) (ns nb start : Word) (chunk : List Byte) (m : FMap Word)
    (q : List Token), s.iof = false → chunk.length < s.symWidth → s.inq = byteTokens bytes ++ .eos :: q →
    countAll s.params.symCap s.ft (chunkRun s.symWidth chunk bytes) = some m →
    nb.toNat + bytes.length < 2 ^ 64 → ns.toNat + (chunkRun s.symWidth chunk bytes).length < 2 ^ 64 →
    ∃ k, Moves (s.goOn [.scan ns nb start chunk])
      (((s.putFt m).atInq q k).goOn
        [.finish (.freqScan (ns + BitVec.ofNat 64 (chunkRun s.symWidth chunk bytes).length)
          (nb + BitVec.ofNat 64 bytes.length))]) := by
  induction bytes with
  | nil =>
    intro s ns nb start chunk m q hi hc hq hm _ hns
    have htok := moves_scan_token s ns nb start chunk .eos q hi hq
    refine ⟨s.iofSkip - 1, htok.trans ?_⟩
    rw [show nb + BitVec.ofNat 64 ([] : List Byte).length = nb by simp]
    cases chunk with
    | nil =>
      cases hm
      rw [show ns + BitVec.ofNat 64 (chunkRun s.symWidth [] []).length = ns by simp [chunkRun]]
      exact Moves.refl _
    | cons x ch =>
      have hcr : chunkRun s.symWidth (x :: ch) [] = [beWord (padChunk s.symWidth (x :: ch))] := rfl
      rw [hcr] at hm hns ⊢
      have hb : bumpCount s.params.symCap s.ft 0 (beWord (padChunk s.symWidth (x :: ch))) = .ok m := by
        simp only [countAll] at hm
        cases hb : bumpCount s.params.symCap s.ft 0 (beWord (padChunk s.symWidth (x :: ch))) with
        | error r => rw [hb] at hm; cases hm
        | ok m' => rw [hb] at hm; cases hm; rfl
      have e : ((s.goOn [.scan ns nb start (x :: ch)]).took q).scanToken ns nb start (x :: ch) .eos =
          ((s.goOn [.scan ns nb start (x :: ch)]).took q).scanCount ns start (beWord (padChunk s.symWidth (x :: ch)))
            (fun m s' => s'.goOn [.finish (.freqScan m nb)]) := rfl
      rw [e, scanCount_ok ((s.goOn [.scan ns nb start (x :: ch)]).took q) _ _ _ _ m hb (word_ne_max_of_lt _ 0 (by simpa using hns))]
      exact Moves.refl _
  | cons b bytes ih =>
    intro s ns nb start chunk m q hi hc hq hm hnb hns
    simp only [List.length_cons] at hnb
    have htok := moves_scan_token s ns nb start chunk (.byte b) (byteTokens bytes ++ .eos :: q) hi hq
    have hnm := word_ne_max_of_lt _ _ hnb
    have hn1 := word_add_one_toNat _ _ hnb
    have hlen : nb + BitVec.ofNat 64 (b :: bytes).length = nb + 1 + BitVec.ofNat 64 bytes.length := by
      rw [BitVec.add_assoc]
      congr 1
      apply BitVec.eq_of_toNat_eq
      simp [BitVec.toNat_add, Nat.add_comm]
    have etok : ((s.goOn [.scan ns nb start chunk]).took (byteTokens bytes ++ .eos :: q)).scanToken ns nb start chunk (.byte b) =
        if (chunk ++ [b]).length = s.symWidth then
          ((s.goOn [.scan ns nb start chunk]).took (byteTokens bytes ++ .eos :: q)).scanCount ns (chunkStart chunk nb start)
            (beWord (chunk ++ [b])) (fun m s' => s'.goOn [.scan m (nb + 1) (chunkStart chunk nb start) []])
        else ((s.goOn [.scan ns nb start chunk]).took (byteTokens bytes ++ .eos :: q)).goOn
          [.scan ns (nb + 1) (chunkStart chunk nb start) (chunk ++ [b])] := by
      simp only [State.scanToken, incCount_ok _ _ hnm]
      rfl
    rw [etok] at htok
    rw [hlen]
    by_cases hfull : (chunk ++ [b]).length = s.symWidth
    · rw [if_pos hfull] at htok
      have hcr : chunkRun s.symWidth chunk (b :: bytes) = beWord (chunk ++ [b]) :: chunkRun s.symWidth [] bytes := by
        simp only [chunkRun, if_pos hfull]
      rw [hcr] at hm hns ⊢
      simp only [List.length_cons] at hns ⊢
      simp only [countAll] at hm
      cases hb : bumpCount s.params.symCap s.ft 0 (beWord (chunk ++ [b])) with
      | error r => rw [hb] at hm; cases hm
      | ok m1 =>
        rw [hb] at hm
        have hsn := word_add_one_toNat _ _ hns
        rw [scanCount_ok ((s.goOn [.scan ns nb start chunk]).took (byteTokens bytes ++ .eos :: q)) _ _ _ _ m1 hb
          (word_ne_max_of_lt _ _ hns)] at htok
        obtain ⟨k, hk⟩ := ih ((s.putFt m1).atInq (byteTokens bytes ++ .eos :: q) (s.iofSkip - 1)) (ns + 1) (nb + 1)
          (chunkStart chunk nb start) [] m q hi (show 0 < s.symWidth by omega) rfl hm (by omega)
          (by rw [hsn]; show ns.toNat + 1 + (chunkRun s.symWidth [] bytes).length < 2 ^ 64; omega)
        refine ⟨k, htok.trans ?_⟩
        have e2 : ns + BitVec.ofNat 64 ((chunkRun s.symWidth [] bytes).length + 1) =
            ns + 1 + BitVec.ofNat 64 (chunkRun s.symWidth [] bytes).length := by
          rw [BitVec.add_assoc]
          congr 1
          apply BitVec.eq_of_toNat_eq
          simp [BitVec.toNat_add, Nat.add_comm]
        rw [e2]
        exact hk
    · rw [if_neg hfull] at htok
      have hcr : chunkRun s.symWidth chunk (b :: bytes) = chunkRun s.symWidth (chunk ++ [b]) bytes := by
        simp only [chunkRun, if_neg hfull]
      rw [hcr] at hm hns ⊢
      obtain ⟨k, hk⟩ := ih (s.atInq (byteTokens bytes ++ .eos :: q) (s.iofSkip - 1)) ns (nb + 1) (chunkStart chunk nb start)
        (chunk ++ [b]) m q hi
        (by show (chunk ++ [b]).length < s.symWidth
            simp only [List.length_append, List.length_singleton] at hfull ⊢; omega)
        rfl hm (by omega) hns
      exact ⟨k, htok.trans hk⟩

/-! ### The table reader -/

/-- The bytes of one field of a table, read to its end (R247). -/
theorem moves_field (bytes : List Byte) : ∀ (s : State) (d : Deser) (q : List Token), s.iof = false → bytes ≠ [] →
    d.got.length + bytes.length = d.want s.symWidth → s.inq = byteTokens bytes ++ q →
    ∃ k todo, Moves (s.goOn [.deser d])
      (((s.atInq q k).goOn todo).deserField
        { d with got := d.got ++ bytes, n := d.n + BitVec.ofNat 64 bytes.length }) := by
  induction bytes with
  | nil => intro s d q _ h; exact absurd rfl h
  | cons b bytes ih =>
    intro s d q hi _ hw hq
    simp only [List.length_cons] at hw
    have htok := moves_deser_token s d (.byte b) (byteTokens bytes ++ q) hi hq
    have e : ((s.goOn [.deser d]).took (byteTokens bytes ++ q)).deserToken d (.byte b) =
        if (d.got ++ [b]).length = d.want s.symWidth then
          ((s.goOn [.deser d]).took (byteTokens bytes ++ q)).deserField { d with got := d.got ++ [b], n := d.n + 1 }
        else ((s.goOn [.deser d]).took (byteTokens bytes ++ q)).goOn [.deser { d with got := d.got ++ [b], n := d.n + 1 }] :=
      rfl
    rw [e] at htok
    cases bytes with
    | nil =>
      rw [if_pos (by simpa using hw)] at htok
      exact ⟨s.iofSkip - 1, [.deser d], htok⟩
    | cons c bytes =>
      rw [if_neg (by simp only [List.length_append, List.length_cons, List.length_nil] at hw ⊢; omega)] at htok
      obtain ⟨k, todo, hk⟩ := ih (s.atInq (byteTokens (c :: bytes) ++ q) (s.iofSkip - 1))
        { d with got := d.got ++ [b], n := d.n + 1 } q hi (by simp)
        (by simp only [List.length_append, List.length_cons, List.length_nil] at hw ⊢
            have : ({ d with got := d.got ++ [b], n := d.n + 1 } : Deser).want s.symWidth = d.want s.symWidth := rfl
            show _ = ({ d with got := d.got ++ [b], n := d.n + 1 } : Deser).want s.symWidth
            rw [this]; omega) rfl
      refine ⟨k, todo, htok.trans ?_⟩
      have e2 : d.n + BitVec.ofNat 64 (b :: c :: bytes).length = d.n + 1 + BitVec.ofNat 64 (c :: bytes).length := by
        rw [BitVec.add_assoc]
        congr 1
        apply BitVec.eq_of_toNat_eq
        simp [BitVec.toNat_add, Nat.add_comm]
      have e3 : d.got ++ b :: c :: bytes = d.got ++ [b] ++ c :: bytes := by simp
      rw [e2, e3]
      exact hk

end Sys2Proof.Machine
end

