-- ==== Sys2Proof/Laws/Invariant.lean ====
section
/-! SUPPORT. What each shared operation keeps of the machine's invariant: an update of one part asks for that part's clause only, and a micro-step keeps it all. -/

namespace Sys2Proof.Machine

/-- A state with the same tables, trees, engines and registers has the invariant, given what it says of the record and of what runs. -/
theorem inv_congr {s t : State} (hi : s.Inv) (h1 : t.params = s.params) (h2 : t.width = s.width) (h3 : t.bs = s.bs)
    (h4 : t.ft = s.ft) (h5 : t.ct = s.ct) (h6 : t.etree = s.etree) (h7 : t.dtree = s.dtree) (h8 : t.packer = s.packer)
    (h9 : t.decoder = s.decoder) (hr : t.err = false → t.errRec = .zero) (hq : t.errQuiet) (hk : t.runOk) : t.Inv := by
  have hb : ∀ i, t.bsAt i = s.bsAt i := fun i => State.bsAt_congr s t i h3
  refine ⟨h1 ▸ hi.params, h2 ▸ hi.width, fun i => (hb i) ▸ hi.bs i, h4 ▸ hi.ftForm, ?_, h5 ▸ hi.ctForm, ?_, h5 ▸ hi.ctCodes, ?_, ?_, ?_, ?_, ?_, ?_, hr, hq, hk⟩
  · rw [h4, h1]; exact hi.ftCap
  · rw [h5, h1]; exact hi.ctCap
  · rw [h6, h1]; exact hi.etree
  · rw [h2, h4, h5, h6, h7]; exact hi.unset
  · rw [h8]; exact hi.packer
  · rw [h9]; exact hi.cur
  · rw [h9]; exact hi.acc
  · rw [h7, h9]; exact hi.dtree

/-- Error entry keeps the invariant (R323, R326). -/
theorem inv_raise {s : State} (hi : s.Inv) (r : Raise) : (s.raise r).Inv :=
  inv_congr hi rfl rfl rfl rfl rfl rfl rfl rfl rfl (fun h => by simp at h) (fun _ => .inl rfl) trivial

/-- The end of a command keeps the invariant (R145). -/
theorem inv_complete {s : State} (hi : s.Inv) : s.complete.Inv :=
  inv_congr hi rfl rfl rfl rfl rfl rfl rfl rfl rfl hi.record (fun _ => .inl rfl) trivial

/-- The running command goes on with what its pseudocode can reach. -/
theorem inv_goOn {s : State} (hi : s.Inv) (he : s.err = false) (todo : List Micro) (hm : ∀ m ∈ todo, m.ok s)
    (hl : todo.getLast?.any Micro.closing = true) : (s.goOn todo).Inv :=
  inv_congr hi rfl rfl rfl rfl rfl rfl rfl rfl rfl hi.record (fun h => by simp [he] at h) 
    ⟨fun m h => by
      have := hm m h
      cases m <;> exact this, hl⟩

/-- The packer changes, PB having no bit at PBN or above (R61; log 10). -/
theorem inv_setPacker {s : State} (hi : s.Inv) (p : Packer)
    (h : p.pbn ≠ 7 → p.pb >>> p.pbn.toNat = 0#8) : (s.setPacker p).Inv :=
  ⟨hi.params, hi.width, hi.bs, hi.ftForm, hi.ftCap, hi.ctForm, hi.ctCap, hi.ctCodes, hi.etree, hi.unset, h, hi.cur, hi.acc, hi.dtree, hi.record, hi.errQuiet, by
    have := hi.runOk
    unfold State.runOk at this ⊢
    simp only [State.setPacker_run]
    cases hr : s.run with
    | idle => trivial
    | accepted w => trivial
    | running todo => rw [hr] at this; exact ⟨fun m hm => by have := this.1 m hm; cases m <;> exact this, this.2⟩⟩

/-- The decoder changes, CUR staying a node of DTREE and ACC equal to it (R62). -/
theorem inv_setDecoder {s : State} (hi : s.Inv) (d : Decoder) (h1 : d.cur.wf) (h2 : d.acc.wf)
    (h3 : ∀ t, s.dtree = some t → d.acc = d.cur ∧ (t.sub d.cur.toBits).isAbsent = false) : (s.setDecoder d).Inv :=
  ⟨hi.params, hi.width, hi.bs, hi.ftForm, hi.ftCap, hi.ctForm, hi.ctCap, hi.ctCodes, hi.etree, hi.unset, hi.packer, h1, h2, fun t ht => by
    obtain ⟨a, b, c, _⟩ := hi.dtree t ht
    exact ⟨a, b, c, h3 t ht⟩, hi.record, hi.errQuiet, by
    have := hi.runOk
    unfold State.runOk at this ⊢
    simp only [State.setDecoder_run]
    cases hr : s.run with
    | idle => trivial
    | accepted w => trivial
    | running todo => rw [hr] at this; exact ⟨fun m hm => by have := this.1 m hm; cases m <;> exact this, this.2⟩⟩

/-- A token is taken. -/
theorem inv_took {s : State} (hi : s.Inv) (q : List Token) : (s.took q).Inv :=
  ⟨hi.params, hi.width, hi.bs, hi.ftForm, hi.ftCap, hi.ctForm, hi.ctCap, hi.ctCodes, hi.etree, hi.unset, hi.packer, hi.cur, hi.acc, hi.dtree, hi.record, hi.errQuiet, by
    have := hi.runOk
    unfold State.runOk at this ⊢
    simp only [State.took_run]
    cases hr : s.run with
    | idle => trivial
    | accepted w => trivial
    | running todo => rw [hr] at this; exact ⟨fun m hm => by have := this.1 m hm; cases m <;> exact this, this.2⟩⟩

/-- A byte is written. -/
theorem inv_wroteByte {s : State} (hi : s.Inv) (b : Byte) : (s.wroteByte b).Inv :=
  ⟨hi.params, hi.width, hi.bs, hi.ftForm, hi.ftCap, hi.ctForm, hi.ctCap, hi.ctCodes, hi.etree, hi.unset, hi.packer, hi.cur, hi.acc, hi.dtree, hi.record, hi.errQuiet, by
    have := hi.runOk
    unfold State.runOk at this ⊢
    simp only [State.wroteByte_run]
    cases hr : s.run with
    | idle => trivial
    | accepted w => trivial
    | running todo => rw [hr] at this; exact ⟨fun m hm => by have := this.1 m hm; cases m <;> exact this, this.2⟩⟩

/-- The end of a stream command keeps the invariant (R34, R145). -/
theorem inv_finished {s : State} (hi : s.Inv) (f : Finish) : (s.writeResults f).complete.Inv := by
  have e : ∀ u : State, u.params = s.params → u.width = s.width → u.bs = s.bs → u.ft = s.ft → u.ct = s.ct → u.etree = s.etree → u.dtree = s.dtree → u.packer = s.packer → u.decoder = s.decoder → u.err = s.err → u.errRec = s.errRec → u.complete.Inv := by
    intro u h1 h2 h3 h4 h5 h6 h7 h8 h9 h10 h11
    exact inv_congr hi h1 h2 h3 h4 h5 h6 h7 h8 h9 (by intro h; rw [State.complete_errRec, h11]; exact hi.record (by rw [← h10]; exact h)) (fun _ => .inl rfl) trivial
  cases f <;> exact e _ rfl rfl rfl rfl rfl rfl rfl rfl rfl rfl rfl

/-- A stream command runs only with ERR = 0 (R326). -/
theorem err_of_running {s : State} (hi : s.Inv) (todo : List Micro) (h : s.run = .running todo) : s.err = false := by
  cases he : s.err with
  | false => rfl
  | true =>
    rcases hi.errQuiet he with h' | h' | h' <;> rw [h] at h' <;> cases h'

/-- A node of a tree of depth n has a path of at most n bits. -/
theorem sub_depth (t : DTree) : ∀ (n : Nat) (p : List Bool), t.depthLe n = true → (t.sub p).isAbsent = false → p.length ≤ n := by
  induction t with
  | absent => 
    intro n p _ h
    have : DTree.absent.sub p = .absent := DTree.sub_absent p
    rw [this] at h; cases h
  | node sy l r ihl ihr =>
    intro n p hd h
    cases p with
    | nil => simp
    | cons b p =>
      cases n with
      | zero =>
        simp [DTree.depthLe] at hd
        have : (DTree.node sy l r).sub (b :: p) = (if b then r else l).sub p := rfl
        rw [this] at h
        exfalso
        cases b
        · cases l with
          | absent => rw [show (if false = true then r else DTree.absent) = .absent from rfl, DTree.sub_absent] at h; cases h
          | node _ _ _ => simp [DTree.isAbsent] at hd
        · cases r with
          | absent => rw [show (if true = true then DTree.absent else l) = .absent from rfl, DTree.sub_absent] at h; cases h
          | node _ _ _ => simp [DTree.isAbsent] at hd
      | succ n =>
        simp [DTree.depthLe] at hd
        have : (DTree.node sy l r).sub (b :: p) = (if b then r else l).sub p := rfl
        rw [this] at h
        cases b
        · have := ihl n p hd.1 h; simp; omega
        · have := ihr n p hd.2 h; simp; omega

/-- A path one bit longer that is still in DTREE is a bit sequence (R60). -/
theorem append_len_wf (c : BitSeq) (b : Bool) (hc : c.wf) (t : DTree) (ht : t.depthLe 64 = true)
    (h : (t.sub (c.append b).toBits).isAbsent = false) : (c.append b).wf := by
  have := sub_depth t 64 _ ht h
  rw [BitSeq.toBits_length] at this
  exact BitSeq.append_wf c b hc this

/-- Back at the root (R300). -/
theorem inv_root {s : State} (hi : s.Inv) (mm : Bool) : (s.setDecoder { s.decoder with cur := .empty, acc := .empty, mismatch := mm }).Inv :=
  inv_setDecoder hi _ BitSeq.wf_empty BitSeq.wf_empty (fun t ht => ⟨rfl, (hi.dtree t ht).1⟩)

/-- DecodeBit keeps the invariant (R300). -/
theorem inv_decode {s : State} (hi : s.Inv) (he : s.err = false) (b : Bool) (rest : List Micro) (hm : ∀ m ∈ rest, m.ok s)
    (hl : rest.getLast?.any Micro.closing = true) : (s.decodeBit b rest).Inv := by
  have keep : ∀ (d : Decoder), (∀ m ∈ rest, m.ok (s.setDecoder d)) := fun d m h => by have := hm m h; cases m <;> exact this
  rcases s.decodeBit_cases b rest with ⟨_, _, h⟩ | ⟨_, _, h⟩ | ⟨_, _, h⟩
  · rw [h]
    exact inv_goOn (inv_setDecoder hi { s.decoder with limitHit := true } hi.cur hi.acc (fun t ht => (hi.dtree t ht).2.2.2)) he _ (keep _) hl
  · rw [h]; exact inv_raise hi _
  · rw [h]
    have hi1 : (s.setDecoder { s.decoder with bits := s.decoder.bits + 1 }).Inv := inv_setDecoder hi _ hi.cur hi.acc (fun t ht => (hi.dtree t ht).2.2.2)
    set s1 := s.setDecoder { s.decoder with bits := s.decoder.bits + 1 } with hs1
    have hm1 : ∀ m ∈ rest, m.ok s1 := keep _
    unfold State.follow
    by_cases hab : (s1.dnode (s1.decoder.cur.append b)).isAbsent = true
    · rw [if_pos hab]
      exact inv_goOn (inv_root hi1 true) he _ (fun m h => by have := hm1 m h; cases m <;> exact this) hl
    · rw [if_neg hab]
      have hab' : (s1.dnode (s1.decoder.cur.append b)).isAbsent = false := by simpa using hab
      cases hd : s1.dtree with
      | none => unfold State.dnode at hab'; rw [hd] at hab'; cases hab'
      | some t =>
        obtain ⟨d1, d2, d3, d4, d5⟩ := hi1.dtree t hd
        have hdn : (t.sub (s1.decoder.cur.append b).toBits).isAbsent = false := by unfold State.dnode at hab'; rw [hd] at hab'; exact hab'
        have hwf := append_len_wf _ b hi1.cur t d3 hdn
        have hi2 : (s1.setDecoder { s1.decoder with cur := s1.decoder.cur.append b, acc := s1.decoder.acc.append b }).Inv := by
          refine inv_setDecoder hi1 _ hwf (by rw [d4]; exact hwf) (fun t' ht' => ?_)
          rw [hd] at ht'; cases ht'
          exact ⟨by rw [d4], hdn⟩
        set s2 := s1.setDecoder { s1.decoder with cur := s1.decoder.cur.append b, acc := s1.decoder.acc.append b } with hs2
        have hm2 : ∀ m ∈ rest, m.ok s2 := fun m h => by have := hm1 m h; cases m <;> exact this
        rcases s2.arrive_cases rest with ⟨_, h⟩ | ⟨_, _, h⟩ | ⟨sy, _, _, _, h⟩
        · rw [h]; exact inv_goOn hi2 he _ hm2 hl
        · rw [h]
          exact inv_goOn (inv_root hi2 true) he _ (fun m h => by have := hm2 m h; cases m <;> exact this) hl
        · rw [h]; unfold State.deliver
          split
          · exact inv_raise hi2 _
          · rename_i mm _
            refine inv_goOn (inv_setDecoder hi2 { s2.decoder with syms := mm } hi2.cur hi2.acc (fun t ht => (hi2.dtree t ht).2.2.2)) he _ ?_ ?_
            · intro m hmem
              rcases List.mem_append.1 hmem with h | h
              · obtain ⟨x, _, rfl⟩ := List.mem_map.1 h; trivial
              · rcases List.mem_cons.1 h with rfl | h
                · trivial
                · have := hm2 m h; cases m <;> exact this
            · have hne : rest ≠ [] := by rintro rfl; cases hl
              rw [List.getLast?_append, List.getLast?_cons]
              cases hr : rest.getLast? with
              | none => exact absurd (List.getLast?_eq_none_iff.1 hr) hne
              | some x => rw [hr] at hl; simpa using hl

/-- A micro-operation's position depends on WIDTH, CT, the trees and SYM_CAP only. -/
theorem keep_ok {s t : State} (h1 : t.width = s.width) (h2 : t.ct = s.ct) (h3 : t.params = s.params)
    (h4 : t.etree = s.etree) (h5 : t.dtree = s.dtree) {l : List Micro} (h : ∀ m ∈ l, m.ok s) : ∀ m ∈ l, m.ok t := by
  intro m hm
  have := h m hm
  cases m with
  | deser d =>
    obtain ⟨a, c, b⟩ := this
    refine ⟨by rw [h1]; exact a, by rw [h5]; exact c, ?_⟩
    unfold Deser.ok at b ⊢
    rw [h2, h3]; exact b
  | scan _ _ _ _ => exact ⟨by rw [h1]; exact this.1, by rw [h4]; exact this.2⟩
  | finish f =>
    change f.ok s at this
    show f.ok t
    cases f with
    | deserTable _ _ => exact h5.trans this
    | _ => trivial
  | _ => trivial

/-- EmitBit keeps the invariant (R280). -/
theorem inv_emit {s : State} (hi : s.Inv) (he : s.err = false) (b : Bool) (rest : List Micro) (hm : ∀ m ∈ rest, m.ok s)
    (hl : rest.getLast?.any Micro.closing = true) : (s.emitBit b rest).Inv := by
  rcases s.emitBit_cases b rest with ⟨_, h⟩ | ⟨_, h7, h⟩ | ⟨_, h7, h⟩
  · rw [h]; exact inv_raise hi _
  · rw [h]
    refine inv_goOn (inv_setPacker hi { s.packer with bits := s.packer.bits + 1, pb := s.packer.filled b } (fun h => absurd h7 h)) he _ (List.forall_mem_cons.2 ⟨trivial, keep_ok (s := s) rfl rfl rfl rfl rfl hm⟩) ?_
    have hne : rest ≠ [] := by rintro rfl; cases hl
    rw [List.getLast?_cons]
    cases hr : rest.getLast? with
    | none => exact absurd (List.getLast?_eq_none_iff.1 hr) hne
    | some x => rw [hr] at hl; simpa using hl
  · rw [h]
    refine inv_goOn (inv_setPacker hi { s.packer with bits := s.packer.bits + 1, pb := s.packer.filled b, pbn := s.packer.pbn + 1 } ?_) he _ (keep_ok (s := s) rfl rfl rfl rfl rfl hm) hl
    have hcl : s.packer.clean := hi.packer h7
    have := s.packer.push_stream b hcl
    unfold Packer.push at this
    rw [if_neg h7] at this
    exact fun _ => this.2.1

/-- A list ends as its last part does. -/
theorem last_append (l k : List Micro) (hk : k.getLast?.any Micro.closing = true) : (l ++ k).getLast?.any Micro.closing = true := by
  rw [List.getLast?_append]
  cases hr : k.getLast? with
  | none => rw [hr] at hk; cases hk
  | some x => rw [hr] at hk; simpa using hk

/-- sym(v) of PACK keeps the invariant (R285). -/
theorem inv_packSymbol {s : State} (hi : s.Inv) (he : s.err = false) (st v : Word) (rest : List Micro) (hm : ∀ m ∈ rest, m.ok s)
    (hl : rest.getLast?.any Micro.closing = true) : (s.packSymbol st v rest).Inv := by
  unfold State.packSymbol
  split
  · exact inv_raise hi _
  · split
    · exact inv_raise hi _
    · rename_i n _
      refine inv_goOn (inv_setPacker hi { s.packer with syms := n } hi.packer) he _ ?_ (last_append _ _ hl)
      intro m h
      rcases List.mem_append.1 h with h | h
      · obtain ⟨x, _, rfl⟩ := List.mem_map.1 h; trivial
      · exact keep_ok (s := s) rfl rfl rfl rfl rfl hm m h

/-- A turn of PACK's loop keeps the invariant (R285). -/
theorem inv_packToken {s : State} (hi : s.Inv) (he : s.err = false) (nb st : Word) (ch : List Byte) (t : Token) : (s.packToken nb st ch t).Inv := by
  unfold State.packToken
  split
  · exact inv_raise hi _
  · split
    · exact inv_raise hi _
    · dsimp only
      by_cases h : (ch ++ [‹Byte›]).length = s.symWidth
      · rw [if_pos h]; exact inv_packSymbol hi he _ _ _ (by intro m hm; simp at hm; subst hm; trivial) rfl
      · rw [if_neg h]; exact inv_goOn hi he _ (by intro m hm; simp at hm; subst hm; trivial) rfl
  · by_cases h : ch.isEmpty = true
    · rw [if_pos h]; exact inv_goOn hi he _ (by intro m hm; simp at hm; rcases hm with rfl | rfl <;> trivial) rfl
    · rw [if_neg h]; exact inv_packSymbol hi he _ _ _ (by intro m hm; simp at hm; rcases hm with rfl | rfl <;> trivial) rfl

/-- A turn of UNPACK's loop keeps the invariant (R303). -/
theorem inv_unpackToken {s : State} (hi : s.Inv) (he : s.err = false) (nb : Word) (t : Token) : (s.unpackToken nb t).Inv := by
  unfold State.unpackToken
  split
  · exact inv_raise hi _
  · exact inv_goOn hi he _ (by intro m hm; simp at hm; subst hm; trivial) rfl
  · split
    · exact inv_raise hi _
    · refine inv_goOn hi he _ ?_ (last_append _ _ rfl)
      intro m h
      rcases List.mem_append.1 h with h | h
      · obtain ⟨x, _, rfl⟩ := List.mem_map.1 h; trivial
      · simp at h; subst h; trivial

/-- FT changes with WIDTH set (R57). -/
theorem inv_ft {s : State} (hi : s.Inv) (m : FMap Word) (hw : s.width ≠ 0) (h1 : m.wf) (h2 : m.length ≤ s.params.symCap) : (s.putFt m).Inv :=
  ⟨hi.params, hi.width, hi.bs, h1, h2, hi.ctForm, hi.ctCap, hi.ctCodes, hi.etree, fun h => absurd h hw, hi.packer, hi.cur, hi.acc, hi.dtree, hi.record, hi.errQuiet, by
    have := hi.runOk
    unfold State.runOk at this ⊢
    simp only [State.putFt_run]
    cases hr : s.run with
    | idle => trivial
    | accepted w => trivial
    | running todo => rw [hr] at this; exact ⟨keep_ok (s := s) rfl rfl rfl rfl rfl this.1, this.2⟩⟩

/-- One more occurrence keeps FT's form and its bound (R57). -/
theorem bump_wf {cap : Nat} {ft m : FMap Word} {st v : Word} (h1 : ft.wf) (h2 : ft.length ≤ cap) (h : bumpCount cap ft st v = .ok m) : m.wf ∧ m.length ≤ cap := by
  unfold bumpCount at h
  cases hg : ft.get v with
  | none =>
    rw [hg] at h
    dsimp only at h
    by_cases hl : ft.length = cap
    · rw [if_pos hl] at h; cases h
    · rw [if_neg hl] at h; cases h
      exact ⟨FMap.wf_put _ _ _ h1, by rw [FMap.length_put_new _ _ _ hg]; omega⟩
  | some n =>
    rw [hg] at h
    dsimp only at h
    by_cases hl : n = maxWord
    · rw [if_pos hl] at h; cases h
    · rw [if_neg hl] at h; cases h
      exact ⟨FMap.wf_put _ _ _ h1, by rw [FMap.length_put_old _ _ _ h1 (by rw [hg]; simp)]; exact h2⟩

/-- count(v) of FREQ_SCAN keeps the invariant (R196). -/
theorem inv_scanCount {s : State} (hi : s.Inv) (hw : s.width ≠ 0 ∧ s.etree = none) (ns st v : Word) (k : Word → State → State)
    (hk : ∀ n (u : State), u.Inv → u.err = s.err → u.width = s.width → u.etree = s.etree → (k n u).Inv) : (s.scanCount ns st v k).Inv := by
  unfold State.scanCount
  split
  · exact inv_raise hi _
  · rename_i m hm
    have := bump_wf hi.ftForm hi.ftCap hm
    have h2 := inv_ft hi m hw.1 this.1 this.2
    split
    · exact inv_raise h2 _
    · exact hk _ _ h2 rfl rfl rfl

/-- A turn of FREQ_SCAN's loop keeps the invariant (R196). -/
theorem inv_scanToken {s : State} (hi : s.Inv) (he : s.err = false) (hw : s.width ≠ 0 ∧ s.etree = none) (ns nb st : Word) (ch : List Byte) (t : Token) : (s.scanToken ns nb st ch t).Inv := by
  unfold State.scanToken
  split
  · exact inv_raise hi _
  · split
    · exact inv_raise hi _
    · dsimp only
      by_cases h : (ch ++ [‹Byte›]).length = s.symWidth
      · rw [if_pos h]
        exact inv_scanCount hi hw _ _ _ _ (fun n u hu h1 h2 h3 => inv_goOn hu (h1.trans he) _
          (by intro m hm; simp at hm; subst hm; exact ⟨by rw [h2]; exact hw.1, by rw [h3]; exact hw.2⟩) rfl)
      · rw [if_neg h]; exact inv_goOn hi he _ (by intro m hm; simp at hm; subst hm; exact hw) rfl
  · by_cases h : ch.isEmpty = true
    · rw [if_pos h]; exact inv_goOn hi he _ (by intro m hm; simp at hm; subst hm; trivial) rfl
    · rw [if_neg h]
      exact inv_scanCount hi hw _ _ _ _ (fun n u hu h1 _ _ => inv_goOn hu (h1.trans he) _ (by intro m hm; simp at hm; subst hm; trivial) rfl)

/-- CT changes with WIDTH set, or becomes empty (R58). -/
theorem inv_ct {s t : State} (hi : s.Inv) (m : FMap BitSeq) (h1 : m.wf) (h2 : m.length ≤ s.params.symCap) (h3 : ∀ e ∈ m, e.2.isCode)
   (hw : s.width ≠ 0 ∨ m = []) (e1 : t.params = s.params) (e2 : t.width = s.width) (e3 : t.bs = s.bs) (e4 : t.ft = s.ft) (e5 : t.ct = m) (e6 : t.etree = s.etree) (e7 : t.dtree = s.dtree) (e8 : t.packer = s.packer) (e9 : t.decoder = s.decoder)
   (hr : t.err = false → t.errRec = .zero) (hq : t.errQuiet) (hk : t.runOk) : t.Inv := by
  have hb : ∀ i, t.bsAt i = s.bsAt i := fun i => State.bsAt_congr s t i e3
  refine ⟨e1 ▸ hi.params, e2 ▸ hi.width, fun i => (hb i) ▸ hi.bs i, e4 ▸ hi.ftForm, ?_, by rw [e5]; exact h1, ?_, by rw [e5]; exact h3, ?_, ?_, ?_, ?_, ?_, ?_, hr, hq, hk⟩
  · rw [e4, e1]; exact hi.ftCap
  · rw [e5, e1]; exact h2
  · rw [e6, e1]; exact hi.etree
  · rw [e2, e4, e5, e6, e7]
    intro h0
    obtain ⟨a, b, c, d⟩ := hi.unset h0
    rcases hw with hw | hw
    · exact absurd h0 hw
    · exact ⟨a, hw, c, d⟩
  · rw [e8]; exact hi.packer
  · rw [e9]; exact hi.cur
  · rw [e9]; exact hi.acc
  · rw [e7, e9]; exact hi.dtree

theorem wf_nil : FMap.wf ([] : FMap BitSeq) := List.Pairwise.nil

/-- An error of DESER_TABLE keeps the invariant (R247). -/
theorem inv_failDeser {s : State} (hi : s.Inv) (r : Raise) : (s.failDeser r).Inv :=
  inv_ct hi [] wf_nil (Nat.zero_le _) (by simp) (.inr rfl) rfl rfl rfl rfl rfl rfl rfl rfl rfl (fun h => by cases h) (fun _ => .inl rfl) trivial

/-- An IOFAIL abort of DESER_TABLE keeps the invariant (log 11). -/
theorem inv_abortDeser {s : State} (hi : s.Inv) : s.abortDeser.Inv :=
  inv_ct hi [] wf_nil (Nat.zero_le _) (by simp) (.inr rfl) rfl rfl rfl rfl rfl rfl rfl rfl rfl (fun h => by cases h) (fun _ => .inl rfl) trivial

/-- A field of a table read to its end keeps the invariant (R247). -/
theorem inv_deserField {s : State} (hi : s.Inv) (he : s.err = false) (hw : s.width ≠ 0) (ht : s.dtree = none) (d : Deser) (hd : d.ok s) : (s.deserField d).Inv := by
  unfold State.deserField
  unfold Deser.ok at hd
  cases hf : d.field with
  | count =>
    rw [hf] at hd
    obtain ⟨h1, h2⟩ := hd
    dsimp only
    by_cases c1 : beWord d.got = 0
    · rw [if_pos c1]; exact inv_failDeser hi _
    · rw [if_neg c1]
      by_cases c2 : (beWord d.got).toNat > s.params.symCap
      · rw [if_pos c2]; exact inv_failDeser hi _
      · rw [if_neg c2]
        refine inv_goOn hi he _ ?_ rfl
        intro m hm; simp at hm; subst hm
        refine ⟨hw, ht, ?_⟩
        show s.ct.length ≤ d.e ∧ d.e < (beWord d.got).toNat ∧ (beWord d.got).toNat ≤ s.params.symCap
        have : (beWord d.got).toNat ≠ 0 := fun e => c1 (BitVec.eq_of_toNat_eq e)
        rw [h1, h2]; simp; omega
  | symbol =>
    rw [hf] at hd
    dsimp only
    by_cases c1 : (s.ct.get (beWord d.got)).isSome = true
    · rw [if_pos c1]; exact inv_failDeser hi _
    · rw [if_neg c1]
      refine inv_goOn hi he _ ?_ rfl
      intro m hm; simp at hm; subst hm
      exact ⟨hw, ht, hd⟩
  | length =>
    rw [hf] at hd
    dsimp only
    by_cases c1 : beWord d.got = 0
    · rw [if_pos c1]; exact inv_failDeser hi _
    · rw [if_neg c1]
      by_cases c2 : (beWord d.got).toNat > 64
      · rw [if_pos c2]; exact inv_failDeser hi _
      · rw [if_neg c2]
        refine inv_goOn hi he _ ?_ rfl
        intro m hm; simp at hm; subst hm
        have : (beWord d.got).toNat ≠ 0 := fun e => c1 (BitVec.eq_of_toNat_eq e)
        exact ⟨hw, ht, hd.1, hd.2.1, hd.2.2, by show 1 ≤ (beWord d.got).toNat; omega, by show (beWord d.got).toNat ≤ 64; omega⟩
  | code =>
    rw [hf] at hd
    obtain ⟨h1, h2, h3, h4, h5⟩ := hd
    dsimp only
    have hl := FMap.length_put_le s.ct d.s (BitSeq.mk' d.l (leWord d.got))
    have key : ∀ todo : List Micro, (∀ m ∈ todo, m.ok (s.putCt (s.ct.put d.s (.mk' d.l (leWord d.got))))) → todo.getLast?.any Micro.closing = true → ((s.putCt (s.ct.put d.s (.mk' d.l (leWord d.got)))).goOn todo).Inv := by
      intro todo htd hlast
      refine inv_ct hi _ (FMap.wf_put _ d.s (BitSeq.mk' d.l (leWord d.got)) hi.ctForm) (by omega) ?_ (.inl hw) rfl rfl rfl rfl rfl rfl rfl rfl rfl hi.record (fun h => by rw [show ((s.putCt (s.ct.put d.s (.mk' d.l (leWord d.got)))).goOn todo).err = s.err from rfl, he] at h; cases h) ⟨keep_ok (s := s.putCt (s.ct.put d.s (.mk' d.l (leWord d.got)))) rfl rfl rfl rfl rfl htd, hlast⟩
      intro e hmem
      rcases FMap.mem_put _ _ _ _ hmem with rfl | h
      · exact ⟨BitSeq.mk'_wf _ _ h5, h4⟩
      · exact hi.ctCodes e h
    by_cases c1 : d.e + 1 = d.t
    · rw [if_pos c1]; exact key _ (by intro m hm; simp at hm; subst hm; trivial) rfl
    · rw [if_neg c1]
      refine key _ ?_ rfl
      intro m hm; simp at hm; subst hm
      exact ⟨hw, ht, by show (s.ct.put d.s (.mk' d.l (leWord d.got))).length ≤ d.e + 1 ∧ d.e + 1 < d.t ∧ d.t ≤ s.params.symCap; omega⟩

/-- A turn of DESER_TABLE's loop keeps the invariant (R247). -/
theorem inv_deserToken {s : State} (hi : s.Inv) (he : s.err = false) (hw : s.width ≠ 0) (hn : s.dtree = none) (d : Deser)
    (hd : d.ok s) (t : Token) : (s.deserToken d t).Inv := by
  unfold State.deserToken
  split
  · exact inv_failDeser hi _
  · exact inv_failDeser hi _
  · rename_i b
    dsimp only
    have hd' : ({ d with got := d.got ++ [b], n := d.n + 1 } : Deser).ok s := hd
    by_cases h : (d.got ++ [b]).length = ({ d with got := d.got ++ [b], n := d.n + 1 } : Deser).want s.symWidth
    · rw [if_pos h]; exact inv_deserField hi he hw hn _ hd'
    · rw [if_neg h]
      refine inv_goOn hi he _ ?_ rfl
      intro m hm; simp at hm; subst hm
      exact ⟨hw, hn, hd'⟩

/-- InRead keeps what its continuation keeps (R82). -/
theorem inv_inRead {s a : State} (hi : s.Inv) (ha : a.Inv) (k : Token → State → State) (hk : ∀ t q, (k t (s.took q)).Inv) : (s.inRead a k).Inv := by
  rcases s.inRead_cases a k with ⟨_, _, h⟩ | ⟨_, h⟩ | ⟨t, q, _, _, h⟩
  · rw [h]; exact ha
  · rw [h]; exact hi
  · rw [h]; exact hk t q

/-- OutWrite keeps what its continuation keeps (R83). -/
theorem inv_outWrite {s : State} (hi : s.Inv) (b : Byte) (k : State → State) (hk : (k (s.wroteByte b)).Inv) : (s.outWrite b k).Inv := by
  rcases s.outWrite_cases b k with ⟨_, h⟩ | ⟨_, _, h⟩ | ⟨_, _, h⟩
  · rw [h]; exact inv_raise hi _
  · rw [h]; exact hk
  · rw [h]; exact hi

/-- Every micro-step keeps the invariant. -/
theorem inv_micro {s : State} (hi : s.Inv) : s.microStep.Inv := by
  unfold State.microStep
  split
  · exact hi
  · exact hi
  · exact inv_complete hi
  · rename_i m rest h
    have he := err_of_running hi _ h
    have hro := hi.runOk
    unfold State.runOk at hro
    rw [h] at hro
    obtain ⟨hok, hlast⟩ := hro
    have hm := hok m List.mem_cons_self
    have hrest : ∀ x ∈ rest, x.ok s := fun x hx => hok x (List.mem_cons_of_mem _ hx)
    have hl : m.closing = false → rest.getLast?.any Micro.closing = true := by
      intro hc
      rw [List.getLast?_cons] at hlast
      cases hr : rest.getLast? with
      | none => rw [hr] at hlast; simp [hc] at hlast
      | some x => rw [hr] at hlast; simpa using hlast
    cases m with
    | emitBit b => exact inv_emit hi he b rest hrest (hl rfl)
    | outPB =>
      refine inv_outWrite hi s.packer.pb (fun s' => s'.clearPB.goOn rest) ?_
      exact inv_goOn (inv_setPacker (inv_wroteByte hi s.packer.pb) { s.packer with pb := 0, pbn := 0 } (fun _ => by simp)) he _ (keep_ok (s := s) rfl rfl rfl rfl rfl hrest) (hl rfl)
    | pad =>
      simp only [State.perform]
      by_cases c : s.packer.pbn = 0
      · rw [if_pos c]; exact inv_goOn hi he _ hrest (hl rfl)
      · rw [if_neg c]; exact inv_goOn hi he _ (List.forall_mem_cons.2 ⟨trivial, hrest⟩) (last_append [_] rest (hl rfl))
    | decodeBit b => exact inv_decode hi he b rest hrest (hl rfl)
    | out b =>
      refine inv_outWrite hi b (fun s' => s'.goOn rest) ?_
      exact inv_goOn (inv_wroteByte hi _) he _ (keep_ok (s := s) rfl rfl rfl rfl rfl hrest) (hl rfl)
    | toRoot =>
      refine inv_goOn (inv_setDecoder hi { s.decoder with cur := .empty, acc := .empty } BitSeq.wf_empty BitSeq.wf_empty (fun t ht => ⟨rfl, (hi.dtree t ht).1⟩)) he _ (keep_ok (s := s) rfl rfl rfl rfl rfl hrest) (hl rfl)
    | scan ns nb st ch => exact inv_inRead hi (inv_raise hi _) (fun t s' => s'.scanToken ns nb st ch t) (fun t q => inv_scanToken (inv_took hi q) he hm _ _ _ _ _)
    | packIn nb st ch => exact inv_inRead hi (inv_raise hi _) (fun t s' => s'.packToken nb st ch t) (fun t q => inv_packToken (inv_took hi q) he _ _ _ _)
    | unpackIn nb => exact inv_inRead hi (inv_raise hi _) (fun t s' => s'.unpackToken nb t) (fun t q => inv_unpackToken (inv_took hi q) he _ _)
    | deser d => exact inv_inRead hi (inv_abortDeser hi) (fun t s' => s'.deserToken d t) (fun t q => inv_deserToken (inv_took hi q) he hm.1 hm.2.1 d hm.2.2 _)
    | finish f =>
      simp only [State.perform, State.finish]
      by_cases c : s.iof = true
      · rw [if_pos c]
        cases f <;> first | exact inv_raise hi _ | exact inv_abortDeser hi
      · rw [if_neg c]; exact inv_finished hi f

/-- So does a run of the core. -/
theorem inv_settle {s : State} (hi : s.Inv) : s.settle.Inv := State.settle_induct State.Inv (fun _ hs _ => inv_micro hs) s hi

end Sys2Proof.Machine
end

