-- ==== Sys2Proof/Laws/Doing.lean ====
section
/-! SUPPORT. A running command stays itself: what a micro-step leaves to do is again the command's own, it waits where the core cannot move, and the invariant bounds its run. -/

namespace Sys2Proof.Machine

theorem State.doing_idle {s : State} (i : Instr) (h : s.run = .idle) : s.doing i := by simp [State.doing, h]

theorem State.doing_running {s : State} {i : Instr} {todo : List Micro} (h : s.run = .running todo) :
    s.doing i ↔ ∀ m ∈ todo, i.does m = true := by simp [State.doing, h]

theorem State.doing_one {s : State} {i : Instr} {m : Micro} (h : s.run = .running [m]) (hd : i.does m = true) :
    s.doing i := by simp [State.doing, h, hd]

theorem State.doing_raise (s : State) (r : Raise) (i : Instr) : (s.raise r).doing i := State.doing_idle i rfl

theorem State.doing_goOn {s : State} {todo : List Micro} {i : Instr} (h : ∀ m ∈ todo, i.does m = true) :
    (s.goOn todo).doing i := h

/-- What is left after an InRead is the command's, if the abort and what follows a token are. -/
theorem State.inRead_doing {s a : State} {k : Token → State → State} {i : Instr} (hs : s.doing i) (ha : a.doing i)
    (hk : ∀ t rest, (k t (s.took rest)).doing i) : (s.inRead a k).doing i := by
  rcases s.inRead_cases a k with ⟨_, _, h⟩ | ⟨_, h⟩ | ⟨t, rest, _, _, h⟩
  · rw [h]; exact ha
  · rw [h]; exact hs
  · rw [h]; exact hk t rest

/-- What is left after an OutWrite is the command's, if what follows it is. -/
theorem State.outWrite_doing {s : State} {b : Byte} {k : State → State} {i : Instr} (hs : s.doing i)
    (hk : (k (s.wroteByte b)).doing i) : (s.outWrite b k).doing i := by
  rcases s.outWrite_cases b k with ⟨_, h⟩ | ⟨_, _, h⟩ | ⟨_, _, h⟩
  · rw [h]; exact State.doing_idle i rfl
  · rw [h]; exact hk
  · rw [h]; exact hs

/-- The end of a stream command leaves nothing to do. -/
theorem State.finish_doing (s : State) (f : Finish) (i : Instr) : (s.finish f).doing i := by
  refine State.doing_idle i ?_
  unfold State.finish
  split_ifs
  · cases f <;> rfl
  · rfl

theorem State.scanToken_doing (s : State) (nsym nbytes start : Word) (chunk : List Byte) (t : Token) :
    (s.scanToken nsym nbytes start chunk t).doing .freqScan := by
  unfold State.scanToken
  split
  · exact State.doing_raise _ _ _
  · split
    · exact State.doing_raise _ _ _
    · dsimp only
      split_ifs
      · unfold State.scanCount
        split
        · exact State.doing_raise _ _ _
        · split
          · exact State.doing_raise _ _ _
          · exact State.doing_one rfl rfl
      · exact State.doing_one rfl rfl
  · split_ifs
    · exact State.doing_one rfl rfl
    · unfold State.scanCount
      split
      · exact State.doing_raise _ _ _
      · split
        · exact State.doing_raise _ _ _
        · exact State.doing_one rfl rfl

theorem State.packSymbol_doing (s : State) (start v : Word) (rest : List Micro)
    (h : ∀ m ∈ rest, Instr.pack.does m = true) : (s.packSymbol start v rest).doing .pack := by
  unfold State.packSymbol
  split
  · exact State.doing_raise _ _ _
  · split
    · exact State.doing_raise _ _ _
    · refine State.doing_goOn fun m hm => ?_
      rcases List.mem_append.1 hm with hm | hm
      · obtain ⟨b, _, rfl⟩ := List.mem_map.1 hm; rfl
      · exact h m hm

theorem State.packToken_doing (s : State) (nbytes start : Word) (chunk : List Byte) (t : Token) :
    (s.packToken nbytes start chunk t).doing .pack := by
  have last : ∀ m ∈ [Micro.pad, .finish .pack], Instr.pack.does m = true := by decide
  have more : ∀ n st : Word, ∀ m ∈ [Micro.packIn n st []], Instr.pack.does m = true := fun n st m hm => by
    rw [List.mem_singleton.1 hm]; rfl
  unfold State.packToken
  split
  · exact State.doing_raise _ _ _
  · split
    · exact State.doing_raise _ _ _
    · dsimp only
      split_ifs
      · exact State.packSymbol_doing _ _ _ _ (more _ _)
      · exact State.doing_one rfl rfl
  · split_ifs
    · exact State.doing_goOn last
    · exact State.packSymbol_doing _ _ _ _ last

theorem State.unpackToken_doing (s : State) (nbytes : Word) (t : Token) : (s.unpackToken nbytes t).doing .unpack := by
  unfold State.unpackToken
  split
  · exact State.doing_raise _ _ _
  · exact State.doing_one rfl rfl
  · split
    · exact State.doing_raise _ _ _
    · refine State.doing_goOn fun m hm => ?_
      rcases List.mem_append.1 hm with hm | hm
      · obtain ⟨b, _, rfl⟩ := List.mem_map.1 hm; rfl
      · rw [List.mem_singleton.1 hm]; rfl

theorem State.deserToken_doing (s : State) (d : Deser) (t : Token) : (s.deserToken d t).doing .deserTable := by
  unfold State.deserToken
  split
  · exact State.doing_raise _ _ _
  · exact State.doing_raise _ _ _
  · dsimp only
    split_ifs
    · unfold State.deserField
      split
      all_goals
        dsimp only
        split_ifs
        all_goals first | exact State.doing_raise _ _ _ | exact State.doing_one rfl rfl
    · exact State.doing_one rfl rfl

/-- DecodeBit leaves OutWrites, the way back to the root, and what followed it. -/
theorem State.decodeBit_doing {s : State} {b : Bool} {rest : List Micro} {i : Instr}
    (ho : ∀ x, i.does (.out x) = true) (hr : i.does .toRoot = true) (h : ∀ m ∈ rest, i.does m = true) :
    (s.decodeBit b rest).doing i := by
  have hd : ∀ (u : State) (sy : Word), (u.deliver sy rest).doing i := by
    intro u sy
    unfold State.deliver
    split
    · exact State.doing_raise _ _ _
    · refine State.doing_goOn fun m hm => ?_
      rcases List.mem_append.1 hm with hm | hm
      · obtain ⟨x, _, rfl⟩ := List.mem_map.1 hm; exact ho x
      · rcases List.mem_cons.1 hm with rfl | hm
        · exact hr
        · exact h m hm
  have hf : ∀ u : State, (u.follow b rest).doing i := by
    intro u
    unfold State.follow
    split_ifs
    · exact h
    · rcases State.arrive_cases (u.setDecoder { u.decoder with cur := u.decoder.cur.append b, acc := u.decoder.acc.append b })
        rest with ⟨_, e⟩ | ⟨_, _, e⟩ | ⟨sy, _, _, _, e⟩
      · rw [e]; exact h
      · rw [e]; exact h
      · rw [e]; exact hd _ sy
  rcases s.decodeBit_cases b rest with ⟨_, _, e⟩ | ⟨_, _, e⟩ | ⟨_, _, e⟩
  · rw [e]; exact h
  · rw [e]; exact State.doing_raise _ _ _
  · rw [e]; exact hf _

/-- EmitBit leaves at most the OutWrite of PB, and what followed it. -/
theorem State.emitBit_doing {s : State} {b : Bool} {rest : List Micro} {i : Instr}
    (ho : i.does .outPB = true) (h : ∀ m ∈ rest, i.does m = true) : (s.emitBit b rest).doing i := by
  rcases s.emitBit_cases b rest with ⟨_, e⟩ | ⟨_, _, e⟩ | ⟨_, _, e⟩
  · rw [e]; exact State.doing_raise _ _ _
  · rw [e]
    refine State.doing_goOn fun m hm => ?_
    rcases List.mem_cons.1 hm with rfl | hm
    · exact ho
    · exact h m hm
  · rw [e]; exact h

/-- A micro-operation of a command's leaves the command's own to do. -/
theorem State.perform_doing {s : State} {m : Micro} {rest : List Micro} {i : Instr} (hs : s.run = .running (m :: rest))
    (h : s.doing i) : (s.perform m rest).doing i := by
  have hall := (State.doing_running hs).1 h
  have hm : i.does m = true := hall m List.mem_cons_self
  have hr : ∀ x ∈ rest, i.does x = true := fun x hx => hall x (List.mem_cons_of_mem _ hx)
  cases m with
  | emitBit b =>
    refine State.emitBit_doing ?_ hr
    cases i <;> first | rfl | cases hm
  | outPB => exact State.outWrite_doing h hr
  | pad =>
    show (if s.packer.pbn = 0 then s.goOn rest else s.goOn (.outPB :: rest)).doing i
    split_ifs
    · exact hr
    · refine State.doing_goOn fun x hx => ?_
      rcases List.mem_cons.1 hx with rfl | hx
      · cases i <;> first | rfl | cases hm
      · exact hr x hx
  | decodeBit b =>
    refine State.decodeBit_doing (fun x => ?_) ?_ hr
    · cases i <;> first | rfl | cases hm
    · cases i <;> first | rfl | cases hm
  | out b => exact State.outWrite_doing h hr
  | toRoot => exact hr
  | scan nsym nbytes start chunk =>
    have hi : i = .freqScan := by cases i <;> first | rfl | cases hm
    subst hi
    exact State.inRead_doing h (State.doing_idle _ rfl) fun t r => State.scanToken_doing _ _ _ _ _ _
  | packIn nbytes start chunk =>
    have hi : i = .pack := by cases i <;> first | rfl | cases hm
    subst hi
    exact State.inRead_doing h (State.doing_idle _ rfl) fun t r => State.packToken_doing _ _ _ _ _
  | unpackIn nbytes =>
    have hi : i = .unpack := by cases i <;> first | rfl | cases hm
    subst hi
    exact State.inRead_doing h (State.doing_idle _ rfl) fun t r => State.unpackToken_doing _ _ _
  | deser d =>
    have hi : i = .deserTable := by cases i <;> first | rfl | cases hm
    subst hi
    exact State.inRead_doing h (State.doing_idle _ rfl) fun t r => State.deserToken_doing _ _ _
  | finish f => exact State.finish_doing s f i

/-- So does a micro-step. -/
theorem State.microStep_doing {s : State} {i : Instr} (h : s.doing i) : s.microStep.doing i := by
  unfold State.microStep
  split
  · exact h
  · exact h
  · exact State.doing_idle i rfl
  · exact State.perform_doing ‹_› h

/-- So does a run of the core. -/
theorem State.settle_doing {s : State} {i : Instr} (h : s.doing i) : s.settle.doing i :=
  State.settle_induct (fun t => t.doing i) (fun _ ht _ => State.microStep_doing ht) s h

/-- A command of its own pseudocode that cannot go on has ended or waits (R102). -/
theorem State.waits_of_stuck {s : State} {i : Instr} (h : s.doing i) (hc : s.canMove = false) : s.run = .idle ∨ s.waits := by
  unfold State.canMove at hc
  split at hc
  · exact .inl ‹_›
  · rename_i w hr; simp [State.doing, hr] at h
  · cases hc
  · rename_i m rest hr
    refine .inr ⟨m, rest, hr, hc, ?_⟩
    cases m <;> simp_all [Micro.ready, Micro.reads, Micro.writes, State.readReady, State.writeReady]

/-- The invariant gives the bound of a command's run. -/
theorem State.bounded_of_inv {s : State} (h : s.Inv) : s.bounded := by
  intro todo hr m hm
  have hk := h.runOk
  simp only [State.runOk, hr] at hk
  have := hk.1 m hm
  cases m with
  | deser d =>
    intro hf
    have hd : d.ok s := this.2.2
    simp only [Deser.ok, hf] at hd
    exact hd.2.2.2.2
  | _ => trivial

end Sys2Proof.Machine
end

