-- ==== Sys2Proof/Laws/Flags.lean ====
section
/-! SUPPORT. The STATUS word bit by bit (R35), and the parts of PACK_STATE (R50). -/

namespace Sys2Proof.Machine

theorem flagAt_getLsbD (k : Nat) (b : Bool) (i : Nat) (h : i < 64) : (flagAt k b).getLsbD i = (decide (i = k) && b) := by
  rcases Nat.lt_trichotomy i k with hi | hi | hi
  · simp [flagAt, hi, Nat.ne_of_lt hi]
  · subst hi; cases b <;> simp [flagAt, bitWord, h]
  · simp [flagAt, bitWord_getLsbD, BitVec.getLsbD_shiftLeft, Nat.ne_of_gt hi, Nat.sub_ne_zero_of_lt hi]

/-- Bit i of STATUS (R35). -/
theorem State.statusWord_getLsbD (s : State) (i : Nat) (h : i < 64) :
    s.statusWord.getLsbD i =
      (decide (i = 0) && s.busy || decide (i = 1) && s.done || decide (i = 2) && s.err || decide (i = 3) && s.ovr ||
       decide (i = 4) && s.etreeV || decide (i = 5) && s.ctValid || decide (i = 6) && s.dtreeV ||
       decide (i = 7) && s.decoder.mismatch || decide (i = 8) && s.decoder.limitHit ||
       decide (12 ≤ i) && s.width.getLsbD (i - 12)) := by
  have hw : (s.width.setWidth 64 <<< 12).getLsbD i = (decide (12 ≤ i) && s.width.getLsbD (i - 12)) := by
    by_cases hi : 12 ≤ i
    · simp [h, hi, Nat.not_lt.2 hi]
    · simp [BitVec.getLsbD_shiftLeft, hi, Nat.lt_of_not_le hi]
  simp only [State.statusWord, BitVec.getLsbD_or, flagAt_getLsbD _ _ _ h, hw]

/-- PACK_STATE holds PB in bits 7:0 and PBN in bits 10:8 (R50). -/
theorem State.packState_getLsbD (s : State) (i : Nat) (h : i < 64) :
    s.packState.getLsbD i = (if i < 8 then s.packer.pb.getLsbD i else s.packer.pbn.getLsbD (i - 8)) := by
  simp only [State.packState, BitVec.getLsbD_or, BitVec.getLsbD_shiftLeft, BitVec.getLsbD_setWidth, h, decide_true, Bool.true_and]
  split_ifs with hi
  · simp [hi]
  · simp [hi, BitVec.getLsbD_of_ge s.packer.pb i (Nat.le_of_not_lt hi), show i - 8 < 64 by omega]

end Sys2Proof.Machine
end

