-- ==== Sys2Proof/Laws/PerInstr.lean ====
section
/-! SUPPORT. Statements made for every command, one lemma per constructor of Instr. -/

namespace Sys2Proof.Laws.OpField

/-- The OP field of a command's word is its opcode (R111, R114). -/
def Statement (i : Instr) : Prop := opField (encode i) = i.op

/-- Format C holds OP in bits 7:0, whatever the other fields are (R111). -/
theorem opField_assemble (op : BitVec 8) (rd rs rt : BsIdx) (b : Bool) (imm : Nat) :
    opField (assemble op rd rs rt b imm) = op := by
  refine BitVec.eq_of_getLsbD_eq fun i hi => ?_
  rw [opField, BitVec.getLsbD_extractLsb', assemble, BitVec.getLsbD_append]
  simp only [Nat.zero_add, hi, decide_true, Bool.true_and, if_true]

theorem nop : Statement (.nop) := opField_assemble _ _ _ _ _ _
theorem sreset : Statement (.sreset) := opField_assemble _ _ _ _ _ _
theorem errClr : Statement (.errClr) := opField_assemble _ _ _ _ _ _
theorem setWidth (n : Nat) : Statement (.setWidth n) := opField_assemble _ _ _ _ _ _
theorem bsClr (rd : BsIdx) : Statement (.bsClr rd) := opField_assemble _ _ _ _ _ _
theorem bsApp (rd : BsIdx) (b : Bool) : Statement (.bsApp rd b) := opField_assemble _ _ _ _ _ _
theorem bsGet (rs : BsIdx) (i : Nat) : Statement (.bsGet rs i) := opField_assemble _ _ _ _ _ _
theorem bsLen (rs : BsIdx) : Statement (.bsLen rs) := opField_assemble _ _ _ _ _ _
theorem bsCpy (rd rs : BsIdx) : Statement (.bsCpy rd rs) := opField_assemble _ _ _ _ _ _
theorem bsEq (rs rt : BsIdx) : Statement (.bsEq rs rt) := opField_assemble _ _ _ _ _ _
theorem bsLd (rd : BsIdx) : Statement (.bsLd rd) := opField_assemble _ _ _ _ _ _
theorem bsRd (rs : BsIdx) : Statement (.bsRd rs) := opField_assemble _ _ _ _ _ _
theorem bsCat (rd rs : BsIdx) : Statement (.bsCat rd rs) := opField_assemble _ _ _ _ _ _
theorem freqClr : Statement (.freqClr) := opField_assemble _ _ _ _ _ _
theorem freqAdd : Statement (.freqAdd) := opField_assemble _ _ _ _ _ _
theorem freqSet : Statement (.freqSet) := opField_assemble _ _ _ _ _ _
theorem freqGet : Statement (.freqGet) := opField_assemble _ _ _ _ _ _
theorem freqScan : Statement (.freqScan) := opField_assemble _ _ _ _ _ _
theorem buildTree : Statement (.buildTree) := opField_assemble _ _ _ _ _ _
theorem assignCodes : Statement (.assignCodes) := opField_assemble _ _ _ _ _ _
theorem codeGet : Statement (.codeGet) := opField_assemble _ _ _ _ _ _
theorem codeSet (rs : BsIdx) : Statement (.codeSet rs) := opField_assemble _ _ _ _ _ _
theorem codeClr : Statement (.codeClr) := opField_assemble _ _ _ _ _ _
theorem serTable : Statement (.serTable) := opField_assemble _ _ _ _ _ _
theorem deserTable : Statement (.deserTable) := opField_assemble _ _ _ _ _ _
theorem reconTree : Statement (.reconTree) := opField_assemble _ _ _ _ _ _
theorem packInit : Statement (.packInit) := opField_assemble _ _ _ _ _ _
theorem packSym : Statement (.packSym) := opField_assemble _ _ _ _ _ _
theorem packBs (rs : BsIdx) : Statement (.packBs rs) := opField_assemble _ _ _ _ _ _
theorem packFlush : Statement (.packFlush) := opField_assemble _ _ _ _ _ _
theorem pack : Statement (.pack) := opField_assemble _ _ _ _ _ _
theorem unpackInit : Statement (.unpackInit) := opField_assemble _ _ _ _ _ _
theorem unpackByte : Statement (.unpackByte) := opField_assemble _ _ _ _ _ _
theorem unpack : Statement (.unpack) := opField_assemble _ _ _ _ _ _

end Sys2Proof.Laws.OpField
end

