-- ==== Sys2Proof/Tests/Slice0.lean ====
section
/-! SUPPORT. Tests of single definitions and single steps, with results taken from spec/95_test_vectors.md, and a witness for each statement that has hypotheses. -/

namespace Sys2Proof.Tests

open Sys2Proof Sys2Proof.Machine

/-! ### WellFormed: each check refuses an ill-formed command, and takes the largest operand -/

theorem test_wellFormed_setWidth : (Instr.setWidth 256).wellFormed = false ∧ (Instr.setWidth 255).wellFormed = true := by decide
theorem test_wellFormed_bsGet : (Instr.bsGet 3 256).wellFormed = false ∧ (Instr.bsGet 3 255).wellFormed = true := by decide

/-! ### Decode: words laid out field by field as R111 draws them: [31:24], IMM8, 15, B, RT, RS, RD, OP -/

theorem test_decode_system :
    ([0#8 ++ 0#8 ++ 0#1 ++ 0#1 ++ 0#2 ++ 0#2 ++ 0#2 ++ 0x00#8, 0#8 ++ 0#8 ++ 0#1 ++ 0#1 ++ 0#2 ++ 0#2 ++ 0#2 ++ 0x01#8,
      0#8 ++ 0#8 ++ 0#1 ++ 0#1 ++ 0#2 ++ 0#2 ++ 0#2 ++ 0x02#8,
      0#8 ++ 200#8 ++ 0#1 ++ 0#1 ++ 0#2 ++ 0#2 ++ 0#2 ++ 0x03#8] : List (BitVec 32)).map (fun w => (decode w).toOption) =
    [some .nop, some .sreset, some .errClr, some (.setWidth 200)] := by decide

theorem test_decode_bitseq :
    ([0#8 ++ 0#8 ++ 0#1 ++ 0#1 ++ 0#2 ++ 0#2 ++ 3#2 ++ 0x10#8, 0#8 ++ 0#8 ++ 0#1 ++ 1#1 ++ 0#2 ++ 0#2 ++ 2#2 ++ 0x11#8,
      0#8 ++ 5#8 ++ 0#1 ++ 0#1 ++ 0#2 ++ 1#2 ++ 0#2 ++ 0x12#8, 0#8 ++ 0#8 ++ 0#1 ++ 0#1 ++ 0#2 ++ 3#2 ++ 0#2 ++ 0x13#8,
      0#8 ++ 0#8 ++ 0#1 ++ 0#1 ++ 0#2 ++ 2#2 ++ 1#2 ++ 0x14#8, 0#8 ++ 0#8 ++ 0#1 ++ 0#1 ++ 3#2 ++ 1#2 ++ 0#2 ++ 0x15#8,
      0#8 ++ 0#8 ++ 0#1 ++ 0#1 ++ 0#2 ++ 0#2 ++ 3#2 ++ 0x16#8, 0#8 ++ 0#8 ++ 0#1 ++ 0#1 ++ 0#2 ++ 1#2 ++ 0#2 ++ 0x17#8,
      0#8 ++ 0#8 ++ 0#1 ++ 0#1 ++ 0#2 ++ 3#2 ++ 2#2 ++ 0x18#8] : List (BitVec 32)).map (fun w => (decode w).toOption) =
    [some (.bsClr 3), some (.bsApp 2 true), some (.bsGet 1 5), some (.bsLen 3), some (.bsCpy 1 2), some (.bsEq 1 3),
     some (.bsLd 3), some (.bsRd 1), some (.bsCat 2 3)] := by decide

theorem test_decode_tables :
    ([0x20#8, 0x21#8, 0x22#8, 0x23#8, 0x24#8, 0x30#8, 0x31#8, 0x32#8, 0x34#8].map
      (fun op : BitVec 8 => (decode (0#8 ++ 0#8 ++ 0#1 ++ 0#1 ++ 0#2 ++ 0#2 ++ 0#2 ++ op)).toOption)) =
    [some .freqClr, some .freqAdd, some .freqSet, some .freqGet, some .freqScan, some .buildTree, some .assignCodes,
     some .codeGet, some .codeClr] ∧
    (decode (0#8 ++ 0#8 ++ 0#1 ++ 0#1 ++ 0#2 ++ 1#2 ++ 0#2 ++ 0x33#8)).toOption = some (.codeSet 1) := by decide

theorem test_decode_streams :
    ([0x40#8, 0x41#8, 0x50#8, 0x60#8, 0x61#8, 0x63#8, 0x64#8, 0x70#8, 0x71#8, 0x72#8].map
      (fun op : BitVec 8 => (decode (0#8 ++ 0#8 ++ 0#1 ++ 0#1 ++ 0#2 ++ 0#2 ++ 0#2 ++ op)).toOption)) =
    [some .serTable, some .deserTable, some .reconTree, some .packInit, some .packSym, some .packFlush, some .pack,
     some .unpackInit, some .unpackByte, some .unpack] ∧
    (decode (0#8 ++ 0#8 ++ 0#1 ++ 0#1 ++ 0#2 ++ 2#2 ++ 0#2 ++ 0x62#8)).toOption = some (.packBs 2) := by decide

/-- 95 section 2.1: the words that are no command. -/
theorem test_decode_rejects :
    [0x00000104#32, 0x000000FF#32, 0x00008000#32, 0x01000030#32, 0x00010000#32, 0x00000130#32].map decode =
    [.error .unassignedOpcode, .error .unassignedOpcode, .error .reservedBit, .error .reservedBit, .error .unusedField,
     .error .unusedField] := by decide

/-- 30 R123: the encoder gives the words of its table. -/
theorem test_encode : [Instr.setWidth 2, .bsApp 2 true, .bsGet 1 5, .bsCpy 1 0, .bsEq 0 1, .codeSet 1, .packBs 2].map encode =
    [0x00020003#32, 0x00004211#32, 0x00050412#32, 0x00000114#32, 0x00001015#32, 0x00000433#32, 0x00000862#32] := by decide

theorem test_decodeTableWord : decodeTableWord 32 0x00050412 = some (.bsGet 1 5) ∧ decodeTableWord 32 0x104 = none := by decide

/-! ### Steps: one command, issued by the host and run, from a small state -/

/-- 95: "SYM_CAP = 16 and NODE_CAP = 64 where capacity matters". -/
def tiny : Params := ⟨16, 64, 64, 64⟩

/-- The reset state with WIDTH = n. -/
def wide (n : BitVec 4) : State := { State.resetWith tiny with width := n }

/-- ARG0, ARG1 and BITLIMIT as the host has written them. -/
def withArgs (s : State) (a0 a1 lim : Word) : State :=
  { s with regs := { s.regs with arg0 := a0, arg1 := a1, bitlimit := lim } }

/-- IN holds the bytes and an EOS. -/
def fed (s : State) (bytes : List Byte) : State := { s with inq := byteTokens bytes ++ [.eos] }

/-- The codes {0x41 "1", 0x42 "0"} of 95 section 1.1. -/
def abCodes : FMap BitSeq := [(0x41, ⟨1, 1⟩), (0x42, ⟨1, 0⟩)]

/-- Their decode tree. -/
def abTree : DTree := .node none (.node (some 0x42) .absent .absent) (.node (some 0x41) .absent .absent)

/-- WIDTH = 1 with those codes and that tree. -/
def ab : State := { wide 1 with ct := abCodes, dtree := some abTree }

/-- The command word `w` runs in one step from `s`, and the state after it satisfies `p`. -/
def runs (s : State) (w : Nat) (p : State → Bool) : Bool :=
  match step (s.withFetchWord 32 w) with
  | .next t => p t
  | _ => false

/-- The error record is this one, and ERR and DONE are set. -/
def raised (t : State) (cause : BitVec 8) (offset expected actual symbol : Word) : Bool :=
  t.err && t.done && decide (t.errRec = ⟨cause, offset, expected, actual, symbol⟩)

theorem test_nop : runs (wide 0) 0x00 (fun t => t.readReg 0x01 == 0x0002) = true := by decide
theorem test_sreset : runs (fed { wide 1 with regs := ⟨9, 9, 9, 9, 9, 3⟩ } [0x41]) 0x01
    (fun t => t.readReg 0x01 == 0x0002 && t.readReg 0x12 == 3 && t.readReg 0x0B == maxWord && t.inq.length == 2) = true := by decide
theorem test_errClr : runs { wide 1 with err := true, ovr := true, errRec := ⟨1, 0, 0, 0, 0⟩ } 0x02
    (fun t => t.readReg 0x01 == 0x1002 && t.errRec == .zero) = true := by decide
theorem test_setWidth : runs { wide 1 with ft := [(0x41, 3)], bs := #v[⟨3, 5⟩, .empty, .empty, .empty] } 0x00020003
    (fun t => t.readReg 0x01 == 0x2002 && t.ft.isEmpty && t.bsAt 0 == ⟨3, 5⟩) = true := by decide
theorem test_setWidth_9 : runs (wide 1) 0x00090003 (fun t => raised t 0x0A 0 8 9 0 && t.readReg 0x01 == 0x1006) = true := by decide
theorem test_illegal : runs (wide 0) 0x131 (fun t => raised t 0x09 0 0 0x131 0) = true := by decide

/-- BS[0] = {3, 5} and BS[1] = {2, 1}. -/
def bits : State := { wide 0 with bs := #v[⟨3, 5⟩, ⟨2, 1⟩, ⟨64, maxWord⟩, .empty] }

theorem test_bsClr : runs bits 0x010 (fun t => t.bsAt 0 == .empty && t.bsAt 1 == ⟨2, 1⟩) = true := by decide
theorem test_bsApp : runs bits 0x4011 (fun t => t.bsAt 0 == ⟨4, 0xD⟩) = true := by decide
theorem test_bsApp_full : runs bits 0x4211 (fun t => raised t 0x05 0 64 65 0 && t.bsAt 2 == ⟨64, maxWord⟩) = true := by decide
theorem test_bsGet : runs bits 0x00020012 (fun t => t.regs.res0 == 1) = true := by decide
theorem test_bsGet_past : runs bits 0x00030012 (fun t => raised t 0x0A 0 3 3 0) = true := by decide
theorem test_bsLen : runs bits 0x0813 (fun t => t.regs.res0 == 64) = true := by decide
theorem test_bsCpy : runs bits 0x0114 (fun t => t.bsAt 1 == ⟨3, 5⟩ && t.bsAt 0 == ⟨3, 5⟩) = true := by decide
theorem test_bsEq : runs { bits with regs := ⟨0, 0, 7, 7, 0, 0⟩ } 0x1015 (fun t => t.regs.res0 == 0 && t.regs.res1 == 7) = true := by decide
theorem test_bsLd : runs (withArgs bits 0xFF 4 0) 0x0316 (fun t => t.bsAt 3 == ⟨4, 0xF⟩) = true := by decide
theorem test_bsLd_long : runs (withArgs bits 0 65 0) 0x0216 (fun t => raised t 0x0A 0 64 65 0) = true := by decide
theorem test_bsRd : runs bits 0x0017 (fun t => t.regs.res0 == 5 && t.regs.res1 == 3) = true := by decide
theorem test_bsCat : runs bits 0x0018 (fun t => t.bsAt 0 == ⟨6, 0x2D⟩) = true := by decide
theorem test_bsCat_long : runs bits 0x0818 (fun t => raised t 0x05 0 64 67 0 && t.bsAt 0 == ⟨3, 5⟩) = true := by decide

theorem test_freqClr : runs { wide 1 with ft := [(0x41, 3)], etree := some (.wrap 3 (.leaf 0x41 3)) } 0x20
    (fun t => t.ft.isEmpty && t.readReg 0x01 == 0x1002) = true := by decide
theorem test_freqAdd : runs (withArgs { wide 1 with ft := [(0x41, 3), (0x43, 1)] } 0x42 0 0) 0x21
    (fun t => t.ft == [(0x41, 3), (0x42, 1), (0x43, 1)]) = true := by decide
theorem test_freqAdd_overflow : runs (withArgs { wide 1 with ft := [(0x41, maxWord)] } 0x41 0 0) 0x21
    (fun t => raised t 0x08 0 maxWord 1 0x41) = true := by decide
theorem test_freqSet : runs (withArgs (wide 1) 0x42 0 0) 0x22 (fun t => t.ft == [(0x42, 0)]) = true := by decide
theorem test_freqSet_symbol : runs (withArgs (wide 1) 0x100 0 0) 0x22 (fun t => raised t 0x0A 0 0xFF 0x100 0) = true := by decide
theorem test_freqGet : runs (withArgs { wide 1 with ft := [(0x42, 0)] } 0x42 0 0) 0x23
    (fun t => t.regs.res0 == 0 && t.regs.res1 == 1) = true := by decide
theorem test_freqScan : runs (fed (wide 2) [0x41, 0x41, 0x41]) 0x24
    (fun t => t.ft == [(0x4100, 1), (0x4141, 1)] && t.regs.res0 == 2 && t.regs.res1 == 3 && t.inq.isEmpty) = true := by decide
theorem test_freqScan_error : runs { wide 1 with inq := [.byte 0x41, .byte 0x42, .err, .byte 0x43, .eos] } 0x24
    (fun t => raised t 0x04 2 0 0 0 && t.ft == [(0x41, 1), (0x42, 1)] && t.inq == [.byte 0x43, .eos]) = true := by decide

/-- 95 section 2.5, "aaaabbbccd": the whole tree, ties included. -/
theorem test_buildTree : runs { wide 1 with ft := [(0x61, 4), (0x62, 3), (0x63, 2), (0x64, 1)] } 0x30
    (fun t => t.regs.res0 == 10 && t.regs.res1 == 7 && t.etree == some (.node 10 (.leaf 0x61 4)
      (.node 6 (.leaf 0x62 3) (.node 3 (.leaf 0x64 1) (.leaf 0x63 2))))) = true := by decide
theorem test_buildTree_overflow : runs { wide 1 with ft := [(0x41, maxWord), (0x42, 1)] } 0x30
    (fun t => raised t 0x08 0 maxWord 2 0 && t.etree == none) = true := by decide
theorem test_assignCodes : runs { wide 1 with etree := some (.node 10 (.leaf 0x61 4)
      (.node 6 (.leaf 0x62 3) (.node 3 (.leaf 0x64 1) (.leaf 0x63 2)))) } 0x31
    (fun t => t.ct == [(0x61, ⟨1, 0⟩), (0x62, ⟨2, 1⟩), (0x63, ⟨3, 7⟩), (0x64, ⟨3, 3⟩)] && t.regs.res0 == 4 &&
      t.regs.res1 == 3) = true := by decide
theorem test_assignCodes_none : runs (wide 1) 0x31 (fun t => raised t 0x0B 0 2 0x31 0) = true := by decide
theorem test_codeGet : runs (withArgs ab 0x41 0 0) 0x32 (fun t => t.regs.res0 == 1 && t.regs.res1 == 1) = true := by decide
theorem test_codeSet : runs (withArgs { ab with bs := #v[⟨3, 5⟩, .empty, .empty, .empty] } 0x43 0 0) 0x0033
    (fun t => t.ct == abCodes ++ [(0x43, ⟨3, 5⟩)] && t.dtree == none) = true := by decide
theorem test_codeSet_empty : runs (withArgs ab 0x43 0 0) 0x0C33 (fun t => raised t 0x0A 0 1 0 0x43) = true := by decide
theorem test_codeClr : runs ab 0x34 (fun t => t.readReg 0x01 == 0x1002) = true := by decide

theorem test_serTable : runs ab 0x40 (fun t => t.outq == [0, 0, 0, 2, 0x41, 0, 0, 0, 1, 1, 0x42, 0, 0, 0, 1, 0] &&
    t.regs.res0 == 16 && t.regs.res1 == 2) = true := by decide
theorem test_serTable_empty : runs (wide 1) 0x40 (fun t => raised t 0x0B 0 3 0x40 0) = true := by decide
/-- 95 section 2.6: the order need not be ascending, and the high bits of a code byte are ignored. -/
theorem test_deserTable : runs (fed (wide 1) [0, 0, 0, 2, 0x42, 0, 0, 0, 1, 0, 0x41, 0, 0, 0, 1, 0xFF]) 0x41
    (fun t => t.ct == abCodes && t.regs.res0 == 16 && t.regs.res1 == 2 && t.inq == [.eos]) = true := by decide
theorem test_deserTable_repeated : runs (fed (wide 1) [0, 0, 0, 2, 0x41, 0, 0, 0, 1, 1, 0x41, 0, 0, 0, 1, 0]) 0x41
    (fun t => raised t 0x02 10 1 2 0x41 && t.ct.isEmpty && t.inq.length == 6) = true := by decide
theorem test_reconTree : runs { ab with dtree := none } 0x50
    (fun t => t.dtree == some abTree && t.regs.res0 == 3 && t.regs.res1 == 1) = true := by decide
theorem test_reconTree_conflict : runs { wide 1 with ct := [(0x41, ⟨2, 2⟩), (0x42, ⟨1, 0⟩)] } 0x50
    (fun t => raised t 0x03 1 1 1 0x42 && t.dtree == none) = true := by decide

theorem test_packInit : runs { ab with packer := ⟨1, 1, 9, 9⟩ } 0x60 (fun t => t.packer == .init) = true := by decide
theorem test_packSym : runs (withArgs { ab with packer := ⟨0x5, 4, 4, 4⟩ } 0x41 0 0) 0x61
    (fun t => t.readReg 0x13 == 0x515 && t.regs.res0 == 5 && t.regs.res1 == 1) = true := by decide
theorem test_packBs : runs { bits with packer := ⟨0x2D, 6, 6, 0⟩ } 0x62
    (fun t => t.outq == [0x6D] && t.readReg 0x13 == 0x101 && t.regs.res0 == 9) = true := by decide
theorem test_packFlush : runs { ab with packer := ⟨0x15, 5, 5, 5⟩ } 0x63
    (fun t => t.outq == [0x15] && t.readReg 0x13 == 0 && t.regs.res0 == 5 && t.regs.res1 == 1) = true := by decide
theorem test_pack : runs (fed ab [0x41, 0x42, 0x41, 0x42, 0x41]) 0x64
    (fun t => t.outq == [0x15] && t.regs.res0 == 5 && t.regs.res1 == 5 && t.readReg 0x13 == 0) = true := by decide
theorem test_pack_unknown : runs (fed { wide 1 with ct := [(0x41, ⟨1, 0⟩), (0x42, ⟨1, 1⟩)] } [0x41, 0x43, 0x41]) 0x64
    (fun t => raised t 0x06 1 0 0 0x43 && t.packer == ⟨0, 1, 1, 1⟩ && t.inq == [.byte 0x41, .eos]) = true := by decide
theorem test_unpackInit : runs { ab with decoder := ⟨⟨1, 0⟩, ⟨1, 0⟩, 3, 2, true, true⟩ } 0x70
    (fun t => t.decoder == .init && t.readReg 0x01 == 0x1062) = true := by decide
theorem test_unpackByte : runs (withArgs { wide 1 with dtree := some (.node none (.node none
      (.node (some 0x41) .absent .absent) (.node (some 0x42) .absent .absent)) .absent) } 0x12 0 maxWord) 0x71
    (fun t => t.outq == [0x42, 0x41, 0x41] && t.regs.res0 == 3 && t.regs.res1 == 1 && t.decoder.mismatch &&
      t.decoder.bits == 8) = true := by decide
theorem test_unpackByte_argument : runs (withArgs ab 0x100 0 maxWord) 0x71 (fun t => raised t 0x0A 0 0xFF 0x100 0) = true := by decide
theorem test_unpack : runs (withArgs (fed ab [0x15, 0xFF, 0xFF]) 0 0 5) 0x72
    (fun t => t.outq == [0x41, 0x42, 0x41, 0x42, 0x41] && t.inq.isEmpty && t.decoder.bits == 5 && t.decoder.limitHit &&
      t.regs.res0 == 5 && t.regs.res1 == 0) = true := by decide
theorem test_unpack_error : runs (withArgs { ab with inq := [.byte 0x15, .err, .eos] } 0 0 maxWord) 0x72
    (fun t => raised t 0x04 1 0 0 0 && t.outq == [0x41, 0x42, 0x41, 0x42, 0x41, 0x42, 0x42, 0x42] && t.inq == [.eos]) = true := by decide

/-! ### Issue, waits and the host -/

/-- A host program, and the turns. -/
def hosted (s : State) (prog : List HostAction) (turns : List Agent := []) : State :=
  { s with host := { s.host with prog := prog, turns := turns } }

/-- One step from `s` gives a state that satisfies `p`. -/
def after (s : State) (p : State → Bool) : Bool :=
  match step s with
  | .next t => p t
  | _ => false

/-- 95 section 2.2: NOP in error is dropped. -/
theorem test_drop : after (hosted { wide 1 with err := true, done := true, errRec := ⟨1, 0, 0, 0, 0⟩ } [.wr 0 0])
    (fun t => t.readReg 0x01 == 0x100E && t.errRec == ⟨1, 0, 0, 0, 0⟩) = true := by decide

/-- 20 R102: FREQ_SCAN on an empty IN waits, BUSY = 1. -/
theorem test_wait : after (hosted (wide 1) [.wr 0 0x24]) (fun t => t.busy && !t.done && !t.canMove) = true := by decide

/-- 20 R102: a waiting FREQ_SCAN goes on when IN has tokens. -/
theorem test_wait_ends : after (hosted (fed { wide 1 with run := .running [.scan 0 0 0 []] } [0x41]) [.wait])
    (fun t => t.ft == [(0x41, 1)] && t.done && t.regs.res0 == 1 && t.host.pc == 0) = true := by decide

/-- 93 O4: a wait that nothing can end. -/
theorem test_stuck : (match step (hosted { wide 1 with run := .running [.scan 0 0 0 []] } [.wait]) with
    | .fault .coreStuck => true
    | _ => false) = true := by decide

/-- 60 R331: with IOF set, PACK_FLUSH aborts at its OutWrite with IO_ERROR(0, 0, 1, 0). -/
theorem test_iofail : after (hosted { wide 1 with
      packer := ⟨0x15, 5, 5, 5⟩, run := .running [.outPB, .finish (.packFlush 1)], iof := true } [])
    (fun t => raised t 0x04 0 0 1 0 && t.outq.isEmpty && t.packer == ⟨0x15, 5, 5, 5⟩ && !t.iof) = true := by decide

/-- 60 R332: with INT_EN = 2, BUILD_TREE on an empty table makes IRQ high. -/
theorem test_irq : after (hosted { wide 1 with regs := ⟨0, 0, 0, 0, 0, 2⟩ } [.wr 0 0x30])
    (fun t => t.irq && t.readReg 0x06 == 1) = true := by decide

/-! ### Witnesses: for each statement with hypotheses, states and operands that meet all of them together -/

theorem witness_DecodeOfEncodeIsTheCommand : (Instr.bsGet 3 255).wellFormed = true ∧ (Instr.setWidth 0).wellFormed = true := by decide

theorem witness_EncodeOfDecodeIsTheWord : decode 0x00FF0C12 = .ok (.bsGet 3 255) := by decide

theorem witness_StepRunsTheDecodedCommand :
    let s := hosted (wide 1) [.wr 0x00 0xF00000024]
    let t := hosted { wide 1 with err := true } [.wr 0x00 0x01]
    let u := hosted { wide 1 with err := true } [.wr 0x00 0x02]
    (s.run = .idle ∧ s.host.turns = [] ∧ s.nextAction = some (.wr 0x00 0xF00000024) ∧
      decode ((0xF00000024 : Word).setWidth 32) = .ok .freqScan ∧ s.err = false) ∧
    (t.run = .idle ∧ t.host.turns = [] ∧ t.nextAction = some (.wr 0x00 0x01) ∧
      decode ((0x01 : Word).setWidth 32) = .ok .sreset) ∧
    u.run = .idle ∧ u.host.turns = [] ∧ u.nextAction = some (.wr 0x00 0x02) ∧
      decode ((0x02 : Word).setWidth 32) = .ok .errClr := by decide

theorem witness_UndecodableWordRaisesIllegalCommand :
    let s := hosted (wide 1) [.wr 0x00 0x104]
    s.run = .idle ∧ s.host.turns = [] ∧ s.err = false ∧ s.nextAction = some (.wr 0x00 0x104) ∧
      decode ((0x104 : Word).setWidth 32) = .error .unassignedOpcode := by decide

theorem witness_DroppedWordOnlySetsOverrun :
    let s := hosted { wide 1 with err := true } [.wr 0x00 0x03]
    let t := hosted { wide 1 with run := .running [.scan 0 0 0 []] } [.wr 0x00 0x01]
    let u := hosted { wide 1 with run := .running [.pad, .finish .pack] } [.wr 0x00 0x02] [.host]
    (s.nextAction = some (.wr 0x00 0x03) ∧ s.run = .idle ∧ s.err = true ∧ (0x03 : Word).setWidth 32 ≠ 0x00000001#32 ∧
      (0x03 : Word).setWidth 32 ≠ 0x00000002#32) ∧
    (t.nextAction = some (.wr 0x00 0x01) ∧ t.run ≠ .idle ∧ t.coreReady = false) ∧
    u.nextAction = some (.wr 0x00 0x02) ∧ u.run ≠ .idle ∧ u.host.turns.head? = some .host := by decide

theorem witness_ErrorsAreListedAndKeepResults :
    let s := { wide 1 with inq := [.err], run := .running [.scan 0 0 0 []] }
    ((wide 1).err = false ∧ ∃ t, (wide 1).advances .buildTree t ∧ t.err = true) ∧
    s.err = false ∧ ∃ t, s.advances .freqScan t ∧ t.err = true :=
  ⟨⟨rfl, _, .inl rfl, rfl⟩, rfl, _, .inr ⟨State.doing_one rfl rfl, rfl⟩, rfl⟩

/-- The parameters of the tests are parameters R8 and R9 allow. -/
theorem tiny_ok : tiny.ok := by decide

/-- The reset state of the tests has the invariant. -/
theorem tiny_inv : (State.resetWith tiny).Inv where
  params := tiny_ok
  width := by decide
  bs := fun i => by revert i; decide
  ftForm := by decide
  ftCap := by decide
  ctForm := by decide
  ctCap := by decide
  ctCodes := by decide
  etree := fun t ht => by simp [State.resetWith] at ht
  unset := fun _ => ⟨rfl, rfl, rfl, rfl⟩
  packer := by decide
  cur := by decide
  acc := by decide
  dtree := fun t ht => by simp [State.resetWith] at ht
  record := fun _ => rfl
  errQuiet := fun h => by simp [State.resetWith] at h
  runOk := trivial

/-- A state in error, with a NOP to be dropped next. -/
def inError : State :=
  { State.resetWith tiny with host := ⟨[.wr 0x00 0x00], 0, [], [], [], 0⟩ }.raise (stateError 1 0x30)

theorem inError_inv : inError.Inv :=
  inv_raise (s := { State.resetWith tiny with host := ⟨[.wr 0x00 0x00], 0, [], [], [], 0⟩ })
    (inv_congr tiny_inv rfl rfl rfl rfl rfl rfl rfl rfl rfl (fun _ => rfl) (fun h => Bool.noConfusion h) trivial) _

theorem witness_RecordIsKeptUntilCleared : inError.Inv ∧ inError.err = true ∧ ∃ t, step inError = .next t :=
  ⟨inError_inv, rfl, _, rfl⟩

theorem witness_ChecksComeInOrder :
    Instr.reconTree.needsWidth = true ∧ (wide 0).width = 0 ∧
    ((wide 1).width ≠ 0 ∧ (wide 1).etreeV = false ∧ (wide 1).ctValid = false ∧ (wide 1).dtreeV = false) ∧
    ((withArgs ab 0x100 0 0).accept 0).width ≠ 0 ∧ Instr.packSym.takesSymbol = true ∧ ab.ctValid = true ∧
      2 ^ (8 * ab.symWidth) ≤ ((withArgs ab 0x100 0 0).accept 0).latch.a0.toNat ∧
    (((withArgs ab 0xFF 0 0).accept 0).latch.a0.toNat < 2 ^ (8 * ab.symWidth) ∧ (ab.bsAt 3).len = 0) ∧
    ab.dtreeV = true ∧ 0xFF < ((withArgs ab 0x100 0 0).accept 0).latch.a0.toNat := by decide

theorem witness_SetWidthInstallsAndClears : (1 ≤ 1 ∧ 1 ≤ 8) ∧ (1 ≤ 8 ∧ 8 ≤ 8) ∧ (0 = 0 ∨ 8 < 0) ∧ (9 = 0 ∨ 8 < 9) := by decide

theorem witness_HardwareResetGivesTheResetState :
    let s := hosted (wide 1) [.hwReset]
    let t := hosted { wide 1 with run := .running [.scan 0 0 0 []] } [.hwReset]
    (s.nextAction = some .hwReset ∧ s.run = .idle) ∧ t.nextAction = some .hwReset ∧ t.run ≠ .idle ∧ t.coreReady = false := by
  decide

theorem witness_AppendAndConcatenate :
    let s := { wide 0 with bs := #v[⟨63, 5⟩, ⟨1, 1⟩, ⟨32, 0xFFFFFFFF⟩, .empty] }
    (s.bsAt 0).wf ∧ (s.bsAt 1).wf ∧ (s.bsAt 2).wf ∧ (s.bsAt 0).len < 64 ∧ (s.bsAt 0).len + (s.bsAt 1).len ≤ 64 ∧
      (s.bsAt 2).len + (s.bsAt 2).len ≤ 64 := by decide

theorem witness_LoadTakesTheLowBits : ((withArgs bits 0xFF 64 0).accept 0).latch.a1.toNat ≤ 64 := by decide

theorem witness_BitSequenceReads :
    (bits.bsAt 0).wf ∧ (bits.bsAt 2).wf ∧ (bits.bsAt 0).toBits[2]? = some true ∧ (bits.bsAt 2).toBits[63]? = some true := by
  decide

theorem witness_BitSequenceErrors :
    (bits.bsAt 2).len = 64 ∧ (bits.bsAt 0).len ≤ 3 ∧ 64 < ((withArgs bits 0 65 0).accept 0).latch.a1.toNat ∧
      64 < (bits.bsAt 0).len + (bits.bsAt 2).len := by decide

/-- The arguments latched, WIDTH = 1 and this frequency table. -/
def counted (ft : FMap Word) (a0 a1 : Word) : State := { wide 1 with ft := ft, latch := ⟨a0, a1, maxWord⟩ }

/-- A table of SYM_CAP = 16 symbols. -/
def full : FMap Word := (List.range 16).map (fun k => (BitVec.ofNat 64 k, 1))

theorem witness_FreqAddCountsOneMore :
    let s := counted [(0x41, maxWord - 1)] 0x41 0
    let t := counted [] 0xFF 0
    (s.symbolOk ∧ s.ft.get s.latch.a0 ≠ some maxWord ∧ s.ft.get s.latch.a0 ≠ none) ∧
    t.symbolOk ∧ t.ft.get t.latch.a0 = none ∧ t.ft.length < t.params.symCap := by decide

theorem witness_FreqSetAndGet :
    let s := counted full 0x0F 0
    let t := counted [] 0xFF 0
    (s.symbolOk ∧ s.ft.get s.latch.a0 = some 1) ∧ t.symbolOk ∧ t.ft.get t.latch.a0 = none ∧ t.ft.length < t.params.symCap := by
  decide

theorem witness_FreqErrorsChangeNothing :
    let s := counted full 0x10 0
    let t := counted [(0x41, maxWord)] 0x41 0
    (s.symbolOk ∧ s.ft.get s.latch.a0 = none ∧ s.ft.length = s.params.symCap) ∧
    t.symbolOk ∧ t.ft.get t.latch.a0 = some maxWord := by decide

theorem witness_FreqScanCountsTheChunks :
    let s := { fed (wide 2) [0x41, 0x41, 0x41] with ft := [(0x4141, maxWord - 1)] }
    let t := { s with inq := byteTokens [0x41, 0x41, 0x41] ++ Token.err :: [.byte 7] }
    (s.quiet ∧ s.width ≠ 0 ∧ [0x41#8, 0x41, 0x41].length < 2 ^ 64 ∧ s.inq = byteTokens [0x41, 0x41, 0x41] ++ .eos :: [] ∧
      s.canCount (chunkWords s.symWidth [0x41, 0x41, 0x41])) ∧
    t.quiet ∧ t.width ≠ 0 ∧ t.inq = byteTokens [0x41, 0x41, 0x41] ++ .err :: [.byte 7] ∧
      t.canCount (fullChunks t.symWidth [0x41, 0x41, 0x41]) := by
  have h : chunkWords 2 [0x41, 0x41, 0x41] = [0x4141, 0x4100] := by decide
  have g : fullChunks 2 [0x41, 0x41, 0x41] = [0x4141] := by decide
  have k : ∀ v ∈ [0x4141#64, 0x4100#64],
      ((FMap.get [(0x4141#64, maxWord - 1)] v).getD 0).toNat + [0x4141#64, 0x4100#64].count v < 2 ^ 64 := by
    simp [FMap.get]
  have l : ∀ v ∈ [0x4141#64],
      ((FMap.get [(0x4141#64, maxWord - 1)] v).getD 0).toNat + [0x4141#64].count v < 2 ^ 64 := by
    simp [FMap.get]
  exact ⟨⟨by decide, by decide, by decide, by decide, by decide, by decide, h ▸ k⟩, by decide, by decide, by decide,
    by decide, by decide, g ▸ l⟩

theorem witness_BuiltTreeHasTheTablesLeaves :
    let s := counted [(0x41, maxWord)] 0 0
    let t := counted [(0x41, maxWord - 1), (0x42, 1)] 0 0
    (s.width ≠ 0 ∧ s.ft ≠ [] ∧ (s.ft.map (fun e => e.2.toNat)).sum < 2 ^ 64 ∧ s.ft.length = 1) ∧
    t.width ≠ 0 ∧ t.ft ≠ [] ∧ (t.ft.map (fun e => e.2.toNat)).sum < 2 ^ 64 ∧ 2 ≤ t.ft.length := by decide

theorem witness_EntriesMergeInKeyOrder :
    let s := counted [(0x41, 2), (0x42, 2)] 0 0
    let t := counted [(0x41, 1), (0x42, 1), (0x43, 2), (0x44, 2)] 0 0
    (s.width ≠ 0 ∧ s.ft = [(0x41, 2), (0x42, 2)] ∧ (0x41 : Word) < 0x42 ∧ (2 : Word).toNat + (2 : Word).toNat < 2 ^ 64) ∧
    t.width ≠ 0 ∧ 2 ≤ t.ft.length ∧ (t.ft.map (fun e => e.2.toNat)).sum < 2 ^ 64 := by
  decide

/-- 43 R211 read by hand: among the equal frequencies 2, 2, 2 the leaves C and D come before the node of A and B. -/
theorem test_buildTree_ties : runs (counted [(0x41, 1), (0x42, 1), (0x43, 2), (0x44, 2)] 0 0) 0x30
    (fun t => t.etree == some (.node 6 (.node 2 (.leaf 0x41 1) (.leaf 0x42 1))
      (.node 4 (.leaf 0x43 2) (.leaf 0x44 2)))) = true := by decide

theorem witness_BuildTreeErrors :
    let s := counted [(0x41, maxWord), (0x42, 1)] 0 0
    ((wide 1).width ≠ 0 ∧ (wide 1).ft = []) ∧ s.width ≠ 0 ∧ 2 ^ 64 ≤ (s.ft.map (fun e => e.2.toNat)).sum := by decide

/-- A tree of two leaves under `n` more nodes on the left side. -/
def deep : Nat → ETree
  | 0 => .node 2 (.leaf 0x41 1) (.leaf 0x42 1)
  | n + 1 => .node 2 (deep n) (.leaf (BitVec.ofNat 64 n) 0)

theorem witness_AssignedCodesAreTheLeafPaths :
    let s := { wide 1 with etree := some (deep 63) }
    s.width ≠ 0 ∧ s.etree = some (deep 63) ∧ (∀ e ∈ (deep 63).paths [], e.2.length ≤ 64) ∧
      ((deep 63).paths []).Pairwise (fun a b => a.1 ≠ b.1) := by decide +kernel

theorem witness_TooDeepLeafRaisesCodeOverflow :
    let s := { wide 1 with etree := some (deep 64) }
    s.width ≠ 0 ∧ s.etree = some (deep 64) ∧
      ((deep 64).paths []).find? (fun e => decide (64 < e.2.length)) = some (0x41, List.replicate 65 false) := by decide +kernel

theorem witness_AssignedCodesArePrefixFree :
    let s := { wide 1 with etree := some (deep 0) }
    s.width ≠ 0 ∧ s.etree = some (deep 0) ∧ ((deep 0).paths []).Pairwise (fun a b => a.1 ≠ b.1) ∧
      ∃ t, exec .assignCodes s = .next t := ⟨by decide, rfl, by decide, _, rfl⟩

theorem witness_CodeSetAndGet :
    let s := { ab with latch := ⟨0x43, 0, maxWord⟩, bs := #v[⟨64, maxWord⟩, .empty, .empty, .empty] }
    let t := { ab with latch := ⟨0x41, 0, maxWord⟩ }
    let u := { s with params := ⟨2, 64, 64, 64⟩ }
    (s.symbolOk ∧ (s.bsAt 0).len ≠ 0 ∧ s.ct.get s.latch.a0 = none ∧ s.ct.length < s.params.symCap) ∧
    (t.symbolOk ∧ t.ct.get t.latch.a0 = some ⟨1, 1⟩) ∧
    u.symbolOk ∧ (u.bsAt 0).len ≠ 0 ∧ u.ct.get u.latch.a0 = none ∧ u.ct.length = u.params.symCap := by decide

theorem witness_SerTableWritesTheTable :
    let s := { ab with params := ⟨16, 64, 64, 16⟩ }
    s.quiet ∧ s.width ≠ 0 ∧ s.ct ≠ [] ∧ s.room (tableBytes s.symWidth s.ct).length := by decide

theorem witness_TableLength : abCodes ≠ [] ∧ ∀ e ∈ abCodes, 1 ≤ e.2.len ∧ e.2.len ≤ 64 := by decide

theorem witness_DeserTableInvertsSerTable :
    let u := { ab with params := ⟨2, 64, 64, 16⟩ }
    let s := { fed (wide 1) (tableBytes 1 abCodes) with params := ⟨2, 64, 64, 16⟩ }
    let es : List RawEntry := [⟨0xFF, 64, List.replicate 8 0xFF⟩, ⟨0x00, 1, [0xFE]⟩]
    let t := { s with inq := byteTokens (rawBytes s.symWidth es.length es) ++ [Token.err] }
    (u.quiet ∧ u.params.ok ∧ u.width ≠ 0 ∧ u.symWidth ≤ 8 ∧ u.ct ≠ [] ∧ u.ct.wf ∧ u.ct.length ≤ u.params.symCap ∧
      (∀ e ∈ u.ct, e.1.toNat < 2 ^ (8 * u.symWidth) ∧ e.2.isCode) ∧ u.room (tableBytes u.symWidth u.ct).length ∧
      s.quiet ∧ s.params = u.params ∧ s.width = u.width ∧ s.inq = byteTokens (tableBytes 1 abCodes) ++ [.eos]) ∧
    t.quiet ∧ t.params.ok ∧ t.width ≠ 0 ∧ t.symWidth ≤ 8 ∧ es ≠ [] ∧ es.length ≤ t.params.symCap ∧
      (∀ e ∈ es, e.ok t.symWidth) ∧ (es.map RawEntry.sym).Nodup ∧
      t.inq = byteTokens (rawBytes t.symWidth es.length es) ++ [.err] := by decide

/-- One good entry, {0x41 "1"} with set pad bits. -/
def entryA : List RawEntry := [⟨0x41, 1, [0xFF]⟩]

/-- The header of a table of two entries, and the first of them. -/
def half : List Byte := rawBytes 1 2 entryA

theorem witness_DeserTableRefusesABadTable :
    let s := fed (wide 1) [0, 0, 0]
    let t := fed (wide 1) [0, 0, 0, 0]
    let u := fed (wide 1) [0, 0, 0, 17]
    (s.quiet ∧ s.width ≠ 0 ∧ [0#8, 0, 0].length < 4 ∧ s.inq = byteTokens [0, 0, 0] ++ .eos :: []) ∧
    (t.quiet ∧ t.width ≠ 0 ∧ [0#8, 0, 0, 0].length = 4 ∧ t.inq = byteTokens [0, 0, 0, 0] ++ [.eos] ∧ beWord [0, 0, 0, 0] = 0) ∧
    u.quiet ∧ u.width ≠ 0 ∧ [0#8, 0, 0, 17].length = 4 ∧ u.inq = byteTokens [0, 0, 0, 17] ++ [.eos] ∧
      u.params.symCap < (beWord [0, 0, 0, 17]).toNat := by decide

/-- The entry clauses' hypotheses: the table so far, the repeated symbol 0x41, a new symbol 0x42, L at each end of its ranges, and a stream cut one byte short. -/
theorem witness_DeserTableRefusesABadTable_entries :
    (wide 1).quiet ∧ (wide 1).params.ok ∧ (wide 1).symWidth = 1 ∧ 2 ≤ (wide 1).params.symCap ∧
      (∀ e ∈ entryA, e.ok 1) ∧ (entryA.map RawEntry.sym).Nodup ∧ entryA.length < 2 ∧ half.length = 10 ∧
      ([] : List Byte).length < 1 ∧ 0x41#64 ∈ entryA.map RawEntry.sym ∧
      (0x42#64).toNat < 2 ^ 8 ∧ 0x42#64 ∉ entryA.map RawEntry.sym ∧ [0#8, 0, 0].length < 4 ∧
      (65 < 2 ^ 32 ∧ 64 < 65) ∧ (2 ^ 32 - 1 < 2 ^ 32 ∧ 64 < 2 ^ 32 - 1) ∧ ([] : List Byte).length < (1 + 7) / 8 ∧
      [0#8, 0, 0, 0, 0, 0, 0].length < (64 + 7) / 8 ∧ (rawBytes 1 1 entryA).take 9 ++ [0xFF] = rawBytes 1 1 entryA := by
  decide

/-- 44 R247 read by hand: the offsets and counts of the entry-level refusals. -/
theorem test_deserTable_entries :
    (runs (fed (wide 1) half) 0x41 (fun t => raised t 0x02 10 1 0 0) &&
      runs (fed (wide 1) (half ++ [0x42, 0, 0])) 0x41 (fun t => raised t 0x02 11 4 2 0x42) &&
      runs (fed (wide 1) (half ++ [0x42, 0, 0, 0, 0])) 0x41 (fun t => raised t 0x02 11 1 0 0x42) &&
      runs (fed (wide 1) (half ++ [0x42, 0, 0, 0, 65])) 0x41 (fun t => raised t 0x05 11 64 65 0x42) &&
      runs (fed (wide 1) (half ++ [0x42, 0, 0, 0, 9, 1])) 0x41 (fun t => raised t 0x02 15 2 1 0x42)) = true := by decide

/-- DESER_TABLE at its first InRead, an Err token in IN. -/
def readingT : State :=
  { State.resetWith tiny with width := 1, inq := [.err], run := .running [.deser deserStart] }

theorem readingT_inv : readingT.Inv where
  params := tiny_ok
  width := by decide
  bs := fun i => by revert i; decide
  ftForm := by decide
  ftCap := by decide
  ctForm := by decide
  ctCap := by decide
  ctCodes := by decide
  etree := fun t ht => by simp [readingT, State.resetWith] at ht
  unset := fun h => by simp [readingT] at h
  packer := by decide
  cur := by decide
  acc := by decide
  dtree := fun t ht => by simp [readingT, State.resetWith] at ht
  record := fun _ => rfl
  errQuiet := fun h => by simp [readingT, State.resetWith] at h
  runOk := ⟨by simp [Micro.ok, Deser.ok, deserStart, readingT, State.resetWith], rfl⟩

theorem witness_FailedDeserTableLeavesNoTable :
    let s := fed (wide 1) [0]
    (s.width ≠ 0 ∧ s.err = false ∧ ∃ t, exec .deserTable s = .next t ∧ t.err = true) ∧
    readingT.Inv ∧ readingT.err = false ∧ readingT.run ≠ .idle ∧ readingT.doing .deserTable ∧
      ∃ t, readingT.coreStep = .next t ∧ t.err = true :=
  ⟨⟨by decide, rfl, _, rfl, rfl⟩, readingT_inv, rfl, by decide, State.doing_one rfl rfl, _, rfl, rfl⟩

theorem witness_ReconTreeHoldsEveryCode :
    let s := { ab with params := ⟨1, 3, 0, 0⟩ }
    s.width ≠ 0 ∧ s.ct ≠ [] ∧ (∀ e ∈ s.ct, e.2.isCode) ∧ s.ct.prefixFree ∧ s.ct.nodePaths.length ≤ s.params.nodeCap := by
  decide

theorem witness_ReconTreeRefusesEveryOtherTable :
    let s := { wide 1 with ct := [(0x41, ⟨2, 1⟩), (0x42, ⟨2, 1⟩)] }
    let t := { ab with params := ⟨1, 2, 0, 0⟩ }
    (s.width ≠ 0 ∧ (∀ e ∈ s.ct, e.2.isCode) ∧ 1 ≤ s.params.nodeCap ∧ ¬ s.ct.prefixFree) ∧
    t.width ≠ 0 ∧ (∀ e ∈ t.ct, e.2.isCode) ∧ 1 ≤ t.params.nodeCap ∧ t.params.nodeCap < t.ct.nodePaths.length := by decide

theorem witness_PackBsAppendsTheBits :
    let s := { bits with packer := ⟨0x2D, 6, maxWord - 3, 0⟩, params := ⟨16, 64, 64, 1⟩ }
    let t := { bits with packer := ⟨0x95, 7, 8, 0⟩, params := ⟨16, 64, 64, 1⟩ }
    (s.quiet ∧ s.packer.clean ∧ s.packer.bits.toNat + (s.bsAt 0).len < 2 ^ 64 ∧
      s.room ((s.packer.pbn.toNat + (s.bsAt 0).len) / 8)) ∧
    t.quiet ∧ ¬ t.packer.clean ∧ t.packer.pbn = 7 ∧ t.packer.bits.toNat + (t.bsAt 0).len < 2 ^ 64 ∧
      t.room ((t.packer.pbn.toNat + (t.bsAt 0).len) / 8) := by decide

/-- 46 R280 read by hand: PB = 0x95 with PBN = 7, then the bits 0 and 1: PB | 0 is written, and 1 is held. -/
theorem test_packBs_afterAbort : runs { wide 0 with bs := #v[⟨2, 2⟩, .empty, .empty, .empty], packer := ⟨0x95, 7, 8, 0⟩ } 0x62
    (fun t => t.outq == [0x95] && t.packer == ⟨1, 1, 10, 0⟩) = true := by decide

theorem witness_PackSymAppendsTheCode :
    let s := { ab with packer := ⟨0x2D, 7, 7, maxWord - 1⟩, latch := ⟨0x41, 0, 0⟩, params := ⟨16, 64, 64, 1⟩ }
    let t := { s with packer := ⟨0x95, 7, 8, 0⟩ }
    (s.quiet ∧ s.symbolOk ∧ s.ct.get s.latch.a0 = some ⟨1, 1⟩ ∧ s.packer.clean ∧ s.packer.syms ≠ maxWord ∧
      s.packer.bits.toNat + 1 < 2 ^ 64 ∧ s.room ((s.packer.pbn.toNat + 1) / 8)) ∧
    t.quiet ∧ t.symbolOk ∧ ¬ t.packer.clean ∧ t.packer.pbn = 7 ∧ t.packer.syms ≠ maxWord := by decide

theorem witness_PackFlushWritesThePartialByte :
    let s := { ab with packer := ⟨0x15, 5, 5, 5⟩, params := ⟨16, 64, 64, 1⟩ }
    (s.quiet ∧ s.packer.pbn ≠ 0 ∧ s.room 1) ∧ ab.quiet ∧ ab.packer.pbn = 0 := by decide

/-- The §8 stream of 95 section 1.1. -/
def abab : List Byte := [0x41, 0x42, 0x41, 0x42, 0x41]

/-- Its codes. -/
def ababCodes : List BitSeq := [⟨1, 1⟩, ⟨1, 0⟩, ⟨1, 1⟩, ⟨1, 0⟩, ⟨1, 1⟩]

theorem witness_PackWritesThePayload :
    let s := { fed ab abab with params := ⟨16, 64, 64, 1⟩ }
    s.quiet ∧ s.width ≠ 0 ∧ s.ct ≠ [] ∧ s.inq = byteTokens abab ++ .eos :: [] ∧ abab.length < 2 ^ 64 ∧
      (chunkWords s.symWidth abab).map s.ct.get = ababCodes.map some ∧ (ababCodes.flatMap BitSeq.toBits).length < 2 ^ 64 ∧
      s.room (payloadBytes (ababCodes.flatMap BitSeq.toBits)).length := by decide

theorem witness_UnknownSymbolIsRefused :
    let s := { fed ab [0x41, 0x43] with latch := ⟨0x43, 0, 0⟩, params := ⟨16, 64, 64, 0⟩ }
    let t := { wide 2 with ct := [(0x4141, ⟨8, 0xFF⟩)], inq := byteTokens ([0x41, 0x41] ++ [0x42]) ++ Token.eos :: [.err] }
    let u := { t with inq := byteTokens ([0x41, 0x41] ++ [0x42]) ++ Token.err :: [.eos] }
    (s.quiet ∧ s.width ≠ 0 ∧ s.ct ≠ [] ∧ (s.symbolOk ∧ s.ct.get s.latch.a0 = none) ∧
      [0x41#8].length = s.symWidth * [BitSeq.mk 1 1].length ∧
      (chunkWords s.symWidth [0x41]).map s.ct.get = [BitSeq.mk 1 1].map some ∧ ([0x41#8] ++ [0x43]).length < 2 ^ 64 ∧
      (codeBits [⟨1, 1⟩]).length < 2 ^ 64 ∧ s.room ((codeBits [⟨1, 1⟩]).length / 8) ∧
      [0x43#8].length = s.symWidth ∧ s.inq = byteTokens ([0x41] ++ [0x43]) ++ [.eos] ∧
      s.ct.get (beWord (padChunk s.symWidth [0x43])) = none) ∧
    (t.quiet ∧ t.width ≠ 0 ∧ t.ct ≠ [] ∧ [0x41#8, 0x41].length = t.symWidth * [BitSeq.mk 8 0xFF].length ∧
      (chunkWords t.symWidth [0x41, 0x41]).map t.ct.get = [BitSeq.mk 8 0xFF].map some ∧
      t.room ((codeBits [⟨8, 0xFF⟩]).length / 8) ∧ 0 < [0x42#8].length ∧ [0x42#8].length < t.symWidth ∧
      t.ct.get (beWord (padChunk t.symWidth [0x42])) = none) ∧
    u.quiet ∧ u.width ≠ 0 ∧ u.ct ≠ [] ∧ [0x42#8].length < u.symWidth ∧
      u.inq = byteTokens ([0x41, 0x41] ++ [0x42]) ++ .err :: [.eos] := by
  decide

/-- 46 R285 read by hand: the short last chunk 42 is the symbol 0x4200, at offset 2, after one code of 8 bits. -/
theorem test_pack_unknown_last : runs { wide 2 with
      ct := [(0x4141, ⟨8, 0xFF⟩)], inq := [.byte 0x41, .byte 0x41, .byte 0x42, .eos, .err] } 0x64
    (fun t => raised t 0x06 2 0 0 0x4200 && t.outq == [0xFF] && t.packer == ⟨0, 0, 8, 1⟩ && t.inq == [.err]) = true := by
  decide

theorem witness_UnpackDecodesThePayload :
    let items : List (Word × BitSeq) := [(0x41, ⟨1, 1⟩), (0x42, ⟨1, 0⟩)]
    let s := { fed ab [1] with latch := ⟨0, 0, 2⟩, params := ⟨16, 64, 64, 2⟩ }
    let t := { s with inq := byteTokens [1] ++ Token.err :: [.eos] }
    (s.quiet ∧ s.width ≠ 0 ∧ s.dtree = some abTree ∧ (∀ e ∈ items, e.2.isCode ∧ abTree.holds e.1 e.2) ∧
      [true, false] = codeBits (items.map Prod.snd) ∧ s.latch.lim = BitVec.ofNat 64 [true, false].length ∧
      [true, false].length < 2 ^ 64 - 1 ∧ s.room (s.symWidth * items.length) ∧
      s.inq = byteTokens (payloadBytes [true, false]) ++ .eos :: []) ∧
    t.quiet ∧ t.width ≠ 0 ∧ t.dtree = some abTree ∧ t.latch.lim = BitVec.ofNat 64 [true, false].length ∧
      t.room (t.symWidth * items.length) ∧ t.inq = byteTokens (payloadBytes [true, false]) ++ .err :: [.eos] := by decide

theorem witness_UnpackByteProcessesEightBits :
    let s := { ab with latch := ⟨0xFF, 0, 5⟩, params := ⟨16, 64, 64, 8⟩, decoder := ⟨.empty, .empty, 5, 5, false, false⟩ }
    let t := { ab with latch := ⟨0xFF, 0, maxWord⟩, params := ⟨16, 64, 64, 8⟩ }
    (s.quiet ∧ s.width ≠ 0 ∧ s.dtreeV = true ∧ s.latch.a0.toNat ≤ 0xFF ∧ s.decoder.bits.toNat + 8 < 2 ^ 64 ∧
      s.decoder.syms.toNat + 8 < 2 ^ 64 ∧ s.room (8 * s.symWidth) ∧ s.decoder.bits.toNat = s.latch.lim.toNat) ∧
    t.quiet ∧ t.width ≠ 0 ∧ t.dtreeV = true ∧ t.latch.a0.toNat ≤ 0xFF ∧ t.decoder.bits.toNat + 8 < 2 ^ 64 ∧
      t.decoder.syms.toNat + 8 < 2 ^ 64 ∧ t.room (8 * t.symWidth) ∧ t.latch.lim = maxWord := by decide

/-- The tree of the one code "0", the decoder at its root, and the limit eight bits. -/
def oneCode : State :=
  { State.resetWith tiny with
    width := 1, dtree := some (.node none (.node (some 0x41) .absent .absent) .absent), latch := ⟨0x80, 0, 8⟩ }

theorem oneCode_inv : oneCode.Inv where
  params := tiny_ok
  width := by decide
  bs := fun i => by revert i; decide
  ftForm := by decide
  ftCap := by decide
  ctForm := by decide
  ctCap := by decide
  ctCodes := by decide
  etree := fun t ht => by simp [oneCode, State.resetWith] at ht
  unset := fun h => by simp [oneCode] at h
  packer := by decide
  cur := by decide
  acc := by decide
  dtree := fun t ht => by cases ht; decide
  record := fun _ => rfl
  errQuiet := fun h => by simp [oneCode, State.resetWith] at h
  runOk := trivial

/-- The clause about MISMATCH: at the first bit (byte 0x01, the root has no child 1), the limit at its boundary. -/
theorem witness_UnpackByteProcessesEightBits_mismatch :
    let s := { oneCode with latch := ⟨0x01, 0, 1⟩ }
    oneCode.Inv ∧ s.quiet ∧ s.width ≠ 0 ∧ s.dtreeV = true ∧ s.latch.a0.toNat ≤ 0xFF ∧ s.room (8 * s.symWidth) ∧
      s.decoder.bits.toNat + 0 < s.latch.lim.toNat ∧
      (∀ dt, s.dtree = some dt →
        (∀ j ≤ 0, (dt.sub (s.decoder.cur.toBits ++ (byteBits (s.latch.a0.setWidth 8)).take j)).isLeaf = false) ∧
        (dt.sub (s.decoder.cur.toBits ++ (byteBits (s.latch.a0.setWidth 8)).take (0 + 1))).isAbsent = true) :=
  ⟨oneCode_inv, by decide, by decide, by decide, by decide, by decide, by decide, fun dt h => by cases h; decide⟩

/-- 47 R300 read by hand: eight bits of which the last has no child. -/
theorem test_unpackByte_mismatch : runs (withArgs oneCode 0x80 0 8) 0x71
    (fun t => t.outq == List.replicate 7 0x41 && t.readReg 0x01 == 0x10C2) = true := by decide

theorem witness_UnpackIsIndependentOfBuffers :
    ab.quiet ∧ ab.width ≠ 0 ∧ ab.dtreeV = true ∧ 8 * [0x15#8, 0xFF].length < 2 ^ 64 ∧
      ab.room (8 * ab.symWidth * [0x15#8, 0xFF].length) := by decide

theorem witness_UnpackInvertsPack :
    let s := fed ab abab
    let u := { fed ab [0x15] with latch := ⟨0, 0, 5⟩ }
    (s.quiet ∧ s.width ≠ 0 ∧ s.symWidth ≤ 8 ∧ s.ct ≠ [] ∧ (∀ e ∈ s.ct, e.2.isCode) ∧
      s.inq = byteTokens abab ++ .eos :: [] ∧ abab.length < 2 ^ 64 ∧
      (chunkWords s.symWidth abab).map s.ct.get = ababCodes.map some ∧
      (ababCodes.flatMap BitSeq.toBits).length < 2 ^ 64 - 1 ∧
      s.room (payloadBytes (ababCodes.flatMap BitSeq.toBits)).length ∧ ∀ e ∈ s.ct, abTree.holds e.1 e.2) ∧
    u.quiet ∧ u.width = s.width ∧ u.dtree = some abTree ∧ u.latch.lim = 5 ∧ u.inq = byteTokens [0x15] ++ .eos :: [] ∧
      u.room (s.symWidth * ((abab.length + s.symWidth - 1) / s.symWidth)) := by decide

theorem witness_CommandsChangeOnlyTheirParts :
    (∃ t, (wide 1).advances .nop t) ∧
    ∃ t, { wide 1 with inq := [.eos], run := .running [.scan 0 0 0 []] }.advances .freqScan t :=
  ⟨⟨_, .inl rfl⟩, _, .inr ⟨State.doing_one rfl rfl, rfl⟩⟩

/-- FREQ_SCAN at its first InRead, a byte in IN. -/
def scanning : State := { readingT with inq := [.byte 0x41], run := .running [.scan 0 0 0 []] }

theorem scanning_doing : scanning.doing .freqScan := State.doing_one rfl rfl

theorem scanning_inv : scanning.Inv :=
  inv_congr readingT_inv rfl rfl rfl rfl rfl rfl rfl rfl rfl (fun _ => rfl) (fun h => by simp [scanning, readingT, State.resetWith] at h)
    ⟨by simp [Micro.ok, scanning, readingT, State.resetWith], rfl⟩

theorem witness_ChangedTablesInvalidateTheirTrees :
    (∃ t u, exec .freqSet (counted [] 1 1) = .next t ∧ t.ft ≠ [] ∧ exec .codeClr ab = .next u ∧ u.ct ≠ ab.ct) ∧
    scanning.Inv ∧ scanning.doing .freqScan ∧ ∃ t, scanning.coreStep = .next t ∧ t.ft ≠ scanning.ft :=
  ⟨⟨_, _, rfl, by decide, rfl, by decide⟩, scanning_inv, scanning_doing, _, rfl, by decide⟩

theorem witness_EveryStepKeepsTheInvariant : inError.Inv ∧ ∃ t, step inError = .next t :=
  ⟨inError_inv, _, rfl⟩

theorem witness_ResetHasTheInvariant : tiny.ok := tiny_ok

theorem witness_StreamsMoveInOrder :
    (∃ t, { ab with packer := ⟨0x15, 5, 5, 5⟩ }.advances .packFlush t ∧ t.outq ≠ []) ∧
    ∃ t, scanning.advances .freqScan t ∧ t.inq ≠ scanning.inq :=
  ⟨⟨_, .inl rfl, by decide⟩, _, .inr ⟨scanning_doing, rfl⟩, by decide⟩

theorem witness_CommandsEndOrWait :
    ((wide 1).host.turns = [] ∧ ∃ t u, exec .freqScan (wide 1) = .next t ∧ t.run ≠ .idle ∧
      exec .freqScan (fed (wide 1) []) = .next u ∧ u.run = .idle) ∧
    scanning.Inv ∧ scanning.doing .freqScan ∧ scanning.host.turns = [] ∧
      ∃ t, scanning.coreStep = .next t ∧ t.run ≠ .idle :=
  ⟨⟨rfl, _, _, rfl, by decide, rfl, by decide⟩, scanning_inv, scanning_doing, rfl, _, rfl, by decide⟩

theorem witness_StepFaultsExactlyWhereStuck :
    let s := hosted { wide 1 with run := .running [.scan 0 0 0 []] } [.wait]
    let t := hosted (wide 1) [.pop]
    (s.busy = true ∧ s.coreReady = false ∧ s.hostCanAct = false ∧ s.iof = false) ∧
    t.busy = false ∧ t.nextAction = some .pop ∧ t.hostReady .pop = false := by decide

theorem witness_SinkFailureSetsTheFlag :
    let s := hosted { wide 1 with run := .running [.scan 0 0 0 []] } [.wr 0x16 1]
    let t := hosted (wide 1) [.wr 0x16 1]
    let u := hosted { wide 1 with run := .accepted 0x24 } [.wr 0x16 1] [.host]
    let v := hosted { wide 1 with run := .accepted 0x30 } [.wr 0x16 1] [.host]
    let x := hosted { wide 1 with run := .accepted 0x104 } [.wr 0x16 1] [.host]
    (s.nextAction = some (.wr 0x16 1) ∧ s.run = .running [.scan 0 0 0 []] ∧ s.iof = false ∧ s.coreReady = false ∧
      (1 : Word).getLsbD 0 = true) ∧
    (t.nextAction = some (.wr 0x16 1) ∧ t.run = .idle) ∧
    (u.nextAction = some (.wr 0x16 1) ∧ u.host.turns.head? = some .host ∧ decode 0x24 = .ok .freqScan ∧
      isStream .freqScan = true ∧ u.iof = false) ∧
    (v.nextAction = some (.wr 0x16 1) ∧ v.host.turns.head? = some .host ∧ decode 0x30 = .ok .buildTree ∧
      isStream .buildTree = false) ∧
    (x.nextAction = some (.wr 0x16 1) ∧ x.host.turns.head? = some .host ∧ (decode 0x104).toOption = none) ∧
    ({ s with iof := true } : State).iof = true ∧ (0xFFFFFFFFFFFFFFFE : Word).getLsbD 0 = false := by decide

/-- A PACK_FLUSH of five bits with a pending IOFAIL abort. -/
def failing : State :=
  { State.resetWith tiny with
    packer := ⟨0x15, 5, 5, 0⟩, run := .running [.outPB, .finish (.packFlush 1)], iof := true }

theorem failing_inv : failing.Inv :=
  inv_congr (inv_setPacker tiny_inv ⟨0x15, 5, 5, 0⟩ (by decide)) rfl rfl rfl rfl rfl rfl rfl rfl rfl
    (fun _ => rfl) (fun h => by simp [failing, State.resetWith] at h)
    ⟨by simp [Micro.ok, Finish.ok], rfl⟩

theorem witness_NoOutputAfterSinkFailure :
    failing.Inv ∧ failing.run = .running [.outPB, .finish (.packFlush 1)] ∧ failing.iof = true ∧
      ∃ t, failing.coreStep = .next t ∧ t.run = .idle := ⟨failing_inv, rfl, rfl, _, rfl, by decide⟩

theorem witness_NoOutputAfterSinkFailure_wait :
    let s := hosted { wide 1 with run := .running [.scan 0 0 0 []], iof := true, iofSkip := 5 } [.wait]
    s.run = .running [.scan 0 0 0 []] ∧ s.iof = true ∧ s.coreReady = false ∧ s.hostCanAct = false := by decide

theorem witness_WritableRegistersReadBack :
    let s := hosted (wide 1) [.wr 0x12 0xFF]
    0x12#8 ∈ [0x02#8, 0x03#8, 0x0B#8, 0x12#8] ∧ s.run = .idle ∧ s.nextAction = some (.wr 0x12 0xFF) := by decide

theorem witness_HostActionsOnAnIdleCore :
    let s := hosted { wide 1 with params := ⟨16, 64, 1, 64⟩ } [.push .eos]
    let t := hosted { wide 1 with outq := [7, 8] } [.pop]
    (s.run = .idle ∧ s.nextAction = some (.push .eos) ∧ s.inq.length < s.params.inCap) ∧
    (t.run = .idle ∧ t.nextAction = some .pop ∧ t.outq = 7 :: [8]) ∧
    (hosted t [.drain]).nextAction = some .drain ∧ (hosted t [.rd 0x04]).nextAction = some (.rd 0x04) ∧
    (hosted t [.wait]).nextAction = some .wait ∧ (hosted t []).nextAction = none := by decide

theorem witness_ReservedAndReadOnlyRegisters :
    0x1A ≤ (0x1A#8).toNat ∧ 0x1A ≤ (0xFF#8).toNat ∧ 0x19#8 ∉ [0x00#8, 0x02#8, 0x03#8, 0x0B#8, 0x12#8, 0x16#8] := by decide

theorem witness_ReadsWhileBusy :
    let s := hosted { wide 1 with run := .running [.scan 0 0 0 []] } [.rd 0x01]
    let t := hosted { wide 1 with run := .running [.pad, .finish .pack] } [.rd 0x04] [.host]
    (s.run ≠ .idle ∧ s.nextAction = some (.rd 0x01) ∧ s.coreReady = false) ∧
    (t.run ≠ .idle ∧ t.nextAction = some (.rd 0x04) ∧ t.host.turns.head? = some .host) ∧
    (0x19#8).toNat < 0x1A ∧ 0x1A ≤ (0x1A#8).toNat := by decide

/-- 20 R93: a reserved index reads 0 while BUSY = 1 too. -/
theorem test_reserved_busy : after (hosted { wide 1 with run := .running [.scan 0 0 0 []] } [.rd 0x1A])
    (fun t => t.host.rdRec == [0]) = true := by decide

/-- An IOFAIL abort pending at the EmitBit that fills a byte. -/
def eighth : State := { bits with packer := ⟨0x15, 7, 7, 0⟩, run := .running [.emitBit true, .finish .packBs], iof := true }

/-- 46 R280 read by hand with 60 R325: the abort there writes no byte, and PB, PBN and PK_BITS are as at the raise. -/
theorem test_iofail_eighth : after (hosted eighth [])
    (fun t => raised t 0x04 0 0 1 0 && t.outq.isEmpty && t.packer == ⟨0x95, 7, 8, 0⟩) = true := by decide

/-- 60 R369: a write to IOFAIL ends a command that waits on an empty IN, whatever boundary was drawn. -/
theorem test_iofail_wait : after (hosted { wide 1 with run := .running [.scan 0 0 0 []], iof := true, iofSkip := 5 } [.wait])
    (fun t => raised t 0x04 0 0 1 0 && t.inq.isEmpty && !t.iof) = true := by decide

theorem witness_NoOutputAfterSinkFailure_eighth :
    eighth.run = .running [.emitBit true, .finish .packBs] ∧ eighth.packer.pbn = 7 ∧ eighth.packer.bits ≠ maxWord ∧
      eighth.iof = true ∧ eighth.host.turns = [] := by decide

end Sys2Proof.Tests
end

section
/-! The trees of BUILD_TREE, ASSIGN_CODES and RECON_TREE: what each construction gives, as the invariant asks for it. -/

namespace Sys2Proof.Machine

/-! ### BUILD_TREE (R211, R212) -/

theorem qInsert_perm (e : QEntry) (q : List QEntry) : (qInsert e q).Perm (e :: q) := by
  induction q with
  | nil => exact .refl _
  | cons x q ih =>
    simp only [qInsert]
    split_ifs
    · exact .refl _
    · exact (ih.cons x).trans (.swap e x q)

/-- The number of leaves of all trees in the queue. -/
def queueLeaves (q : List QEntry) : Nat := (q.map fun e => e.tree.leaves.length).sum

@[simp] theorem queueLeaves_nil : queueLeaves [] = 0 := rfl

@[simp] theorem queueLeaves_cons (e : QEntry) (q : List QEntry) :
    queueLeaves (e :: q) = e.tree.leaves.length + queueLeaves q := by simp [queueLeaves]

@[simp] theorem qInsert_length (e : QEntry) (q : List QEntry) : (qInsert e q).length = q.length + 1 :=
  (qInsert_perm e q).length_eq

@[simp] theorem queueLeaves_qInsert (e : QEntry) (q : List QEntry) :
    queueLeaves (qInsert e q) = e.tree.leaves.length + queueLeaves q := by
  rw [← queueLeaves_cons]; exact ((qInsert_perm e q).map _).sum_eq

theorem queueLeaves_qLeaves (ft : FMap Word) (seq : Nat) : queueLeaves (qLeaves seq ft) = ft.length := by
  induction ft generalizing seq with
  | nil => rfl
  | cons e ft ih => simp [qLeaves, ih, ETree.leaves]; omega

/-- A merge joins the two least trees under an internal node, so no leaf is lost, and the one tree left at the end is no leaf unless the queue held a single leaf. -/
theorem mergeAll_tree (n : Nat) : ∀ (seq : Nat) (q : List QEntry) (e : QEntry) (r : List QEntry),
    mergeAll n seq q = .ok (e :: r) → q.length ≤ n + 1 → (∀ x, q = [x] → x.tree.isLeaf = false) →
    e.tree.isLeaf = false ∧ e.tree.leaves.length ≤ queueLeaves q := by
  induction n with
  | zero =>
    intro seq q e r h hq h1
    cases h
    obtain rfl : r = [] := List.length_eq_zero_iff.1 (by simpa using hq)
    exact ⟨h1 e rfl, by simp⟩
  | succ n ih =>
    intro seq q e r h hq h1
    match q with
    | [] => cases h
    | [a] => cases h; exact ⟨h1 _ rfl, by simp⟩
    | a :: b :: q =>
      rw [mergeAll] at h
      split_ifs at h
      obtain ⟨hl, hn⟩ := ih _ _ _ _ h (by simpa using hq)
        (fun x hx => by
          have hlen := congrArg List.length hx
          obtain rfl : q = [] := List.length_eq_zero_iff.1 (by simpa using hlen)
          cases hx; rfl)
      exact ⟨hl, by simpa [ETree.leaves, Nat.add_assoc] using hn⟩

/-- BUILD_TREE's tree is no leaf, and has no more leaves than FT has entries (R210). -/
theorem buildTree_tree {ft : FMap Word} {t : ETree} (h : buildTree ft = .ok t) :
    t.isLeaf = false ∧ t.leaves.length ≤ ft.length := by
  have hn := queueLeaves_qLeaves ft 0
  unfold buildTree at h
  split at h
  · cases h
  · next e hq =>
    cases h
    rw [hq] at hn
    exact ⟨rfl, by simpa [ETree.leaves] using hn.le⟩
  · next h1 =>
    split at h
    · cases h
    · next e r hm =>
      cases h
      exact hn ▸ mergeAll_tree _ _ _ _ _ hm (Nat.le_succ _) (fun e he => absurd he (h1 e))
    · cases h

/-! ### ASSIGN_CODES (R214) -/

/-- What R58 says of CT: canonical, and every value a code. -/
def FMap.codeTable (ct : FMap BitSeq) : Prop := ct.wf ∧ ∀ e ∈ ct, e.2.isCode

theorem FMap.codeTable_nil : FMap.codeTable [] := ⟨.nil, by simp⟩

theorem FMap.codeTable_put {ct : FMap BitSeq} (h : ct.codeTable) (v : Word) {c : BitSeq} (hc : c.isCode) :
    (ct.put v c).codeTable :=
  ⟨FMap.wf_put _ _ _ h.1, fun e he => (FMap.mem_put _ _ _ e he).elim (fun h => h ▸ hc) (h.2 e)⟩

/-- Each leaf below a root that is no leaf adds at most one entry, and a code. -/
theorem visit_codeTable (t : ETree) : ∀ (p : List Bool) (ct : FMap BitSeq) (m : Nat) (r : FMap BitSeq × Nat),
    visit t p ct m = .ok r → (t.isLeaf = false ∨ 0 < p.length) → ct.codeTable →
    r.1.codeTable ∧ r.1.length ≤ ct.length + t.leaves.length := by
  induction t with
  | leaf v f =>
    intro p ct m r h hp hc
    rw [visit] at h
    split_ifs at h with hl
    cases h
    have hpos : 0 < p.length := hp.resolve_left (by simp [ETree.isLeaf])
    exact ⟨FMap.codeTable_put hc v ⟨BitSeq.ofBits_wf p (by omega), hpos⟩, FMap.length_put_le _ _ _⟩
  | node f l r ihl ihr =>
    intro p ct m x h _ hc
    rw [visit] at h
    split at h
    · cases h
    · next ct' m' hv =>
      obtain ⟨hc', hl⟩ := ihl _ _ _ _ hv (.inr (by simp)) hc
      obtain ⟨hx, hr⟩ := ihr _ _ _ _ h (.inr (by simp)) hc'
      exact ⟨hx, by simp only [ETree.leaves, List.length_append]; dsimp only at hl; omega⟩
  | wrap f l ih =>
    intro p ct m r h _ hc
    exact ih _ _ _ _ h (.inr (by simp)) hc

/-! ### RECON_TREE (R260, R261) -/

/-- The shape of DTREE's nodes that R66 and R262 give, down to depth n: there is a root, only leaves have symbols, and no node lies deeper than n. -/
def DTree.shaped (t : DTree) (n : Nat) : Prop := t.isAbsent = false ∧ t.symLeaf = true ∧ t.depthLe n = true

theorem DTree.shaped_bare (n : Nat) : DTree.bare.shaped n := by
  cases n <;> exact ⟨rfl, rfl, rfl⟩

theorem DTree.shaped_leaf (v : Word) (n : Nat) : (DTree.node (some v) .absent .absent).shaped n := by
  cases n <;> exact ⟨rfl, rfl, rfl⟩

theorem DTree.shaped_child {t : DTree} {n : Nat} {b : Bool} (h : t.shaped (n + 1)) (hb : (t.child b).isAbsent = false) :
    (t.child b).shaped n := by
  obtain ⟨_, hs, hd⟩ := h
  cases t with
  | absent => cases hb
  | node sy l r =>
    simp only [DTree.symLeaf, DTree.depthLe, Bool.and_eq_true] at hs hd
    cases b
    · exact ⟨hb, hs.1.2, hd.1⟩
    · exact ⟨hb, hs.2, hd.2⟩

theorem DTree.shaped_withChild {t c : DTree} {n : Nat} {b : Bool} (h : t.shaped (n + 1)) (ht : t.symAt = none)
    (hc : c.shaped n) : (t.withChild b c).shaped (n + 1) := by
  obtain ⟨ha, hs, hd⟩ := h
  obtain ⟨_, hcs, hcd⟩ := hc
  cases t with
  | absent => cases ha
  | node sy l r =>
    obtain rfl : sy = none := ht
    simp only [DTree.symLeaf, DTree.depthLe, Bool.and_eq_true] at hs hd
    cases b <;> simp [DTree.withChild, DTree.shaped, DTree.isAbsent, DTree.symAt, DTree.child, DTree.symLeaf,
      DTree.depthLe, hs, hd, hcs, hcd]

/-- Inserting a code of at most n bits keeps the shape down to depth n (R262). -/
theorem insertCode_shaped (x : Entry) (p : List Bool) : ∀ (d : Nat) (t : DTree) (count n : Nat) (r : DTree × Nat),
    insertCode x p d t count = .ok r → p.length ≤ n → t.shaped n → r.1.shaped n := by
  induction p with
  | nil =>
    intro d t count n r h _ _
    rw [insertCode] at h
    split_ifs at h
    cases h
    exact DTree.shaped_leaf _ _
  | cons b p ih =>
    intro d t count n r h hp ht
    obtain ⟨n, rfl⟩ : ∃ k, n = k + 1 := ⟨n - 1, by simp at hp; omega⟩
    have hp' : p.length ≤ n := by simpa using hp
    rw [insertCode] at h
    split_ifs at h with hs hb
    · split at h
      · cases h
      · next c k hk =>
        cases h
        exact DTree.shaped_withChild ht (by simpa using hs) (ih _ _ _ _ _ hk hp' (DTree.shaped_bare n))
    · split at h
      · cases h
      · next c k hk =>
        cases h
        exact DTree.shaped_withChild ht (by simpa using hs)
          (ih _ _ _ _ _ hk hp' (DTree.shaped_child ht (by simpa using hb)))

theorem insertAll_shaped (cap : Nat) (ct : FMap BitSeq) : ∀ (e : Nat) (t : DTree) (count maxd n : Nat)
    (r : DTree × Nat × Nat), insertAll cap ct e t count maxd = .ok r → (∀ x ∈ ct, x.2.len ≤ n) → t.shaped n →
    r.1.shaped n := by
  induction ct with
  | nil => intro e t count maxd n r h _ ht; cases h; exact ht
  | cons x ct ih =>
    intro e t count maxd n r h hl ht
    rw [insertAll] at h
    split at h
    · cases h
    · next t' k hk =>
      exact ih _ _ _ _ _ _ h (fun y hy => hl y (List.mem_cons_of_mem _ hy))
        (insertCode_shaped _ _ _ _ _ _ _ hk (by simpa using hl x List.mem_cons_self) ht)

/-- RECON_TREE's tree of a table of codes (R66). -/
theorem reconTree_shaped {cap : Nat} {ct : FMap BitSeq} {r : DTree × Nat × Nat} (h : reconTree cap ct = .ok r)
    (hc : ∀ e ∈ ct, e.2.isCode) : r.1.shaped 64 :=
  insertAll_shaped _ _ _ _ _ _ _ _ h (fun e he => (hc e he).1.1) (DTree.shaped_bare 64)

end Sys2Proof.Machine
end

section
/-! Every command, every action of the host and so every step keeps the machine's invariant. -/

namespace Sys2Proof.Machine

/-! ### Updates of the state -/

/-- What runs depends on WIDTH, CT, the trees and SYM_CAP only. -/
theorem runOk_congr {s t : State} (h : s.runOk) (hr : t.run = s.run) (h1 : t.width = s.width) (h2 : t.ct = s.ct)
    (h3 : t.params = s.params) (h4 : t.etree = s.etree) (h5 : t.dtree = s.dtree) : t.runOk := by
  unfold State.runOk at h ⊢
  rw [hr]
  split at h
  · trivial
  · trivial
  · exact ⟨keep_ok h1 h2 h3 h4 h5 h.1, h.2⟩

/-- The latches, the registers, DONE, OVR, the FIFOs, the state of an IOFAIL abort and the host's side are outside the invariant. -/
theorem inv_outside {s : State} (hi : s.Inv) {latch : Latches} {regs : HostRegs} {done ovr iof : Bool} {inq : List Token}
    {outq : List Byte} {skip wrote : Nat} {host : HostSide} :
    { s with latch := latch, regs := regs, done := done, ovr := ovr, iof := iof, inq := inq, outq := outq,
             iofSkip := skip, wrote := wrote, host := host }.Inv :=
  inv_congr hi rfl rfl rfl rfl rfl rfl rfl rfl rfl hi.record hi.errQuiet (runOk_congr hi.runOk rfl rfl rfl rfl rfl rfl)

theorem inv_setRes {s : State} (hi : s.Inv) (v w : Word) : (s.setRes v w).Inv := inv_outside hi

theorem inv_setRes0 {s : State} (hi : s.Inv) (v : Word) : (s.setRes0 v).Inv := inv_outside hi

theorem inv_advance {s : State} (hi : s.Inv) : s.advance.Inv := inv_outside hi

theorem inv_popTurn {s : State} (hi : s.Inv) : s.popTurn.Inv := inv_outside hi

/-- The return from an error keeps the invariant (R142). -/
theorem inv_clearError {s : State} (hi : s.Inv) : s.clearError.Inv :=
  inv_congr hi rfl rfl rfl rfl rfl rfl rfl rfl rfl (fun _ => rfl) (fun h => by cases h)
    (runOk_congr hi.runOk rfl rfl rfl rfl rfl rfl)

theorem inv_setBs {s : State} (hi : s.Inv) (i : BsIdx) {c : BitSeq} (hc : c.wf) : (s.setBs i c).Inv :=
  { hi with
    bs := fun j => by
      by_cases h : j = i
      · subst h; rwa [State.setBs_bsAt_self]
      · rw [State.setBs_bsAt_ne s i j c h]; exact hi.bs j
    runOk := runOk_congr hi.runOk rfl rfl rfl rfl rfl rfl }

/-- The reset state has the invariant (R360, R66). -/
theorem inv_resetWith {p : Params} (hp : p.ok) : (State.resetWith p).Inv where
  params := hp
  width := Nat.zero_le _
  bs := fun i => by
    have : (State.resetWith p).bsAt i = .empty := by fin_cases i <;> rfl
    rw [this]; exact BitSeq.wf_empty
  ftForm := .nil
  ftCap := Nat.zero_le _
  ctForm := .nil
  ctCap := Nat.zero_le _
  ctCodes := fun e he => by cases he
  etree := fun t ht => by cases ht
  unset := fun _ => ⟨rfl, rfl, rfl, rfl⟩
  packer := fun _ => rfl
  cur := BitSeq.wf_empty
  acc := BitSeq.wf_empty
  dtree := fun t ht => by cases ht
  record := fun _ => rfl
  errQuiet := fun h => by cases h
  runOk := trivial

/-- The hardware reset keeps the invariant (R360). -/
theorem inv_hardReset {s : State} (hi : s.Inv) : s.hardReset.Inv := inv_outside (inv_resetWith hi.params)

/-- The soft reset keeps the invariant (R141). -/
theorem inv_softReset {s : State} (hi : s.Inv) : s.softReset.Inv := inv_outside (inv_hardReset hi)

/-- Acceptance keeps the invariant: in error only SRESET and ERR_CLR are not dropped (R144, R326). -/
theorem inv_accept {s : State} (hi : s.Inv) {w : BitVec 32} (hd : s.drops w = false) : (s.accept w).Inv :=
  inv_congr hi rfl rfl rfl rfl rfl rfl rfl rfl rfl hi.record
    (fun he => by
      have he' : s.err = true := he
      have : w = 0x00000001#32 ∨ w = 0x00000002#32 := by
        by_contra h
        simp_all [State.drops]
      exact .inr (this.imp (congrArg Run.accepted) (congrArg Run.accepted)))
    trivial

/-! ### Updates a command makes when it has been decoded

Here the word is still the accepted one, so that no micro-operation rests on the tables and trees. -/

section
variable {s : State} {w : BitVec 32}

theorem runOk_of_accepted (hr : s.run = .accepted w) : s.runOk := by simp [State.runOk, hr]

theorem inv_setFt (hi : s.Inv) (hr : s.run = .accepted w) {m : FMap Word} (hw : s.width ≠ 0 ∨ m = []) (h1 : m.wf)
    (h2 : m.length ≤ s.params.symCap) : (s.setFt m).Inv :=
  { hi with
    ftForm := h1
    ftCap := h2
    etree := fun t ht => by cases ht
    unset := fun h0 =>
      have ⟨_, hct, _, hdt⟩ := hi.unset h0
      ⟨hw.resolve_left fun h => h h0, hct, rfl, hdt⟩
    runOk := runOk_of_accepted (s := s.setFt m) hr }

theorem inv_setCt (hi : s.Inv) (hr : s.run = .accepted w) {m : FMap BitSeq} (hw : s.width ≠ 0 ∨ m = [])
    (hm : m.codeTable) (hl : m.length ≤ s.params.symCap) : (s.setCt m).Inv :=
  { hi with
    ctForm := hm.1
    ctCap := hl
    ctCodes := hm.2
    dtree := fun t ht => by cases ht
    unset := fun h0 =>
      have ⟨hft, _, het, _⟩ := hi.unset h0
      ⟨hft, hw.resolve_left fun h => h h0, het, rfl⟩
    runOk := runOk_of_accepted (s := s.setCt m) hr }

theorem inv_clearCt (hi : s.Inv) (hr : s.run = .accepted w) : (s.setCt []).Inv :=
  inv_setCt hi hr (.inr rfl) FMap.codeTable_nil (Nat.zero_le _)

theorem inv_setEtree (hi : s.Inv) (hr : s.run = .accepted w) (hw : s.width ≠ 0) {o : Option ETree}
    (ho : ∀ t, o = some t → t.isLeaf = false ∧ t.leaves.length ≤ s.params.symCap) : (s.setEtree o).Inv :=
  { hi with
    etree := ho
    unset := fun h0 => absurd h0 hw
    runOk := runOk_of_accepted (s := s.setEtree o) hr }

theorem inv_clearEtree (hi : s.Inv) (hr : s.run = .accepted w) (hw : s.width ≠ 0) : (s.setEtree none).Inv :=
  inv_setEtree hi hr hw fun _ ht => by cases ht

/-- DTREE changes and the decoder goes to its root (R261). -/
theorem inv_setDtree (hi : s.Inv) (hr : s.run = .accepted w) (hw : s.width ≠ 0) {o : Option DTree}
    (ho : ∀ t, o = some t → t.shaped 64) : ((s.setDtree o).setDecoder .init).Inv :=
  { hi with
    cur := BitSeq.wf_empty
    acc := BitSeq.wf_empty
    dtree := fun t ht =>
      have ⟨ha, hs, hd⟩ := ho t ht
      ⟨ha, hs, hd, rfl, ha⟩
    unset := fun h0 => absurd h0 hw
    runOk := runOk_of_accepted (s := (s.setDtree o).setDecoder .init) hr }

/-- The decoder goes to the root of the tree there is (R301, R303). -/
theorem inv_resetDecoder (hi : s.Inv) : (s.setDecoder .init).Inv :=
  inv_setDecoder hi _ BitSeq.wf_empty BitSeq.wf_empty fun t ht => ⟨rfl, (hi.dtree t ht).1⟩

/-- The packer is reset (R281, R285). -/
theorem inv_resetPacker (hi : s.Inv) : (s.setPacker .init).Inv := inv_setPacker hi _ fun _ => rfl

/-- SET_WIDTH installs a width from 1 to 8 (R143). -/
theorem inv_installWidth (hi : s.Inv) (hr : s.run = .accepted w) {n : Nat} (h1 : 1 ≤ n) (h8 : n ≤ 8) :
    (s.installWidth n).Inv :=
  { hi with
    width := by simp only [State.installWidth_width, BitVec.toNat_ofNat]; omega
    ftForm := .nil
    ftCap := Nat.zero_le _
    ctForm := .nil
    ctCap := Nat.zero_le _
    ctCodes := fun e he => by cases he
    etree := fun t ht => by cases ht
    unset := fun _ => ⟨rfl, rfl, rfl, rfl⟩
    packer := fun _ => rfl
    cur := BitSeq.wf_empty
    acc := BitSeq.wf_empty
    dtree := fun t ht => by cases ht
    runOk := runOk_of_accepted (s := s.installWidth n) hr }

end

/-! ### Outcomes -/

/-- If the outcome is a next state, it has the invariant. -/
def Out.keepsInv (o : Out) : Prop := ∀ t, o = .next t → t.Inv

theorem keepsInv_next {t : State} (h : t.Inv) : Out.keepsInv (.next t) := fun _ e => by cases e; exact h

theorem keepsInv_succeed {s : State} (hi : s.Inv) : Out.keepsInv s.succeed := keepsInv_next (inv_complete hi)

theorem keepsInv_fail {s : State} (hi : s.Inv) (r : Raise) : Out.keepsInv (s.fail r) := keepsInv_next (inv_raise hi r)

theorem keepsInv_checked {s : State} (hi : s.Inv) {check : Option Raise} {k : Out}
    (hk : check = none → Out.keepsInv k) : Out.keepsInv (s.checked check k) := by
  cases check with
  | none => exact hk rfl
  | some r => exact keepsInv_fail hi r

theorem width_ne_of_needWidth {s : State} {op : BitVec 8} (h : s.needWidth op = none) : s.width ≠ 0 := fun h0 => by
  rw [State.needWidth_fail s op h0] at h; cases h

/-- Past a check of WIDTH the width is set (R329). -/
theorem keepsInv_checkedWidth {s : State} (hi : s.Inv) {op : BitVec 8} {k : Out} (hk : s.width ≠ 0 → Out.keepsInv k) :
    Out.keepsInv (s.checked (s.needWidth op) k) :=
  keepsInv_checked hi fun h => hk (width_ne_of_needWidth h)

/-- So it is past a check of WIDTH and others. -/
theorem keepsInv_checkedWidthOr {s : State} (hi : s.Inv) {op : BitVec 8} {o : Option Raise} {k : Out}
    (hk : s.width ≠ 0 → Out.keepsInv k) : Out.keepsInv (s.checked ((s.needWidth op).or o) k) :=
  keepsInv_checked hi fun h => hk (width_ne_of_needWidth (Option.or_eq_none_iff.1 h).1)

/-- A stream command begins at a position its pseudocode can reach, and runs. -/
theorem keepsInv_start {s : State} (hi : s.Inv) (he : s.err = false) {todo : List Micro} (hm : ∀ m ∈ todo, m.ok s)
    (hl : todo.getLast?.any Micro.closing = true) : Out.keepsInv (s.start todo) :=
  keepsInv_next (inv_settle (inv_outside (inv_goOn hi he todo hm hl)))

/-- A stream command that begins with a list of micro-operations that rest on nothing, and then its end. -/
theorem keepsInv_startMap {s : State} (hi : s.Inv) (he : s.err = false) {α : Type} (l : List α) (f : α → Micro)
    (hf : ∀ a, (f a).ok s) {m : Micro} (hm : m.ok s) (hc : m.closing = true) :
    Out.keepsInv (s.start (l.map f ++ [m])) := by
  refine keepsInv_start hi he (fun x hx => ?_) (last_append _ _ (by simpa using hc))
  rcases List.mem_append.1 hx with h | h
  · obtain ⟨a, _, rfl⟩ := List.mem_map.1 h; exact hf a
  · rw [List.mem_singleton.1 h]; exact hm

theorem keepsInv_startOne {s : State} (hi : s.Inv) (he : s.err = false) {m : Micro} (hm : m.ok s)
    (hc : m.closing = true) : Out.keepsInv (s.start [m]) :=
  keepsInv_startMap hi he ([] : List Unit) (fun _ => m) (fun _ => hm) hm hc

/-- A write of a key within SYM_CAP (R194, R218). -/
theorem FMap.length_put_cap {α : Type} {m : FMap α} {k : Word} {v : α} {cap : Nat} (hm : m.wf) (hl : m.length ≤ cap)
    (h : ¬ (m.get k = none ∧ m.length = cap)) : (m.put k v).length ≤ cap := by
  by_cases hk : m.get k = none
  · rw [FMap.length_put_new m k v hk]
    have : m.length ≠ cap := fun e => h ⟨hk, e⟩
    omega
  · rwa [FMap.length_put_old m k v hm hk]

/-! ### Commands -/

section
variable {s : State} {w : BitVec 32}

theorem execSetWidth_inv (hi : s.Inv) (hr : s.run = .accepted w) (n : Nat) : Out.keepsInv (execSetWidth n s) := by
  unfold execSetWidth
  split_ifs with h
  · exact keepsInv_fail hi _
  · exact keepsInv_succeed (inv_installWidth hi hr (by omega) (by omega))

theorem execBsApp_inv (hi : s.Inv) (rd : BsIdx) (b : Bool) : Out.keepsInv (execBsApp rd b s) := by
  unfold execBsApp
  split_ifs with h
  · exact keepsInv_fail hi _
  · exact keepsInv_succeed (inv_setBs hi rd (BitSeq.append_wf _ b (hi.bs rd) (lt_of_le_of_ne (hi.bs rd).1 h)))

theorem execBsGet_inv (hi : s.Inv) (rs : BsIdx) (i : Nat) : Out.keepsInv (execBsGet rs i s) := by
  unfold execBsGet
  split_ifs
  · exact keepsInv_fail hi _
  · exact keepsInv_succeed (inv_setRes0 hi _)

theorem execBsLd_inv (hi : s.Inv) (rd : BsIdx) : Out.keepsInv (execBsLd rd s) := by
  unfold execBsLd
  split_ifs with h
  · exact keepsInv_fail hi _
  · exact keepsInv_succeed (inv_setBs hi rd (BitSeq.mk'_wf _ _ (Nat.le_of_not_lt h)))

theorem execBsCat_inv (hi : s.Inv) (rd rs : BsIdx) : Out.keepsInv (execBsCat rd rs s) := by
  unfold execBsCat
  split_ifs with h
  · exact keepsInv_fail hi _
  · exact keepsInv_succeed (inv_setBs hi rd (BitSeq.concat_wf _ _ (hi.bs rd) (hi.bs rs) (Nat.le_of_not_lt h)))

theorem execFreqAdd_inv (hi : s.Inv) (hr : s.run = .accepted w) : Out.keepsInv (execFreqAdd s) := by
  refine keepsInv_checkedWidthOr hi fun hw => ?_
  split
  · exact keepsInv_fail hi _
  · next m hm =>
    obtain ⟨hf, hl⟩ := bump_wf hi.ftForm hi.ftCap hm
    exact keepsInv_succeed (inv_setFt hi hr (.inl hw) hf hl)

theorem execFreqSet_inv (hi : s.Inv) (hr : s.run = .accepted w) : Out.keepsInv (execFreqSet s) := by
  refine keepsInv_checkedWidthOr hi fun hw => ?_
  split_ifs with h
  · exact keepsInv_fail hi _
  · exact keepsInv_succeed (inv_setFt hi hr (.inl hw) (FMap.wf_put _ _ _ hi.ftForm)
      (FMap.length_put_cap hi.ftForm hi.ftCap h))

theorem execFreqGet_inv (hi : s.Inv) : Out.keepsInv (execFreqGet s) := by
  refine keepsInv_checkedWidthOr hi fun _ => ?_
  split
  · exact keepsInv_succeed (inv_setRes hi _ _)
  · exact keepsInv_succeed (inv_setRes hi _ _)

theorem execFreqScan_inv (hi : s.Inv) (hr : s.run = .accepted w) (he : s.err = false) :
    Out.keepsInv (execFreqScan s) :=
  keepsInv_checkedWidth hi fun hw => keepsInv_startOne (inv_clearEtree hi hr hw) he ⟨hw, rfl⟩ rfl

theorem execBuildTree_inv (hi : s.Inv) (hr : s.run = .accepted w) : Out.keepsInv (execBuildTree s) := by
  refine keepsInv_checkedWidth hi fun hw => ?_
  split
  · exact keepsInv_fail (inv_clearEtree hi hr hw) _
  · next root hb =>
    obtain ⟨hl, hn⟩ := buildTree_tree hb
    exact keepsInv_succeed (inv_setRes (inv_setEtree hi hr hw fun t ht => by cases ht; exact ⟨hl, hn.trans hi.ftCap⟩) _ _)

theorem execAssignCodes_inv (hi : s.Inv) (hr : s.run = .accepted w) : Out.keepsInv (execAssignCodes s) := by
  refine keepsInv_checkedWidth hi fun hw => ?_
  split
  · exact keepsInv_fail hi _
  · next t ht =>
    obtain ⟨hleaf, hcap⟩ := hi.etree t ht
    unfold State.assignFrom
    split
    · exact keepsInv_fail (inv_clearCt hi hr) _
    · next ct m hv =>
      obtain ⟨hct, hlen⟩ := visit_codeTable t _ _ _ _ hv (.inl hleaf) FMap.codeTable_nil
      exact keepsInv_succeed (inv_setRes (inv_setCt hi hr (.inl hw) hct
        (hlen.trans (by simpa using hcap))) _ _)

theorem execCodeGet_inv (hi : s.Inv) : Out.keepsInv (execCodeGet s) := by
  refine keepsInv_checkedWidthOr hi fun _ => ?_
  split
  · exact keepsInv_succeed (inv_setRes hi _ _)
  · exact keepsInv_succeed (inv_setRes hi _ _)

theorem execCodeSet_inv (hi : s.Inv) (hr : s.run = .accepted w) (rs : BsIdx) : Out.keepsInv (execCodeSet rs s) := by
  refine keepsInv_checkedWidthOr hi fun hw => ?_
  split_ifs with h0 hcap
  · exact keepsInv_fail hi _
  · exact keepsInv_fail hi _
  · have hct : s.ct.codeTable := ⟨hi.ctForm, hi.ctCodes⟩
    exact keepsInv_succeed (inv_setCt hi hr (.inl hw)
      (FMap.codeTable_put hct _ ⟨hi.bs rs, Nat.one_le_iff_ne_zero.2 h0⟩)
      (FMap.length_put_cap hi.ctForm hi.ctCap hcap))

theorem execSerTable_inv (hi : s.Inv) (he : s.err = false) : Out.keepsInv (execSerTable s) :=
  keepsInv_checkedWidthOr hi fun _ => keepsInv_startMap hi he _ Micro.out (fun _ => trivial) trivial rfl

theorem execDeserTable_inv (hi : s.Inv) (hr : s.run = .accepted w) (he : s.err = false) :
    Out.keepsInv (execDeserTable s) :=
  keepsInv_checkedWidth hi fun hw => keepsInv_startOne (inv_clearCt hi hr) he ⟨hw, rfl, rfl, rfl⟩ rfl

theorem execReconTree_inv (hi : s.Inv) (hr : s.run = .accepted w) : Out.keepsInv (execReconTree s) := by
  refine keepsInv_checkedWidthOr hi fun hw => ?_
  split
  · exact keepsInv_fail (inv_setDtree hi hr hw fun t ht => by cases ht) _
  · next t count maxd ht =>
    exact keepsInv_succeed (inv_setRes (inv_setDtree hi hr hw fun t' ht' => by
      cases ht'; exact reconTree_shaped ht hi.ctCodes) _ _)

theorem execPackSym_inv (hi : s.Inv) (he : s.err = false) : Out.keepsInv (execPackSym s) := by
  refine keepsInv_checked hi fun _ => ?_
  unfold State.packCode
  split
  · exact keepsInv_fail hi _
  · split
    · exact keepsInv_fail hi _
    · next n _ =>
      have hp : (s.setPacker { s.packer with syms := n }).Inv := inv_setPacker hi _ hi.packer
      exact keepsInv_startMap hp he _ Micro.emitBit (fun _ => trivial) trivial rfl

theorem execPackFlush_inv (hi : s.Inv) (he : s.err = false) : Out.keepsInv (execPackFlush s) := by
  unfold execPackFlush
  split_ifs
  · exact keepsInv_startOne hi he trivial rfl
  · exact keepsInv_start hi he (by simp [Micro.ok, Finish.ok]) rfl

theorem execUnpackByte_inv (hi : s.Inv) (he : s.err = false) : Out.keepsInv (execUnpackByte s) := by
  refine keepsInv_checkedWidthOr hi fun _ => ?_
  split_ifs
  · exact keepsInv_fail hi _
  · exact keepsInv_startMap hi he _ Micro.decodeBit (fun _ => trivial) trivial rfl

/-- Every command keeps the invariant when its word has been accepted; in error only SRESET and ERR_CLR are run (R326). -/
theorem exec_inv (hi : s.Inv) (hr : s.run = .accepted w) (i : Instr)
    (he : i = .sreset ∨ i = .errClr ∨ s.err = false) : Out.keepsInv (exec i s) := by
  rcases he with rfl | rfl | he
  · exact keepsInv_succeed (inv_softReset hi)
  · exact keepsInv_succeed (inv_clearError hi)
  cases i with
  | nop => exact keepsInv_succeed hi
  | sreset => exact keepsInv_succeed (inv_softReset hi)
  | errClr => exact keepsInv_succeed (inv_clearError hi)
  | setWidth n => exact execSetWidth_inv hi hr n
  | bsClr rd => exact keepsInv_succeed (inv_setBs hi rd BitSeq.wf_empty)
  | bsApp rd b => exact execBsApp_inv hi rd b
  | bsGet rs n => exact execBsGet_inv hi rs n
  | bsLen rs => exact keepsInv_succeed (inv_setRes0 hi _)
  | bsCpy rd rs => exact keepsInv_succeed (inv_setBs hi rd (hi.bs rs))
  | bsEq rs rt => exact keepsInv_succeed (inv_setRes0 hi _)
  | bsLd rd => exact execBsLd_inv hi rd
  | bsRd rs => exact keepsInv_succeed (inv_setRes hi _ _)
  | bsCat rd rs => exact execBsCat_inv hi rd rs
  | freqClr => exact keepsInv_succeed (inv_setFt hi hr (.inr rfl) .nil (Nat.zero_le _))
  | freqAdd => exact execFreqAdd_inv hi hr
  | freqSet => exact execFreqSet_inv hi hr
  | freqGet => exact execFreqGet_inv hi
  | freqScan => exact execFreqScan_inv hi hr he
  | buildTree => exact execBuildTree_inv hi hr
  | assignCodes => exact execAssignCodes_inv hi hr
  | codeGet => exact execCodeGet_inv hi
  | codeSet rs => exact execCodeSet_inv hi hr rs
  | codeClr => exact keepsInv_succeed (inv_clearCt hi hr)
  | serTable => exact execSerTable_inv hi he
  | deserTable => exact execDeserTable_inv hi hr he
  | reconTree => exact execReconTree_inv hi hr
  | packInit => exact keepsInv_succeed (inv_resetPacker hi)
  | packSym => exact execPackSym_inv hi he
  | packBs rs => exact keepsInv_startMap hi he _ Micro.emitBit (fun _ => trivial) trivial rfl
  | packFlush => exact execPackFlush_inv hi he
  | pack => exact keepsInv_checked hi fun _ => keepsInv_startOne (inv_resetPacker hi) he trivial rfl
  | unpackInit => exact keepsInv_succeed (inv_resetDecoder hi)
  | unpackByte => exact execUnpackByte_inv hi he
  | unpack => exact keepsInv_checked hi fun _ => keepsInv_startOne (inv_resetDecoder hi) he trivial rfl

end

/-! ### The core, the host, and a step -/

/-- In error an accepted word is SRESET's or ERR_CLR's (R326). -/
theorem decode_of_err {s : State} {w : BitVec 32} {i : Instr} (hi : s.Inv) (hr : s.run = .accepted w)
    (hd : decode w = .ok i) : i = .sreset ∨ i = .errClr ∨ s.err = false := by
  cases he : s.err with
  | false => exact .inr (.inr rfl)
  | true =>
    have h := hi.errQuiet he
    simp only [hr, Run.accepted.injEq, reduceCtorEq, false_or] at h
    rcases h with rfl | rfl
    · left; cases hd; rfl
    · right; left; cases hd; rfl

theorem runWord_inv {s : State} {w : BitVec 32} (hi : s.Inv) (hr : s.run = .accepted w) :
    Out.keepsInv (s.runWord w) := by
  unfold State.runWord
  split
  · next i hd => exact exec_inv hi hr i (decode_of_err hi hr hd)
  · exact keepsInv_fail hi _

/-- A move of the core keeps the invariant. -/
theorem coreStep_inv {s : State} (hi : s.Inv) : Out.keepsInv s.coreStep := by
  unfold State.coreStep
  split
  · exact keepsInv_next hi
  · next hr => exact runWord_inv hi hr
  · exact keepsInv_next (inv_settle (inv_micro hi))

theorem inv_ioFail {s : State} (hi : s.Inv) (v : Word) : (s.ioFail v).Inv := by
  unfold State.ioFail
  split_ifs
  · exact inv_outside hi
  · exact hi

theorem inv_writeReg {s : State} (hi : s.Inv) (idx : BitVec 8) (v : Word) : (s.writeReg idx v).Inv := by
  unfold State.writeReg
  split
  iterate 4 exact inv_outside hi
  exact hi

theorem inv_regRead {s : State} (hi : s.Inv) (idx : BitVec 8) : (s.regRead idx).Inv := by
  unfold State.regRead
  split_ifs
  · exact inv_outside hi
  · exact inv_outside hi

theorem inv_popOut {s : State} (hi : s.Inv) : s.popOut.Inv := by
  unfold State.popOut
  split
  · exact hi
  · exact inv_outside hi

/-- Every action of the host keeps the invariant. -/
theorem inv_hostAct {s : State} (hi : s.Inv) (a : HostAction) : (s.hostAct a).Inv := by
  cases a with
  | wr idx v =>
    simp only [State.hostAct]
    split_ifs
    · exact inv_ioFail hi v
    · exact inv_writeReg hi idx v
  | rd idx => exact inv_regRead hi idx
  | wait => exact hi
  | push t => exact inv_outside hi
  | pop => exact inv_popOut hi
  | drain => exact inv_outside hi
  | hwReset => exact inv_hardReset hi

/-- A move of the host keeps the invariant, the run of a command it issues included. -/
theorem hostStep_inv {s : State} (hi : s.Inv) (a : HostAction) : Out.keepsInv (s.hostStep a) := by
  unfold State.hostStep
  split
  · next w _ =>
    split_ifs with hd
    · exact keepsInv_next (inv_outside hi)
    · exact runWord_inv (inv_accept (inv_advance hi) (Bool.eq_false_iff.2 hd)) rfl
    · exact keepsInv_next (inv_accept (inv_advance hi) (Bool.eq_false_iff.2 hd))
  · exact keepsInv_next (inv_advance (inv_hostAct hi a))

theorem keepsInv_fault (f : Fault) : Out.keepsInv (.fault f) := fun _ h => by cases h

theorem abortWait_inv {s : State} (hi : s.Inv) : Out.keepsInv s.abortWait := coreStep_inv (inv_outside hi)

/-- One step keeps the invariant, whoever moves. -/
theorem step_inv {s : State} (hi : s.Inv) : Out.keepsInv (step s) := by
  have ht := inv_popTurn hi
  unfold step State.cycle
  split
  · dsimp only
    split
    · exact coreStep_inv ht
    · split
      · exact hostStep_inv ht _
      · exact keepsInv_fault _
    · split
      · exact abortWait_inv ht
      · exact keepsInv_fault _
  · split
    · exact keepsInv_next hi
    · split
      · exact hostStep_inv hi _
      · exact keepsInv_fault _

/-- Settles O49: the invariant is kept by every command at its beginning (`exec_inv`), by every micro-step of a running one, and by every action of the host. -/
theorem everyStepKeepsTheInvariant : Obligations.EveryStepKeepsTheInvariant := fun _ t hi h => step_inv hi t h

end Sys2Proof.Machine
end

section
/-! The host's view of the block (R31, R35, R52, R54, R122): what a register read and a register write do, and the steps in which the host moves. -/

namespace Sys2Proof.Machine

/-! ### STATUS and the other words with fields (R35, R50, R51) -/

/-- Bits 11:9 and 63:16 of STATUS are reserved (R35). -/
theorem State.statusWord_reserved (s : State) (i : Nat) (h : 9 ≤ i) (h' : i < 12 ∨ 16 ≤ i) :
    s.statusWord.getLsbD i = false := by
  rcases Nat.lt_or_ge i 64 with hi | hi
  · have hw : (decide (12 ≤ i) && s.width.getLsbD (i - 12)) = false := by
      rcases h' with h' | h'
      · simp [Nat.not_le.2 h']
      · simp [BitVec.getLsbD_of_ge s.width (i - 12) (by omega)]
    rw [s.statusWord_getLsbD i hi, hw]
    simp [show ∀ k, k ≤ 8 → i ≠ k by omega]
  · exact BitVec.getLsbD_of_ge _ _ hi

/-- A field of a word is zero where its bits are. -/
theorem extractLsb'_eq_zero {x : Word} {k n : Nat} (h : ∀ i, i < n → x.getLsbD (k + i) = false) :
    x.extractLsb' k n = 0 := by
  refine BitVec.eq_of_getLsbD_eq fun i hi => ?_
  simp [BitVec.getLsbD_extractLsb', h i hi]

/-- Bits 15:12 of STATUS are WIDTH (R35). -/
theorem State.statusWord_width (s : State) : s.statusWord.extractLsb' 12 4 = s.width := by
  refine BitVec.eq_of_getLsbD_eq fun i hi => ?_
  rw [BitVec.getLsbD_extractLsb', s.statusWord_getLsbD _ (by omega)]
  simp [hi, show ∀ k, k ≤ 8 → 12 + i ≠ k by omega]

/-- A word shifted past its highest set bit is zero. -/
theorem ushiftRight_eq_zero {x : Word} {k : Nat} (h : ∀ i, k ≤ i → x.getLsbD i = false) : x >>> k = 0 := by
  refine BitVec.eq_of_getLsbD_eq fun i _ => ?_
  simp [h (k + i) (Nat.le_add_right k i)]

theorem setWidth_ushiftRight_eq_zero {n : Nat} (x : BitVec n) {k : Nat} (h : n ≤ k) : x.setWidth 64 >>> k = 0 :=
  ushiftRight_eq_zero fun i hi => by simp [BitVec.getLsbD_of_ge x i (by omega)]

/-- Bits 63:11 of PACK_STATE are reserved (R50). -/
theorem State.packState_reserved (s : State) : s.packState >>> 11 = 0 := by
  refine ushiftRight_eq_zero fun i hi => ?_
  rcases Nat.lt_or_ge i 64 with h | h
  · rw [s.packState_getLsbD i h, if_neg (by omega), BitVec.getLsbD_of_ge _ _ (by omega)]
  · exact BitVec.getLsbD_of_ge _ _ h

/-- Bits 63:7 of DEC_STATE are reserved (R51). -/
theorem State.decState_reserved {s : State} (h : s.decoder.acc.wf) : s.decState >>> 7 = 0 := by
  have hl := h.1
  refine BitVec.eq_of_toNat_eq ?_
  simp only [State.decState, BitVec.toNat_ushiftRight, BitVec.ofNat_eq_ofNat, BitVec.toNat_ofNat,
    Nat.shiftRight_eq_div_pow]
  omega

/-- The mask of the reserved bits of STATUS (R35). -/
theorem statusMask_getLsbD : ∀ i : Fin 64, (0xFFFFFFFFFFFF0E00#64).getLsbD i = true →
    9 ≤ i.val ∧ (i.val < 12 ∨ 16 ≤ i.val) := by decide

theorem State.statusWord_and_mask (s : State) : s.statusWord &&& 0xFFFFFFFFFFFF0E00 = 0 := by
  refine BitVec.eq_of_getLsbD_eq fun i hi => ?_
  rw [BitVec.getLsbD_and]
  cases hm : (0xFFFFFFFFFFFF0E00#64).getLsbD i with
  | false => simp
  | true =>
    obtain ⟨h9, h12⟩ := statusMask_getLsbD ⟨i, hi⟩ hm
    simp [s.statusWord_reserved i h9 h12]

/-! ### Registers (R31, R54) -/

@[simp] theorem State.readReg_status (s : State) : s.readReg 0x01 = s.statusWord := rfl

@[simp] theorem State.readReg_cause (s : State) : s.readReg 0x06 = s.errRec.cause.setWidth 64 := rfl

@[simp] theorem State.readReg_intEn (s : State) : s.readReg 0x12 = s.regs.intEn.setWidth 64 := rfl

@[simp] theorem State.readReg_packState (s : State) : s.readReg 0x13 = s.packState := rfl

@[simp] theorem State.readReg_decState (s : State) : s.readReg 0x14 = s.decState := rfl

/-- A reserved index reads 0 (R54). -/
theorem State.readReg_reserved (s : State) {idx : BitVec 8} (h : 0x1A ≤ idx.toNat) : s.readReg idx = 0 := by
  unfold State.readReg
  split
  case h_25 => rfl
  all_goals omega

/-- A change of ARG0, ARG1, BITLIMIT or INT_EN is seen only where that register is read (R31). -/
theorem State.readReg_regs {s : State} {regs : HostRegs} {j : BitVec 8} (hr0 : regs.res0 = s.regs.res0)
    (hr1 : regs.res1 = s.regs.res1) (h0 : j = 0x02#8 → regs.arg0 = s.regs.arg0)
    (h1 : j = 0x03#8 → regs.arg1 = s.regs.arg1) (hl : j = 0x0B#8 → regs.bitlimit = s.regs.bitlimit)
    (he : j = 0x12#8 → regs.intEn = s.regs.intEn) : { s with regs := regs }.readReg j = s.readReg j := by
  unfold State.readReg
  split
  case h_2 hj => exact h0 (BitVec.eq_of_toNat_eq hj)
  case h_3 hj => exact h1 (BitVec.eq_of_toNat_eq hj)
  case h_4 => exact hr0
  case h_5 => exact hr1
  case h_11 hj => exact hl (BitVec.eq_of_toNat_eq hj)
  case h_18 hj => exact congrArg (BitVec.setWidth 64) (he (BitVec.eq_of_toNat_eq hj))
  all_goals rfl

/-- A write is seen only in the register written (R31). -/
theorem State.readReg_writeReg_ne (s : State) {idx j : BitVec 8} (v : Word) (h : j ≠ idx) :
    (s.writeReg idx v).readReg j = s.readReg j := by
  have hn : ∀ {k : BitVec 8}, idx.toNat = k.toNat → j ≠ k := fun hk e => h (e.trans (BitVec.eq_of_toNat_eq hk).symm)
  unfold State.writeReg
  split
  case h_1 hk => exact State.readReg_regs rfl rfl (absurd · (hn hk)) (fun _ => rfl) (fun _ => rfl) (fun _ => rfl)
  case h_2 hk => exact State.readReg_regs rfl rfl (fun _ => rfl) (absurd · (hn hk)) (fun _ => rfl) (fun _ => rfl)
  case h_3 hk => exact State.readReg_regs rfl rfl (fun _ => rfl) (fun _ => rfl) (absurd · (hn hk)) (fun _ => rfl)
  case h_4 hk => exact State.readReg_regs rfl rfl (fun _ => rfl) (fun _ => rfl) (fun _ => rfl) (absurd · (hn hk))
  case h_5 => rfl

theorem setWidth_two (v : Word) : (v.setWidth 2).setWidth 64 = v &&& 3 := by
  refine BitVec.eq_of_getLsbD_eq fun i hi => ?_
  have h3 : (3#64).getLsbD i = decide (i < 2) := by
    have : ∀ k : Fin 64, (3#64).getLsbD k = decide (k.val < 2) := by decide
    exact this ⟨i, hi⟩
  simp only [BitVec.getLsbD_setWidth, BitVec.getLsbD_and, BitVec.ofNat_eq_ofNat, h3, hi, decide_true, Bool.true_and]
  exact Bool.and_comm _ _

/-- A read-write register reads what was written, INT_EN its two bits (R33, R45, R49). -/
theorem State.readReg_writeReg_self (s : State) {idx : BitVec 8} (v : Word)
    (h : idx ∈ [0x02#8, 0x03#8, 0x0B#8, 0x12#8]) :
    (s.writeReg idx v).readReg idx = if idx = 0x12#8 then v &&& 3 else v := by
  simp only [List.mem_cons, List.not_mem_nil, or_false] at h
  rcases h with rfl | rfl | rfl | rfl
  · rfl
  · rfl
  · rfl
  · exact setWidth_two v

/-- A write to any other index is ignored (R54). -/
theorem State.writeReg_ignored (s : State) {idx : BitVec 8} (v : Word)
    (h : idx ∉ [0x02#8, 0x03#8, 0x0B#8, 0x12#8]) : s.writeReg idx v = s := by
  simp only [List.mem_cons, List.not_mem_nil, or_false, not_or] at h
  obtain ⟨h2, h3, hb, h12⟩ := h
  unfold State.writeReg
  split
  case h_1 hk => exact absurd (BitVec.eq_of_toNat_eq hk) h2
  case h_2 hk => exact absurd (BitVec.eq_of_toNat_eq hk) h3
  case h_3 hk => exact absurd (BitVec.eq_of_toNat_eq hk) hb
  case h_4 hk => exact absurd (BitVec.eq_of_toNat_eq hk) h12
  case h_5 => rfl

theorem State.writeReg_run (s : State) (idx : BitVec 8) (v : Word) : (s.writeReg idx v).run = s.run := by
  unfold State.writeReg; split <;> rfl

theorem State.writeReg_done (s : State) (idx : BitVec 8) (v : Word) : (s.writeReg idx v).done = s.done := by
  unfold State.writeReg; split <;> rfl

theorem State.sameBut_writeReg (s : State) (idx : BitVec 8) (v : Word) :
    s.sameBut (s.writeReg idx v) [.args, .intEn] := by
  unfold State.writeReg
  split
  case h_5 => exact s.sameBut_refl _
  all_goals
    intro p hp
    cases p <;> simp_all [Part.same, State.bsAt]

/-! ### Moves of the host -/

theorem State.sameBut_advance (s : State) : s.sameBut s.advance [.host] := by
  intro p hp; cases p <;> simp_all [Part.same, State.bsAt]

theorem State.sameBut_popTurn (s : State) : s.sameBut s.popTurn [.host] := by
  intro p hp; cases p <;> simp_all [Part.same, State.bsAt]

theorem State.sameBut_regRead (s : State) (idx : BitVec 8) : s.sameBut (s.regRead idx) [.host] := by
  unfold State.regRead
  intro p hp
  split_ifs <;> cases p <;> simp_all [Part.same, State.bsAt]

theorem State.sameBut_popOut (s : State) : s.sameBut s.popOut [.outq, .host] := by
  unfold State.popOut
  intro p hp
  split <;> cases p <;> simp_all [Part.same, State.bsAt]

theorem State.sameBut_drainOut (s : State) : s.sameBut s.drainOut [.outq, .host] := by
  intro p hp; cases p <;> simp_all [Part.same, State.bsAt, State.drainOut]

/-- On an idle core a read records the register's value (R31). -/
theorem State.regRead_idle {s : State} (hr : s.run = .idle) (idx : BitVec 8) :
    s.regRead idx = { s with host := { s.host with rdRec := s.host.rdRec ++ [s.readReg idx] } } := by
  simp [State.regRead, State.busy, hr]

/-- A host action that is no CMD write is done and counted (R378). -/
theorem State.hostStep_of_act {s : State} {a : HostAction} (h : s.cmdWord a = none) :
    s.hostStep a = .next (s.hostAct a).advance := by
  simp [State.hostStep, h]

theorem State.cmdWord_wr (s : State) {idx : BitVec 8} (v : Word) (h : idx ≠ 0x00#8) : s.cmdWord (.wr idx v) = none :=
  if_neg h

/-- On an idle core the host performs its next action (R378). -/
theorem step_idle {s : State} {a : HostAction} (hr : s.run = .idle) (ha : s.nextAction = some a)
    (hrdy : s.hostReady a = true) (hc : s.cmdWord a = none) : step s = .next (s.hostAct a).advance := by
  simp [step, State.cycle, State.busy, hr, ha, hrdy, State.hostStep_of_act hc]

/-- When the host's program is over an idle machine stays as it is (R340, R378; log 8). -/
theorem step_idle_over {s : State} (hr : s.run = .idle) (ha : s.nextAction = none) : step s = .next s := by
  simp [step, State.cycle, State.busy, hr, ha]

/-- The host moves where the core waits, and where it is the host's turn (R102, R367; log 5). -/
theorem State.mover_host {s : State} (hc : s.hostCanAct = true)
    (ht : s.coreReady = false ∨ s.host.turns.head? = some .host) : s.mover = some .host := by
  unfold State.mover
  split
  · next hp =>
    have hw : s.coreReady = false := ht.resolve_right fun h => by simp [State.preferred, h] at hp
    simp [hw, hc]
  · simp [hc]

/-- While a command runs, a host that moves uses up a turn and performs its next action (log 5). -/
theorem step_busy_host {s : State} {a : HostAction} (hr : s.run ≠ .idle) (ha : s.nextAction = some a)
    (hrdy : s.hostReady a = true) (hc : s.cmdWord a = none)
    (ht : s.coreReady = false ∨ s.host.turns.head? = some .host) :
    step s = .next (s.popTurn.hostAct a).advance := by
  have hm : s.mover = some .host := State.mover_host (by simp [State.hostCanAct, ha, hrdy]) ht
  have hs : s.popTurn.hostStep a = .next (s.popTurn.hostAct a).advance := State.hostStep_of_act hc
  simp [step, State.cycle, State.busy, hr, ha, hm, hs]

/-! ### IOFAIL (R52, R331) -/

theorem State.ioFail_sets {s : State} {v : Word} (hv : v.getLsbD 0 = true) (hs : s.streaming = true)
    (hi : s.iof = false) :
    s.ioFail v = { s with iof := true, iofSkip := Config.freeIofSkip s.host.draws }.drawn := by
  simp [State.ioFail, hv, hs, hi]

theorem State.ioFail_ignored {s : State} {v : Word}
    (h : s.iof = true ∨ v.getLsbD 0 = false ∨ s.streaming = false) : s.ioFail v = s := by
  refine if_neg fun hc => ?_
  simp only [Bool.and_eq_true, Bool.not_eq_true'] at hc
  obtain ⟨⟨hv, hs⟩, hi⟩ := hc
  rw [hv, hs, hi] at h
  simp at h

theorem State.sameBut_ioFail (s : State) (v : Word) : s.sameBut (s.ioFail v) [.host] := by
  unfold State.ioFail
  intro p hp
  split_ifs <;> cases p <;> simp_all [Part.same, State.bsAt]

/-- A stream command runs: it has micro-operations left, or its word has been accepted (log 18). -/
theorem State.streaming_of_stream {s : State}
    (h : (∃ todo, s.run = .running todo) ∨ ∃ w i, s.run = .accepted w ∧ decode w = .ok i ∧ isStream i = true) :
    s.streaming = true := by
  rcases h with ⟨todo, hr⟩ | ⟨w, i, hr, hd, hs⟩
  · simp [State.streaming, hr]
  · simp [State.streaming, hr, hd, hs]

theorem State.streaming_of_noStream {s : State} {w : BitVec 32} (hr : s.run = .accepted w)
    (h : ∀ i, decode w = .ok i → isStream i = false) : s.streaming = false := by
  cases hd : decode w with
  | ok i => simp [State.streaming, hr, hd, h i hd]
  | error e => simp [State.streaming, hr, hd]

/-! ### The obligations of file 10 -/

/-- Settles O54: the host's move is `step_busy_host` or `step_idle`, and the flag is set or not by `State.ioFail`. -/
theorem sinkFailureSetsTheFlag : Obligations.SinkFailureSetsTheFlag := by
  intro s v ha
  have hc : s.cmdWord (.wr 0x16 v) = none := s.cmdWord_wr v (by decide)
  refine ⟨fun hr => ?_, fun hr ht => ?_⟩
  · have hio : s.ioFail v = s := State.ioFail_ignored (.inr (.inr (by simp [State.streaming, hr])))
    rw [step_idle hr ha rfl hc]
    exact congrArg (fun u : State => Host.Outcome.next u.advance) hio
  · rw [step_busy_host hr ha rfl hc ht]
    refine ⟨fun hs hi hv => ?_, fun h => ?_⟩
    · have hio := State.ioFail_sets (s := s.popTurn) hv (State.streaming_of_stream (s := s.popTurn) hs) hi
      have hframe : s.sameBut (s.popTurn.ioFail v).advance [.host] :=
        State.sameBut_trans (State.sameBut_trans s.sameBut_popTurn (s.popTurn.sameBut_ioFail v)) (State.sameBut_advance _)
      refine ⟨_, rfl, ?_, ?_, ?_, ?_, ?_, hframe⟩ <;> simp [State.hostAct, hio]
    · have hio : s.popTurn.ioFail v = s.popTurn := by
        refine State.ioFail_ignored (h.imp_right (Or.imp_right ?_))
        rintro ⟨w, hw, hn⟩
        exact State.streaming_of_noStream (s := s.popTurn) hw hn
      exact congrArg (fun u : State => Host.Outcome.next u.advance) hio

/-- Settles O56: bit by bit, by `State.statusWord_getLsbD`. -/
theorem statusAndInterrupt : Obligations.StatusAndInterrupt := by
  intro s
  have hb := s.statusWord_getLsbD
  have hres : ∀ k n, 9 ≤ k → k + n ≤ 12 ∨ 16 ≤ k → s.statusWord.extractLsb' k n = 0 := fun k n hk h =>
    extractLsb'_eq_zero fun i hi => s.statusWord_reserved _ (by omega) (by omega)
  simp only [State.readReg_status, State.readReg_intEn]
  refine ⟨?_, ?_, ?_, ?_, ?_, ?_, ?_, ?_, ?_, hres 9 3 (by omega) (by omega), s.statusWord_width,
    hres 16 48 (by omega) (by omega), ?_⟩
  iterate 9
    rw [hb _ (by decide)]
    simp [State.etreeV, State.ctValid, State.dtreeV]
  rw [hb _ (by decide), hb _ (by decide)]
  simp [State.irq]

/-- Settles O57: the write is `State.writeReg`, and only the register written reads otherwise. -/
theorem writableRegistersReadBack : Obligations.WritableRegistersReadBack := by
  intro s idx v hidx hr ha
  have hne : idx ≠ 0x00#8 ∧ idx ≠ 0x16#8 := by
    constructor <;> rintro rfl <;> simp at hidx
  have hact : s.hostAct (.wr idx v) = s.writeReg idx v := if_neg hne.2
  refine ⟨(s.writeReg idx v).advance, ?_, s.readReg_writeReg_self v hidx, fun j hj => s.readReg_writeReg_ne v hj,
    s.writeReg_run idx v ▸ hr, s.writeReg_done idx v, ?_, ?_⟩
  · rw [step_idle hr ha rfl (s.cmdWord_wr v hne.1), hact]
  · have hh : (s.writeReg idx v).host = s.host := s.sameBut_writeReg idx v .host (by decide)
    simp [hh]
  · exact State.sameBut_trans (State.sameBut_mono (s.sameBut_writeReg idx v) (by decide))
      (State.sameBut_mono (State.sameBut_advance _) (by decide))

/-- Settles O58: each action is one move of the idle machine (`step_idle`). -/
theorem hostActionsOnAnIdleCore : Obligations.HostActionsOnAnIdleCore := by
  intro s hr
  refine ⟨fun x ha hroom => ?_, fun b rest ha hq => ?_, fun ha => ?_, fun idx ha => ?_, fun ha => ?_, step_idle_over hr⟩
  · exact step_idle hr ha (by simpa [State.hostReady] using hroom) rfl
  · have hpop : s.popOut = { s with outq := rest, host := { s.host with outRec := s.host.outRec ++ [b] } } := by
      simp [State.popOut, hq]
    refine ⟨s.popOut.advance, step_idle hr ha (by simp [State.hostReady, hq]) rfl, by simp [hpop], by simp [hpop],
      by simp [hpop, hr], ?_⟩
    exact State.sameBut_trans s.sameBut_popOut (State.sameBut_mono (State.sameBut_advance _) (by decide))
  · refine ⟨s.drainOut.advance, step_idle hr ha rfl rfl, rfl, rfl, hr, ?_⟩
    exact State.sameBut_trans s.sameBut_drainOut (State.sameBut_mono (State.sameBut_advance _) (by decide))
  · have hrd := State.regRead_idle hr idx
    refine ⟨(s.regRead idx).advance, step_idle hr ha rfl rfl, by simp [hrd], by simp [hrd, hr], ?_⟩
    exact State.sameBut_trans (s.sameBut_regRead idx) (State.sameBut_advance _)
  · exact step_idle hr ha (by simp [State.hostReady, State.busy, hr]) rfl

/-- Settles O59: index by index, and field by field for the reserved bits. -/
theorem reservedAndReadOnlyRegisters : Obligations.ReservedAndReadOnlyRegisters := by
  intro s idx v
  refine ⟨?_, fun h => ?_, s.sameBut_regRead idx, s.statusWord_and_mask, setWidth_ushiftRight_eq_zero _ (le_refl 8),
    setWidth_ushiftRight_eq_zero _ (le_refl 2), s.packState_reserved, State.decState_reserved, rfl, rfl, rfl⟩
  · rintro (h | rfl | rfl)
    · exact s.readReg_reserved h
    · rfl
    · rfl
  · have h16 : idx ≠ 0x16#8 := by rintro rfl; simp at h
    rw [show s.hostAct (.wr idx v) = s.writeReg idx v from if_neg h16]
    exact s.writeReg_ignored v fun hm => h (by simp at hm ⊢; tauto)

end Sys2Proof.Machine
end

section
/-! Where a step stops (R102, R369, R370; log 7): no move of the core or of the host faults or is refused, so a step faults only where it has nobody to move. -/

namespace Sys2Proof.Machine

theorem State.runWord_isNext (s : State) (w : BitVec 32) : Out.isNext (s.runWord w) := by
  unfold State.runWord
  split
  · exact exec_isNext _ s
  · trivial

theorem State.coreStep_isNext (s : State) : Out.isNext s.coreStep := by
  unfold State.coreStep
  split
  · trivial
  · exact s.runWord_isNext _
  · trivial

theorem State.hostStep_isNext (s : State) (a : HostAction) : Out.isNext (s.hostStep a) := by
  unfold State.hostStep
  split
  · split_ifs
    · trivial
    · exact State.runWord_isNext _ _
    · trivial
  · trivial

/-- Nobody moves exactly where neither agent can (R369). -/
theorem State.mover_eq_none (s : State) : s.mover = none ↔ s.coreReady = false ∧ s.hostCanAct = false := by
  unfold State.mover
  cases s.preferred <;> cases s.coreReady <;> cases s.hostCanAct <;> decide

/-- The host is chosen only where it has an action that can complete. -/
theorem State.hostCanAct_of_mover {s : State} (h : s.mover = some .host) : s.hostCanAct = true := by
  revert h
  unfold State.mover
  cases s.preferred <;> cases s.coreReady <;> cases s.hostCanAct <;> decide

theorem State.hostCanAct_iff (s : State) : s.hostCanAct = true ↔ ∃ a, s.nextAction = some a ∧ s.hostReady a = true := by
  cases ha : s.nextAction <;> simp [State.hostCanAct, ha]

/-- The core waits, no IOFAIL abort is pending, and the host cannot act (R369; log 7). -/
def State.coreStuck (s : State) : Prop :=
  s.busy = true ∧ s.coreReady = false ∧ s.hostCanAct = false ∧ s.iof = false

/-- The core is idle and the host's next action cannot complete (R370; log 7). -/
def State.hostStuck (s : State) : Prop := s.busy = false ∧ ∃ a, s.nextAction = some a ∧ s.hostReady a = false

theorem State.not_hostStuck_of_coreStuck {s : State} (h : s.coreStuck) : ¬ s.hostStuck := fun h' =>
  Bool.false_ne_true (h'.1.symm.trans h.1)

theorem step_of_coreStuck {s : State} (h : s.coreStuck) : step s = .fault .coreStuck := by
  obtain ⟨hb, hc, hh, hi⟩ := h
  simp [step, State.cycle, hb, s.mover_eq_none.2 ⟨hc, hh⟩, hi]

theorem step_of_hostStuck {s : State} (h : s.hostStuck) : step s = .fault .hostStuck := by
  obtain ⟨hb, a, ha, hr⟩ := h
  simp [step, State.cycle, hb, ha, hr]

/-- A step that is stuck in neither way answers a next state. -/
theorem step_isNext {s : State} (hc : ¬ s.coreStuck) (hh : ¬ s.hostStuck) : Out.isNext (step s) := by
  unfold step State.cycle
  cases hb : s.busy with
  | true =>
    dsimp only
    cases hm : s.mover with
    | none =>
      obtain ⟨hcr, hca⟩ := s.mover_eq_none.1 hm
      cases hi : s.iof with
      | true => exact State.coreStep_isNext _
      | false => exact absurd ⟨hb, hcr, hca, hi⟩ hc
    | some g =>
      cases g with
      | core => exact State.coreStep_isNext _
      | host =>
        obtain ⟨a, ha, -⟩ := s.hostCanAct_iff.1 (State.hostCanAct_of_mover hm)
        simp only [ha]
        exact State.hostStep_isNext _ a
  | false =>
    cases ha : s.nextAction with
    | none => trivial
    | some a =>
      cases hr : s.hostReady a with
      | true => simpa [hr] using s.hostStep_isNext a
      | false => exact absurd ⟨hb, a, ha, hr⟩ hh

/-- Settles O53: each stuck state faults in its own way, and every other state steps on. -/
theorem stepFaultsExactlyWhereStuck : Obligations.StepFaultsExactlyWhereStuck := by
  intro s
  change (∀ r, step s ≠ .refused r) ∧ (step s = .fault .coreStuck ↔ s.coreStuck) ∧
    (step s = .fault .hostStuck ↔ s.hostStuck)
  by_cases hc : s.coreStuck
  · simp [step_of_coreStuck hc, hc, State.not_hostStuck_of_coreStuck hc]
  · by_cases hh : s.hostStuck
    · simp [step_of_hostStuck hh, hc, hh]
    · have hn := step_isNext hc hh
      cases he : step s with
      | next t => simp [hc, hh]
      | fault f => rw [he] at hn; exact hn.elim
      | refused r => rw [he] at hn; exact hn.elim

end Sys2Proof.Machine
end

section
/-! The frames of the micro-operations (R84, R280, R300, R247): what each may change, and that a stream command's are those its own list allows. -/

namespace Sys2Proof.Machine

/-! ### Frames put together -/

theorem State.sameBut_then {s t u : State} {ps qs : List Part} (h : s.sameBut t ps) (h' : t.sameBut u qs)
    (hq : qs ⊆ ps) : s.sameBut u ps := State.sameBut_trans h (State.sameBut_mono h' hq)

theorem State.sameBut_goOn_of {s t : State} {ps : List Part} (h : s.sameBut t ps) (todo : List Micro) :
    s.sameBut (t.goOn todo) ps := State.sameBut_then h (t.sameBut_goOn todo) (List.nil_subset _)

theorem State.sameBut_raise_of {s t : State} {ps : List Part} (h : s.sameBut t ps) (r : Raise) (he : .error ∈ ps) :
    s.sameBut (t.raise r) ps := State.sameBut_then h (t.sameBut_raise r) (by simpa using he)

theorem State.sameBut_complete_of {s t : State} {ps : List Part} (h : s.sameBut t ps) : s.sameBut t.complete ps :=
  State.sameBut_then h t.sameBut_complete (List.nil_subset _)

theorem State.sameBut_putFt (s : State) (m : FMap Word) : s.sameBut (s.putFt m) [.ft] := by
  intro p hp; cases p <;> simp_all [Part.same, State.bsAt]

theorem State.sameBut_putCt (s : State) (m : FMap BitSeq) : s.sameBut (s.putCt m) [.ct] := by
  intro p hp; cases p <;> simp_all [Part.same, State.bsAt]

theorem State.sameBut_setEtree (s : State) (o : Option ETree) : s.sameBut (s.setEtree o) [.etree] := by
  intro p hp; cases p <;> simp_all [Part.same, State.bsAt]

theorem State.sameBut_setDtree (s : State) (o : Option DTree) : s.sameBut (s.setDtree o) [.dtree] := by
  intro p hp; cases p <;> simp_all [Part.same, State.bsAt]

theorem State.sameBut_countSym (s : State) (n : Word) : s.sameBut (s.setPacker { s.packer with syms := n }) [.pkSyms] := by
  intro p hp; cases p <;> simp_all [Part.same, State.bsAt]

theorem State.sameBut_rootDecoder (s : State) : s.sameBut s.rootDecoder [.path] := by
  intro p hp; cases p <;> simp_all [Part.same, State.bsAt, State.rootDecoder]

theorem State.sameBut_clearPB (s : State) : s.sameBut s.clearPB [.pb] := by
  intro p hp; cases p <;> simp_all [Part.same, State.bsAt, State.clearPB]

theorem State.sameBut_took (s : State) (q : List Token) : s.sameBut (s.took q) [.inq] := by
  intro p hp; cases p <;> simp_all [Part.same, State.bsAt]

theorem State.sameBut_wroteByte (s : State) (b : Byte) : s.sameBut (s.wroteByte b) [.outq] := s.sameBut_wroteAll [b]

/-! ### The streams in order (R96, R97) -/

/-- From s to t bytes are only appended to OUT, and tokens only taken from the front of IN. -/
def State.inOrder (s t : State) : Prop := (∃ out, t.outq = s.outq ++ out) ∧ ∃ taken, s.inq = taken ++ t.inq

theorem State.inOrder_of_eq {s t : State} (ho : t.outq = s.outq) (hi : t.inq = s.inq) : s.inOrder t :=
  ⟨⟨[], by simp [ho]⟩, [], by simp [hi]⟩

theorem State.inOrder_trans {s t u : State} (h : s.inOrder t) (h' : t.inOrder u) : s.inOrder u := by
  obtain ⟨⟨o, ho⟩, x, hx⟩ := h
  obtain ⟨⟨o', ho'⟩, x', hx'⟩ := h'
  exact ⟨⟨o ++ o', by rw [ho', ho, List.append_assoc]⟩, x ++ x', by rw [hx, hx', List.append_assoc]⟩

/-- From s to t only the parts listed change, and the streams move in order. -/
def State.within (s t : State) (ps : List Part) : Prop := s.sameBut t ps ∧ s.inOrder t

/-- Neither stream is among the parts. -/
abbrev offStream (ps : List Part) : Prop := ∀ p ∈ ps, p ≠ .inq ∧ p ≠ .outq

theorem State.within_of_sameBut {s t : State} {ps : List Part} (h : s.sameBut t ps) (hp : offStream ps) :
    s.within t ps := ⟨h, State.inOrder_of_eq (h .outq fun hm => (hp _ hm).2 rfl) (h .inq fun hm => (hp _ hm).1 rfl)⟩

theorem State.within_refl (s : State) (ps : List Part) : s.within s ps :=
  ⟨s.sameBut_refl ps, State.inOrder_of_eq rfl rfl⟩

theorem State.within_mono {s t : State} {ps qs : List Part} (h : s.within t ps) (hs : ps ⊆ qs) : s.within t qs :=
  ⟨State.sameBut_mono h.1 hs, h.2⟩

theorem State.within_trans {s t u : State} {ps : List Part} (h : s.within t ps) (h' : t.within u ps) : s.within u ps :=
  ⟨State.sameBut_trans h.1 h'.1, State.inOrder_trans h.2 h'.2⟩

/-- InRead takes at most the oldest token of IN, if its abort and what follows a token leave the streams (R82). -/
theorem State.inRead_within {s a : State} {k : Token → State → State} {ps : List Part} (ha : s.sameBut a ps)
    (hk : ∀ (u : State) (t : Token), u.sameBut (k t u) ps) (hp : offStream ps) :
    s.within (s.inRead a k) (.inq :: ps) := by
  rcases s.inRead_cases a k with ⟨-, -, e⟩ | ⟨-, e⟩ | ⟨t, rest, hq, -, e⟩ <;> rw [e]
  · exact State.within_mono (State.within_of_sameBut ha hp) (List.subset_cons_self _ _)
  · exact s.within_refl _
  · have ht : s.inOrder (s.took rest) := ⟨⟨[], by simp⟩, [t], hq⟩
    obtain ⟨hs, ho⟩ := State.within_of_sameBut (hk (s.took rest) t) hp
    exact ⟨State.sameBut_append (ps := [.inq]) (s.sameBut_took rest) hs, State.inOrder_trans ht ho⟩

/-- OutWrite appends at most one byte to OUT, if what follows it leaves the streams (R83). -/
theorem State.outWrite_within {s : State} {b : Byte} {k : State → State} {ps : List Part} (he : .error ∈ ps)
    (hk : ∀ u : State, u.sameBut (k u) ps) (hp : offStream ps) : s.within (s.outWrite b k) (.outq :: ps) := by
  rcases s.outWrite_cases b k with ⟨-, e⟩ | ⟨-, -, e⟩ | ⟨-, -, e⟩ <;> rw [e]
  · have ha : s.sameBut s.abortIO ps := State.sameBut_raise_of (s.sameBut_refl ps) _ he
    exact State.within_mono (State.within_of_sameBut ha hp) (List.subset_cons_self _ _)
  · have hb : s.inOrder (s.wroteByte b) := ⟨⟨[b], rfl⟩, [], rfl⟩
    obtain ⟨hs, ho⟩ := State.within_of_sameBut (hk (s.wroteByte b)) hp
    exact ⟨State.sameBut_append (ps := [.outq]) (s.sameBut_wroteByte b) hs, State.inOrder_trans hb ho⟩
  · exact s.within_refl _

/-! ### The packer (R280, R285) -/

theorem State.emitBit_sameBut (s : State) (b : Bool) (rest : List Micro) :
    s.sameBut (s.emitBit b rest) [.pb, .pkBits, .error] := by
  have fill : ∀ p : Packer, p.syms = s.packer.syms → s.sameBut (s.setPacker p) [.pb, .pkBits, .error] := fun p hp =>
    State.sameBut_mono (s.sameBut_setPacker_of_syms p hp) (by decide)
  rcases s.emitBit_cases b rest with ⟨-, e⟩ | ⟨-, -, e⟩ | ⟨-, -, e⟩ <;> rw [e]
  · exact State.sameBut_raise_of (s.sameBut_refl _) _ (by decide)
  · exact State.sameBut_goOn_of (fill _ (by rfl)) _
  · exact State.sameBut_goOn_of (fill _ (by rfl)) _

theorem State.packSymbol_sameBut (s : State) (start v : Word) (rest : List Micro) :
    s.sameBut (s.packSymbol start v rest) [.pkSyms, .error] := by
  unfold State.packSymbol
  split
  · exact State.sameBut_raise_of (s.sameBut_refl _) _ (by decide)
  · split
    · exact State.sameBut_raise_of (s.sameBut_refl _) _ (by decide)
    · exact State.sameBut_goOn_of (State.sameBut_mono (s.sameBut_countSym _) (by decide)) _

theorem State.packToken_sameBut (s : State) (nbytes start : Word) (chunk : List Byte) (t : Token) :
    s.sameBut (s.packToken nbytes start chunk t) [.pkSyms, .error] := by
  unfold State.packToken
  split
  · exact State.sameBut_raise_of (s.sameBut_refl _) _ (by decide)
  · split
    · exact State.sameBut_raise_of (s.sameBut_refl _) _ (by decide)
    · dsimp only
      split_ifs
      · exact s.packSymbol_sameBut _ _ _
      · exact State.sameBut_goOn_of (s.sameBut_refl _) _
  · split_ifs
    · exact State.sameBut_goOn_of (s.sameBut_refl _) _
    · exact s.packSymbol_sameBut _ _ _

/-! ### The frequency scan (R196) -/

theorem State.scanCount_sameBut (s : State) (nsym start v : Word) {k : Word → State → State}
    (hk : ∀ (n : Word) (u : State), u.sameBut (k n u) []) :
    s.sameBut (s.scanCount nsym start v k) [.ft, .error] := by
  unfold State.scanCount
  split
  · exact State.sameBut_raise_of (s.sameBut_refl _) _ (by decide)
  · next m _ =>
    have hm : s.sameBut (s.putFt m) [.ft, .error] := State.sameBut_mono (s.sameBut_putFt m) (by decide)
    split
    · exact State.sameBut_raise_of hm _ (by decide)
    · exact State.sameBut_then hm (hk _ _) (List.nil_subset _)

theorem State.scanToken_sameBut (s : State) (nsym nbytes start : Word) (chunk : List Byte) (t : Token) :
    s.sameBut (s.scanToken nsym nbytes start chunk t) [.ft, .error] := by
  unfold State.scanToken
  split
  · exact State.sameBut_raise_of (s.sameBut_refl _) _ (by decide)
  · split
    · exact State.sameBut_raise_of (s.sameBut_refl _) _ (by decide)
    · dsimp only
      split_ifs
      · exact s.scanCount_sameBut _ _ _ fun _ u => u.sameBut_goOn _
      · exact State.sameBut_goOn_of (s.sameBut_refl _) _
  · split_ifs
    · exact State.sameBut_goOn_of (s.sameBut_refl _) _
    · exact s.scanCount_sameBut _ _ _ fun _ u => u.sameBut_goOn _

/-! ### The decoder (R300, R303) -/

theorem State.deliver_sameBut (s : State) (sy : Word) (rest : List Micro) :
    s.sameBut (s.deliver sy rest) (decoderParts ++ [.error]) := by
  unfold State.deliver
  split
  · exact State.sameBut_raise_of (s.sameBut_refl _) _ (by decide)
  · exact State.sameBut_goOn_of (State.sameBut_mono (s.sameBut_setDecoder _) (by decide)) _

theorem State.mismatched_goOn_sameBut (s : State) (rest : List Micro) :
    s.sameBut (s.mismatched.goOn rest) (decoderParts ++ [.error]) :=
  State.sameBut_goOn_of (State.sameBut_mono (s.sameBut_setDecoder _) (by decide)) _

theorem State.arrive_sameBut (s : State) (rest : List Micro) :
    s.sameBut (s.arrive rest) (decoderParts ++ [.error]) := by
  rcases s.arrive_cases rest with ⟨-, e⟩ | ⟨-, -, e⟩ | ⟨sy, -, -, -, e⟩ <;> rw [e]
  · exact State.sameBut_goOn_of (s.sameBut_refl _) _
  · exact s.mismatched_goOn_sameBut rest
  · exact s.deliver_sameBut sy rest

theorem State.follow_sameBut (s : State) (b : Bool) (rest : List Micro) :
    s.sameBut (s.follow b rest) (decoderParts ++ [.error]) := by
  unfold State.follow
  split_ifs
  · exact s.mismatched_goOn_sameBut rest
  · exact State.sameBut_trans (State.sameBut_mono (s.sameBut_setDecoder _) (by decide)) (State.arrive_sameBut _ rest)

theorem State.decodeBit_sameBut (s : State) (b : Bool) (rest : List Micro) :
    s.sameBut (s.decodeBit b rest) (decoderParts ++ [.error]) := by
  rcases s.decodeBit_cases b rest with ⟨-, -, e⟩ | ⟨-, -, e⟩ | ⟨-, -, e⟩ <;> rw [e]
  · exact State.sameBut_goOn_of (State.sameBut_mono (s.sameBut_setDecoder _) (by decide)) _
  · exact State.sameBut_raise_of (s.sameBut_refl _) _ (by decide)
  · exact State.sameBut_trans (State.sameBut_mono (s.sameBut_setDecoder _) (by decide)) (State.follow_sameBut _ b rest)

theorem State.unpackToken_sameBut (s : State) (nbytes : Word) (t : Token) :
    s.sameBut (s.unpackToken nbytes t) [.error] := by
  unfold State.unpackToken
  split
  · exact s.sameBut_raise _
  · exact State.sameBut_goOn_of (s.sameBut_refl _) _
  · split
    · exact s.sameBut_raise _
    · exact State.sameBut_goOn_of (s.sameBut_refl _) _

/-! ### The table reader (R247) -/

theorem State.failDeser_sameBut (s : State) (r : Raise) : s.sameBut (s.failDeser r) [.ct, .error] :=
  State.sameBut_raise_of (State.sameBut_mono (s.sameBut_putCt []) (by decide)) r (by decide)

theorem State.abortDeser_sameBut (s : State) : s.sameBut s.abortDeser [.ct, .error] := s.failDeser_sameBut _

theorem State.deserField_sameBut (s : State) (d : Deser) : s.sameBut (s.deserField d) [.ct, .error] := by
  have stay : ∀ todo, s.sameBut (s.goOn todo) [.ct, .error] := State.sameBut_goOn_of (s.sameBut_refl _)
  unfold State.deserField
  split
  case h_1 | h_3 =>
    dsimp only
    split_ifs
    · exact s.failDeser_sameBut _
    · exact s.failDeser_sameBut _
    · exact stay _
  case h_2 =>
    dsimp only
    split_ifs
    · exact s.failDeser_sameBut _
    · exact stay _
  case h_4 =>
    have hc : ∀ m, s.sameBut (s.putCt m) [.ct, .error] := fun m => State.sameBut_mono (s.sameBut_putCt m) (by decide)
    dsimp only
    split_ifs
    · exact State.sameBut_goOn_of (hc _) _
    · exact State.sameBut_goOn_of (hc _) _

theorem State.deserToken_sameBut (s : State) (d : Deser) (t : Token) : s.sameBut (s.deserToken d t) [.ct, .error] := by
  unfold State.deserToken
  split
  · exact s.failDeser_sameBut _
  · exact s.failDeser_sameBut _
  · dsimp only
    split_ifs
    · exact s.deserField_sameBut _
    · exact State.sameBut_goOn_of (s.sameBut_refl _) _

/-! ### Every micro-operation -/

/-- The parts the end of a stream command may change: its RES registers (R34), the error, and CT where an abort empties it (log 11). -/
def Finish.parts : Finish → List Part
  | .packBs => [.res0, .error]
  | .deserTable _ _ => [.ct, .res0, .res1, .error]
  | .freqScan _ _ | .serTable _ | .packSym _ | .packFlush _ | .pack | .unpack => [.res0, .res1, .error]

/-- The parts a micro-operation may change. -/
def Micro.parts : Micro → List Part
  | .emitBit _ => [.pb, .pkBits, .error]
  | .outPB => [.outq, .pb, .error]
  | .pad => []
  | .decodeBit _ => decoderParts ++ [.error]
  | .out _ => [.outq, .error]
  | .toRoot => [.path]
  | .scan _ _ _ _ => [.inq, .ft, .error]
  | .packIn _ _ _ => [.inq, .pkSyms, .error]
  | .unpackIn _ => [.inq, .error]
  | .deser _ => [.inq, .ct, .error]
  | .finish f => f.parts

theorem State.writeResults_sameBut (s : State) (f : Finish) : s.sameBut (s.writeResults f) f.parts := by
  cases f with
  | packBs => exact State.sameBut_mono (s.sameBut_setRes0 _) (by decide)
  | _ => exact State.sameBut_mono (s.sameBut_setRes _ _) (by simp [Finish.parts])

theorem State.abortFinish_sameBut (s : State) (f : Finish) : s.sameBut (s.abortFinish f) f.parts := by
  cases f with
  | deserTable n t => exact State.sameBut_mono s.abortDeser_sameBut (by simp [Finish.parts])
  | _ => exact State.sameBut_mono (s.sameBut_raise _) (by simp [Finish.parts])

theorem State.finish_sameBut (s : State) (f : Finish) : s.sameBut (s.finish f) f.parts := by
  unfold State.finish
  split_ifs
  · exact s.abortFinish_sameBut f
  · exact State.sameBut_complete_of (s.writeResults_sameBut f)

theorem Finish.parts_offStream (f : Finish) : offStream f.parts := by cases f <;> simp [offStream, Finish.parts]

/-- A micro-operation changes only its own parts, and moves the streams in order. -/
theorem State.perform_within (s : State) (m : Micro) (rest : List Micro) : s.within (s.perform m rest) m.parts := by
  have stay : s.within (s.goOn rest) [] := State.within_of_sameBut (s.sameBut_goOn rest) (by decide)
  cases m with
  | emitBit b => exact State.within_of_sameBut (s.emitBit_sameBut b rest) (by decide : offStream [.pb, .pkBits, .error])
  | outPB =>
    exact State.outWrite_within (by decide)
      (fun u => State.sameBut_goOn_of (State.sameBut_mono u.sameBut_clearPB (by decide)) rest) (by decide)
  | pad =>
    unfold State.perform
    split_ifs
    · exact stay
    · exact State.within_of_sameBut (s.sameBut_goOn _) (by decide)
  | decodeBit b => exact State.within_of_sameBut (s.decodeBit_sameBut b rest) (by decide : offStream (decoderParts ++ [.error]))
  | out b =>
    exact State.outWrite_within (by decide) (fun u => State.sameBut_goOn_of (u.sameBut_refl _) rest) (by decide)
  | toRoot => exact State.within_of_sameBut (State.sameBut_goOn_of s.sameBut_rootDecoder rest) (by decide)
  | scan nsym nbytes start chunk =>
    exact State.inRead_within (State.sameBut_mono (s.sameBut_raise _) (by decide))
      (fun u t => u.scanToken_sameBut _ _ _ _ t) (by decide)
  | packIn nbytes start chunk =>
    exact State.inRead_within (State.sameBut_mono (s.sameBut_raise _) (by decide))
      (fun u t => u.packToken_sameBut _ _ _ t) (by decide)
  | unpackIn nbytes =>
    exact State.inRead_within (s.sameBut_raise _) (fun u t => u.unpackToken_sameBut _ t) (by decide)
  | deser d => exact State.inRead_within s.abortDeser_sameBut (fun u t => u.deserToken_sameBut d t) (by decide)
  | finish f => exact State.within_of_sameBut (s.finish_sameBut f) f.parts_offStream

/-- The parts of a command's micro-operations are among those it may write (R84); `h` excludes every other pair of a command and a micro-operation. -/
theorem Micro.parts_subset {i : Instr} {m : Micro} (h : i.does m = true) : m.parts ⊆ i.mayWrite := by
  cases m with
  | finish f =>
    cases i <;> cases f <;>
      first | exact absurd h Bool.false_ne_true | simp [Micro.parts, Finish.parts, Instr.mayWrite]
  | _ =>
    cases i <;>
      first | exact absurd h Bool.false_ne_true | simp [Micro.parts, Instr.mayWrite, packerParts, decoderParts]

/-! ### A running command -/

theorem State.microStep_within {s : State} {i : Instr} (h : s.doing i) : s.within s.microStep i.mayWrite := by
  unfold State.microStep
  split
  · exact s.within_refl _
  · exact s.within_refl _
  · exact State.within_mono (State.within_of_sameBut s.sameBut_complete (by decide)) (List.nil_subset _)
  · next m rest hr =>
    have hm : i.does m = true := (State.doing_running hr).1 h m List.mem_cons_self
    exact State.within_mono (s.perform_within m rest) (Micro.parts_subset hm)

theorem State.settle_within {s : State} {i : Instr} (h : s.doing i) : s.within s.settle i.mayWrite :=
  (State.settle_induct (fun t => t.doing i ∧ s.within t i.mayWrite)
    (fun _ ht _ => ⟨State.microStep_doing ht.1, State.within_trans ht.2 (State.microStep_within ht.1)⟩)
    s ⟨h, s.within_refl _⟩).2

/-- A later move of the core for a running command keeps its frame. -/
theorem State.coreStep_within {s t : State} {i : Instr} (h : s.doing i) (hs : s.coreStep = .next t) :
    s.within t i.mayWrite := by
  unfold State.coreStep at hs
  split at hs
  · cases hs; exact s.within_refl _
  · next w hr => simp [State.doing, hr] at h
  · cases hs
    exact State.within_trans (State.microStep_within h) (State.settle_within (State.microStep_doing h))

end Sys2Proof.Machine
end

section
/-! The frames of the commands (R84, R325, R373): each begins within its list, ended or with only its own micro-operations to do, and so stays within it as the core goes on. -/

namespace Sys2Proof.Machine

/-! ### How a command begins -/

/-- The command i may write each of the parts, and none of them is a stream. -/
abbrev owns (i : Instr) (ps : List Part) : Prop :=
  ∀ p ∈ ps, p ∈ i.mayWrite ∧ p ≠ .inq ∧ p ≠ .outq

/-- The answer of i in state s: from a state within i's list, i ended or with its own micro-operations to do, the core runs. -/
def begins (i : Instr) (s : State) (o : Out) : Prop :=
  ∃ u : State, o = .next u.settle ∧ u.doing i ∧ s.within u i.mayWrite

theorem State.within_of_owns {i : Instr} {s u : State} {ps : List Part} (h : s.sameBut u ps) (hp : owns i ps) :
    s.within u i.mayWrite :=
  State.within_mono (State.within_of_sameBut h fun p hm => (hp p hm).2) fun p hm => (hp p hm).1

/-- An idle core does nothing (R340). -/
theorem State.settle_of_idle {s : State} (h : s.run = .idle) : s.settle = s := by
  simp [State.settle, State.work_idle s h, runMicro]

theorem State.sameBut_begin (s : State) (todo : List Micro) : s.sameBut (s.begin todo) [] :=
  State.sameBut_goOn_of s.sameBut_fresh todo

section
variable {i : Instr} {s u : State} {ps : List Part}

theorem begins_ended (hr : u.run = .idle) (h : s.sameBut u ps) (hp : owns i ps) : begins i s (.next u) :=
  ⟨u, by rw [State.settle_of_idle hr], State.doing_idle i hr, State.within_of_owns h hp⟩

theorem begins_succeed (h : s.sameBut u ps) (hp : owns i ps) : begins i s u.succeed :=
  begins_ended rfl (State.sameBut_complete_of h) hp

theorem begins_fail (h : s.sameBut u ps) (r : Raise) (hp : owns i (.error :: ps)) : begins i s (u.fail r) :=
  begins_ended rfl (State.sameBut_raise_of (State.sameBut_mono h (List.subset_cons_self _ _)) r List.mem_cons_self) hp

/-- A command that raises before it has changed anything. -/
theorem begins_refuse (he : owns i [.error]) (r : Raise) : begins i s (s.fail r) := begins_fail (s.sameBut_refl []) r he

theorem begins_checked (he : owns i [.error]) {check : Option Raise} {k : Out} (hk : begins i s k) :
    begins i s (s.checked check k) := by
  cases check with
  | none => exact hk
  | some r => exact begins_refuse he r

theorem begins_start (h : s.sameBut u ps) (hp : owns i ps) {todo : List Micro} (hd : ∀ m ∈ todo, i.does m = true) :
    begins i s (u.start todo) :=
  have hb : s.sameBut (u.begin todo) ps := State.sameBut_then h (u.sameBut_begin todo) (List.nil_subset _)
  ⟨u.begin todo, rfl, hd, State.within_of_owns hb hp⟩

/-- A stream command of one micro-operation. -/
theorem begins_startOne (h : s.sameBut u ps) (hp : owns i ps) {m : Micro} (hd : i.does m = true) :
    begins i s (u.start [m]) := begins_start h hp (by simpa using hd)

/-- A stream command that does one micro-operation for each element of a list, and ends. -/
theorem begins_startMap (h : s.sameBut u ps) (hp : owns i ps) {α : Type} (l : List α) {f : α → Micro} {e : Finish}
    (hf : ∀ a, i.does (f a) = true) (he : i.does (.finish e) = true) : begins i s (u.start (l.map f ++ [.finish e])) := by
  refine begins_start h hp fun m hm => ?_
  rcases List.mem_append.1 hm with hm | hm
  · obtain ⟨a, -, rfl⟩ := List.mem_map.1 hm; exact hf a
  · rw [List.mem_singleton.1 hm]; exact he

end

/-! ### System commands (file 40) -/

theorem State.sameBut_softReset (s : State) : s.sameBut s.softReset Instr.sreset.mayWrite := by
  intro p hp
  cases p with
  | bs i => exact absurd (by fin_cases i <;> decide) hp
  | _ => first | rfl | exact absurd (by decide) hp

theorem State.sameBut_clearError (s : State) : s.sameBut s.clearError [.error, .ovr] := by
  intro p hp; cases p <;> simp_all [Part.same, State.bsAt]

theorem State.sameBut_installWidth (s : State) (n : Nat) :
    s.sameBut (s.installWidth n) ([.width, .ft, .ct, .etree, .dtree] ++ packerParts ++ decoderParts) := by
  intro p hp
  cases p <;> simp_all [Part.same, State.bsAt, State.installWidth, packerParts, decoderParts]

theorem execSetWidth_begins (n : Nat) (s : State) : begins (.setWidth n) s (execSetWidth n s) := by
  unfold execSetWidth
  split_ifs
  · exact begins_refuse (by simp [owns, Instr.mayWrite]) _
  · exact begins_succeed (s.sameBut_installWidth n) (by simp [owns, Instr.mayWrite, packerParts, decoderParts])

/-! ### BitSequence commands (file 41) -/

theorem execBsApp_begins (rd : BsIdx) (b : Bool) (s : State) : begins (.bsApp rd b) s (execBsApp rd b s) := by
  unfold execBsApp
  split_ifs
  · exact begins_refuse (by simp [owns, Instr.mayWrite]) _
  · exact begins_succeed (s.sameBut_setBs _ _) (by simp [owns, Instr.mayWrite])

theorem execBsGet_begins (rs : BsIdx) (n : Nat) (s : State) : begins (.bsGet rs n) s (execBsGet rs n s) := by
  unfold execBsGet
  split_ifs
  · exact begins_refuse (by simp [owns, Instr.mayWrite]) _
  · exact begins_succeed (s.sameBut_setRes0 _) (by simp [owns, Instr.mayWrite])

theorem execBsLd_begins (rd : BsIdx) (s : State) : begins (.bsLd rd) s (execBsLd rd s) := by
  unfold execBsLd
  split_ifs
  · exact begins_refuse (by simp [owns, Instr.mayWrite]) _
  · exact begins_succeed (s.sameBut_setBs _ _) (by simp [owns, Instr.mayWrite])

theorem execBsCat_begins (rd rs : BsIdx) (s : State) : begins (.bsCat rd rs) s (execBsCat rd rs s) := by
  unfold execBsCat
  split_ifs
  · exact begins_refuse (by simp [owns, Instr.mayWrite]) _
  · exact begins_succeed (s.sameBut_setBs _ _) (by simp [owns, Instr.mayWrite])

/-! ### Tables and trees (files 42, 43, 45) -/

theorem execFreqAdd_begins (s : State) : begins .freqAdd s (execFreqAdd s) := by
  refine begins_checked (by decide) ?_
  split
  · exact begins_refuse (by decide) _
  · exact begins_succeed (s.sameBut_setFt _) (by decide)

theorem execFreqSet_begins (s : State) : begins .freqSet s (execFreqSet s) := by
  refine begins_checked (by decide) ?_
  split_ifs
  · exact begins_refuse (by decide) _
  · exact begins_succeed (s.sameBut_setFt _) (by decide)

theorem execFreqGet_begins (s : State) : begins .freqGet s (execFreqGet s) := by
  refine begins_checked (by decide) ?_
  split
  · exact begins_succeed (s.sameBut_setRes _ _) (by decide)
  · exact begins_succeed (s.sameBut_setRes _ _) (by decide)

theorem execBuildTree_begins (s : State) : begins .buildTree s (execBuildTree s) := by
  refine begins_checked (by decide) ?_
  split
  · exact begins_fail (s.sameBut_setEtree none) _ (by decide)
  · exact begins_succeed (State.sameBut_append (s.sameBut_setEtree _) (State.sameBut_setRes _ _ _)) (by decide)

theorem execAssignCodes_begins (s : State) : begins .assignCodes s (execAssignCodes s) := by
  refine begins_checked (by decide) ?_
  split
  · exact begins_refuse (by decide) _
  · unfold State.assignFrom
    split
    · exact begins_fail (s.sameBut_setCt []) _ (by decide)
    · exact begins_succeed (State.sameBut_append (s.sameBut_setCt _) (State.sameBut_setRes _ _ _)) (by decide)

theorem execCodeGet_begins (s : State) : begins .codeGet s (execCodeGet s) := by
  refine begins_checked (by decide) ?_
  split
  · exact begins_succeed (s.sameBut_setRes _ _) (by decide)
  · exact begins_succeed (s.sameBut_setRes _ _) (by decide)

theorem execCodeSet_begins (rs : BsIdx) (s : State) : begins (.codeSet rs) s (execCodeSet rs s) := by
  refine begins_checked (by simp [owns, Instr.mayWrite]) ?_
  split_ifs
  · exact begins_refuse (by simp [owns, Instr.mayWrite]) _
  · exact begins_refuse (by simp [owns, Instr.mayWrite]) _
  · exact begins_succeed (s.sameBut_setCt _) (by simp [owns, Instr.mayWrite])

theorem execReconTree_begins (s : State) : begins .reconTree s (execReconTree s) := by
  have reset : ∀ o, s.sameBut ((s.setDtree o).setDecoder .init) ([.dtree] ++ decoderParts) := fun o =>
    State.sameBut_append (s.sameBut_setDtree o) (State.sameBut_setDecoder _ _)
  refine begins_checked (by decide) ?_
  split
  · exact begins_fail (reset none) _ (by decide)
  · exact begins_succeed (State.sameBut_append (reset _) (State.sameBut_setRes _ _ _)) (by decide)

/-! ### Stream commands (files 44, 46, 47) -/

theorem execPackSym_begins (s : State) : begins .packSym s (execPackSym s) := by
  refine begins_checked (by decide) ?_
  unfold State.packCode
  split
  · exact begins_refuse (by decide) _
  · split
    · exact begins_refuse (by decide) _
    · exact begins_startMap (s.sameBut_countSym _) (by decide) _ (fun _ => rfl) rfl

theorem execPackFlush_begins (s : State) : begins .packFlush s (execPackFlush s) := by
  unfold execPackFlush
  split_ifs
  · exact begins_startOne (s.sameBut_refl []) (by decide) rfl
  · exact begins_start (s.sameBut_refl []) (by decide) (by decide)

theorem execUnpackByte_begins (s : State) : begins .unpackByte s (execUnpackByte s) := by
  refine begins_checked (by decide) ?_
  split_ifs
  · exact begins_refuse (by decide) _
  · exact begins_startMap (s.sameBut_refl []) (by decide) _ (fun _ => rfl) rfl

/-! ### Every command -/

/-- Every command begins within its own list (R84). -/
theorem exec_begins (i : Instr) (s : State) : begins i s (exec i s) := by
  cases i with
  | nop => exact begins_succeed (s.sameBut_refl []) (by decide)
  | sreset => exact begins_succeed s.sameBut_softReset (by decide)
  | errClr => exact begins_succeed s.sameBut_clearError (by decide)
  | setWidth n => exact execSetWidth_begins n s
  | bsClr rd => exact begins_succeed (s.sameBut_setBs rd _) (by simp [owns, Instr.mayWrite])
  | bsApp rd b => exact execBsApp_begins rd b s
  | bsGet rs n => exact execBsGet_begins rs n s
  | bsLen rs => exact begins_succeed (s.sameBut_setRes0 _) (by simp [owns, Instr.mayWrite])
  | bsCpy rd rs => exact begins_succeed (s.sameBut_setBs rd _) (by simp [owns, Instr.mayWrite])
  | bsEq rs rt => exact begins_succeed (s.sameBut_setRes0 _) (by simp [owns, Instr.mayWrite])
  | bsLd rd => exact execBsLd_begins rd s
  | bsRd rs => exact begins_succeed (s.sameBut_setRes _ _) (by simp [owns, Instr.mayWrite])
  | bsCat rd rs => exact execBsCat_begins rd rs s
  | freqClr => exact begins_succeed (s.sameBut_setFt _) (by decide)
  | freqAdd => exact execFreqAdd_begins s
  | freqSet => exact execFreqSet_begins s
  | freqGet => exact execFreqGet_begins s
  | freqScan => exact begins_checked (by decide) (begins_startOne (s.sameBut_setEtree none) (by decide) rfl)
  | buildTree => exact execBuildTree_begins s
  | assignCodes => exact execAssignCodes_begins s
  | codeGet => exact execCodeGet_begins s
  | codeSet rs => exact execCodeSet_begins rs s
  | codeClr => exact begins_succeed (s.sameBut_setCt _) (by decide)
  | serTable =>
    exact begins_checked (by decide) (begins_startMap (s.sameBut_refl []) (by decide) _ (fun _ => rfl) rfl)
  | deserTable => exact begins_checked (by decide) (begins_startOne (s.sameBut_setCt []) (by decide) rfl)
  | reconTree => exact execReconTree_begins s
  | packInit => exact begins_succeed (s.sameBut_setPacker .init) (by decide)
  | packSym => exact execPackSym_begins s
  | packBs rs => exact begins_startMap (s.sameBut_refl []) (by simp [owns]) _ (fun _ => rfl) rfl
  | packFlush => exact execPackFlush_begins s
  | pack => exact begins_checked (by decide) (begins_startOne (s.sameBut_setPacker .init) (by decide) rfl)
  | unpackInit => exact begins_succeed (s.sameBut_setDecoder .init) (by decide)
  | unpackByte => exact execUnpackByte_begins s
  | unpack => exact begins_checked (by decide) (begins_startOne (s.sameBut_setDecoder .init) (by decide) rfl)

/-- A move of the core for i, its beginning or a later one, stays within i's list and moves the streams in order. -/
theorem State.advances_within {i : Instr} {s t : State} (h : s.advances i t) : s.within t i.mayWrite := by
  rcases h with h | ⟨hd, h⟩
  · obtain ⟨u, e, hd, hu⟩ := exec_begins i s
    cases h.symm.trans e
    exact State.within_trans hu (State.settle_within hd)
  · exact State.coreStep_within hd h

/-- Settles O47: a command begins within its list (`exec_begins`), and each of its micro-operations stays there (`State.perform_within`). -/
theorem commandsChangeOnlyTheirParts : Obligations.CommandsChangeOnlyTheirParts := fun _ _ _ h =>
  (State.advances_within h).1

/-- Settles O51: only InRead and OutWrite touch the streams (`State.inRead_within`, `State.outWrite_within`). -/
theorem streamsMoveInOrder : Obligations.StreamsMoveInOrder := fun _ _ _ h => (State.advances_within h).2

end Sys2Proof.Machine
end

section
/-! The encoding (R111 to R116): format C as the concatenation of its fields, a row's match read field by field, and the opcode map as a bijection between the words that decode and the well-formed commands. -/

namespace Sys2Proof

/-! ### Format C (R111) -/

/-- Format C with its reserved bits 31:24 (`hi`) and 15 (`x`) free, so that every word has this form (`exists_layout`). The width is written as the sum the concatenation has, for the library's lemmas on `++` to apply. -/
def layout (hi imm : BitVec 8) (x : BitVec 1) (b : Bool) (rt rs rd : BitVec 2) (op : BitVec 8) :
    BitVec (8 + 8 + 1 + 1 + 2 + 2 + 2 + 8) :=
  hi ++ imm ++ x ++ BitVec.ofBool b ++ rt ++ rs ++ rd ++ op

theorem append_inj_iff {m n : Nat} {a c : BitVec m} {b d : BitVec n} : a ++ b = c ++ d ↔ a = c ∧ b = d := by
  refine ⟨fun h => ⟨?_, ?_⟩, fun ⟨ha, hb⟩ => ha ▸ hb ▸ rfl⟩
  · simpa only [BitVec.extractLsb'_append_eq_left] using congrArg (BitVec.extractLsb' n m) h
  · simpa only [BitVec.extractLsb'_append_eq_right] using congrArg (BitVec.extractLsb' 0 n) h

theorem exists_append {m n : Nat} (w : BitVec (m + n)) : ∃ (a : BitVec m) (b : BitVec n), w = a ++ b :=
  ⟨_, _, BitVec.extractLsb'_append_extractLsb'.symm⟩

theorem exists_layout (w : BitVec 32) : ∃ hi imm x b rt rs rd op, w = layout hi imm x b rt rs rd op := by
  obtain ⟨w, op, rfl⟩ := exists_append (m := 24) (n := 8) w
  obtain ⟨w, rd, rfl⟩ := exists_append (m := 22) (n := 2) w
  obtain ⟨w, rs, rfl⟩ := exists_append (m := 20) (n := 2) w
  obtain ⟨w, rt, rfl⟩ := exists_append (m := 18) (n := 2) w
  obtain ⟨w, b, rfl⟩ := exists_append (m := 17) (n := 1) w
  obtain ⟨w, x, rfl⟩ := exists_append (m := 16) (n := 1) w
  obtain ⟨hi, imm, rfl⟩ := exists_append (m := 8) (n := 8) w
  obtain ⟨b, rfl⟩ : ∃ c : Bool, b = .ofBool c := ⟨_, (BitVec.setWidth_eq b).symm.trans BitVec.setWidth_one⟩
  exact ⟨hi, imm, x, b, rt, rs, rd, op, rfl⟩

section
variable {hi imm hi' imm' : BitVec 8} {x x' : BitVec 1} {b b' : Bool} {rt rs rd rt' rs' rd' : BitVec 2} {op op' : BitVec 8}

theorem and_layout : layout hi imm x b rt rs rd op &&& layout hi' imm' x' b' rt' rs' rd' op' =
    layout (hi &&& hi') (imm &&& imm') (x &&& x') (b && b') (rt &&& rt') (rs &&& rs') (rd &&& rd') (op &&& op') := by
  simp only [layout, BitVec.and_append, BitVec.ofBool_and_ofBool]

theorem layout_inj : layout hi imm x b rt rs rd op = layout hi' imm' x' b' rt' rs' rd' op' ↔
    hi = hi' ∧ imm = imm' ∧ x = x' ∧ b = b' ∧ rt = rt' ∧ rs = rs' ∧ rd = rd' ∧ op = op' := by
  simp only [layout, append_inj_iff, BitVec.ofBool_eq_iff_eq, and_assoc]

theorem opField_layout : opField (layout hi imm x b rt rs rd op) = op := BitVec.extractLsb'_append_eq_right

theorem fieldsOf_layout : fieldsOf (layout hi imm x b rt rs rd op) =
    ⟨rd.toFin, rs.toFin, rt.toFin, b, imm.toNat⟩ := by
  show (let w := layout hi imm x b rt rs rd op
    Fields.mk (w.extractLsb' 8 2).toFin (w.extractLsb' 10 2).toFin (w.extractLsb' 12 2).toFin (w.getLsbD 14)
      (w.extractLsb' 16 8).toNat) = _
  simp only [layout, BitVec.extractLsb'_append_eq_ite, BitVec.getLsbD_append]
  simp

/-- The reserved bits of a word are its bits 31:24 and 15 (R111, R113). -/
theorem reserved_layout : layout hi imm x b rt rs rd op &&& 0xFF008000#32 = 0#32 ↔ hi = 0#8 ∧ x = 0#1 := by
  rw [show 0xFF008000#32 = layout (BitVec.allOnes 8) 0 (BitVec.allOnes 1) false 0 0 0 0 from rfl,
    show 0#32 = layout 0 0 0 false 0 0 0 0 from rfl, and_layout, layout_inj]
  simp only [BitVec.and_allOnes, BitVec.and_zero, BitVec.ofNat_eq_ofNat, Bool.and_false, true_and, and_true]

end

theorem assemble_eq_layout (op : BitVec 8) (rd rs rt : BsIdx) (b : Bool) (imm : Nat) :
    assemble op rd rs rt b imm =
      layout 0 (.ofNat 8 imm) 0 b (.ofNat 2 rt) (.ofNat 2 rs) (.ofNat 2 rd) op := rfl

theorem fieldsOf_assemble {op : BitVec 8} {rd rs rt : BsIdx} {b : Bool} {imm : Nat} (h : imm < 256) :
    fieldsOf (assemble op rd rs rt b imm) = ⟨rd, rs, rt, b, imm⟩ := by
  rw [assemble_eq_layout, fieldsOf_layout]
  simp [Nat.mod_eq_of_lt h]

theorem assemble_reserved (op : BitVec 8) (rd rs rt : BsIdx) (b : Bool) (imm : Nat) :
    assemble op rd rs rt b imm &&& 0xFF008000#32 = 0#32 :=
  reserved_layout.2 ⟨rfl, rfl⟩

/-- A word without reserved bits is laid out from its own fields (R111). -/
theorem assemble_fieldsOf {w : BitVec 32} (h : w &&& 0xFF008000#32 = 0#32) :
    assemble (opField w) (fieldsOf w).rd (fieldsOf w).rs (fieldsOf w).rt (fieldsOf w).b (fieldsOf w).imm = w := by
  obtain ⟨hi, imm, x, b, rt, rs, rd, op, rfl⟩ := exists_layout w
  obtain ⟨rfl, rfl⟩ := reserved_layout.1 h
  rw [opField_layout, fieldsOf_layout, assemble_eq_layout, layout_inj]
  simp

/-! ### What a row matches (R112, R113, R116) -/

/-- Every field the row does not use is zero (R113). -/
def FieldUse.covers (u : FieldUse) (f : Fields) : Prop :=
  (u.rd = false → f.rd = 0) ∧ (u.rs = false → f.rs = 0) ∧ (u.rt = false → f.rt = 0) ∧ (u.b = false → f.b = false) ∧
    (u.imm = false → f.imm = 0)

/-- The mask's part at a field: nothing where the field is used, all its bits where it is not (R112). -/
def unusedMask (n : Nat) (used : Bool) : BitVec n := if used then 0#n else BitVec.allOnes n

theorem and_unusedMask {n : Nat} (a : BitVec n) (used : Bool) : a &&& unusedMask n used = 0#n ↔ (used = false → a = 0#n) := by
  cases used <;> simp [unusedMask]

theorem Row.mask_eq_layout (r : Row) : r.mask =
    layout (BitVec.allOnes 8) (unusedMask 8 r.uses.imm) (BitVec.allOnes 1) (!r.uses.b) (unusedMask 2 r.uses.rt)
      (unusedMask 2 r.uses.rs) (unusedMask 2 r.uses.rd) (BitVec.allOnes 8) := by
  unfold Row.mask
  obtain ⟨rd, rs, rt, b, imm⟩ := r.uses
  revert rd rs rt b imm
  decide

theorem Row.pattern_eq_layout (r : Row) : r.pattern = layout 0 0 0 false 0 0 0 r.op := by
  simp [Row.pattern, layout, BitVec.setWidth_eq_append]

/-- A row's words are those with its OP, no reserved bit, and zero in every field it does not use (R112, R113). -/
theorem Row.matches_iff (r : Row) (w : BitVec 32) :
    r.matches w = true ↔ opField w = r.op ∧ w &&& 0xFF008000#32 = 0#32 ∧ r.uses.covers (fieldsOf w) := by
  obtain ⟨hi, imm, x, b, rt, rs, rd, op, rfl⟩ := exists_layout w
  rw [Row.matches, beq_iff_eq, r.mask_eq_layout, r.pattern_eq_layout, and_layout, layout_inj, reserved_layout,
    opField_layout, fieldsOf_layout]
  have hfin (a : BitVec 2) : a.toFin = 0 ↔ a = 0#2 := BitVec.toFin_inj (y := 0#2)
  have hnat : imm.toNat = 0 ↔ imm = 0#8 := BitVec.toNat_inj (y := 0#8)
  have hbool : (b && !r.uses.b) = false ↔ (r.uses.b = false → b = false) := by cases r.uses.b <;> simp
  simp only [BitVec.and_allOnes, BitVec.ofNat_eq_ofNat, and_unusedMask, FieldUse.covers, hfin, hnat, hbool]
  tauto

theorem rows_op_nodup : (rows.map Row.op).Nodup := by decide

/-- Settles O4: a row that matches has the word's OP (`Row.matches_iff`), and no OP stands in two rows. -/
theorem atMostOneRowMatches : Obligations.AtMostOneRowMatches := by
  intro w
  calc (rows.filter fun r => r.matches w).length
      = rows.countP fun r => r.matches w := List.countP_eq_length_filter.symm
    _ ≤ rows.countP fun r => r.op == opField w :=
        List.countP_mono_left fun r _ h => beq_iff_eq.2 ((r.matches_iff w).1 h).1.symm
    _ = (rows.map Row.op).count (opField w) := by rw [List.count, List.countP_map]; rfl
    _ ≤ 1 := List.nodup_iff_count_le_one.1 rows_op_nodup _

/-- Decoding finds the row that matches (R116). -/
theorem decode_eq_ok_iff {w : BitVec 32} {i : Instr} :
    decode w = .ok i ↔ ∃ r ∈ rows, r.matches w = true ∧ r.build (fieldsOf w) = i := by
  unfold decode
  cases hf : rows.find? fun r => r.matches w with
  | none =>
    simp only [reduceCtorEq, false_iff]
    rintro ⟨r, hr, hm, -⟩
    exact List.find?_eq_none.1 hf r hr hm
  | some r =>
    have hr := List.mem_of_find?_eq_some hf
    have hm := List.find?_some hf
    simp only [Except.ok.injEq]
    refine ⟨fun h => ⟨r, hr, hm, h⟩, fun ⟨r', hr', hm', h⟩ => ?_⟩
    have hop : r.op = r'.op := ((r.matches_iff w).1 hm).1.symm.trans ((r'.matches_iff w).1 hm').1
    rwa [List.inj_on_of_nodup_map rows_op_nodup hr hr' hop]

/-! ### Rows and commands (R114) -/

/-- Each row builds commands with its OP and the fields given (R114). -/
theorem build_op_fields {r : Row} (hr : r ∈ rows) {f : Fields} (hc : r.uses.covers f) :
    (r.build f).op = r.op ∧ (r.build f).fields = f := by
  obtain ⟨rd, rs, rt, b, imm⟩ := f
  revert r
  simp +contextual [rows, systemRows, bitSeqRows, tableRows, streamRows, FieldUse.covers, Instr.op, Instr.fields]

/-- Each command is built by a row from its own OP and fields (R114). -/
theorem exists_row (i : Instr) : ∃ r ∈ rows, r.op = i.op ∧ r.uses.covers i.fields ∧ r.build i.fields = i := by
  suffices h : ∃ r, rows.find? (fun r => r.op == i.op) = some r ∧ r.uses.covers i.fields ∧ r.build i.fields = i by
    obtain ⟨r, hf, hc, hb⟩ := h
    exact ⟨r, List.mem_of_find?_eq_some hf, by simpa using List.find?_some hf, hc, hb⟩
  cases i <;> exact ⟨_, rfl, by simp [FieldUse.covers, Instr.fields], rfl⟩

theorem Instr.wellFormed_iff (i : Instr) : i.wellFormed = true ↔ i.fields.imm < 256 := by
  cases i <;> simp [Instr.wellFormed, Instr.fields]

theorem fieldsOf_imm_lt (w : BitVec 32) : (fieldsOf w).imm < 256 := BitVec.isLt _

/-- Settles O2: the word of a command has the OP and the fields of the command's own row (`exists_row`), so that row matches it. -/
theorem decodeOfEncodeIsTheCommand : Obligations.DecodeOfEncodeIsTheCommand := by
  intro i hw
  obtain ⟨r, hr, hop, hc, hb⟩ := exists_row i
  have hf : fieldsOf (encode i) = i.fields := fieldsOf_assemble (i.wellFormed_iff.1 hw)
  have hm : r.matches (encode i) = true :=
    (r.matches_iff _).2 ⟨(Laws.OpField.opField_assemble ..).trans hop.symm, assemble_reserved .., hf ▸ hc⟩
  exact decode_eq_ok_iff.2 ⟨r, hr, hm, hf ▸ hb⟩

/-- Settles O3: the row that matches fixes the word's OP, its reserved bits and its unused fields (`Row.matches_iff`), and the command it builds has the same OP and fields (`build_op_fields`). -/
theorem encodeOfDecodeIsTheWord : Obligations.EncodeOfDecodeIsTheWord := by
  intro w i hd
  obtain ⟨r, hr, hm, rfl⟩ := decode_eq_ok_iff.1 hd
  obtain ⟨hop, hres, hc⟩ := (r.matches_iff w).1 hm
  obtain ⟨hbo, hbf⟩ := build_op_fields hr hc
  refine ⟨?_, (Instr.wellFormed_iff _).2 (hbf.symm ▸ fieldsOf_imm_lt w), hres, hbf.symm, hop.trans hbo.symm⟩
  rw [encode, hbo, hbf, ← hop]
  exact assemble_fieldsOf hres

/-- Settles O1: decoding computes on the written words. -/
theorem decodesTheEncodingExamples : Obligations.DecodesTheEncodingExamples :=
  ⟨List.map_inj_left.1 (by decide), (List.map_inj_left (g := fun _ => none)).1 (by decide)⟩

end Sys2Proof
end

section
/-! A CMD write on an idle core (R144): the step that accepts its word, and what becomes of a word that decodes to no command (R115, R116, R323). -/

namespace Sys2Proof.Machine

theorem State.sameBut_accept (s : State) (w : BitVec 32) : s.sameBut (s.accept w) [.latch] := by
  intro p hp; cases p <;> simp_all [Part.same, State.bsAt]

/-- On an idle core with no turns left, a CMD write that is not dropped runs its word on the accepted state (R144). -/
theorem step_cmdWrite {s : State} {v : Word} (hr : s.run = .idle) (ht : s.host.turns = [])
    (ha : s.nextAction = some (.wr 0x00 v)) (hd : s.drops (v.setWidth 32) = false) :
    step s = (s.advance.accept (v.setWidth 32)).runWord (v.setWidth 32) := by
  simp [step, State.cycle, State.busy, State.hostReady, State.hostStep, State.cmdWord, hr, ht, ha, hd]

theorem State.runWord_error {s : State} {w : BitVec 32} {r : Reject} (hd : decode w = .error r) :
    s.runWord w = .next (s.raise { cause := .illegalCommand, actual := w.setWidth 64 }) := by
  simp [State.runWord, hd, State.fail]

/-- Settles O6: the step accepts the word (`step_cmdWrite`), and running it raises (`State.runWord_error`). -/
theorem undecodableWordRaisesIllegalCommand : Obligations.UndecodableWordRaisesIllegalCommand := by
  intro s v r hr ht he ha hd
  have hdrop : s.drops (v.setWidth 32) = false := by simp [State.drops, hr, he]
  have hacc : s.sameBut (s.advance.accept (v.setWidth 32)) [.error, .latch, .host] :=
    State.sameBut_mono (State.sameBut_append s.sameBut_advance (State.sameBut_accept _ _)) (by decide)
  refine ⟨_, (step_cmdWrite hr ht ha hdrop).trans (State.runWord_error hd), rfl, rfl, rfl, rfl, rfl, rfl, ?_⟩
  exact State.sameBut_raise_of hacc _ (by decide)

end Sys2Proof.Machine
end

section
/-! The steps in which the host writes CMD (R144): a dropped word sets OVR, any other one runs its command on the accepted state. -/

namespace Sys2Proof.Machine

/-! ### Who takes the word (R378; log 5) -/

/-- On an idle core the host's next action that can complete is the step. -/
theorem step_idle_hostStep {s : State} {a : HostAction} (hr : s.run = .idle) (ha : s.nextAction = some a)
    (hrdy : s.hostReady a = true) : step s = s.hostStep a := by
  simp [step, State.cycle, State.busy, hr, ha, hrdy]

/-- While a command runs, a host that moves uses up a turn, and its next action is the step. -/
theorem step_busy_hostStep {s : State} {a : HostAction} (hr : s.run ≠ .idle) (ha : s.nextAction = some a)
    (hrdy : s.hostReady a = true) (ht : s.coreReady = false ∨ s.host.turns.head? = some .host) :
    step s = s.popTurn.hostStep a := by
  have hm : s.mover = some .host := State.mover_host (by simp [State.hostCanAct, ha, hrdy]) ht
  simp [step, State.cycle, State.busy, hr, ha, hm]

/-! ### Dropped words (R144, R326) -/

theorem State.drops_of_busy {s : State} (hr : s.run ≠ .idle) (w : BitVec 32) : s.drops w = true := by
  simp [State.drops, hr]

theorem State.drops_of_err {s : State} {w : BitVec 32} (he : s.err = true) (h1 : w ≠ 0x00000001#32)
    (h2 : w ≠ 0x00000002#32) : s.drops w = true := by
  simp [State.drops, he, h1, h2]

theorem State.hostStep_dropped {s : State} {v : Word} (hd : s.drops (v.setWidth 32) = true) :
    s.hostStep (.wr 0x00 v) = .next { s.advance with ovr := true } := by
  simp [State.hostStep, State.cmdWord, hd]

/-- Settles O7: the step is the host's move (`step_idle_hostStep`, `step_busy_hostStep`), and that move drops the word (`State.hostStep_dropped`). -/
theorem droppedWordOnlySetsOverrun : Obligations.DroppedWordOnlySetsOverrun := by
  intro s v ha
  refine ⟨fun hr he h1 h2 => ?_, fun hr ht => ?_⟩
  · exact (step_idle_hostStep hr ha rfl).trans (State.hostStep_dropped (State.drops_of_err he h1 h2))
  · have hd : s.popTurn.drops (v.setWidth 32) = true := State.drops_of_busy hr _
    exact (step_busy_hostStep hr ha rfl ht).trans (State.hostStep_dropped hd)

/-! ### Accepted words (R144, R63) -/

theorem State.drops_idle {s : State} {w : BitVec 32} (hr : s.run = .idle)
    (h : s.err = false ∨ w = 0x00000001#32 ∨ w = 0x00000002#32) : s.drops w = false := by
  rcases h with he | rfl | rfl
  · simp [State.drops, hr, he]
  · simp [State.drops, hr]
  · simp [State.drops, hr]

theorem State.runWord_ok {s : State} {w : BitVec 32} {i : Instr} (hd : decode w = .ok i) : s.runWord w = exec i s := by
  simp [State.runWord, hd]

/-- A word decodes to one command only, so it is that command's encoding. -/
theorem eq_encode_of_decode {w : BitVec 32} {i : Instr} (hd : decode w = .ok i) : w = encode i :=
  (encodeOfDecodeIsTheWord w i hd).1.symm

/-- Settles O5: SRESET and ERR_CLR have one word each (`eq_encode_of_decode`), so the word is not dropped in error either, and the step runs it on the accepted state (`step_cmdWrite`). -/
theorem stepRunsTheDecodedCommand : Obligations.StepRunsTheDecodedCommand := by
  intro s v i hr ht ha hd he
  have hw : s.err = false ∨ v.setWidth 32 = 0x00000001#32 ∨ v.setWidth 32 = 0x00000002#32 := by
    rcases he with he | rfl | rfl
    · exact .inl he
    · exact .inr (.inl (eq_encode_of_decode hd))
    · exact .inr (.inr (eq_encode_of_decode hd))
  have hstep := (step_cmdWrite hr ht ha (State.drops_idle hr hw)).trans (State.runWord_ok hd)
  exact ⟨hstep, rfl, rfl, rfl, rfl,
    State.sameBut_mono (State.sameBut_append s.sameBut_advance (State.sameBut_accept _ _)) (by decide)⟩

end Sys2Proof.Machine
end

section
/-! The system commands (file 40) and the commands that only clear (R192, R219, R281, R301): what each has done when it ends. -/

namespace Sys2Proof.Machine

/-- A change that leaves the error record and OVR alone is a success once the command ends (R145). -/
theorem State.completes_complete {s u : State} {ps : List Part} (h : s.sameBut u ps) (he : .error ∉ ps)
    (ho : .ovr ∉ ps) : s.completes u.complete :=
  have hrec : Part.error.same s u := h .error he
  ⟨rfl, rfl, hrec.1, hrec.2, h .ovr ho⟩

/-- Settles O11: each command is one update of the state and its end, so it changes what the update's frame lists. -/
theorem nopAndTheClears : Obligations.NopAndTheClears := by
  intro s
  have nop := s.sameBut_refl []
  have clr := s.sameBut_clearError
  have ft := s.sameBut_setFt []
  have ct := s.sameBut_setCt []
  have pk := s.sameBut_setPacker .init
  have dc := s.sameBut_setDecoder .init
  refine ⟨?nop, ?errClr, ?freqClr, ?codeClr, ?packInit, ?unpackInit⟩
  case nop =>
    exact ⟨_, rfl, State.completes_complete nop (by decide) (by decide), State.sameBut_complete_of nop⟩
  case errClr => exact ⟨_, rfl, rfl, rfl, rfl, rfl, rfl, State.sameBut_complete_of clr⟩
  case freqClr =>
    exact ⟨_, rfl, State.completes_complete ft (by decide) (by decide), rfl, rfl, State.sameBut_complete_of ft⟩
  case codeClr =>
    exact ⟨_, rfl, State.completes_complete ct (by decide) (by decide), rfl, rfl, State.sameBut_complete_of ct⟩
  case packInit =>
    exact ⟨_, rfl, State.completes_complete pk (by decide) (by decide), rfl, State.sameBut_complete_of pk⟩
  case unpackInit =>
    exact ⟨_, rfl, State.completes_complete dc (by decide) (by decide), rfl, State.sameBut_complete_of dc⟩

/-! ### SRESET (R141, R361) -/

/-- The soft reset gives the reset state but for the parts R141 excepts and the host's side. -/
theorem State.resetWith_sameBut_softReset (s : State) :
    (State.resetWith s.params).sameBut s.softReset [.inq, .outq, .intEn, .host] := by
  intro p hp; cases p <;> simp_all [Part.same, State.bsAt, State.softReset, State.hardReset, State.resetWith]

/-- Settles O12: SRESET is the soft reset (`State.resetWith_sameBut_softReset`) and its end. -/
theorem sresetRestoresTheResetState : Obligations.SresetRestoresTheResetState := fun s =>
  ⟨_, rfl, rfl, rfl, rfl, rfl, rfl, rfl, rfl, rfl, State.sameBut_complete_of s.resetWith_sameBut_softReset⟩

/-! ### SET_WIDTH (R143) -/

theorem execSetWidth_installs {n : Nat} (h1 : 1 ≤ n) (h8 : n ≤ 8) (s : State) :
    execSetWidth n s = (s.installWidth n).succeed := if_neg (by omega)

theorem execSetWidth_raises {n : Nat} (h : n = 0 ∨ 8 < n) (s : State) :
    execSetWidth n s = s.fail { cause := .illegalArgument, expected := 8, actual := BitVec.ofNat 64 n } :=
  if_pos (by omega)

/-- WIDTH has room for every width of R143. -/
theorem State.installWidth_width_toNat (s : State) {n : Nat} (h8 : n ≤ 8) : (s.installWidth n).width.toNat = n := by
  simp only [State.installWidth_width, BitVec.toNat_ofNat]
  omega

/-- Settles O13: a width of R143 is installed (`execSetWidth_installs`), any other one raises (`execSetWidth_raises`). -/
theorem setWidthInstallsAndClears : Obligations.SetWidthInstallsAndClears := by
  intro s n
  refine ⟨fun h1 h8 => ?_, fun h => ?_⟩
  · have hf := s.sameBut_installWidth n
    exact ⟨_, execSetWidth_installs h1 h8 s, State.completes_complete hf (by decide) (by decide),
      s.installWidth_width_toNat h8, rfl, rfl, rfl, rfl, rfl, rfl, State.sameBut_complete_of hf⟩
  · exact ⟨_, execSetWidth_raises h s, rfl, rfl, rfl, rfl, s.sameBut_raise _⟩

end Sys2Proof.Machine
end

section
/-! The BitSequence commands (file 41): the branches of their checks, and what each has done to its register or to RES0 and RES1 when it ends. -/

namespace Sys2Proof.Machine

/-! ### The branches of the commands that check (R162, R163, R167, R169) -/

section

variable {s : State} {rd rs : BsIdx}

theorem execBsApp_appends (b : Bool) (h : (s.bsAt rd).len < 64) :
    execBsApp rd b s = (s.setBs rd ((s.bsAt rd).append b)).succeed := if_neg h.ne

theorem execBsApp_raises (b : Bool) (h : (s.bsAt rd).len = 64) :
    execBsApp rd b s = s.fail { cause := .codeOverflow, expected := 64, actual := 65 } := if_pos h

theorem execBsGet_reads {i : Nat} (h : i < (s.bsAt rs).len) :
    execBsGet rs i s = (s.setRes0 (bitWord ((s.bsAt rs).get i))).succeed := if_neg h.not_ge

theorem execBsGet_raises {i : Nat} (h : (s.bsAt rs).len ≤ i) :
    execBsGet rs i s = s.fail { cause := .illegalArgument, expected := BitVec.ofNat 64 (s.bsAt rs).len,
                                actual := BitVec.ofNat 64 i } := if_pos h

theorem execBsLd_loads (h : s.latch.a1.toNat ≤ 64) :
    execBsLd rd s = (s.setBs rd (.mk' s.latch.a1.toNat s.latch.a0)).succeed := if_neg h.not_gt

theorem execBsLd_raises (h : 64 < s.latch.a1.toNat) :
    execBsLd rd s = s.fail { cause := .illegalArgument, expected := 64, actual := s.latch.a1 } := if_pos h

theorem execBsCat_joins (h : (s.bsAt rd).len + (s.bsAt rs).len ≤ 64) :
    execBsCat rd rs s = (s.setBs rd ((s.bsAt rd).concat (s.bsAt rs))).succeed := if_neg h.not_gt

theorem execBsCat_raises (h : 64 < (s.bsAt rd).len + (s.bsAt rs).len) :
    execBsCat rd rs s = s.fail { cause := .codeOverflow, expected := 64,
                                 actual := BitVec.ofNat 64 ((s.bsAt rd).len + (s.bsAt rs).len) } := if_pos h

end

/-! ### One write of a register and the end of the command -/

/-- A meaning that writes one register and succeeds. -/
theorem State.setBs_succeed (s : State) (rd : BsIdx) (c : BitSeq) :
    ∃ t, (s.setBs rd c).succeed = .next t ∧ s.completes t ∧ t.bsAt rd = c ∧ s.sameBut t [.bs rd] :=
  have hf := s.sameBut_setBs rd c
  ⟨_, rfl, State.completes_complete hf (by simp) (by simp), s.setBs_bsAt_self rd c, State.sameBut_complete_of hf⟩

/-- A meaning that writes RES0 and succeeds. -/
theorem State.setRes0_succeed (s : State) (v : Word) :
    ∃ t, (s.setRes0 v).succeed = .next t ∧ s.completes t ∧ t.regs.res0 = v ∧ s.sameBut t [.res0] :=
  have hf := s.sameBut_setRes0 v
  ⟨_, rfl, State.completes_complete hf (by decide) (by decide), rfl, State.sameBut_complete_of hf⟩

/-- A meaning that writes RES0 and RES1 and succeeds. -/
theorem State.setRes_succeed (s : State) (v w : Word) :
    ∃ t, (s.setRes v w).succeed = .next t ∧ s.completes t ∧ t.regs.res0 = v ∧ t.regs.res1 = w ∧
      s.sameBut t [.res0, .res1] :=
  have hf := s.sameBut_setRes v w
  ⟨_, rfl, State.completes_complete hf (by decide) (by decide), rfl, rfl, State.sameBut_complete_of hf⟩

/-! ### Writing registers -/

/-- Settles O15: each command is one register write and its end (`State.setBs_succeed`). -/
theorem bitSequenceClearAndCopy : Obligations.BitSequenceClearAndCopy := by
  intro s rd rs
  refine ⟨?clr, s.setBs_succeed rd (s.bsAt rs)⟩
  case clr =>
    obtain ⟨t, ht, hc, hv, hf⟩ := s.setBs_succeed rd .empty
    exact ⟨t, ht, hc, by simp [hv], by simp [hv], hf⟩

/-- Settles O16: the value written has the bits `BitSeq.toBits_append` and `BitSeq.toBits_concat` give, and the form of R16. -/
theorem appendAndConcatenate : Obligations.AppendAndConcatenate := by
  intro s rd rs b hd hs
  refine ⟨fun hl => ?app, fun hl => ?cat⟩
  case app =>
    obtain ⟨t, ht, hc, hv, hf⟩ := s.setBs_succeed rd ((s.bsAt rd).append b)
    exact ⟨t, (execBsApp_appends b hl).trans ht, hc, hv ▸ BitSeq.toBits_append _ b hd hl,
      hv ▸ BitSeq.append_wf _ b hd hl, hf⟩
  case cat =>
    obtain ⟨t, ht, hc, hv, hf⟩ := s.setBs_succeed rd ((s.bsAt rd).concat (s.bsAt rs))
    exact ⟨t, (execBsCat_joins hl).trans ht, hc, hv ▸ BitSeq.toBits_concat _ _ hd hl,
      hv ▸ BitSeq.concat_wf _ _ hd hs hl, hf⟩

/-- Settles O17: the value written is mk(A1, A0), whose bits `BitSeq.toBits_mk'` gives. -/
theorem loadTakesTheLowBits : Obligations.LoadTakesTheLowBits := by
  intro s rd hl
  obtain ⟨t, ht, hc, hv, hf⟩ := s.setBs_succeed rd (.mk' s.latch.a1.toNat s.latch.a0)
  exact ⟨t, (execBsLd_loads hl).trans ht, hc, hv ▸ BitSeq.toBits_mk' _ _ hl, hv ▸ BitSeq.mk'_wf _ _ hl, hf⟩

/-! ### Reading registers -/

/-- The bits of a sequence are its `get` below its length (R16, R160). -/
theorem BitSeq.toBits_getElem?_eq_some (c : BitSeq) (i : Nat) (b : Bool) :
    c.toBits[i]? = some b ↔ i < c.len ∧ c.get i = b := by
  simp [List.getElem?_eq_some_iff, BitSeq.toBits_getElem, BitSeq.get]

/-- In the form of R16 a bit sequence's length is its word in RES0 or RES1 (R164, R168). -/
theorem BitSeq.toNat_ofNat_len {c : BitSeq} (h : c.wf) : (BitVec.ofNat 64 c.len).toNat = c.len := by
  have hl : c.len ≤ 64 := h.1
  rw [BitVec.toNat_ofNat]
  omega

/-- eq compares bit sequences (R160, R166). -/
theorem BitSeq.eq_iff_toBits {c d : BitSeq} (hc : c.wf) (hd : d.wf) : c.eq d = true ↔ c.toBits = d.toBits :=
  (BitSeq.eq_iff c d).trans ⟨congrArg _, BitSeq.ext_bits c d hc hd⟩

/-- Settles O18: each command is one write of RES0, or of both results, and its end; the words written are read as bits, length and equality by the lemmas above. -/
theorem bitSequenceReads : Obligations.BitSequenceReads := by
  intro s rs rt hs ht
  refine ⟨fun i b hb => ?get, ?len, ?eq, ?rd⟩
  case get =>
    obtain ⟨hi, rfl⟩ := (BitSeq.toBits_getElem?_eq_some _ i b).1 hb
    obtain ⟨t, hx, h⟩ := s.setRes0_succeed (bitWord ((s.bsAt rs).get i))
    exact ⟨t, (execBsGet_reads hi).trans hx, h⟩
  case len =>
    obtain ⟨t, hx, hc, hv, hf⟩ := s.setRes0_succeed (BitVec.ofNat 64 (s.bsAt rs).len)
    exact ⟨t, hx, hc, by rw [hv, BitSeq.toNat_ofNat_len hs, BitSeq.toBits_length], hf⟩
  case eq =>
    obtain ⟨t, hx, hc, hv, hf⟩ := s.setRes0_succeed (bitWord ((s.bsAt rs).eq (s.bsAt rt)))
    exact ⟨t, hx, hc, by simp only [hv, bitWord, BitSeq.eq_iff_toBits hs ht], hf⟩
  case rd =>
    obtain ⟨t, hx, hc, hv, hw, hf⟩ := s.setRes_succeed (s.bsAt rs).bits (BitVec.ofNat 64 (s.bsAt rs).len)
    have hlen : t.regs.res1.toNat = (s.bsAt rs).len := hw ▸ BitSeq.toNat_ofNat_len hs
    exact ⟨t, hx, hc, hv, hlen, fun k hk => hv ▸ ((BitSeq.wf_iff _).1 hs).2 k (hlen ▸ hk), hf⟩

/-! ### Errors -/

/-- Settles O19: where its check fails a command only raises (the lemmas `execBsApp_raises`, `execBsGet_raises`, `execBsLd_raises` and `execBsCat_raises`), and a raise writes the record alone. -/
theorem bitSequenceErrors : Obligations.BitSequenceErrors := by
  intro s rd rs b i
  refine ⟨fun h => ?app, fun h => ?get, fun h => ?ld, fun h => ?cat⟩
  case app => exact ⟨_, execBsApp_raises b h, rfl, rfl, s.sameBut_raise _⟩
  case get => exact ⟨_, execBsGet_raises h, rfl, rfl, s.sameBut_raise _⟩
  case ld => exact ⟨_, execBsLd_raises h, rfl, rfl, s.sameBut_raise _⟩
  case cat => exact ⟨_, execBsCat_raises h, rfl, rfl, s.sameBut_raise _⟩

end Sys2Proof.Machine
end

section
/-! The frequency table (file 42): what counting a symbol does to FT, and what FREQ_ADD, FREQ_SET and FREQ_GET have done when they end. -/

namespace Sys2Proof.Machine

/-! ### Counting one symbol (R193) -/

/-- FT with one more occurrence of v (R193). -/
def FMap.bumped (ft : FMap Word) (v : Word) : FMap Word := ft.put v ((ft.get v).getD 0 + 1)

/-- A symbol with room in the table and a count below the largest is counted once more. -/
theorem bumpCount_counts {cap : Nat} {ft : FMap Word} {v : Word} (start : Word)
    (hroom : ft.get v = none → ft.length < cap) (hmax : ft.get v ≠ some maxWord) :
    bumpCount cap ft start v = .ok (ft.bumped v) := by
  unfold bumpCount FMap.bumped
  cases hg : ft.get v with
  | none => exact if_neg (hroom hg).ne
  | some n => exact if_neg fun hn => hmax (hg.trans (congrArg some hn))

/-- A new symbol does not go into a full table. -/
theorem bumpCount_full {cap : Nat} {ft : FMap Word} {v : Word} (start : Word) (hg : ft.get v = none)
    (hl : ft.length = cap) : bumpCount cap ft start v = .error { capacityRaise cap v with offset := start } := by
  simp only [bumpCount, hg, if_pos hl]

/-- The largest count does not grow. -/
theorem bumpCount_max {cap : Nat} {ft : FMap Word} {v : Word} (start : Word) (hg : ft.get v = some maxWord) :
    bumpCount cap ft start v =
      .error { cause := .countOverflow, offset := start, expected := maxWord, actual := 1, symbol := v } := by
  simp only [bumpCount, hg, if_true]

/-! ### The branches of the commands (R193, R194, R195) -/

section

variable {s : State}

/-- The checks of a command that takes a symbol pass (R120, R329). -/
theorem State.checked_symbolOk (h : s.symbolOk) (op : BitVec 8) (k : Out) :
    s.checked ((s.needWidth op).or s.needSymbol) k = k := by
  rw [s.needWidth_ok op h.1, none_or_raise, s.needSymbol_ok h.2, State.checked_none]

theorem execFreqAdd_counts (h : s.symbolOk) (hroom : s.ft.get s.latch.a0 = none → s.ft.length < s.params.symCap)
    (hmax : s.ft.get s.latch.a0 ≠ some maxWord) :
    execFreqAdd s = (s.setFt (s.ft.bumped s.latch.a0)).succeed := by
  rw [execFreqAdd, State.checked_symbolOk h, bumpCount_counts 0 hroom hmax]

theorem execFreqAdd_full (h : s.symbolOk) (hg : s.ft.get s.latch.a0 = none) (hl : s.ft.length = s.params.symCap) :
    execFreqAdd s = s.fail (capacityRaise s.params.symCap s.latch.a0) := by
  rw [execFreqAdd, State.checked_symbolOk h, bumpCount_full 0 hg hl]
  rfl

theorem execFreqAdd_max (h : s.symbolOk) (hg : s.ft.get s.latch.a0 = some maxWord) :
    execFreqAdd s = s.fail { cause := .countOverflow, expected := maxWord, actual := 1, symbol := s.latch.a0 } := by
  rw [execFreqAdd, State.checked_symbolOk h, bumpCount_max 0 hg]

theorem execFreqSet_stores (h : s.symbolOk) (hroom : s.ft.get s.latch.a0 = none → s.ft.length < s.params.symCap) :
    execFreqSet s = (s.setFt (s.ft.put s.latch.a0 s.latch.a1)).succeed := by
  rw [execFreqSet, State.checked_symbolOk h, if_neg fun hf => (hroom hf.1).ne hf.2]

theorem execFreqSet_full (h : s.symbolOk) (hg : s.ft.get s.latch.a0 = none) (hl : s.ft.length = s.params.symCap) :
    execFreqSet s = s.fail (capacityRaise s.params.symCap s.latch.a0) := by
  rw [execFreqSet, State.checked_symbolOk h, if_pos ⟨hg, hl⟩]

/-- FREQ_GET reports the count and 1, or 0 and 0. -/
theorem execFreqGet_reports (h : s.symbolOk) :
    execFreqGet s =
      (s.setRes ((s.ft.get s.latch.a0).getD 0) (bitWord (s.ft.get s.latch.a0).isSome)).succeed := by
  rw [execFreqGet, State.checked_symbolOk h]
  cases s.ft.get s.latch.a0 with
  | none => rfl
  | some n => rfl

end

/-- A meaning that stores one count in FT and succeeds (R191). -/
theorem State.setFt_put_succeed (s : State) (v n : Word) :
    ∃ t, (s.setFt (s.ft.put v n)).succeed = .next t ∧ s.completes t ∧ t.ft.get v = some n ∧
      (∀ k, k ≠ v → t.ft.get k = s.ft.get k) ∧ t.etree = none ∧ s.sameBut t [.ft, .etree] :=
  have hf := s.sameBut_setFt (s.ft.put v n)
  ⟨_, rfl, State.completes_complete hf (by decide) (by decide), FMap.get_put_self s.ft v n,
    fun k hk => FMap.get_put_ne s.ft v k n hk, rfl, State.sameBut_complete_of hf⟩

/-- Settles O20: FREQ_ADD stores the count and one more (`execFreqAdd_counts`), which writes that one key (`State.setFt_put_succeed`). -/
theorem freqAddCountsOneMore : Obligations.FreqAddCountsOneMore := by
  intro s hs hmax hroom
  obtain ⟨t, ht, h⟩ := s.setFt_put_succeed s.latch.a0 ((s.ft.get s.latch.a0).getD 0 + 1)
  exact ⟨t, (execFreqAdd_counts hs hroom hmax).trans ht, h⟩

/-- Settles O21: FREQ_SET stores A1 (`execFreqSet_stores`), and FREQ_GET writes what it reads to RES0 and RES1 (`execFreqGet_reports`). -/
theorem freqSetAndGet : Obligations.FreqSetAndGet := by
  intro s hs
  refine ⟨fun hroom => ?set, ?get⟩
  case set =>
    obtain ⟨t, ht, h⟩ := s.setFt_put_succeed s.latch.a0 s.latch.a1
    exact ⟨t, (execFreqSet_stores hs hroom).trans ht, h⟩
  case get =>
    obtain ⟨t, ht, hc, h0, h1, hf⟩ :=
      s.setRes_succeed ((s.ft.get s.latch.a0).getD 0) (bitWord (s.ft.get s.latch.a0).isSome)
    refine ⟨t, (execFreqGet_reports hs).trans ht, hc, fun n hn => ?_, fun hn => ?_, hf⟩
    · rw [h0, h1, hn]; exact ⟨rfl, rfl⟩
    · rw [h0, h1, hn]; exact ⟨rfl, rfl⟩

/-- Settles O22: in these branches FREQ_ADD and FREQ_SET only raise (`execFreqAdd_full`, `execFreqSet_full`, `execFreqAdd_max`), and a raise writes the record alone. -/
theorem freqErrorsChangeNothing : Obligations.FreqErrorsChangeNothing := by
  intro s hs
  refine ⟨fun hg hl i hi => ?full, fun hg => ?max⟩
  case full =>
    have hraises : exec i s = s.fail (capacityRaise s.params.symCap s.latch.a0) := by
      rcases List.mem_pair.1 hi with rfl | rfl
      · exact execFreqAdd_full hs hg hl
      · exact execFreqSet_full hs hg hl
    exact ⟨_, hraises, rfl, rfl, s.sameBut_raise _⟩
  case max => exact ⟨_, execFreqAdd_max hs hg, rfl, rfl, s.sameBut_raise _⟩

end Sys2Proof.Machine
end

section
/-! FREQ_SCAN (R196, R89, R330): which symbols its loop counts from a stream that ends and from one that breaks off, and that FT takes them all where there is room. -/

namespace Sys2Proof.Machine

/-! ### The complete chunks of a stream (R89, R330) -/

theorem fullChunks_short {n : Nat} {l : List Byte} (h : l.length < n) : fullChunks n l = [] := by
  rw [fullChunks, Nat.div_eq_of_lt h, Nat.mul_zero, List.take_zero, chunkWords_nil n (by omega)]

theorem fullChunks_cons {n : Nat} {c : List Byte} (l : List Byte) (hn : 0 < n) (hc : c.length = n) :
    fullChunks n (c ++ l) = beWord c :: fullChunks n l := by
  have hq : (c ++ l).length / n = l.length / n + 1 := by
    rw [List.length_append, hc, Nat.add_comm, Nat.add_div_right _ hn]
  have ht : (c ++ l).take (n * (l.length / n + 1)) = c ++ l.take (n * (l.length / n)) := by
    rw [Nat.mul_add, Nat.mul_one, Nat.add_comm, ← hc, List.take_length_add_append]
  rw [fullChunks, hq, ht, chunkWords_cons n _ _ hn hc, fullChunks]

/-! ### Counting a list of symbols -/

/-- The keys of a map are the words it does not read as absent. -/
theorem FMap.mem_keys {α : Type} (m : FMap α) (k : Word) : k ∈ m.map Prod.fst ↔ m.get k ≠ none := by
  simp [FMap.get_eq_none]

/-- In canonical form no key stands twice. -/
theorem FMap.keys_nodup {α : Type} {m : FMap α} (h : m.wf) : (m.map Prod.fst).Nodup :=
  List.Pairwise.map _ (fun _ _ hlt => word_ne_of_lt hlt) h

theorem length_le_dedup_of_subset {l k : List Word} (hd : l.Nodup) (h : l ⊆ k) : l.length ≤ k.dedup.length :=
  (List.subperm_of_subset hd fun _ hx => List.mem_dedup.2 (h hx)).length_le

theorem FMap.get_bumped (ft : FMap Word) (v w : Word) :
    (ft.bumped v).get w = if w = v then some ((ft.get v).getD 0 + 1) else ft.get w := FMap.get_put _ _ _ _

theorem word_add_ofNat_succ (x : Word) (n : Nat) : x + BitVec.ofNat 64 (n + 1) = x + 1 + BitVec.ofNat 64 n := by
  rw [Nat.add_comm, BitVec.ofNat_add, ← add_assoc]
  rfl

/-- Counting v and then the others is counting them all. -/
theorem FMap.counted_cons {ft m : FMap Word} {v : Word} {vs : List Word} (h : (ft.bumped v).counted vs m) :
    ft.counted (v :: vs) m := by
  intro w
  have hw := h w
  rw [FMap.get_bumped] at hw
  by_cases e : w = v
  · subst e
    have hc (x : Word) : x + 1 + BitVec.ofNat 64 (vs.count w) = x + BitVec.ofNat 64 ((w :: vs).count w) := by
      rw [List.count_cons_self, word_add_ofNat_succ]
    rw [hw, if_pos rfl]
    dsimp only
    rw [hc]
    cases ft.get w <;> simp
  · rw [hw, if_neg e, List.count_cons_of_ne (Ne.symm e)]
    simp [e]

/-- FT has room for the symbols, and no count passes 2^64 − 1 (R193). -/
def FMap.takes (ft : FMap Word) (cap : Nat) (ws : List Word) : Prop :=
  ft.wf ∧ (ft.map Prod.fst ++ ws).dedup.length ≤ cap ∧ ∀ v ∈ ws, ((ft.get v).getD 0).toNat + ws.count v < 2 ^ 64

section

variable {ft : FMap Word} {cap : Nat} {v : Word} {vs : List Word}

/-- A new symbol that is to be counted finds room. -/
theorem FMap.takes_room (h : ft.takes cap (v :: vs)) (hg : ft.get v = none) : ft.length < cap := by
  obtain ⟨hwf, hcap, -⟩ := h
  have hnew : v ∉ ft.map Prod.fst := fun hm => (ft.mem_keys v).1 hm hg
  have hle := length_le_dedup_of_subset (k := ft.map Prod.fst ++ v :: vs) ((FMap.keys_nodup hwf).cons hnew)
    (by simp)
  rw [List.length_cons, List.length_map] at hle
  omega

/-- A symbol that is to be counted has not the largest count. -/
theorem FMap.takes_max (h : ft.takes cap (v :: vs)) : ft.get v ≠ some maxWord := by
  obtain ⟨-, -, hcount⟩ := h
  intro hg
  have hv := hcount v List.mem_cons_self
  rw [hg, List.count_cons_self] at hv
  exact word_ne_max_of_lt maxWord _ hv rfl

theorem FMap.takes_bumped (h : ft.takes cap (v :: vs)) : (ft.bumped v).takes cap vs := by
  obtain ⟨hwf, hcap, hcount⟩ := h
  refine ⟨FMap.wf_put _ _ _ hwf, ?_, fun w hw => ?_⟩
  · refine (length_le_dedup_of_subset (List.nodup_dedup _) fun w hw => ?_).trans hcap
    rw [List.mem_dedup, List.mem_append, FMap.mem_keys, FMap.get_bumped] at hw
    rw [List.mem_append, FMap.mem_keys, List.mem_cons]
    by_cases e : w = v
    · exact .inr (.inl e)
    · rw [if_neg e] at hw
      exact hw.imp_right .inr
  · have hv := hcount w (List.mem_cons_of_mem _ hw)
    rw [FMap.get_bumped]
    by_cases e : w = v
    · subst e
      rw [List.count_cons_self] at hv
      rw [if_pos rfl, Option.getD_some, word_add_one_toNat _ _ hv]
      omega
    · rw [List.count_cons_of_ne (Ne.symm e)] at hv
      rwa [if_neg e]

end

/-- Where FT takes the symbols they are all counted (R196). -/
theorem countAll_counted (cap : Nat) (ws : List Word) : ∀ ft : FMap Word, ft.takes cap ws →
    ∃ m, countAll cap ft ws = some m ∧ ft.counted ws m := by
  induction ws with
  | nil =>
    intro ft _
    refine ⟨ft, rfl, fun w => ?_⟩
    cases ft.get w <;> simp
  | cons v vs ih =>
    intro ft h
    obtain ⟨m, hm, hc⟩ := ih (ft.bumped v) (FMap.takes_bumped h)
    refine ⟨m, ?_, FMap.counted_cons hc⟩
    rw [countAll, bumpCount_counts 0 (FMap.takes_room h) (FMap.takes_max h)]
    exact hm

theorem State.countAll_of_canCount {s : State} {ws : List Word} (h : s.canCount ws) :
    ∃ m, countAll s.params.symCap s.ft ws = some m ∧ s.ft.counted ws m := countAll_counted _ _ _ h

theorem countAll_cons_eq_some {cap : Nat} {ft m : FMap Word} {v : Word} {vs : List Word} :
    countAll cap ft (v :: vs) = some m ↔ ∃ m', bumpCount cap ft 0 v = .ok m' ∧ countAll cap m' vs = some m := by
  rw [countAll]
  cases bumpCount cap ft 0 v <;> simp

/-! ### The loop over bytes with anything after them -/

/-- FREQ_SCAN's next byte completes a chunk, whose symbol is counted (R196). -/
theorem scanToken_counts {s : State} {ns nb : Word} {chunk : List Byte} {b : Byte} {m : FMap Word} (start : Word)
    (hnb : nb ≠ maxWord) (hns : ns ≠ maxWord) (hl : (chunk ++ [b]).length = s.symWidth)
    (hm : bumpCount s.params.symCap s.ft 0 (beWord (chunk ++ [b])) = .ok m) :
    s.scanToken ns nb start chunk (.byte b) =
      (s.putFt m).goOn [.scan (ns + 1) (nb + 1) (chunkStart chunk nb start) []] := by
  simp only [State.scanToken, incCount_ok _ _ hnb, if_pos hl, scanCount_ok s _ _ _ _ m hm hns]

/-- FREQ_SCAN's next byte leaves its chunk incomplete (R196). -/
theorem scanToken_holds {s : State} {nb : Word} {chunk : List Byte} {b : Byte} (ns start : Word)
    (hnb : nb ≠ maxWord) (hl : (chunk ++ [b]).length ≠ s.symWidth) :
    s.scanToken ns nb start chunk (.byte b) = s.goOn [.scan ns (nb + 1) (chunkStart chunk nb start) (chunk ++ [b])] := by
  simp only [State.scanToken, incCount_ok _ _ hnb, if_neg hl]

/-- FREQ_SCAN's loop over bytes, whatever follows them: it counts the symbols of the complete chunks (R196, R330). -/
theorem moves_scan_bytes (bytes : List Byte) : ∀ (s : State) (ns nb start : Word) (chunk : List Byte) (m : FMap Word)
    (q : List Token), s.iof = false → chunk.length < s.symWidth → s.inq = byteTokens bytes ++ q →
    countAll s.params.symCap s.ft (fullChunks s.symWidth (chunk ++ bytes)) = some m →
    nb.toNat + bytes.length < 2 ^ 64 → ns.toNat + bytes.length < 2 ^ 64 →
    ∃ k ns' start' chunk', Moves (s.goOn [.scan ns nb start chunk])
      (((s.putFt m).atInq q k).goOn [.scan ns' (nb + BitVec.ofNat 64 bytes.length) start' chunk']) := by
  induction bytes with
  | nil =>
    intro s ns nb start chunk m q _ hc hq hm _ _
    rw [List.append_nil, fullChunks_short hc] at hm
    cases hm
    subst hq
    refine ⟨s.iofSkip, ns, start, chunk, ?_⟩
    rw [List.length_nil, BitVec.add_zero]
    exact Moves.refl _
  | cons b bytes ih =>
    intro s ns nb start chunk m q hi hc hq hm hnb hns
    have htok := moves_scan_token s ns nb start chunk (.byte b) (byteTokens bytes ++ q) hi hq
    have hnb' := word_add_one_toNat _ _ hnb
    have hns' := word_add_one_toNat _ _ hns
    rw [List.length_cons] at hnb hns
    rw [show chunk ++ b :: bytes = (chunk ++ [b]) ++ bytes by simp] at hm
    rw [List.length_cons, word_add_ofNat_succ]
    by_cases hl : (chunk ++ [b]).length = s.symWidth
    · rw [fullChunks_cons _ (by omega) hl, countAll_cons_eq_some] at hm
      obtain ⟨m', hb, hm⟩ := hm
      have hcounts := scanToken_counts (s := (s.goOn [.scan ns nb start chunk]).took (byteTokens bytes ++ q)) start
        (word_ne_max_of_lt _ _ hnb) (word_ne_max_of_lt _ _ hns) hl hb
      rw [hcounts] at htok
      obtain ⟨k, ns', start', chunk', hk⟩ := ih ((s.putFt m').atInq (byteTokens bytes ++ q) (s.iofSkip - 1))
        (ns + 1) (nb + 1) (chunkStart chunk nb start) [] m q hi (Nat.zero_lt_of_lt hc) rfl hm (by omega) (by omega)
      exact ⟨k, ns', start', chunk', htok.trans hk⟩
    · have hc' : (chunk ++ [b]).length < s.symWidth := by
        rw [List.length_append, List.length_singleton] at hl ⊢
        omega
      have hholds := scanToken_holds (s := (s.goOn [.scan ns nb start chunk]).took (byteTokens bytes ++ q)) ns start
        (word_ne_max_of_lt _ _ hnb) hl
      rw [hholds] at htok
      obtain ⟨k, ns', start', chunk', hk⟩ := ih (s.atInq (byteTokens bytes ++ q) (s.iofSkip - 1))
        ns (nb + 1) (chunkStart chunk nb start) (chunk ++ [b]) m q hi hc' rfl hm (by omega) (by omega)
      exact ⟨k, ns', start', chunk', htok.trans hk⟩

/-! ### The command -/

/-- FREQ_SCAN past its check (R196). -/
theorem execFreqScan_starts {s : State} (h : s.width ≠ 0) :
    execFreqScan s = (s.setEtree none).start [.scan 0 0 0 []] := by
  rw [execFreqScan, s.needWidth_ok 0x24 h, State.checked_none]

/-- The state FREQ_SCAN leaves before its end: FT counted, the stream taken, ETREE none (R191, R196). -/
def State.scanned (s : State) (m : FMap Word) (q : List Token) (k : Nat) : State :=
  ((s.setEtree none).fresh.putFt m).atInq q k

theorem State.sameBut_scanned (s : State) (m : FMap Word) (q : List Token) (k : Nat) :
    s.sameBut (s.scanned m q k) [.ft, .etree, .inq] := by
  intro p hp; cases p <;> simp_all [Part.same, State.bsAt, State.scanned]

/-- The end FREQ_SCAN comes to over a stream with its EOS, at width n: the number of symbols and of bytes (R196). -/
def scanEnd (n : Nat) (bytes : List Byte) : Finish :=
  .freqScan (BitVec.ofNat 64 (chunkWords n bytes).length) (BitVec.ofNat 64 bytes.length)

/-- Over a stream with its EOS FREQ_SCAN completes (R196). -/
theorem execFreqScan_eos {s : State} {bytes : List Byte} {rest : List Token} {m : FMap Word} (hs : s.quiet)
    (hw : s.width ≠ 0) (hl : bytes.length < 2 ^ 64) (hq : s.inq = byteTokens bytes ++ .eos :: rest)
    (hm : countAll s.params.symCap s.ft (chunkWords s.symWidth bytes) = some m) :
    ∃ k, execFreqScan s = .next (((s.scanned m rest k).goOn [.finish (scanEnd s.symWidth bytes)]).writeResults
      (scanEnd s.symWidth bytes)).complete := by
  have hn := s.symWidth_pos hw
  have hrun : chunkRun (s.setEtree none).fresh.symWidth [] bytes = chunkWords s.symWidth bytes :=
    chunkRun_eq _ hn bytes [] hn
  have hns : (0 : Word).toNat + (chunkWords s.symWidth bytes).length < 2 ^ 64 := by
    simpa using (chunkWords_length_le _ hn bytes).trans_lt hl
  obtain ⟨k, hk⟩ := moves_scan bytes (s.setEtree none).fresh 0 0 0 [] m rest hs.1 hn hq (by rw [hrun]; exact hm)
    (by simpa using hl) (by rw [hrun]; exact hns)
  rw [hrun, zero_add, zero_add] at hk
  exact ⟨k, (execFreqScan_starts hw).trans
    (State.start_completes _ (s.scanned m rest k) _ _ hs.2 (by simp [Micro.bounded]) hk hs.1)⟩

/-- Over a stream that breaks off with an Err FREQ_SCAN raises at the Err (R330). -/
theorem execFreqScan_err {s : State} {bytes : List Byte} {rest : List Token} {m : FMap Word} (hs : s.quiet)
    (hw : s.width ≠ 0) (hl : bytes.length < 2 ^ 64) (hq : s.inq = byteTokens bytes ++ .err :: rest)
    (hm : countAll s.params.symCap s.ft (fullChunks s.symWidth bytes) = some m) :
    ∃ k, execFreqScan s =
      .next ((s.scanned m rest k).raise { cause := .ioError, offset := BitVec.ofNat 64 bytes.length }) := by
  obtain ⟨k, ns, start, chunk, hk⟩ := moves_scan_bytes bytes (s.setEtree none).fresh 0 0 0 [] m (.err :: rest) hs.1
    (s.symWidth_pos hw) hq hm (by simpa using hl) (by simpa using hl)
  rw [zero_add] at hk
  have herr := moves_scan_token (s.scanned m (.err :: rest) k) ns (BitVec.ofNat 64 bytes.length) start chunk .err rest
    hs.1 rfl
  exact ⟨k - 1, (execFreqScan_starts hw).trans
    (State.start_eq _ _ _ hs.2 (by simp [Micro.bounded]) (hk.trans herr) rfl)⟩

/-- Settles O23: FT takes all the symbols (`State.countAll_of_canCount`), so the loop ends at the EOS (`execFreqScan_eos`) or at the Err (`execFreqScan_err`) with them counted. -/
theorem freqScanCountsTheChunks : Obligations.FreqScanCountsTheChunks := by
  intro s bytes rest hs hw hl
  refine ⟨fun hq hcan => ?eos, fun hq hcan => ?err⟩
  case eos =>
    obtain ⟨m, hm, hc⟩ := State.countAll_of_canCount hcan
    obtain ⟨k, hk⟩ := execFreqScan_eos hs hw hl hq hm
    exact ⟨_, hk, State.completes_finished s _ _ rfl rfl rfl, rfl, rfl, rfl, rfl, hc,
      State.sameBut_finished s _ _ _ (s.sameBut_scanned m rest k)⟩
  case err =>
    obtain ⟨m, hm, hc⟩ := State.countAll_of_canCount hcan
    obtain ⟨k, hk⟩ := execFreqScan_err hs hw hl hq hm
    exact ⟨_, hk, rfl, rfl, rfl, rfl, rfl, rfl, hc,
      State.sameBut_append (s.sameBut_scanned m rest k) (State.sameBut_raise _ _)⟩

end Sys2Proof.Machine
end

section
/-! A changed table and its tree (R191, R220): the commands that write FT or CT leave its tree none, and the loops that fill a table run only while its tree is none. -/

namespace Sys2Proof.Machine

/-! ### The core's later moves -/

/-- No micro-operation writes a tree: a command that makes one makes it as one move (R212, R261). -/
theorem Micro.trees_notMem_parts (m : Micro) : .etree ∉ m.parts ∧ .dtree ∉ m.parts := by
  cases m with
  | finish f => cases f <;> simp [Micro.parts, Finish.parts]
  | _ => simp [Micro.parts, decoderParts]

/-- FREQ_SCAN's loop, which alone writes FT, runs with ETREE none (R196). -/
theorem Micro.etree_none_of_ft {m : Micro} {s : State} (h : m.ok s) (hp : .ft ∈ m.parts) : s.etree = none := by
  cases m with
  | scan nsym nbytes start chunk => exact h.2
  | finish f => cases f <;> simp [Micro.parts, Finish.parts] at hp
  | _ => simp [Micro.parts, decoderParts] at hp

/-- DESER_TABLE's loop and its end, which alone write CT, run with DTREE none (R247). -/
theorem Micro.dtree_none_of_ct {m : Micro} {s : State} (h : m.ok s) (hp : .ct ∈ m.parts) : s.dtree = none := by
  cases m with
  | deser d => exact h.2.1
  | finish f =>
    cases f with
    | deserTable n t => exact h
    | _ => simp [Micro.parts, Finish.parts] at hp
  | _ => simp [Micro.parts, decoderParts] at hp

/-- From s to t both trees stay. -/
def State.treesStay (s t : State) : Prop := t.etree = s.etree ∧ t.dtree = s.dtree

/-- From s to t each table stays or has no tree in s. -/
def State.fillsUntreed (s t : State) : Prop := (t.ft = s.ft ∨ s.etree = none) ∧ (t.ct = s.ct ∨ s.dtree = none)

theorem State.treesStay_trans {s t u : State} (h : s.treesStay t) (h' : t.treesStay u) : s.treesStay u :=
  ⟨h'.1.trans h.1, h'.2.trans h.2⟩

theorem State.perform_treesStay (s : State) (m : Micro) (rest : List Micro) : s.treesStay (s.perform m rest) :=
  have hf : s.sameBut (s.perform m rest) m.parts := (s.perform_within m rest).1
  ⟨hf .etree m.trees_notMem_parts.1, hf .dtree m.trees_notMem_parts.2⟩

theorem State.perform_fillsUntreed {s : State} {m : Micro} (h : m.ok s) (rest : List Micro) :
    s.fillsUntreed (s.perform m rest) := by
  have hf : s.sameBut (s.perform m rest) m.parts := (s.perform_within m rest).1
  refine ⟨?_, ?_⟩
  · by_cases hp : .ft ∈ m.parts
    · exact .inr (Micro.etree_none_of_ft h hp)
    · exact .inl (hf .ft hp)
  · by_cases hp : .ct ∈ m.parts
    · exact .inr (Micro.dtree_none_of_ct h hp)
    · exact .inl (hf .ct hp)

theorem State.microStep_treesStay (s : State) : s.treesStay s.microStep := by
  unfold State.microStep
  split
  · exact ⟨rfl, rfl⟩
  · exact ⟨rfl, rfl⟩
  · exact ⟨rfl, rfl⟩
  · exact s.perform_treesStay _ _

theorem State.settle_treesStay (s : State) : s.treesStay s.settle :=
  State.settle_induct s.treesStay (fun u hu _ => State.treesStay_trans hu u.microStep_treesStay) s ⟨rfl, rfl⟩

theorem State.microStep_fillsUntreed {s : State} (hi : s.Inv) : s.fillsUntreed s.microStep := by
  unfold State.microStep
  split
  · exact ⟨.inl rfl, .inl rfl⟩
  · exact ⟨.inl rfl, .inl rfl⟩
  · exact ⟨.inl rfl, .inl rfl⟩
  · next m rest hr =>
    have hk := hi.runOk
    simp only [State.runOk, hr] at hk
    exact State.perform_fillsUntreed (hk.1 m List.mem_cons_self) rest

theorem State.fillsUntreed_trans {s t u : State} (h : s.fillsUntreed t) (hs : s.treesStay t) (h' : t.fillsUntreed u) :
    s.fillsUntreed u := by
  obtain ⟨he, hd⟩ := hs
  rw [State.fillsUntreed, he, hd] at h'
  refine ⟨?_, ?_⟩
  · exact h'.1.elim (fun e => h.1.imp_left e.trans) .inr
  · exact h'.2.elim (fun e => h.2.imp_left e.trans) .inr

theorem State.settle_fillsUntreed {s : State} (hi : s.Inv) : s.fillsUntreed s.settle :=
  (State.settle_induct (fun u => u.Inv ∧ s.treesStay u ∧ s.fillsUntreed u)
    (fun u ⟨hu, hs, hf⟩ _ => ⟨inv_micro hu, State.treesStay_trans hs u.microStep_treesStay,
      State.fillsUntreed_trans hf hs (State.microStep_fillsUntreed hu)⟩)
    s ⟨hi, ⟨rfl, rfl⟩, .inl rfl, .inl rfl⟩).2.2

/-! ### A move of the core -/

/-- From s to t each table stays or has no tree in t (R191, R220). -/
def State.invalidates (s t : State) : Prop := (t.ft = s.ft ∨ t.etree = none) ∧ (t.ct = s.ct ∨ t.dtree = none)

theorem State.invalidates_of_fills {s t : State} (hs : s.treesStay t) (h : s.fillsUntreed t) : s.invalidates t :=
  ⟨h.1.imp_right hs.1.trans, h.2.imp_right hs.2.trans⟩

theorem State.coreStep_invalidates {s t : State} {i : Instr} (hi : s.Inv) (hd : s.doing i) (h : s.coreStep = .next t) :
    s.invalidates t := by
  unfold State.coreStep at h
  split at h
  · cases h; exact ⟨.inl rfl, .inl rfl⟩
  · next w hr => simp [State.doing, hr] at hd
  · cases h
    have hm := s.microStep_treesStay
    exact State.invalidates_of_fills (State.treesStay_trans hm s.microStep.settle_treesStay)
      (State.fillsUntreed_trans (State.microStep_fillsUntreed hi) hm (State.settle_fillsUntreed (inv_micro hi)))

/-! ### The beginning of a command -/

/-- If the outcome is a next state, each table is as in s or has no tree. -/
def Out.invalidates (s : State) (o : Out) : Prop := ∀ t, o = .next t → s.invalidates t

section

variable {s u : State}

theorem invalidates_next (h : s.invalidates u) : Out.invalidates s (.next u) := fun _ e => by cases e; exact h

theorem invalidates_refuse (r : Raise) : Out.invalidates s (s.fail r) := invalidates_next ⟨.inl rfl, .inl rfl⟩

theorem invalidates_checked {check : Option Raise} {k : Out} (hk : Out.invalidates s k) :
    Out.invalidates s (s.checked check k) := by
  cases check with
  | none => exact hk
  | some r => exact invalidates_refuse r

/-- A command that may write neither table. -/
theorem invalidates_of_frame {i : Instr} (hf : .ft ∉ i.mayWrite) (hc : .ct ∉ i.mayWrite) :
    Out.invalidates s (exec i s) := fun _ h =>
  have hw := (State.advances_within (.inl h)).1
  ⟨.inl (hw .ft hf), .inl (hw .ct hc)⟩

/-- FT is replaced, with ETREE invalidated (R191). -/
theorem invalidates_setFt (m : FMap Word) : Out.invalidates s (s.setFt m).succeed :=
  invalidates_next ⟨.inr rfl, .inl rfl⟩

/-- CT is replaced, with DTREE invalidated (R220). -/
theorem invalidates_setCt (m : FMap BitSeq) : Out.invalidates s (s.setCt m).succeed :=
  invalidates_next ⟨.inl rfl, .inr rfl⟩

end

theorem execSetWidth_invalidates (n : Nat) (s : State) : Out.invalidates s (execSetWidth n s) := by
  unfold execSetWidth
  split_ifs
  · exact invalidates_refuse _
  · exact invalidates_next ⟨.inr rfl, .inr rfl⟩

theorem execFreqAdd_invalidates (s : State) : Out.invalidates s (execFreqAdd s) := by
  refine invalidates_checked ?_
  split
  · exact invalidates_refuse _
  · exact invalidates_setFt _

theorem execFreqSet_invalidates (s : State) : Out.invalidates s (execFreqSet s) := by
  refine invalidates_checked ?_
  split_ifs
  · exact invalidates_refuse _
  · exact invalidates_setFt _

theorem execAssignCodes_invalidates (s : State) : Out.invalidates s (execAssignCodes s) := by
  refine invalidates_checked ?_
  split
  · exact invalidates_refuse _
  · unfold State.assignFrom
    split
    · exact invalidates_next ⟨.inl rfl, .inr rfl⟩
    · exact invalidates_next ⟨.inl rfl, .inr rfl⟩

theorem execCodeSet_invalidates (rs : BsIdx) (s : State) : Out.invalidates s (execCodeSet rs s) := by
  refine invalidates_checked ?_
  split_ifs
  · exact invalidates_refuse _
  · exact invalidates_refuse _
  · exact invalidates_setCt _

/-- FREQ_SCAN makes ETREE none before its loop, which leaves it and CT alone (R196). -/
theorem execFreqScan_invalidates (s : State) : Out.invalidates s (execFreqScan s) := by
  refine invalidates_checked (invalidates_next ⟨.inr ?_, .inl ?_⟩)
  · exact (State.settle_treesStay _).1
  · have hd : ((s.setEtree none).begin [.scan 0 0 0 []]).doing .freqScan := State.doing_one rfl rfl
    exact (State.settle_within hd).1 .ct (by decide)

/-- DESER_TABLE makes DTREE none before its loop, which leaves it and FT alone (R247). -/
theorem execDeserTable_invalidates (s : State) : Out.invalidates s (execDeserTable s) := by
  refine invalidates_checked (invalidates_next ⟨.inl ?_, .inr ?_⟩)
  · have hd : ((s.setCt []).begin [.deser deserStart]).doing .deserTable := State.doing_one rfl rfl
    exact (State.settle_within hd).1 .ft (by decide)
  · exact (State.settle_treesStay _).2

/-- Every command begins with the tree of a table it changes none (R191, R220). -/
theorem exec_invalidates (i : Instr) (s : State) : Out.invalidates s (exec i s) := by
  cases i with
  | sreset => exact invalidates_next ⟨.inr rfl, .inr rfl⟩
  | setWidth n => exact execSetWidth_invalidates n s
  | freqClr => exact invalidates_setFt []
  | freqAdd => exact execFreqAdd_invalidates s
  | freqSet => exact execFreqSet_invalidates s
  | freqScan => exact execFreqScan_invalidates s
  | assignCodes => exact execAssignCodes_invalidates s
  | codeSet rs => exact execCodeSet_invalidates rs s
  | codeClr => exact invalidates_setCt []
  | deserTable => exact execDeserTable_invalidates s
  | _ =>
    exact invalidates_of_frame (by simp [Instr.mayWrite, packerParts, decoderParts])
      (by simp [Instr.mayWrite, packerParts, decoderParts])

/-- Settles O48: at its beginning a command invalidates what it changes (`exec_invalidates`), and its later moves change a table only while its tree is none (`State.coreStep_invalidates`). -/
theorem changedTablesInvalidateTheirTrees : Obligations.ChangedTablesInvalidateTheirTrees := by
  intro i s t h
  have ht : s.invalidates t :=
    h.elim (exec_invalidates i s t) fun ⟨hi, hd, hc⟩ => State.coreStep_invalidates hi hd hc
  exact ⟨ht.1.resolve_left, ht.2.resolve_left⟩

end Sys2Proof.Machine
end

section
/-! BUILD_TREE (R210, R211, R212, R213): its queue is held in key order, so the two least entries merge first; what one merge does to the trees of the queue; that the merging ends in one tree exactly where the counts sum below 2^64. -/

namespace Sys2Proof.Machine

/-! ### The key order (R211) -/

theorem QEntry.before_iff (a b : QEntry) : a.before b = true ↔
    a.tree.freq.toNat < b.tree.freq.toNat ∨ a.tree.freq.toNat = b.tree.freq.toNat ∧ a.seq < b.seq := by
  simp [QEntry.before, BitVec.lt_def, BitVec.toNat_eq]

theorem QEntry.before_trans {a b c : QEntry} (h : a.before b = true) (h' : b.before c = true) : a.before c = true := by
  rw [QEntry.before_iff] at *
  omega

/-- Of two entries with different sequence numbers one is before the other. -/
theorem QEntry.before_of_not {a b : QEntry} (hs : b.seq ≠ a.seq) (h : ¬ a.before b = true) : b.before a = true := by
  rw [QEntry.before_iff] at *
  omega

/-- The queue is in key order. -/
abbrev keyOrdered (q : List QEntry) : Prop := q.Pairwise (fun a b => a.before b = true)

theorem keyOrdered_qInsert {e : QEntry} {q : List QEntry} (h : keyOrdered q) (hs : ∀ x ∈ q, x.seq ≠ e.seq) :
    keyOrdered (qInsert e q) := by
  induction q with
  | nil => exact List.pairwise_singleton _ _
  | cons x q ih =>
    obtain ⟨hx, hq⟩ := List.pairwise_cons.1 h
    obtain ⟨hxs, hqs⟩ := List.forall_mem_cons.1 hs
    rw [qInsert]
    split_ifs with he
    · exact h.cons (List.forall_mem_cons.2 ⟨he, fun y hy => QEntry.before_trans he (hx y hy)⟩)
    · refine (ih hq hqs).cons fun y hy => ?_
      rcases List.mem_cons.1 ((qInsert_perm e q).mem_iff.1 hy) with rfl | hy
      · exact QEntry.before_of_not hxs he
      · exact hx y hy

/-- The queue starts with the leaves, numbered from `seq` up in the table's order (R211). -/
theorem qLeaves_perm (ft : FMap Word) : ∀ seq : Nat,
    (qLeaves seq ft).Perm (ft.mapIdx fun k e => ⟨seq + k, .leaf e.1 e.2⟩) := by
  induction ft with
  | nil => exact fun _ => .refl _
  | cons e ft ih =>
    intro seq
    have htail := (ih (seq + 1)).cons ⟨seq, .leaf e.1 e.2⟩
    simp only [Nat.add_right_comm seq 1] at htail
    rw [List.mapIdx_cons]
    exact (qInsert_perm _ _).trans htail

theorem qLeaves_seq {ft : FMap Word} {seq : Nat} {x : QEntry} (h : x ∈ qLeaves seq ft) :
    seq ≤ x.seq ∧ x.seq < seq + ft.length := by
  obtain ⟨k, hk, rfl⟩ := List.mem_mapIdx.1 ((qLeaves_perm ft seq).mem_iff.1 h)
  exact ⟨Nat.le_add_right _ _, Nat.add_lt_add_left hk _⟩

theorem keyOrdered_qLeaves (ft : FMap Word) : ∀ seq : Nat, keyOrdered (qLeaves seq ft) := by
  induction ft with
  | nil => exact fun _ => .nil
  | cons e ft ih => exact fun seq => keyOrdered_qInsert (ih (seq + 1)) fun x hx => Nat.ne_of_gt (qLeaves_seq hx).1

theorem qLeaves_perm_leafEntries (ft : FMap Word) : (qLeaves 0 ft).Perm (leafEntries ft) := by
  simpa [leafEntries] using qLeaves_perm ft 0

/-! ### The merging (R211, R212) -/

/-- What mergeAll does to a queue in key order is R211's and R212's merging, in whatever order the entries are listed. -/
theorem mergeAll_merged (n : Nat) : ∀ (seq : Nat) (q p : List QEntry) (e : QEntry), mergeAll n seq q = .ok [e] →
    q.length ≤ n + 1 → keyOrdered q → (∀ x ∈ q, x.seq < seq) → p.Perm q → Merged seq p e.tree := by
  induction n with
  | zero =>
    intro seq q p e h _ _ _ hp
    cases h
    obtain rfl := List.perm_singleton.1 hp
    exact .one _ _
  | succ n ih =>
    intro seq q p e h hn ho hs hp
    match q with
    | [] => cases h
    | [x] =>
      cases h
      obtain rfl := List.perm_singleton.1 hp
      exact .one _ _
    | a :: b :: q =>
      rw [mergeAll] at h
      split_ifs at h
      obtain ⟨ha, hbq⟩ := List.pairwise_cons.1 ho
      obtain ⟨hb, hq⟩ := List.pairwise_cons.1 hbq
      have hsq : ∀ x ∈ q, x.seq < seq := fun x hx => hs x (List.mem_cons_of_mem _ (List.mem_cons_of_mem _ hx))
      refine .two _ _ _ _ _ _ hp (ha b List.mem_cons_self) hb ?_
      refine ih _ _ _ _ h (by simpa using hn) (keyOrdered_qInsert hq fun x hx => (hsq x hx).ne) (fun x hx => ?_)
        (qInsert_perm _ _).symm
      rcases List.mem_cons.1 ((qInsert_perm _ _).mem_iff.1 hx) with rfl | hx
      · exact Nat.lt_succ_self seq
      · exact Nat.lt_succ_of_lt (hsq x hx)

@[simp] theorem ETree.freq_leaf (v f : Word) : (ETree.leaf v f).freq = f := rfl
@[simp] theorem ETree.freq_node (f : Word) (l r : ETree) : (ETree.node f l r).freq = f := rfl

/-- The sum of the counts of a table (R212). -/
def FMap.total (ft : FMap Word) : Nat := (ft.map fun e => e.2.toNat).sum

/-- The sum of the frequencies in the queue. -/
def queueTotal (q : List QEntry) : Nat := (q.map fun e => e.tree.freq.toNat).sum

@[simp] theorem queueTotal_cons (e : QEntry) (q : List QEntry) :
    queueTotal (e :: q) = e.tree.freq.toNat + queueTotal q := by simp [queueTotal]

@[simp] theorem queueTotal_qInsert (e : QEntry) (q : List QEntry) :
    queueTotal (qInsert e q) = e.tree.freq.toNat + queueTotal q := by
  rw [← queueTotal_cons]; exact ((qInsert_perm e q).map _).sum_eq

theorem queueTotal_qLeaves (ft : FMap Word) : ∀ seq : Nat, queueTotal (qLeaves seq ft) = ft.total := by
  induction ft with
  | nil => exact fun _ => rfl
  | cons e ft ih => intro seq; simp [qLeaves, ih, FMap.total]

theorem qLeaves_length (ft : FMap Word) (seq : Nat) : (qLeaves seq ft).length = ft.length := by
  simpa using (qLeaves_perm ft seq).length_eq

/-- COUNT_OVERFLOW of BUILD_TREE (R212). -/
abbrev sumOverflow : Raise := { cause := .countOverflow, expected := maxWord, actual := 2 }

/-- A merge keeps the sum of the frequencies, so the merging ends in one entry exactly where that sum is below 2^64. -/
theorem mergeAll_ok_or_overflows (n : Nat) : ∀ (seq : Nat) (q : List QEntry), q ≠ [] → q.length ≤ n + 1 →
    (queueTotal q < 2 ^ 64 ∧ ∃ e, mergeAll n seq q = .ok [e]) ∨
    (2 ^ 64 ≤ queueTotal q ∧ mergeAll n seq q = .error sumOverflow) := by
  induction n with
  | zero =>
    intro seq q h0 hn
    match q with
    | [e] => exact .inl ⟨e.tree.freq.isLt, e, rfl⟩
  | succ n ih =>
    intro seq q h0 hn
    match q with
    | [e] => exact .inl ⟨e.tree.freq.isLt, e, rfl⟩
    | a :: b :: q =>
      rw [mergeAll]
      split_ifs with hab
      · refine .inr ⟨?_, rfl⟩
        simp only [queueTotal_cons]
        omega
      · have hsum : (a.tree.freq + b.tree.freq).toNat = a.tree.freq.toNat + b.tree.freq.toNat :=
          BitVec.toNat_add_of_lt (by omega)
        have h := ih (seq + 1) (qInsert ⟨seq, .node (a.tree.freq + b.tree.freq) a.tree b.tree⟩ q)
          (by rw [← List.length_pos_iff_ne_nil]; simp) (by simpa using hn)
        simpa [hsum, Nat.add_assoc] using h

/-- What BUILD_TREE's queue holds of a table: the table's entries at the leaves, their counts in the frequencies, and one tree fewer for each internal node (R210). -/
structure Forest (ft : FMap Word) (ts : List ETree) : Prop where
  leaves : (ts.flatMap ETree.leaves).Perm ft
  total : (ts.map fun t => t.freq.toNat).sum = ft.total
  sums : ∀ t ∈ ts, t.sums = true
  binary : ∀ t ∈ ts, t.binary = true
  internal : (ts.map ETree.internal).sum + ts.length = ft.length

section
variable {ft : FMap Word}

theorem forest_perm {ts us : List ETree} (h : Forest ft ts) (hp : us.Perm ts) : Forest ft us where
  leaves := (hp.flatMap_right _).trans h.leaves
  total := (hp.map _).sum_eq.trans h.total
  sums := fun t ht => h.sums t (hp.mem_iff.1 ht)
  binary := fun t ht => h.binary t (hp.mem_iff.1 ht)
  internal := by rw [(hp.map _).sum_eq, hp.length_eq]; exact h.internal

/-- A merge keeps the leaves and the sum of the frequencies, which does not wrap, and makes one internal node of two trees. -/
theorem forest_merge {a b : ETree} {ts : List ETree} (h : Forest ft (a :: b :: ts)) (hlt : ft.total < 2 ^ 64) :
    Forest ft (.node (a.freq + b.freq) a b :: ts) := by
  obtain ⟨hleaves, htotal, hsums, hbinary, hinternal⟩ := h
  simp only [List.map_cons, List.sum_cons, List.length_cons] at htotal hinternal
  have hsum : (a.freq + b.freq).toNat = a.freq.toNat + b.freq.toNat := BitVec.toNat_add_of_lt (by omega)
  obtain ⟨hsa, hsb, hst⟩ : a.sums = true ∧ b.sums = true ∧ ∀ t ∈ ts, t.sums = true := by simpa using hsums
  obtain ⟨hba, hbb, hbt⟩ : a.binary = true ∧ b.binary = true ∧ ∀ t ∈ ts, t.binary = true := by simpa using hbinary
  refine ⟨?leaves, ?total, ?sums, ?binary, ?internal⟩
  case leaves => simpa [ETree.leaves] using hleaves
  case total => simp only [List.map_cons, List.sum_cons, ETree.freq_node, hsum]; omega
  case sums => exact List.forall_mem_cons.2 ⟨by simp [ETree.sums, hsum, hsa, hsb], hst⟩
  case binary => exact List.forall_mem_cons.2 ⟨by simp [ETree.binary, hba, hbb], hbt⟩
  case internal => simp only [List.map_cons, List.sum_cons, List.length_cons, ETree.internal]; omega

theorem Merged.forest {seq : Nat} {q : List QEntry} {root : ETree} (h : Merged seq q root) (hlt : ft.total < 2 ^ 64)
    (hf : Forest ft (q.map QEntry.tree)) : Forest ft [root] := by
  induction h with
  | one seq e => exact hf
  | two seq q r a b root hp hab hb hr ih => exact ih (forest_merge (forest_perm hf (hp.map _).symm) hlt)

theorem forest_leafEntries (ft : FMap Word) : Forest ft ((leafEntries ft).map QEntry.tree) := by
  have hmap : (leafEntries ft).map QEntry.tree = ft.map fun e => .leaf e.1 e.2 :=
    List.ext_getElem (by simp [leafEntries]) fun i _ _ => by simp [leafEntries]
  rw [hmap]
  refine ⟨?leaves, ?total, ?sums, ?binary, ?internal⟩
  case leaves => simp [List.flatMap_map, ETree.leaves]
  case total => simp [FMap.total, Function.comp_def]
  case sums => exact List.forall_mem_map.2 fun _ _ => rfl
  case binary => exact List.forall_mem_map.2 fun _ _ => rfl
  case internal => simp [ETree.internal, Function.comp_def]

/-! ### The tree of a table (R212, R213) -/

theorem qLeaves_of_two_le (h2 : 2 ≤ ft.length) : ∃ a b q, qLeaves 0 ft = a :: b :: q := by
  have hl := qLeaves_length ft 0
  match hq : qLeaves 0 ft with
  | [] => rw [hq, List.length_nil] at hl; omega
  | [e] => rw [hq, List.length_singleton] at hl; omega
  | a :: b :: q => exact ⟨a, b, q, rfl⟩

/-- With two entries or more BUILD_TREE answers what the merging answers. -/
theorem buildTree_of_two_le (h2 : 2 ≤ ft.length) :
    (∀ e, mergeAll ft.length ft.length (qLeaves 0 ft) = .ok [e] → buildTree ft = .ok e.tree) ∧
    (∀ r, mergeAll ft.length ft.length (qLeaves 0 ft) = .error r → buildTree ft = .error r) := by
  obtain ⟨a, b, q, hq⟩ := qLeaves_of_two_le h2
  have hl : (a :: b :: q).length = ft.length := hq ▸ qLeaves_length ft 0
  rw [buildTree, hq]
  dsimp only
  rw [hl]
  exact ⟨fun e h => by rw [h], fun r h => by rw [h]⟩

theorem mergeAll_qLeaves (h2 : 2 ≤ ft.length) :
    (ft.total < 2 ^ 64 ∧ ∃ e, mergeAll ft.length ft.length (qLeaves 0 ft) = .ok [e]) ∨
    (2 ^ 64 ≤ ft.total ∧ mergeAll ft.length ft.length (qLeaves 0 ft) = .error sumOverflow) := by
  have hl := qLeaves_length ft 0
  rw [← queueTotal_qLeaves ft 0]
  exact mergeAll_ok_or_overflows _ _ _ (List.length_pos_iff.1 (by omega)) (by omega)

theorem buildTree_merges (h2 : 2 ≤ ft.length) (hlt : ft.total < 2 ^ 64) :
    ∃ root, buildTree ft = .ok root ∧ Merged ft.length (leafEntries ft) root := by
  obtain ⟨-, e, he⟩ := (mergeAll_qLeaves h2).resolve_right fun h => hlt.not_ge h.1
  refine ⟨e.tree, (buildTree_of_two_le h2).1 e he, ?_⟩
  exact mergeAll_merged _ _ _ _ _ he (by rw [qLeaves_length]; omega) (keyOrdered_qLeaves ft 0)
    (fun x hx => by simpa using (qLeaves_seq hx).2) (qLeaves_perm_leafEntries ft).symm

/-- No single count reaches 2^64, so a sum that does is met in a merge. -/
theorem buildTree_overflows (hge : 2 ^ 64 ≤ ft.total) : buildTree ft = .error sumOverflow := by
  have h2 : 2 ≤ ft.length := by
    match ft with
    | [] => simp [FMap.total] at hge
    | [(v, f)] =>
      have hf := f.isLt
      simp [FMap.total] at hge
      omega
    | _ :: _ :: _ => simp
  obtain ⟨-, he⟩ := (mergeAll_qLeaves h2).resolve_left fun h => h.1.not_ge hge
  exact (buildTree_of_two_le h2).2 _ he

theorem buildTree_forest {root : ETree} (h2 : 2 ≤ ft.length) (hlt : ft.total < 2 ^ 64) (h : buildTree ft = .ok root) :
    Forest ft [root] := by
  obtain ⟨root', hb, hm⟩ := buildTree_merges h2 hlt
  cases hb.symm.trans h
  exact hm.forest hlt (forest_leafEntries ft)

end

/-! ### The command -/

section
variable {s : State}

theorem execBuildTree_builds {root : ETree} (hw : s.width ≠ 0) (h : buildTree s.ft = .ok root) :
    execBuildTree s =
      ((s.setEtree (some root)).setRes root.freq (BitVec.ofNat 64 (nodeCount s.ft.length))).succeed := by
  rw [execBuildTree, s.needWidth_ok 0x30 hw, State.checked_none, h]

theorem execBuildTree_raises {r : Raise} (hw : s.width ≠ 0) (h : buildTree s.ft = .error r) :
    execBuildTree s = (s.setEtree none).fail r := by
  rw [execBuildTree, s.needWidth_ok 0x30 hw, State.checked_none, h]

end

/-- A meaning that stores a tree in ETREE, writes RES0 and RES1, and succeeds. -/
theorem State.setEtree_setRes_succeed (s : State) (root : ETree) (v w : Word) :
    ∃ t, ((s.setEtree (some root)).setRes v w).succeed = .next t ∧ s.completes t ∧ t.etree = some root ∧
      t.regs.res0 = v ∧ t.regs.res1 = w ∧ s.sameBut t [.etree, .res0, .res1] :=
  have hf := State.sameBut_append (s.sameBut_setEtree (some root)) (State.sameBut_setRes _ v w)
  ⟨_, rfl, State.completes_complete hf (by decide) (by decide), rfl, rfl, rfl, State.sameBut_complete_of hf⟩

/-- Where the tree can be built BUILD_TREE stores it, and reports its frequency and the node count (R212). -/
theorem execBuildTree_stores {s : State} {root : ETree} (hw : s.width ≠ 0) (h : buildTree s.ft = .ok root) :
    ∃ t, exec .buildTree s = .next t ∧ s.completes t ∧ t.etree = some root ∧ t.regs.res0 = root.freq ∧
      t.regs.res1 = BitVec.ofNat 64 (nodeCount s.ft.length) ∧ s.sameBut t [.etree, .res0, .res1] := by
  obtain ⟨t, ht, h'⟩ := s.setEtree_setRes_succeed root root.freq (BitVec.ofNat 64 (nodeCount s.ft.length))
  exact ⟨t, (execBuildTree_builds hw h).trans ht, h'⟩

/-- Settles O24: a single entry gets the wrapper; two or more are merged (`buildTree_merges`), and each merge keeps what the queue holds of the table (`forest_merge`). -/
theorem builtTreeHasTheTablesLeaves : Obligations.BuiltTreeHasTheTablesLeaves := by
  intro s hw hne hlt
  rcases Nat.lt_or_ge s.ft.length 2 with hn | h2
  case inl =>
    obtain ⟨⟨v, f⟩, hft⟩ : ∃ e, s.ft = [e] :=
      List.length_eq_one_iff.1 (by have := List.length_pos_iff.2 hne; omega)
    obtain ⟨t, ht, hc, he, h0, h1, hf⟩ :=
      execBuildTree_stores (root := .wrap f (.leaf v f)) hw (by rw [hft]; rfl)
    refine ⟨t, _, ht, hc, he, by simp [hft, ETree.leaves], by simp [ETree.sums], fun _ => ⟨v, f, hft, rfl⟩,
      by simp [hft], ?_, h1, hf⟩
    rw [h0, hft]
    simp [ETree.freq]
  case inr =>
    obtain ⟨root, hb, -⟩ := buildTree_merges h2 hlt
    obtain ⟨hleaves, htotal, hsums, hbinary, hinternal⟩ := buildTree_forest h2 hlt hb
    obtain ⟨t, ht, hc, he, h0, h1, hf⟩ := execBuildTree_stores hw hb
    simp only [List.flatMap_singleton, List.map_singleton, List.sum_singleton, List.length_singleton,
      List.forall_mem_singleton] at hleaves htotal hsums hbinary hinternal
    exact ⟨t, root, ht, hc, he, hleaves, hsums, fun _ => by omega, fun _ => ⟨hbinary, by omega⟩, h0 ▸ htotal, h1,
      hf⟩

/-- Two leaves queue in the order of their counts, equal counts in the order of the table (R211). -/
theorem qLeaves_two (u v f g : Word) : qLeaves 0 [(u, f), (v, g)] =
    if f ≤ g then [⟨0, .leaf u f⟩, ⟨1, .leaf v g⟩] else [⟨1, .leaf v g⟩, ⟨0, .leaf u f⟩] := by
  have hb : QEntry.before ⟨0, .leaf u f⟩ ⟨1, .leaf v g⟩ = true ↔ f ≤ g := by
    rw [QEntry.before_iff, BitVec.le_def]
    simp only [ETree.freq_leaf]
    omega
  simp only [qLeaves, qInsert, hb]

/-- A queue of two entries is one merge, the first entry as left child (R212). -/
theorem buildTree_of_pair {ft : FMap Word} {a b : QEntry} (hq : qLeaves 0 ft = [a, b])
    (hlt : a.tree.freq.toNat + b.tree.freq.toNat < 2 ^ 64) :
    buildTree ft = .ok (.node (a.tree.freq + b.tree.freq) a.tree b.tree) := by
  have hl : ft.length = 2 := by rw [← qLeaves_length ft 0, hq]; rfl
  refine (buildTree_of_two_le hl.ge).1 ⟨2, .node (a.tree.freq + b.tree.freq) a.tree b.tree⟩ ?_
  rw [hl, hq]
  exact if_neg (by omega)

/-- Of two entries the one with the lesser key is on the left (R211, R212). -/
theorem buildTree_two (u v : Word) {f g : Word} (hlt : f.toNat + g.toNat < 2 ^ 64) : buildTree [(u, f), (v, g)] =
    .ok (if f ≤ g then .node (f + g) (.leaf u f) (.leaf v g) else .node (f + g) (.leaf v g) (.leaf u f)) := by
  have hq := qLeaves_two u v f g
  split_ifs at hq ⊢ with hfg
  · exact buildTree_of_pair hq hlt
  · rw [BitVec.add_comm]
    exact buildTree_of_pair hq (by rwa [Nat.add_comm])

/-- Settles O25: the queue is in key order from the start (`keyOrdered_qLeaves`), so mergeAll is the merging (`mergeAll_merged`); for two entries it is one merge (`buildTree_two`). -/
theorem entriesMergeInKeyOrder : Obligations.EntriesMergeInKeyOrder := by
  refine ⟨fun s hw h2 hlt => ?merged, fun s u v f g hw hft _ hlt => ?two⟩
  case merged =>
    obtain ⟨root, hb, hm⟩ := buildTree_merges h2 hlt
    obtain ⟨t, ht, hc, he, -, -, hf⟩ := execBuildTree_stores hw hb
    exact ⟨t, root, ht, hc, he, hm, hf⟩
  case two =>
    obtain ⟨t, ht, hc, he, -, -, hf⟩ := execBuildTree_stores hw (hft ▸ buildTree_two u v hlt)
    exact ⟨t, ht, hc, he, hf⟩

/-- Settles O26: an empty table and a sum that reaches 2^64 (`buildTree_overflows`) are the raises of BUILD_TREE, which leave ETREE none and write the record. -/
theorem buildTreeErrors : Obligations.BuildTreeErrors := by
  intro s hw
  have hframe := fun r => State.sameBut_append (s.sameBut_setEtree none) (State.sameBut_raise _ r)
  refine ⟨fun hft => ?empty, fun hge => ?overflow⟩
  case empty => exact ⟨_, execBuildTree_raises hw (by rw [hft]; rfl), rfl, rfl, rfl, hframe _⟩
  case overflow => exact ⟨_, execBuildTree_raises hw (buildTree_overflows hge), rfl, rfl, rfl, hframe _⟩

end Sys2Proof.Machine
end

section
/-! ASSIGN_CODES (R214, R215): its walk stores the leaves' paths in left-first order up to the first one that is too deep; what the table then holds, and that no path to a leaf continues another one. -/

namespace Sys2Proof.Machine

/-! ### The walk (R214) -/

/-- CT with the paths of some leaves stored one after the other. -/
def storePaths (l : List (Word × List Bool)) (ct : FMap BitSeq) : FMap BitSeq :=
  l.foldl (fun ct e => ct.put e.1 (.ofBits e.2)) ct

/-- The greatest of m and the lengths of some leaves' paths. -/
def longestPath (l : List (Word × List Bool)) (m : Nat) : Nat := (l.map fun e => e.2.length).foldl max m

/-- The leaf lies deeper than 64 (R214). -/
abbrev tooDeep (e : Word × List Bool) : Bool := decide (64 < e.2.length)

/-- CODE_OVERFLOW for a leaf that lies too deep (R214). -/
abbrev depthOverflow (e : Word × List Bool) : Raise :=
  { cause := .codeOverflow, expected := 64, actual := BitVec.ofNat 64 e.2.length, symbol := e.1 }

theorem visit_ok (t : ETree) : ∀ (p : List Bool) (ct : FMap BitSeq) (m : Nat), (t.paths p).find? tooDeep = none →
    visit t p ct m = .ok (storePaths (t.paths p) ct, longestPath (t.paths p) m) := by
  induction t with
  | leaf v f =>
    intro p ct m h
    have hp : ¬ p.length > 64 := by simpa [ETree.paths] using h
    exact if_neg hp
  | node f l r ihl ihr =>
    intro p ct m h
    obtain ⟨hl, hr⟩ : (l.paths (p ++ [false])).find? tooDeep = none ∧ (r.paths (p ++ [true])).find? tooDeep = none := by
      rwa [ETree.paths, List.find?_append, Option.or_eq_none_iff] at h
    rw [visit, ihl _ _ _ hl]
    dsimp only
    rw [ihr _ _ _ hr]
    simp [ETree.paths, storePaths, longestPath]
  | wrap f l ih => exact fun p ct m h => ih _ _ _ h

theorem visit_tooDeep (t : ETree) : ∀ (p : List Bool) (ct : FMap BitSeq) (m : Nat) (e : Word × List Bool),
    (t.paths p).find? tooDeep = some e → visit t p ct m = .error (depthOverflow e) := by
  induction t with
  | leaf v f =>
    intro p ct m e h
    obtain ⟨hp, rfl⟩ : p.length > 64 ∧ (v, p) = e := by simpa [ETree.paths, List.find?_singleton] using h
    exact if_pos hp
  | node f l r ihl ihr =>
    intro p ct m e h
    rw [ETree.paths, List.find?_append, Option.or_eq_some_iff] at h
    rw [visit]
    rcases h with hl | ⟨hl, hr⟩
    · rw [ihl _ _ _ _ hl]
    · rw [visit_ok _ _ _ _ hl]
      exact ihr _ _ _ _ hr
  | wrap f l ih => exact fun p ct m e h => ih _ _ _ _ h

theorem ETree.paths_length (t : ETree) : ∀ p : List Bool, (t.paths p).length = t.leaves.length := by
  induction t with
  | leaf v f => exact fun _ => rfl
  | node f l r ihl ihr => intro p; simp [ETree.paths, ETree.leaves, ihl, ihr]
  | wrap f l ih => exact fun p => ih _

/-! ### The table it writes (R214) -/

theorem storePaths_wf (l : List (Word × List Bool)) : ∀ ct : FMap BitSeq, ct.wf → (storePaths l ct).wf := by
  induction l with
  | nil => exact fun _ h => h
  | cons e l ih => exact fun ct h => ih _ (FMap.wf_put _ _ _ h)

/-- A symbol of no leaf reads as before. -/
theorem storePaths_get_other {v : Word} (l : List (Word × List Bool)) : ∀ ct : FMap BitSeq, (∀ e ∈ l, e.1 ≠ v) →
    (storePaths l ct).get v = ct.get v := by
  induction l with
  | nil => exact fun _ _ => rfl
  | cons e l ih =>
    intro ct h
    obtain ⟨he, hl⟩ := List.forall_mem_cons.1 h
    exact (ih _ hl).trans (FMap.get_put_ne _ _ _ _ he.symm)

/-- No symbol is at two leaves. -/
abbrev symbolsDiffer (l : List (Word × List Bool)) : Prop := l.Pairwise (fun a b => a.1 ≠ b.1)

theorem storePaths_get {v : Word} {p : List Bool} (l : List (Word × List Bool)) : ∀ ct : FMap BitSeq, symbolsDiffer l →
    (v, p) ∈ l → (storePaths l ct).get v = some (.ofBits p) := by
  induction l with
  | nil => exact fun _ _ h => by cases h
  | cons e l ih =>
    intro ct hd h
    obtain ⟨he, hl⟩ := List.pairwise_cons.1 hd
    rcases List.mem_cons.1 h with rfl | h
    · exact (storePaths_get_other _ _ fun x hx => (he x hx).symm).trans (FMap.get_put_self _ _ _)
    · exact ih _ hl h

theorem storePaths_get_iff {l : List (Word × List Bool)} (hd : symbolsDiffer l) (v : Word) (c : BitSeq) :
    (storePaths l []).get v = some c ↔ ∃ p, (v, p) ∈ l ∧ c = .ofBits p := by
  refine ⟨fun h => ?_, fun ⟨p, hp, hc⟩ => hc ▸ storePaths_get l [] hd hp⟩
  have hv : ∃ e ∈ l, e.1 = v := by
    by_contra! hne
    rw [storePaths_get_other l [] hne] at h
    cases h
  obtain ⟨⟨_, p⟩, hp, rfl⟩ := hv
  exact ⟨p, hp, Option.some.inj (h.symm.trans (storePaths_get l [] hd hp))⟩

theorem storePaths_length (l : List (Word × List Bool)) : ∀ ct : FMap BitSeq, symbolsDiffer l →
    (∀ e ∈ l, ct.get e.1 = none) → (storePaths l ct).length = ct.length + l.length := by
  induction l with
  | nil => exact fun _ _ _ => rfl
  | cons e l ih =>
    intro ct hd hn
    obtain ⟨he, hl⟩ := List.pairwise_cons.1 hd
    obtain ⟨hne, hnl⟩ := List.forall_mem_cons.1 hn
    have hlen := ih (ct.put e.1 (.ofBits e.2)) hl
      fun x hx => (FMap.get_put_ne _ _ _ _ (he x hx).symm).trans (hnl x hx)
    rw [FMap.length_put_new _ _ _ hne] at hlen
    rw [List.length_cons]
    exact hlen.trans (by omega)

/-! ### Prefix freedom (R215) -/

/-- A leaf's path continues the path of every node above it. -/
theorem ETree.prefix_of_mem_paths (t : ETree) : ∀ (p : List Bool), ∀ e ∈ t.paths p, p <+: e.2 := by
  induction t with
  | leaf v f => intro p e he; rw [List.mem_singleton.1 he]
  | node f l r ihl ihr =>
    intro p e he
    rcases List.mem_append.1 he with h | h
    · exact (List.prefix_append _ _).trans (ihl _ e h)
    · exact (List.prefix_append _ _).trans (ihr _ e h)
  | wrap f l ih => exact fun p e he => (List.prefix_append _ _).trans (ih _ e he)

/-- Neither of two paths continues the other. -/
abbrev pathsPart (a b : Word × List Bool) : Prop := ¬ (a.2 <+: b.2) ∧ ¬ (b.2 <+: a.2)

/-- Two paths that part at a node do not come together again. -/
theorem not_prefix_of_branches {p a b : List Bool} {x y : Bool} (ha : p ++ [x] <+: a) (hb : p ++ [y] <+: b)
    (hxy : x ≠ y) : ¬ (a <+: b) := by
  intro hab
  have h : p ++ [x] <+: p ++ [y] := List.prefix_of_prefix_length_le (ha.trans hab) hb (by simp)
  simp [hxy] at h

/-- The leaves to the left and to the right of an internal node have paths that part at it. -/
theorem ETree.paths_part (t : ETree) : ∀ p : List Bool, (t.paths p).Pairwise pathsPart := by
  induction t with
  | leaf v f => exact fun _ => List.pairwise_singleton _ _
  | node f l r ihl ihr =>
    refine fun p => List.pairwise_append.2 ⟨ihl _, ihr _, fun a ha b hb => ?_⟩
    have hl := l.prefix_of_mem_paths _ a ha
    have hr := r.prefix_of_mem_paths _ b hb
    exact ⟨not_prefix_of_branches hl hr (by decide), not_prefix_of_branches hr hl (by decide)⟩
  | wrap f l ih => exact fun p => ih _

/-- In a table that holds the paths of a tree, each at its own symbol, no code continues another one (R215). -/
theorem storePaths_prefixFree {t : ETree} {p : List Bool} (hd : symbolsDiffer (t.paths p))
    (hl : ∀ e ∈ t.paths p, e.2.length ≤ 64) : (storePaths (t.paths p) []).prefixFree := by
  have hwf : (storePaths (t.paths p) []).wf := storePaths_wf _ _ .nil
  have hpath (a) (ha : a ∈ storePaths (t.paths p) []) : (a.1, a.2.toBits) ∈ t.paths p := by
    obtain ⟨q, hq, hc⟩ := (storePaths_get_iff hd _ _).1 (FMap.get_of_mem _ _ _ hwf ha)
    rw [hc, BitSeq.toBits_ofBits q (hl _ hq)]
    exact hq
  refine hwf.imp_of_mem fun {a b} ha hb hab => ?_
  have hne : (a.1, a.2.toBits) ≠ (b.1, b.2.toBits) := fun h => word_ne_of_lt hab (Prod.mk.inj h).1
  have hsymm : Std.Symm pathsPart := ⟨fun _ _ h => h.symm⟩
  exact (t.paths_part p).forall (hpath a ha) (hpath b hb) hne

/-! ### The command -/

section
variable {s : State} {root : ETree}

theorem execAssignCodes_walks (hw : s.width ≠ 0) (he : s.etree = some root) : execAssignCodes s = s.assignFrom root := by
  rw [execAssignCodes, s.needWidth_ok 0x31 hw, State.checked_none, he]

/-- Where no leaf lies too deep ASSIGN_CODES stores the leaves' paths, and reports their number and the longest one's length. -/
theorem execAssignCodes_stores (hw : s.width ≠ 0) (he : s.etree = some root)
    (h : (root.paths []).find? tooDeep = none) :
    execAssignCodes s = ((s.setCt (storePaths (root.paths []) [])).setRes
      (BitVec.ofNat 64 (storePaths (root.paths []) []).length)
      (BitVec.ofNat 64 (longestPath (root.paths []) 0))).succeed := by
  rw [execAssignCodes_walks hw he, State.assignFrom, visit_ok root _ _ _ h]

theorem execAssignCodes_raises {e : Word × List Bool} (hw : s.width ≠ 0) (he : s.etree = some root)
    (h : (root.paths []).find? tooDeep = some e) : execAssignCodes s = (s.setCt []).fail (depthOverflow e) := by
  rw [execAssignCodes_walks hw he, State.assignFrom, visit_tooDeep root _ _ _ _ h]

end

/-- A meaning that replaces CT, writes RES0 and RES1, and succeeds (R220). -/
theorem State.setCt_setRes_succeed (s : State) (m : FMap BitSeq) (v w : Word) :
    ∃ t, ((s.setCt m).setRes v w).succeed = .next t ∧ s.completes t ∧ t.ct = m ∧ t.dtree = none ∧
      t.regs.res0 = v ∧ t.regs.res1 = w ∧ s.sameBut t [.ct, .dtree, .res0, .res1] :=
  have hf := State.sameBut_append (s.sameBut_setCt m) (State.sameBut_setRes _ v w)
  ⟨_, rfl, State.completes_complete hf (by decide) (by decide), rfl, rfl, rfl, rfl, State.sameBut_complete_of hf⟩

/-- No leaf of the list lies deeper than 64. -/
theorem find?_tooDeep_eq_none {l : List (Word × List Bool)} : l.find? tooDeep = none ↔ ∀ e ∈ l, e.2.length ≤ 64 := by
  simp [List.find?_eq_none]

/-- Settles O27: the walk stores every path (`execAssignCodes_stores`), and with no symbol at two leaves the table holds just these (`storePaths_get_iff`, `storePaths_length`). -/
theorem assignedCodesAreTheLeafPaths : Obligations.AssignedCodesAreTheLeafPaths := by
  intro s root hw he hl hd
  obtain ⟨t, ht, hc, hct, hdt, h0, h1, hf⟩ := s.setCt_setRes_succeed (storePaths (root.paths []) [])
    (BitVec.ofNat 64 (storePaths (root.paths []) []).length) (BitVec.ofNat 64 (longestPath (root.paths []) 0))
  have hlen : (storePaths (root.paths []) []).length = root.leaves.length := by
    rw [storePaths_length _ _ hd fun _ _ => rfl, List.length_nil, Nat.zero_add, root.paths_length]
  exact ⟨t, (execAssignCodes_stores hw he (find?_tooDeep_eq_none.2 hl)).trans ht, hc,
    fun v c => hct ▸ storePaths_get_iff hd v c, hct ▸ storePaths_wf _ _ .nil, hdt, hlen ▸ h0, h1, hf⟩

/-- Settles O28: the walk raises for the first leaf that lies too deep (`execAssignCodes_raises`), with CT emptied and DTREE none. -/
theorem tooDeepLeafRaisesCodeOverflow : Obligations.TooDeepLeafRaisesCodeOverflow := by
  intro s root v p hw he h
  exact ⟨_, execAssignCodes_raises hw he h, rfl, rfl, rfl, rfl,
    State.sameBut_append (s.sameBut_setCt []) (State.sameBut_raise _ _)⟩

/-- Settles O29: a walk that raises leaves CT empty; one that ends has stored paths that part from each other (`storePaths_prefixFree`). -/
theorem assignedCodesArePrefixFree : Obligations.AssignedCodesArePrefixFree := by
  intro s t root hw he hd hx
  cases h : (root.paths []).find? tooDeep with
  | some e =>
    cases (execAssignCodes_raises hw he h).symm.trans hx
    exact .nil
  | none =>
    cases (execAssignCodes_stores hw he h).symm.trans hx
    exact storePaths_prefixFree hd (find?_tooDeep_eq_none.1 h)

end Sys2Proof.Machine
end

section
/-! CODE_SET and CODE_GET (R217, R218): the branches of their checks, and what each has done when it ends. -/

namespace Sys2Proof.Machine

section
variable {s : State} {rs : BsIdx}

theorem execCodeSet_stores (h : s.symbolOk) (hlen : (s.bsAt rs).len ≠ 0)
    (hroom : s.ct.get s.latch.a0 = none → s.ct.length < s.params.symCap) :
    execCodeSet rs s = (s.setCt (s.ct.put s.latch.a0 (s.bsAt rs))).succeed := by
  rw [execCodeSet, State.checked_symbolOk h, if_neg hlen, if_neg fun hf => (hroom hf.1).ne hf.2]

theorem execCodeSet_full (h : s.symbolOk) (hlen : (s.bsAt rs).len ≠ 0) (hg : s.ct.get s.latch.a0 = none)
    (hl : s.ct.length = s.params.symCap) :
    execCodeSet rs s = s.fail (capacityRaise s.params.symCap s.latch.a0) := by
  rw [execCodeSet, State.checked_symbolOk h, if_neg hlen, if_pos ⟨hg, hl⟩]

/-- CODE_GET reports the code, or the empty sequence for an absent symbol. -/
theorem execCodeGet_reports (h : s.symbolOk) :
    execCodeGet s = (s.setRes ((s.ct.get s.latch.a0).getD .empty).bits
      (BitVec.ofNat 64 ((s.ct.get s.latch.a0).getD .empty).len)).succeed := by
  rw [execCodeGet, State.checked_symbolOk h]
  cases s.ct.get s.latch.a0 with
  | none => rfl
  | some c => rfl

end

/-- A meaning that stores one code in CT and succeeds (R220). -/
theorem State.setCt_put_succeed (s : State) (v : Word) (c : BitSeq) :
    ∃ t, (s.setCt (s.ct.put v c)).succeed = .next t ∧ s.completes t ∧ t.ct.get v = some c ∧
      (∀ k, k ≠ v → t.ct.get k = s.ct.get k) ∧ t.dtree = none ∧ s.sameBut t [.ct, .dtree] :=
  have hf := s.sameBut_setCt (s.ct.put v c)
  ⟨_, rfl, State.completes_complete hf (by decide) (by decide), FMap.get_put_self s.ct v c,
    fun k hk => FMap.get_put_ne s.ct v k c hk, rfl, State.sameBut_complete_of hf⟩

/-- Settles O30: CODE_SET writes one key (`execCodeSet_stores`, `State.setCt_put_succeed`) or only raises (`execCodeSet_full`), and CODE_GET writes what it reads to RES0 and RES1 (`execCodeGet_reports`). -/
theorem codeSetAndGet : Obligations.CodeSetAndGet := by
  intro s rs hs
  refine ⟨fun hlen hroom => ?set, fun hlen hg hl => ?full, ?get⟩
  case set =>
    obtain ⟨t, ht, h⟩ := s.setCt_put_succeed s.latch.a0 (s.bsAt rs)
    exact ⟨t, (execCodeSet_stores hs hlen hroom).trans ht, h⟩
  case full => exact ⟨_, execCodeSet_full hs hlen hg hl, rfl, rfl, rfl, rfl, s.sameBut_raise _⟩
  case get =>
    obtain ⟨t, ht, hc, h0, h1, hf⟩ := s.setRes_succeed ((s.ct.get s.latch.a0).getD .empty).bits
      (BitVec.ofNat 64 ((s.ct.get s.latch.a0).getD .empty).len)
    refine ⟨t, (execCodeGet_reports hs).trans ht, hc, fun c hg => ?_, fun hg => ?_, hf⟩
    · rw [h0, h1, hg]; exact ⟨rfl, rfl⟩
    · rw [h0, h1, hg]; exact ⟨rfl, rfl⟩

end Sys2Proof.Machine
end

section
/-! SER_TABLE and the bytes of a table (R240 to R243, R246, R249). -/

namespace Sys2Proof.Machine

/-! ### Lengths (R249) -/

@[simp] theorem entryBytes_length (n : Nat) (e : Word × BitSeq) :
    (entryBytes n e).length = n + 4 + (e.2.len + 7) / 8 := by simp [entryBytes, Nat.add_assoc]

theorem tableBytes_length (n : Nat) (ct : FMap BitSeq) :
    (tableBytes n ct).length = 4 + (ct.map (fun e => n + 4 + (e.2.len + 7) / 8)).sum := by
  simp [tableBytes, List.length_flatMap]

/-- Settles O32: every entry has from N + 5 to N + 12 bytes (`entryBytes_length`), and a table that is not empty has at least one. -/
theorem tableLength : Obligations.TableLength := by
  intro n ct
  refine ⟨tableBytes_length n ct, fun hne hlen => ⟨?lower, ?upper⟩⟩
  case lower =>
    obtain ⟨e, m, rfl⟩ := List.exists_cons_of_ne_nil hne
    have he := (hlen e List.mem_cons_self).1
    rw [tableBytes_length, List.map_cons, List.sum_cons]
    omega
  case upper =>
    have hsum := List.sum_le_card_nsmul (ct.map fun e => n + 4 + (e.2.len + 7) / 8) (n + 12) fun x hx => by
      obtain ⟨e, he, rfl⟩ := List.mem_map.1 hx
      have := (hlen e he).2
      omega
    rw [List.length_map, smul_eq_mul] at hsum
    rw [tableBytes_length]
    omega

/-! ### The command (R246) -/

theorem execSerTable_starts {s : State} (hw : s.width ≠ 0) (hct : s.ct ≠ []) :
    execSerTable s = s.start ((tableBytes s.symWidth s.ct).map Micro.out ++
      [.finish (.serTable (BitVec.ofNat 64 s.ct.length))]) := by
  rw [execSerTable, s.needWidth_ok 0x40 hw, s.needCt_ok 0x40 (s.ctValid_of_ne hct)]
  rfl

/-- Settles O31: the command is one OutWrite for each byte of the table (`moves_outs`), and its end reports how many there were. -/
theorem serTableWritesTheTable : Obligations.SerTableWritesTheTable := by
  intro s hs hw hct hroom
  have hm := moves_outs (tableBytes s.symWidth s.ct) s.fresh [.finish (.serTable (BitVec.ofNat 64 s.ct.length))] hs.1 hroom
  have hf : s.sameBut (s.fresh.wroteAll (tableBytes s.symWidth s.ct)) [.outq] :=
    State.sameBut_append s.sameBut_fresh (State.sameBut_wroteAll _ _)
  refine ⟨_, (execSerTable_starts hw hct).trans (State.start_completes s _ _ _ hs.2
      (bounded_append (bounded_outs _) (by simp [Micro.bounded])) hm hs.1),
    State.completes_finished s _ _ rfl rfl rfl, rfl, ?_, rfl, State.sameBut_finished s _ _ _ hf⟩
  exact congrArg (BitVec.ofNat 64) (Nat.zero_add _)

end Sys2Proof.Machine
end

section
/-! Tables as raw entries (R240, R242): their bytes, the table they give, and which entries DESER_TABLE accepts. -/

namespace Sys2Proof.Machine

@[simp] theorem byteTokens_append (l k : List Byte) : byteTokens (l ++ k) = byteTokens l ++ byteTokens k :=
  List.map_append

/-- The bytes of an entry (R242). -/
def RawEntry.bytes (n : Nat) (e : RawEntry) : List Byte :=
  beBytes n e.sym ++ beBytes 4 (BitVec.ofNat 64 e.len) ++ e.code

theorem rawBytes_eq (n t : Nat) (es : List RawEntry) :
    rawBytes n t es = beBytes 4 (BitVec.ofNat 64 t) ++ es.flatMap (RawEntry.bytes n) := rfl

@[simp] theorem RawEntry.bytes_length (n : Nat) (e : RawEntry) : (e.bytes n).length = n + 4 + e.code.length := by
  simp [RawEntry.bytes, Nat.add_assoc]

@[simp] theorem rawBytes_length (n t : Nat) (es : List RawEntry) :
    (rawBytes n t es).length = 4 + (es.flatMap (RawEntry.bytes n)).length := by simp [rawBytes_eq]

/-- The table that the entries give, written into m one by one (R247). -/
def storeEntries (es : List RawEntry) (m : FMap BitSeq) : FMap BitSeq :=
  storePaths (es.map fun e => (e.sym, e.value.toBits)) m

theorem RawEntry.ofBits_value {n : Nat} {e : RawEntry} (he : e.ok n) : BitSeq.ofBits e.value.toBits = e.value := by
  obtain ⟨_, _, h64, _⟩ := he
  have hl : e.value.toBits.length ≤ 64 := (BitSeq.toBits_length _).trans_le h64
  exact BitSeq.ext_bits _ _ (BitSeq.ofBits_wf _ hl) (BitSeq.mk'_wf _ _ h64) (BitSeq.toBits_ofBits _ hl)

theorem storeEntries_cons {n : Nat} {e : RawEntry} (he : e.ok n) (es : List RawEntry) (m : FMap BitSeq) :
    storeEntries (e :: es) m = storeEntries es (m.put e.sym e.value) := by
  simp [storeEntries, storePaths, RawEntry.ofBits_value he]

theorem storeEntries_concat {n : Nat} {e : RawEntry} (he : e.ok n) (es : List RawEntry) (m : FMap BitSeq) :
    storeEntries (es ++ [e]) m = (storeEntries es m).put e.sym e.value := by
  simp [storeEntries, storePaths, RawEntry.ofBits_value he]

theorem storeEntries_wf (es : List RawEntry) : (storeEntries es []).wf := storePaths_wf _ _ .nil

theorem storeEntries_get_iff {n : Nat} {es : List RawEntry} (hok : ∀ e ∈ es, e.ok n) (hd : (es.map RawEntry.sym).Nodup)
    (v : Word) (c : BitSeq) : (storeEntries es []).get v = some c ↔ ∃ e ∈ es, e.sym = v ∧ c = e.value := by
  have hdiff : symbolsDiffer (es.map fun e => (e.sym, e.value.toBits)) :=
    List.pairwise_map.2 (List.pairwise_map.1 hd)
  rw [storeEntries, storePaths_get_iff hdiff]
  constructor
  · rintro ⟨p, hp, rfl⟩
    obtain ⟨e, he, hep⟩ := List.mem_map.1 hp
    cases hep
    exact ⟨e, he, rfl, RawEntry.ofBits_value (hok e he)⟩
  · rintro ⟨e, he, rfl, rfl⟩
    exact ⟨_, List.mem_map.2 ⟨e, he, rfl⟩, (RawEntry.ofBits_value (hok e he)).symm⟩

theorem storeEntries_get_isSome {n : Nat} {es : List RawEntry} (hok : ∀ e ∈ es, e.ok n)
    (hd : (es.map RawEntry.sym).Nodup) (v : Word) :
    ((storeEntries es []).get v).isSome = true ↔ v ∈ es.map RawEntry.sym := by
  simp only [Option.isSome_iff_exists, storeEntries_get_iff hok hd, List.mem_map]
  exact ⟨fun ⟨_, e, he, hv, _⟩ => ⟨e, he, hv⟩, fun ⟨e, he, hv⟩ => ⟨_, e, he, hv, rfl⟩⟩

/-- DESER_TABLE accepts the entries one after the other, with the table m before them: each is good, and none has a symbol of m or of another one. -/
def acceptsEntries (n : Nat) (m : FMap BitSeq) (es : List RawEntry) : Prop :=
  (∀ e ∈ es, e.ok n ∧ m.get e.sym = none) ∧ (es.map RawEntry.sym).Nodup

theorem acceptsEntries_nil {n : Nat} {es : List RawEntry} (hok : ∀ e ∈ es, e.ok n) (hd : (es.map RawEntry.sym).Nodup) :
    acceptsEntries n [] es := ⟨fun e he => ⟨hok e he, rfl⟩, hd⟩

theorem acceptsEntries_cons {n : Nat} {m : FMap BitSeq} {e : RawEntry} {es : List RawEntry}
    (h : acceptsEntries n m (e :: es)) :
    e.ok n ∧ m.get e.sym = none ∧ acceptsEntries n (m.put e.sym e.value) es := by
  obtain ⟨hall, hd⟩ := h
  obtain ⟨⟨hok, hnew⟩, hes⟩ := List.forall_mem_cons.1 hall
  obtain ⟨hnot, hd⟩ := List.nodup_cons.1 hd
  refine ⟨hok, hnew, fun x hx => ⟨(hes x hx).1, ?_⟩, hd⟩
  have hne : x.sym ≠ e.sym := fun h => hnot (h ▸ List.mem_map_of_mem hx)
  exact (FMap.get_put_ne _ _ _ _ hne).trans (hes x hx).2

end Sys2Proof.Machine
end

section
/-! DESER_TABLE's reader (R247): from which position, over which tokens, the core gets to which end. The rules are stated backwards, from what a field's bytes lead to, so that a table is read by chaining them field by field. -/

namespace Sys2Proof.Machine

/-! ### Positions -/

/-- DESER_TABLE at work on s: the table m so far, q in IN, DTREE none. -/
def State.reading (s : State) (m : FMap BitSeq) (q : List Token) (k : Nat) : State := (s.setCt m).fresh.atInq q k

@[simp] theorem State.reading_params (s : State) (m : FMap BitSeq) (q : List Token) (k : Nat) :
    (s.reading m q k).params = s.params := rfl
@[simp] theorem State.reading_ct (s : State) (m : FMap BitSeq) (q : List Token) (k : Nat) : (s.reading m q k).ct = m := rfl

theorem State.sameBut_reading (s : State) (m : FMap BitSeq) (q : List Token) (k : Nat) :
    s.sameBut (s.reading m q k) [.ct, .dtree, .inq] := by
  intro p hp; cases p <;> simp_all [Part.same, State.bsAt, State.reading]

/-- From position d, with the table m so far and q in IN, the core gets to u. -/
def State.reads (s : State) (m : FMap BitSeq) (d : Deser) (q : List Token) (u : State) : Prop :=
  ∀ k, Moves ((s.reading m q k).goOn [.deser d]) u

/-- Before the first byte of field f, p bytes consumed: e of t entries are done, and the one from offset so on has symbol v and length l. -/
def Deser.before (f : Field) (so p : Nat) (v : Word) (t e l : Nat) : Deser :=
  ⟨f, BitVec.ofNat 64 p, [], BitVec.ofNat 64 p, t, e, BitVec.ofNat 64 so, v, l⟩

/-- After some more bytes of the field. -/
def Deser.past (d : Deser) (bytes : List Byte) : Deser :=
  { d with got := d.got ++ bytes, n := d.n + BitVec.ofNat 64 bytes.length }

theorem Deser.past_before (f : Field) (so p : Nat) (v : Word) (t e l : Nat) (bytes : List Byte) :
    (Deser.before f so p v t e l).past bytes =
      ⟨f, BitVec.ofNat 64 p, bytes, BitVec.ofNat 64 (p + bytes.length), t, e, BitVec.ofNat 64 so, v, l⟩ := by
  simp [Deser.past, Deser.before, BitVec.ofNat_add]

/-- DESER_TABLE has failed with this raise, and q is left in IN (R247). -/
def State.refusedTable (s : State) (q : List Token) (r : Raise) : State := (s.reading [] q 0).raise r

/-- DESER_TABLE has read the table m of t entries and p bytes, and q is left in IN (R247). -/
def State.acceptedTable (s : State) (m : FMap BitSeq) (q : List Token) (p t : Nat) : State :=
  (((s.reading m q 0).goOn [.finish (.deserTable (BitVec.ofNat 64 p) (BitVec.ofNat 64 t))]).writeResults
    (.deserTable (BitVec.ofNat 64 p) (BitVec.ofNat 64 t))).complete

theorem State.completes_acceptedTable (s : State) (m : FMap BitSeq) (q : List Token) (p t : Nat) :
    s.completes (s.acceptedTable m q p t) := State.completes_finished s (s.reading m q 0) _ rfl rfl rfl

theorem State.sameBut_acceptedTable (s : State) (m : FMap BitSeq) (q : List Token) (p t : Nat) :
    s.sameBut (s.acceptedTable m q p t) [.ct, .dtree, .inq, .res0, .res1] :=
  State.sameBut_finished s _ _ _ (s.sameBut_reading m q 0)

/-! ### Bytes of one field -/

section
variable {s u : State} {m : FMap BitSeq} {q : List Token} {f : Field} {so p t e l : Nat} {v : Word}

theorem State.reads_part (hi : s.iof = false) (part : List Byte) : ∀ d : Deser,
    d.got.length + part.length < d.want s.symWidth → s.reads m (d.past part) q u →
      s.reads m d (byteTokens part ++ q) u := by
  induction part with
  | nil =>
    intro d _ h
    have hpast : d.past [] = d := by simp [Deser.past]
    exact hpast ▸ h
  | cons b part ih =>
    intro d hlt h k
    rw [List.length_cons] at hlt
    have htok := moves_deser_token (s.reading m (.byte b :: (byteTokens part ++ q)) k) d (.byte b) (byteTokens part ++ q)
      hi rfl
    have hmore : ¬ (d.got ++ [b]).length = d.want s.symWidth := by
      rw [List.length_append, List.length_singleton]; omega
    have hgo : ((((s.reading m (.byte b :: (byteTokens part ++ q)) k).goOn [.deser d]).took
        (byteTokens part ++ q)).deserToken d (.byte b)) =
        (s.reading m (byteTokens part ++ q) (k - 1)).goOn [.deser (d.past [b])] := if_neg hmore
    have hpast : (d.past [b]).past part = d.past (b :: part) := by
      simp [Deser.past, BitVec.ofNat_add, BitVec.add_assoc, BitVec.add_comm (BitVec.ofNat 64 part.length)]
    rw [hgo] at htok
    refine htok.trans (ih (d.past [b]) ?_ (hpast ▸ h) _)
    show (d.got ++ [b]).length + part.length < d.want s.symWidth
    rw [List.length_append, List.length_singleton]
    omega

/-- A field of w bytes that breaks off with an EOS (R247). -/
theorem State.reads_eos (hi : s.iof = false) {part : List Byte} {w : Nat} (hlt : part.length < w)
    (hw : (Deser.before f so p v t e l).want s.symWidth = w := by rfl) :
    s.reads m (.before f so p v t e l) (byteTokens part ++ .eos :: q)
      (s.refusedTable q
        { cause := .malformedTable, offset := BitVec.ofNat 64 p, expected := BitVec.ofNat 64 w,
          actual := BitVec.ofNat 64 part.length, symbol := v }) := by
  subst hw
  exact State.reads_part hi part _ (by simpa [Deser.before] using hlt) fun k =>
    moves_deser_token (s.reading m (.eos :: q) k) _ .eos q hi rfl

/-- A field that breaks off with an Err (R330). -/
theorem State.reads_err (hi : s.iof = false) {part : List Byte}
    (hlt : part.length < (Deser.before f so p v t e l).want s.symWidth) :
    s.reads m (.before f so p v t e l) (byteTokens part ++ .err :: q)
      (s.refusedTable q { cause := .ioError, offset := BitVec.ofNat 64 (p + part.length) }) := by
  refine State.reads_part hi part _ (by simpa [Deser.before] using hlt) fun k => ?_
  rw [Deser.past_before]
  exact moves_deser_token (s.reading m (.err :: q) k) _ .err q hi rfl

/-- A field read to its end goes on with its check. -/
theorem State.reads_field (hi : s.iof = false) {bytes : List Byte} (hpos : 0 < bytes.length)
    (hw : bytes.length = (Deser.before f so p v t e l).want s.symWidth)
    (h : ∀ k todo, Moves (((s.reading m q k).goOn todo).deserField
      ⟨f, BitVec.ofNat 64 p, bytes, BitVec.ofNat 64 (p + bytes.length), t, e, BitVec.ofNat 64 so, v, l⟩) u) :
    s.reads m (.before f so p v t e l) (byteTokens bytes ++ q) u := by
  intro k
  obtain ⟨k', todo, hk⟩ := moves_field bytes (s.reading m (byteTokens bytes ++ q) k) (.before f so p v t e l) q hi
    (List.ne_nil_of_length_pos hpos) (hw ▸ Nat.zero_add _) rfl
  change Moves _ (State.deserField _ ((Deser.before f so p v t e l).past bytes)) at hk
  rw [Deser.past_before] at hk
  exact hk.trans (h k' todo)

end

/-! ### The checks of each field (R247) -/

section
variable {s u : State} {m : FMap BitSeq} {q : List Token} {so p t e l : Nat} {v : Word}

theorem toNat_ofNat_of_lt32 {n : Nat} (h : n < 2 ^ 32) : (BitVec.ofNat 64 n).toNat = n := by
  rw [BitVec.toNat_ofNat, Nat.mod_eq_of_lt (h.trans (by decide))]

theorem ofNat_ne_zero_of_lt32 {n : Nat} (h : n < 2 ^ 32) (h0 : n ≠ 0) : BitVec.ofNat 64 n ≠ 0 := fun hz =>
  h0 (by rw [← toNat_ofNat_of_lt32 h, hz]; rfl)

/-- A 4-byte count is read back as it was written (R86). -/
theorem beWord_beBytes_count {n : Nat} (h : n < 2 ^ 32) : beWord (beBytes 4 (BitVec.ofNat 64 n)) = BitVec.ofNat 64 n :=
  beWord_beBytes_of_lt _ _ ((toNat_ofNat_of_lt32 h).trans_lt h)

theorem State.reads_count_zero (hi : s.iof = false) {bytes : List Byte} (hb : bytes.length = 4) (h0 : beWord bytes = 0) :
    s.reads m deserStart (byteTokens bytes ++ q) (s.refusedTable q { cause := .malformedTable, expected := 1 }) :=
  State.reads_field (f := .count) (so := 0) (p := 0) hi (by omega) hb fun k todo => by
    simp only [State.deserField, if_pos h0]
    exact .refl _

theorem State.reads_count_above (hi : s.iof = false) {bytes : List Byte} (hb : bytes.length = 4)
    (hcap : s.params.symCap < (beWord bytes).toNat) :
    s.reads m deserStart (byteTokens bytes ++ q)
      (s.refusedTable q { cause := .capacity, expected := BitVec.ofNat 64 s.params.symCap, actual := beWord bytes }) :=
  State.reads_field (f := .count) (so := 0) (p := 0) hi (by omega) hb fun k todo => by
    have h0 : beWord bytes ≠ 0 := fun h => by simp [h] at hcap
    simp only [State.deserField, if_neg h0, State.goOn_params, State.reading_params, gt_iff_lt, if_pos hcap]
    exact .refl _

/-- The header of t entries, 1 to SYM_CAP (R241). -/
theorem State.reads_count (hi : s.iof = false) (hp : s.params.ok) (hpos : 0 < t) (hcap : t ≤ s.params.symCap)
    (h : s.reads m (.before .symbol 4 4 0 t 0 0) q u) :
    s.reads m deserStart (byteTokens (beBytes 4 (BitVec.ofNat 64 t)) ++ q) u :=
  State.reads_field (f := .count) (so := 0) (p := 0) hi (by simp) (beBytes_length _ _) fun k todo => by
    have ht : t < 2 ^ 32 := by obtain ⟨_, h32, _, _⟩ := hp; omega
    simp only [State.deserField, beWord_beBytes_count ht, if_neg (ofNat_ne_zero_of_lt32 ht hpos.ne'),
      toNat_ofNat_of_lt32 ht, beBytes_length, State.goOn_params, State.reading_params, gt_iff_lt,
      if_neg (Nat.not_lt.2 hcap)]
    exact h k

theorem State.reads_symbol (hi : s.iof = false) (hw : s.width ≠ 0) (hv : v.toNat < 2 ^ (8 * s.symWidth))
    (hnew : m.get v = none) (h : s.reads m (.before .length p (p + s.symWidth) v t e l) q u) :
    s.reads m (.before .symbol p p 0 t e l) (byteTokens (beBytes s.symWidth v) ++ q) u :=
  State.reads_field hi (by simpa using s.symWidth_pos hw) (beBytes_length _ _) fun k todo => by
    have hnot : ¬ (m.get v).isSome = true := by simp [hnew]
    simp only [State.deserField, beWord_beBytes_of_lt _ _ hv, beBytes_length, State.goOn_ct, State.reading_ct, if_neg hnot]
    exact h k

theorem State.reads_symbol_again (hi : s.iof = false) (hw : s.width ≠ 0) (hv : v.toNat < 2 ^ (8 * s.symWidth))
    (hold : (m.get v).isSome = true) :
    s.reads m (.before .symbol p p 0 t e l) (byteTokens (beBytes s.symWidth v) ++ q)
      (s.refusedTable q
        { cause := .malformedTable, offset := BitVec.ofNat 64 p, expected := 1, actual := 2, symbol := v }) :=
  State.reads_field hi (by simpa using s.symWidth_pos hw) (beBytes_length _ _) fun k todo => by
    simp only [State.deserField, beWord_beBytes_of_lt _ _ hv, State.goOn_ct, State.reading_ct, if_pos hold]
    exact .refl _

/-- The raise for an entry length outside 1 to 64 (R247). -/
def badLength (l p : Nat) (v : Word) : Raise :=
  if l = 0 then { cause := .malformedTable, offset := BitVec.ofNat 64 p, expected := 1, symbol := v }
  else { cause := .codeOverflow, offset := BitVec.ofNat 64 p, expected := 64, actual := BitVec.ofNat 64 l, symbol := v }

theorem State.reads_length {l' : Nat} (hi : s.iof = false) (h1 : 1 ≤ l) (h64 : l ≤ 64)
    (h : s.reads m (.before .code so (p + 4) v t e l) q u) :
    s.reads m (.before .length so p v t e l') (byteTokens (beBytes 4 (BitVec.ofNat 64 l)) ++ q) u :=
  State.reads_field hi (by simp) (beBytes_length _ _) fun k todo => by
    have hl : l < 2 ^ 32 := h64.trans_lt (by decide)
    simp only [State.deserField, beWord_beBytes_count hl, if_neg (ofNat_ne_zero_of_lt32 hl (Nat.ne_of_gt h1)),
      toNat_ofNat_of_lt32 hl, gt_iff_lt, if_neg (Nat.not_lt.2 h64), beBytes_length]
    exact h k

theorem State.reads_length_bad {l' : Nat} (hi : s.iof = false) (hlt : l < 2 ^ 32) (hbad : l = 0 ∨ 64 < l) :
    s.reads m (.before .length so p v t e l') (byteTokens (beBytes 4 (BitVec.ofNat 64 l)) ++ q)
      (s.refusedTable q (badLength l p v)) :=
  State.reads_field hi (by simp) (beBytes_length _ _) fun k todo => by
    simp only [State.deserField, beWord_beBytes_count hlt]
    rcases hbad with rfl | hl
    · exact .refl _
    · have h0 : l ≠ 0 := Nat.ne_of_gt (Nat.zero_lt_of_lt hl)
      rw [if_neg (ofNat_ne_zero_of_lt32 hlt h0), if_pos ((toNat_ofNat_of_lt32 hlt).symm ▸ hl), badLength, if_neg h0]
      exact .refl _

/-- The code bytes of an entry that others follow. -/
theorem State.reads_code {x : RawEntry} (hi : s.iof = false) (hx : x.ok s.symWidth) (hmore : e + 1 ≠ t)
    (h : s.reads (m.put x.sym x.value) (.before .symbol (p + x.code.length) (p + x.code.length) 0 t (e + 1) x.len) q u) :
    s.reads m (.before .code so p x.sym t e x.len) (byteTokens x.code ++ q) u := by
  obtain ⟨_, h1, _, hc⟩ := hx
  refine State.reads_field hi (by omega) hc fun k todo => ?_
  simp only [State.deserField, if_neg hmore]
  exact h k

/-- The code bytes of the last entry. -/
theorem State.reads_code_last {x : RawEntry} (hi : s.iof = false) (hx : x.ok s.symWidth) (hlast : e + 1 = t) :
    s.reads m (.before .code so p x.sym t e x.len) (byteTokens x.code ++ q)
      (s.acceptedTable (m.put x.sym x.value) q (p + x.code.length) t) := by
  obtain ⟨_, h1, _, hc⟩ := hx
  refine State.reads_field hi (by omega) hc fun k todo => ?_
  simp only [State.deserField, if_pos hlast]
  exact moves_finish (s.reading (m.put x.sym x.value) q k) _ hi

/-! ### Entries -/

/-- An entry up to its code bytes. -/
theorem State.reads_to_code {x : RawEntry} (hi : s.iof = false) (hw : s.width ≠ 0) (hx : x.ok s.symWidth)
    (hnew : m.get x.sym = none)
    (h : s.reads m (.before .code p (p + s.symWidth + 4) x.sym t e x.len) (byteTokens x.code ++ q) u) :
    s.reads m (.before .symbol p p 0 t e l) (byteTokens (x.bytes s.symWidth) ++ q) u := by
  obtain ⟨hv, h1, h64, _⟩ := hx
  rw [RawEntry.bytes, byteTokens_append, byteTokens_append, List.append_assoc, List.append_assoc]
  exact State.reads_symbol hi hw hv hnew (State.reads_length hi h1 h64 h)

theorem State.reads_entry {x : RawEntry} (hi : s.iof = false) (hw : s.width ≠ 0) (hx : x.ok s.symWidth)
    (hnew : m.get x.sym = none) (hmore : e + 1 ≠ t)
    (h : s.reads (m.put x.sym x.value) (.before .symbol (p + (x.bytes s.symWidth).length)
      (p + (x.bytes s.symWidth).length) 0 t (e + 1) x.len) q u) :
    s.reads m (.before .symbol p p 0 t e l) (byteTokens (x.bytes s.symWidth) ++ q) u :=
  State.reads_to_code hi hw hx hnew (State.reads_code hi hx hmore (by
    rw [RawEntry.bytes_length, ← Nat.add_assoc, ← Nat.add_assoc] at h; exact h))

/-- Entries that others follow. -/
theorem State.reads_entries (hi : s.iof = false) (hw : s.width ≠ 0) (es : List RawEntry) :
    ∀ (m : FMap BitSeq) (p e l : Nat), acceptsEntries s.symWidth m es → e + es.length < t →
      (∀ l', s.reads (storeEntries es m) (.before .symbol (p + (es.flatMap (RawEntry.bytes s.symWidth)).length)
        (p + (es.flatMap (RawEntry.bytes s.symWidth)).length) 0 t (e + es.length) l') q u) →
      s.reads m (.before .symbol p p 0 t e l) (byteTokens (es.flatMap (RawEntry.bytes s.symWidth)) ++ q) u := by
  induction es with
  | nil => exact fun m p e l _ _ h => h l
  | cons x es ih =>
    intro m p e l ha hlt h
    obtain ⟨hx, hnew, ha⟩ := acceptsEntries_cons ha
    rw [List.length_cons] at hlt
    rw [List.flatMap_cons, byteTokens_append, List.append_assoc]
    refine State.reads_entry hi hw hx hnew (by omega) (ih _ _ _ _ ha (by omega) fun l' => ?_)
    have hl' := h l'
    rw [storeEntries_cons hx, List.flatMap_cons, List.length_append, List.length_cons, Nat.add_comm es.length,
      ← Nat.add_assoc, ← Nat.add_assoc] at hl'
    exact hl'

/-- A list split at two places: the one first part ends within the other, or continues it. -/
theorem ends_within_or_continues {α : Type} {a b c d : List α} (h : a ++ b = c ++ d) :
    (∃ c', c' ≠ [] ∧ a ++ c' = c) ∨ ∃ a', a = c ++ a' ∧ a' ++ b = d := by
  rcases List.append_eq_append_iff.1 h with ⟨c', hc, hb⟩ | ⟨a', ha, hd⟩
  · cases c' with
    | nil => exact .inr ⟨[], by simpa using hc.symm, by simpa using hb⟩
    | cons y c' => exact .inl ⟨y :: c', List.cons_ne_nil _ _, hc.symm⟩
  · exact .inr ⟨a', ha, hd.symm⟩

theorem length_lt_of_append {α : Type} {a b c : List α} (hb : b ≠ []) (h : a ++ b = c) : a.length < c.length := by
  rw [← h, List.length_append]
  exact Nat.lt_add_of_pos_right (List.length_pos_iff.2 hb)

/-- An Err within an entry (R330). -/
theorem State.reads_entry_err {x : RawEntry} {bytes : List Byte} (hi : s.iof = false) (hw : s.width ≠ 0)
    (hx : x.ok s.symWidth) (hnew : m.get x.sym = none) {more : List Byte} (hmore : more ≠ [])
    (hb : bytes ++ more = x.bytes s.symWidth) :
    s.reads m (.before .symbol p p 0 t e l) (byteTokens bytes ++ .err :: q)
      (s.refusedTable q { cause := .ioError, offset := BitVec.ofNat 64 (p + bytes.length) }) := by
  obtain ⟨hv, h1, h64, hc⟩ := hx
  rw [RawEntry.bytes, List.append_assoc] at hb
  rcases ends_within_or_continues hb with ⟨c, hne, hlt⟩ | ⟨b1, rfl, hb1⟩
  · exact State.reads_err hi ((length_lt_of_append hne hlt).trans_eq (beBytes_length _ _))
  rw [byteTokens_append, List.append_assoc, List.length_append, beBytes_length, ← Nat.add_assoc]
  refine State.reads_symbol hi hw hv hnew ?_
  rcases ends_within_or_continues hb1 with ⟨c, hne, hlt⟩ | ⟨b2, rfl, hb2⟩
  · exact State.reads_err hi ((length_lt_of_append hne hlt).trans_eq (beBytes_length _ _))
  rw [byteTokens_append, List.append_assoc, List.length_append, beBytes_length, ← Nat.add_assoc]
  exact State.reads_length hi h1 h64 (State.reads_err hi ((length_lt_of_append hmore hb2).trans_eq hc))

/-- An Err within entries (R330). -/
theorem State.reads_entries_err (hi : s.iof = false) (hw : s.width ≠ 0) {more : List Byte} (hmore : more ≠ [])
    (es : List RawEntry) : ∀ (m : FMap BitSeq) (p e l : Nat) (bytes : List Byte), acceptsEntries s.symWidth m es →
      e + es.length = t → bytes ++ more = es.flatMap (RawEntry.bytes s.symWidth) →
      s.reads m (.before .symbol p p 0 t e l) (byteTokens bytes ++ .err :: q)
        (s.refusedTable q { cause := .ioError, offset := BitVec.ofNat 64 (p + bytes.length) }) := by
  induction es with
  | nil => exact fun m p e l bytes _ _ hb => absurd (List.append_eq_nil_iff.1 hb).2 hmore
  | cons x es ih =>
    intro m p e l bytes ha ht hb
    obtain ⟨hx, hnew, ha⟩ := acceptsEntries_cons ha
    rw [List.flatMap_cons] at hb
    rcases ends_within_or_continues hb with ⟨c, hne, hc⟩ | ⟨b', rfl, hb'⟩
    · exact State.reads_entry_err hi hw hx hnew hne hc
    have hes : es ≠ [] := fun h => by
      rw [h] at hb'
      exact hmore (List.append_eq_nil_iff.1 hb').2
    have hpos := List.length_pos_iff.2 hes
    rw [List.length_cons] at ht
    rw [byteTokens_append, List.append_assoc, List.length_append, ← Nat.add_assoc]
    exact State.reads_entry hi hw hx hnew (by omega) (ih _ _ _ _ _ ha (by omega) hb')

end

/-! ### Tables -/

section
variable {s u : State} {q : List Token} {es : List RawEntry} {t : Nat}

/-- A header of t and fewer than t good entries: the reader stands before the next symbol. -/
theorem State.reads_begun_table (hi : s.iof = false) (hw : s.width ≠ 0) (hp : s.params.ok) (hcap : t ≤ s.params.symCap)
    (hok : ∀ e ∈ es, e.ok s.symWidth) (hd : (es.map RawEntry.sym).Nodup) (hlt : es.length < t)
    (h : ∀ l, s.reads (storeEntries es []) (.before .symbol (rawBytes s.symWidth t es).length
      (rawBytes s.symWidth t es).length 0 t es.length l) q u) :
    s.reads [] deserStart (byteTokens (rawBytes s.symWidth t es) ++ q) u := by
  rw [rawBytes_length] at h
  rw [rawBytes_eq, byteTokens_append, List.append_assoc]
  refine State.reads_count hi hp (by omega) hcap (State.reads_entries hi hw es _ _ _ _ (acceptsEntries_nil hok hd) (by omega)
    fun l => ?_)
  rw [Nat.zero_add]
  exact h l

/-- A whole table (R247). -/
theorem State.reads_table (hi : s.iof = false) (hw : s.width ≠ 0) (hp : s.params.ok) (hne : es ≠ [])
    (hcap : es.length ≤ s.params.symCap) (hok : ∀ e ∈ es, e.ok s.symWidth) (hd : (es.map RawEntry.sym).Nodup) :
    s.reads [] deserStart (byteTokens (rawBytes s.symWidth es.length es) ++ q)
      (s.acceptedTable (storeEntries es []) q (rawBytes s.symWidth es.length es).length es.length) := by
  obtain ⟨init, x, rfl⟩ := (List.eq_nil_or_concat' es).resolve_left hne
  have hx : x.ok s.symWidth := hok x (by simp)
  have hinit : ∀ e ∈ init, e.ok s.symWidth := fun e he => hok e (List.mem_append_left _ he)
  rw [List.map_append, List.nodup_append'] at hd
  obtain ⟨hd, _, hdisj⟩ := hd
  have hnew : (storeEntries init []).get x.sym = none := by
    rw [← Option.not_isSome_iff_eq_none, storeEntries_get_isSome hinit hd]
    exact fun hmem => hdisj hmem (by simp)
  have hraw (n : Nat) : rawBytes s.symWidth n (init ++ [x]) = rawBytes s.symWidth n init ++ x.bytes s.symWidth := by
    simp [rawBytes_eq]
  have hlen (n : Nat) : (rawBytes s.symWidth n init ++ x.bytes s.symWidth).length =
      (rawBytes s.symWidth n init).length + s.symWidth + 4 + x.code.length := by
    rw [List.length_append, RawEntry.bytes_length, Nat.add_assoc, Nat.add_assoc, Nat.add_assoc]
  rw [hraw, hlen, byteTokens_append, List.append_assoc, storeEntries_concat hx]
  exact State.reads_begun_table hi hw hp hcap hinit hd (by simp) fun l =>
    State.reads_to_code hi hw hx hnew (State.reads_code_last hi hx (by simp))

end

end Sys2Proof.Machine
end

section
/-! DESER_TABLE (R247, R248): the tables it reads back, the tables it refuses, and what an error leaves. -/

namespace Sys2Proof.Machine

/-! ### The command -/

/-- DESER_TABLE past its check (R247). -/
theorem execDeserTable_ends {s u : State} (hs : s.quiet) (hw : s.width ≠ 0) (h : s.reads [] deserStart s.inq u)
    (hu : u.run = .idle) : exec .deserTable s = .next u := by
  have hstart : execDeserTable s = (s.setCt []).start [.deser deserStart] := by
    rw [execDeserTable, s.needWidth_ok 0x41 hw, State.checked_none]
  exact hstart.trans (State.start_eq _ u _ hs.2 (by simp [Micro.bounded, deserStart]) (h s.iofSkip) (canMove_of_idle hu))

theorem State.deserFails_of_reads {s : State} {q rest : List Token} {r : Raise} {rec : ErrRec} (hs : s.quiet)
    (hw : s.width ≠ 0) (hq : s.inq = q) (h : s.reads [] deserStart q (s.refusedTable rest r))
    (hr : (s.refusedTable rest r).errRec = rec := by rfl) : s.deserFails rec rest :=
  ⟨_, execDeserTable_ends hs hw (hq ▸ h) rfl, rfl, rfl, rfl, hr, rfl, rfl, rfl,
    State.sameBut_append (s.sameBut_reading [] rest 0) (State.sameBut_raise _ _)⟩

/-- Over a whole table DESER_TABLE completes (R247). -/
theorem State.deserTable_completes {s : State} {es : List RawEntry} {rest : List Token} (hs : s.quiet) (hp : s.params.ok)
    (hw : s.width ≠ 0) (hne : es ≠ []) (hcap : es.length ≤ s.params.symCap) (hok : ∀ e ∈ es, e.ok s.symWidth)
    (hd : (es.map RawEntry.sym).Nodup) (hq : s.inq = byteTokens (rawBytes s.symWidth es.length es) ++ rest) :
    ∃ t, exec .deserTable s = .next t ∧ s.completes t ∧ t.ct = storeEntries es [] ∧ t.inq = rest ∧ t.dtree = none ∧
      t.regs.res0 = BitVec.ofNat 64 (rawBytes s.symWidth es.length es).length ∧
      t.regs.res1 = BitVec.ofNat 64 es.length ∧ s.sameBut t [.ct, .dtree, .inq, .res0, .res1] :=
  ⟨_, execDeserTable_ends hs hw (hq ▸ State.reads_table hs.1 hw hp hne hcap hok hd) rfl,
    s.completes_acceptedTable _ _ _ _, rfl, rfl, rfl, rfl, rfl, s.sameBut_acceptedTable _ _ _ _⟩

/-! ### The tables SER_TABLE writes (R248) -/

/-- The entry SER_TABLE writes for a code. -/
def entryOf (e : Word × BitSeq) : RawEntry := ⟨e.1, e.2.len, codeBytes e.2⟩

theorem entryOf_ok {n : Nat} {e : Word × BitSeq} (hv : e.1.toNat < 2 ^ (8 * n)) (hc : e.2.isCode) : (entryOf e).ok n :=
  ⟨hv, hc.2, hc.1.1, codeBytes_length _⟩

theorem tableBytes_eq_rawBytes (n : Nat) (ct : FMap BitSeq) :
    tableBytes n ct = rawBytes n (ct.map entryOf).length (ct.map entryOf) := by
  rw [List.length_map, rawBytes_eq, List.flatMap_map]
  rfl

theorem map_sym_entryOf_nodup {ct : FMap BitSeq} (h : ct.wf) : ((ct.map entryOf).map RawEntry.sym).Nodup := by
  rw [List.map_map]
  exact List.pairwise_map.2 (h.imp word_ne_of_lt)

/-- Reading back what SER_TABLE writes gives the table (R243, R248). -/
theorem storeEntries_entryOf {n : Nat} {ct : FMap BitSeq} (h : ct.wf) (hok : ∀ e ∈ ct, (entryOf e).ok n)
    (hc : ∀ e ∈ ct, e.2.isCode) : storeEntries (ct.map entryOf) [] = ct := by
  refine FMap.ext_of_wf _ _ (storeEntries_wf _) h fun v => Option.ext fun c => ?_
  rw [storeEntries_get_iff (List.forall_mem_map.2 hok) (map_sym_entryOf_nodup h)]
  have hval (e) (he : e ∈ ct) : (entryOf e).value = e.2 := mk'_codeBytes _ (hc e he).1
  constructor
  · rintro ⟨x, hx, rfl, rfl⟩
    obtain ⟨e, he, rfl⟩ := List.mem_map.1 hx
    rw [hval e he]
    exact FMap.get_of_mem ct e.1 e.2 h he
  · intro hg
    have he := FMap.mem_of_get ct v c hg
    exact ⟨_, List.mem_map_of_mem he, rfl, (hval _ he).symm⟩

/-- Settles O33: a table is read field by field (`State.reads_table`); what SER_TABLE writes is the table of its codes' entries (`tableBytes_eq_rawBytes`), and those entries give CT back (`storeEntries_entryOf`). -/
theorem deserTableInvertsSerTable : Obligations.DeserTableInvertsSerTable := by
  refine ⟨fun u hu hp hw _ hne hwf hcap hcodes hroom => ?inverts,
    fun s es rest hs hp hw _ hne hcap hok hd hq => ?anyOrder⟩
  case inverts =>
    obtain ⟨v, hv, hdone, hout, h0, h1, _⟩ := serTableWritesTheTable u hu hw hne hroom
    refine ⟨v, _, hv, hdone, hout, fun s rest hs hsp hsw hq => ?_⟩
    have hn : s.symWidth = u.symWidth := congrArg BitVec.toNat hsw
    have hok (e) (he : e ∈ u.ct) : (entryOf e).ok s.symWidth := entryOf_ok (hn ▸ (hcodes e he).1) (hcodes e he).2
    rw [tableBytes_eq_rawBytes, ← hn] at hq h0
    obtain ⟨t, ht, hc, hct, hin, hdt, ht0, ht1, hf⟩ := State.deserTable_completes hs (hsp ▸ hp) (hsw ▸ hw)
      (by simpa using hne) (by simpa [hsp] using hcap) (List.forall_mem_map.2 hok) (map_sym_entryOf_nodup hwf) hq
    have hback : storeEntries (u.ct.map entryOf) [] = u.ct := storeEntries_entryOf hwf hok fun e he => (hcodes e he).2
    rw [List.length_map, ← h1] at ht1
    exact ⟨t, ht, hc, hct.trans hback, hin, hdt, ht0.trans h0.symm, ht1, hf⟩
  case anyOrder =>
    obtain ⟨t, ht, hc, hct, h⟩ := State.deserTable_completes hs hp hw hne hcap hok hd hq
    exact ⟨t, ht, hc, fun v c => hct ▸ storeEntries_get_iff hok hd v c, hct ▸ storeEntries_wf es, h⟩

/-! ### Refusals (R247, R330) -/

/-- The record of a length outside 1 to 64. -/
theorem refusedTable_badLength (s : State) (q : List Token) (l p : Nat) (v : Word) :
    (s.refusedTable q (badLength l p v)).errRec =
      if l = 0 then ⟨0x02, BitVec.ofNat 64 p, 1, 0, v⟩ else ⟨0x05, BitVec.ofNat 64 p, 64, BitVec.ofNat 64 l, v⟩ := by
  unfold badLength
  split_ifs
  · rfl
  · rfl

/-- An Err within a good table (R330). -/
theorem State.reads_table_err {s : State} {q : List Token} {es : List RawEntry} {bytes more : List Byte}
    (hi : s.iof = false) (hw : s.width ≠ 0) (hp : s.params.ok) (hcap : es.length ≤ s.params.symCap)
    (hok : ∀ e ∈ es, e.ok s.symWidth) (hd : (es.map RawEntry.sym).Nodup) (hmore : more ≠ [])
    (hb : bytes ++ more = rawBytes s.symWidth es.length es) :
    s.reads [] deserStart (byteTokens bytes ++ .err :: q)
      (s.refusedTable q { cause := .ioError, offset := BitVec.ofNat 64 bytes.length }) := by
  rw [rawBytes_eq] at hb
  rcases ends_within_or_continues hb with ⟨c, hne, hc⟩ | ⟨b, rfl, hb'⟩
  · have herr := State.reads_err (s := s) (m := []) (q := q) (f := .count) (so := 0) (p := 0) (v := 0) (t := 0) (e := 0)
      (l := 0) hi ((length_lt_of_append hne hc).trans_eq (beBytes_length _ _))
    rw [Nat.zero_add] at herr
    exact herr
  · have hpos : 0 < es.length := List.length_pos_iff.2 fun h => by
      rw [h] at hb'
      exact hmore (List.append_eq_nil_iff.1 hb').2
    rw [byteTokens_append, List.append_assoc, List.length_append, beBytes_length]
    exact State.reads_count hi hp hpos hcap
      (State.reads_entries_err hi hw hmore es _ _ _ _ _ (acceptsEntries_nil hok hd) (Nat.zero_add _) hb')

/-- Settles O34: each refusal is the rule of the field it happens in, after the rules of the fields before it (`State.reads_begun_table`). -/
theorem deserTableRefusesABadTable : Obligations.DeserTableRefusesABadTable := by
  intro s rest hs hw
  have hi := hs.1
  refine ⟨fun bytes hlt hq => ?headerCut, fun bytes hb hq => ⟨fun h0 => ?headerZero, fun hcap => ?headerAbove⟩,
    fun es n hp _ hcap hok hd => ⟨fun hlt so hso => ?entry, fun hn bytes more hmore hb hq => ?err⟩⟩
  case headerCut =>
    exact State.deserFails_of_reads hs hw hq (State.reads_eos (f := .count) (so := 0) (p := 0) hi hlt)
  case headerZero => exact State.deserFails_of_reads hs hw hq (State.reads_count_zero hi hb h0)
  case headerAbove => exact State.deserFails_of_reads hs hw hq (State.reads_count_above hi hb hcap)
  case err =>
    subst hn
    exact State.deserFails_of_reads hs hw hq (State.reads_table_err hi hw hp hcap hok hd hmore hb)
  case entry =>
    subst hso
    have begun {q : List Token} {u : State} := State.reads_begun_table (q := q) (u := u) hi hw hp hcap hok hd hlt
    refine ⟨fun part hpart hq => ?symbolCut, fun v hv hq => ?symbolAgain, fun v hv hnew => ?_⟩
    case symbolCut =>
      rw [byteTokens_append, List.append_assoc] at hq
      exact State.deserFails_of_reads hs hw hq (begun fun l => State.reads_eos hi hpart)
    case symbolAgain =>
      rw [byteTokens_append, List.append_assoc] at hq
      obtain ⟨e, he, rfl⟩ := List.mem_map.1 hv
      exact State.deserFails_of_reads hs hw hq (begun fun l =>
        State.reads_symbol_again hi hw (hok e he).1 ((storeEntries_get_isSome hok hd _).2 hv))
    have hnone : (storeEntries es []).get v = none := by
      rwa [← Option.not_isSome_iff_eq_none, storeEntries_get_isSome hok hd]
    have symbol {q : List Token} {u : State} (h : ∀ l, s.reads (storeEntries es []) (.before .length
        (rawBytes s.symWidth n es).length ((rawBytes s.symWidth n es).length + s.symWidth) v n es.length l) q u) :
        s.reads [] deserStart (byteTokens (rawBytes s.symWidth n es) ++ (byteTokens (beBytes s.symWidth v) ++ q)) u :=
      begun fun l => State.reads_symbol hi hw hv hnone (h l)
    refine ⟨fun part hpart hq => ?lengthCut, fun l hl hbad hq => ?lengthBad, fun l part h1 h64 hpart hq => ?codeCut⟩
    case lengthCut =>
      simp only [byteTokens_append, List.append_assoc] at hq
      exact State.deserFails_of_reads hs hw hq (symbol fun l => State.reads_eos hi hpart)
    case lengthBad =>
      simp only [byteTokens_append, List.append_assoc] at hq
      exact State.deserFails_of_reads hs hw hq (symbol fun _ => State.reads_length_bad hi hl hbad)
        (refusedTable_badLength _ _ _ _ _)
    case codeCut =>
      simp only [byteTokens_append, List.append_assoc] at hq
      exact State.deserFails_of_reads hs hw hq
        (symbol fun _ => State.reads_length hi h1 h64 (State.reads_eos hi hpart))

/-! ### Errors at any move (R247, R325) -/

/-- An error, if there is one, has ended the command with CT empty. -/
def State.errorEmptiesCt (s : State) : Prop := s.err = true → s.ct = [] ∧ s.run = .idle

theorem State.errorEmptiesCt_of_ok {s : State} (h : s.err = false) : s.errorEmptiesCt := fun he => by simp [h] at he

theorem State.errorEmptiesCt_failDeser (s : State) (r : Raise) : (s.failDeser r).errorEmptiesCt := fun _ => ⟨rfl, rfl⟩

theorem State.errorEmptiesCt_abortDeser (s : State) : s.abortDeser.errorEmptiesCt := fun _ => ⟨rfl, rfl⟩

/-- A field's check fails the command or lets it go on. -/
theorem State.deserField_errorEmptiesCt {s : State} (d : Deser) (h : s.err = false) : (s.deserField d).errorEmptiesCt := by
  have goes (todo : List Micro) : (s.goOn todo).errorEmptiesCt := State.errorEmptiesCt_of_ok h
  have fails (r : Raise) : (s.failDeser r).errorEmptiesCt := s.errorEmptiesCt_failDeser r
  unfold State.deserField
  cases d.field with
  | count =>
    dsimp only
    split_ifs
    · exact fails _
    · exact fails _
    · exact goes _
  | symbol =>
    dsimp only
    split_ifs
    · exact fails _
    · exact goes _
  | length =>
    dsimp only
    split_ifs
    · exact fails _
    · exact fails _
    · exact goes _
  | code =>
    dsimp only
    split_ifs
    · exact State.errorEmptiesCt_of_ok h
    · exact State.errorEmptiesCt_of_ok h

theorem State.deserToken_errorEmptiesCt {s : State} (d : Deser) (t : Token) (h : s.err = false) :
    (s.deserToken d t).errorEmptiesCt := by
  cases t with
  | err => exact s.errorEmptiesCt_failDeser _
  | eos => exact s.errorEmptiesCt_failDeser _
  | byte b =>
    unfold State.deserToken
    dsimp only
    split_ifs
    · exact State.deserField_errorEmptiesCt _ h
    · exact State.errorEmptiesCt_of_ok h

theorem State.perform_errorEmptiesCt {s : State} {m : Micro} (rest : List Micro) (h : s.err = false)
    (hm : Instr.deserTable.does m = true) : (s.perform m rest).errorEmptiesCt := by
  cases m with
  | deser d =>
    show (s.inRead s.abortDeser fun t s' => s'.deserToken d t).errorEmptiesCt
    rcases s.inRead_cases s.abortDeser (fun t s' => s'.deserToken d t) with ⟨_, _, e⟩ | ⟨_, e⟩ | ⟨t, r, _, _, e⟩
    · rw [e]; exact s.errorEmptiesCt_abortDeser
    · rw [e]; exact State.errorEmptiesCt_of_ok h
    · rw [e]; exact State.deserToken_errorEmptiesCt d t h
  | finish f =>
    cases f with
    | deserTable n t =>
      show (s.finish (.deserTable n t)).errorEmptiesCt
      unfold State.finish
      split_ifs
      · exact s.errorEmptiesCt_abortDeser
      · exact State.errorEmptiesCt_of_ok h
    | _ => cases hm
  | _ => cases hm

theorem State.microStep_errorEmptiesCt {s : State} (h : s.err = false) (hd : s.doing .deserTable) :
    s.microStep.errorEmptiesCt := by
  unfold State.microStep
  split
  · exact State.errorEmptiesCt_of_ok h
  · exact State.errorEmptiesCt_of_ok h
  · exact State.errorEmptiesCt_of_ok h
  · next m rest hr => exact State.perform_errorEmptiesCt rest h ((State.doing_running hr).1 hd m List.mem_cons_self)

theorem State.settle_errorEmptiesCt {s : State} (hd : s.doing .deserTable) (h : s.errorEmptiesCt) :
    s.settle.errorEmptiesCt := by
  refine (State.settle_induct (fun u => u.doing .deserTable ∧ u.errorEmptiesCt) (fun u ⟨hd, h⟩ hc => ?_) s ⟨hd, h⟩).2
  have he : u.err = false := by
    cases he : u.err with
    | false => rfl
    | true => rw [canMove_of_idle (h he).2] at hc; cases hc
  exact ⟨State.microStep_doing hd, State.microStep_errorEmptiesCt he hd⟩

/-- While DESER_TABLE runs, DTREE is none (R247). -/
theorem State.dtree_none_of_doing {s : State} {todo : List Micro} (hi : s.Inv) (hd : s.doing .deserTable)
    (hr : s.run = .running todo) : s.dtree = none := by
  have hk := hi.runOk
  simp only [State.runOk, hr] at hk
  cases todo with
  | nil => cases hk.2
  | cons m rest =>
    have hm := (State.doing_running hr).1 hd m List.mem_cons_self
    refine Micro.dtree_none_of_ct (hk.1 m List.mem_cons_self) ?_
    cases m with
    | deser d => simp [Micro.parts]
    | finish f =>
      cases f with
      | deserTable n t => simp [Micro.parts, Finish.parts]
      | _ => cases hm
    | _ => cases hm

/-- Settles O35: every raise of the reader and its abort empty CT and end the command (`State.settle_errorEmptiesCt`); DTREE is none from its beginning, and no micro-step writes it (`State.settle_treesStay`). -/
theorem failedDeserTableLeavesNoTable : Obligations.FailedDeserTableLeavesNoTable := by
  refine ⟨fun s t hw h => ?beginning, fun s t hi he hrun hd h ht => ?later⟩
  case beginning =>
    have hd : ((s.setCt []).begin [.deser deserStart]).doing .deserTable := State.doing_one rfl rfl
    have hstart : ((s.setCt []).begin [.deser deserStart]).settle = t := by
      have hx : execDeserTable s = .next t := h
      rw [execDeserTable, s.needWidth_ok 0x41 hw] at hx
      exact Host.Outcome.next.inj hx
    subst hstart
    exact ⟨(State.settle_treesStay _).2, fun he ht =>
      (State.settle_errorEmptiesCt hd (State.errorEmptiesCt_of_ok he) ht).1⟩
  case later =>
    cases hr : s.run with
    | idle => exact absurd hr hrun
    | accepted w => simp [State.doing, hr] at hd
    | running todo =>
      simp only [State.coreStep, hr] at h
      cases h
      have hm := State.settle_errorEmptiesCt (State.microStep_doing hd) (State.microStep_errorEmptiesCt he hd)
      have hdt : s.microStep.settle.dtree = s.dtree := (State.settle_treesStay _).2.trans s.microStep_treesStay.2
      exact ⟨(hm ht).1, hdt.trans (State.dtree_none_of_doing hi hd hr)⟩

end Sys2Proof.Machine
end

section
/-! RECON_TREE (R260 to R262): the tree that holds a table's codes, and what a table is refused for. -/

namespace Sys2Proof.Machine

/-! ### The nodes of a decode tree (R60) -/

@[simp] theorem DTree.isAbsent_node (v : Option Word) (l r : DTree) : (DTree.node v l r).isAbsent = false := rfl

theorem DTree.isAbsent_iff {t : DTree} : t.isAbsent = true ↔ t = .absent := by cases t <;> simp [DTree.isAbsent]

@[simp] theorem DTree.child_withChild (t c : DTree) (a b : Bool) :
    (t.withChild a c).child b = if a = b then c else t.child b := by
  cases a <;> cases b <;> rfl

@[simp] theorem DTree.isAbsent_withChild (t c : DTree) (b : Bool) : (t.withChild b c).isAbsent = false := by
  cases b <;> rfl

@[simp] theorem DTree.symAt_withChild (t c : DTree) (b : Bool) : (t.withChild b c).symAt = t.symAt := by
  cases b <;> rfl

theorem DTree.size_pos {t : DTree} (h : t.isAbsent = false) : 0 < t.size := by
  cases t with
  | absent => cases h
  | node sy l r => simp [DTree.size]

theorem DTree.size_withChild {t : DTree} (h : t.isAbsent = false) (b : Bool) (c : DTree) :
    (t.withChild b c).size + (t.child b).size = t.size + c.size := by
  cases t with
  | absent => cases h
  | node sy l r => cases b <;> simp [DTree.withChild, DTree.child, DTree.symAt, DTree.size] <;> omega

/-- The paths of the nodes. -/
def DTree.nodes : DTree → List (List Bool)
  | .absent => []
  | .node _ l r => [] :: (l.nodes.map (List.cons false) ++ r.nodes.map (List.cons true))

theorem DTree.length_nodes (t : DTree) : t.nodes.length = t.size := by
  induction t with
  | absent => rfl
  | node sy l r ihl ihr => simp [DTree.nodes, DTree.size, ihl, ihr]

theorem DTree.mem_nodes (t : DTree) (p : List Bool) : p ∈ t.nodes ↔ (t.sub p).isAbsent = false := by
  induction t generalizing p with
  | absent => simp [DTree.nodes, DTree.sub_absent, DTree.isAbsent]
  | node sy l r ihl ihr =>
    match p with
    | [] => simp [DTree.nodes, DTree.sub, DTree.isAbsent]
    | false :: p => simp [DTree.nodes, DTree.sub, DTree.child, ihl]
    | true :: p => simp [DTree.nodes, DTree.sub, DTree.child, ihr]

theorem DTree.nodup_nodes (t : DTree) : t.nodes.Nodup := by
  induction t with
  | absent => exact .nil
  | node sy l r ihl ihr =>
    have hcons (b : Bool) : Function.Injective (List.cons b) := List.cons_injective
    simp only [DTree.nodes, List.nodup_cons, List.nodup_append, ihl.map (hcons _), ihr.map (hcons _)]
    simp

/-- Every leaf has a symbol: said of the leaf's path (R262). -/
theorem DTree.leafSym_of_sub {t : DTree} (h : ∀ p, (t.sub p).isLeaf = true → (t.sub p).symAt ≠ none) :
    t.leafSym = true := by
  induction t with
  | absent => rfl
  | node sy l r ihl ihr =>
    have hroot (hl : l.isAbsent = true) (hr : r.isAbsent = true) : sy ≠ none :=
      h [] (by simp [DTree.sub, DTree.isLeaf, DTree.child, hl, hr])
    simp only [DTree.leafSym, Bool.and_eq_true]
    refine ⟨⟨?_, ihl fun p => h (false :: p)⟩, ihr fun p => h (true :: p)⟩
    cases sy with
    | some v => rfl
    | none => simpa [imp_iff_not_or] using hroot

/-! ### The tree with one code more -/

/-- The tree with the nodes on the way to p and the symbol v at p: what inserting makes of it where nothing stands in the way. -/
def DTree.graft : DTree → List Bool → Word → DTree
  | t, [], v => .node (some v) (t.child false) (t.child true)
  | t, b :: p, v => t.withChild b ((t.child b).graft p v)

@[simp] theorem DTree.isAbsent_graft (t : DTree) (p : List Bool) (v : Word) : (t.graft p v).isAbsent = false := by
  cases p with
  | nil => rfl
  | cons b p => exact DTree.isAbsent_withChild _ _ b

@[simp] theorem DTree.graft_bare (p : List Bool) (v : Word) : DTree.bare.graft p v = DTree.absent.graft p v := by
  cases p with
  | nil => rfl
  | cons b p => cases b <;> rfl

theorem DTree.size_graft_cons {t : DTree} (h : t.isAbsent = false) (b : Bool) (p : List Bool) (v : Word) :
    (t.graft (b :: p) v).size + (t.child b).size = t.size + ((t.child b).graft p v).size :=
  DTree.size_withChild h b _

theorem DTree.graft_present_iff (t : DTree) (p : List Bool) (v : Word) (q : List Bool) :
    ((t.graft p v).sub q).isAbsent = false ↔ (t.sub q).isAbsent = false ∨ q <+: p := by
  induction p generalizing t q with
  | nil =>
    match q with
    | [] => simp [DTree.sub]
    | b :: q => cases b <;> simp [DTree.graft, DTree.sub, DTree.child]
  | cons a p ih =>
    cases q with
    | nil => simp [DTree.sub]
    | cons b q =>
      by_cases hab : a = b
      · subst hab; simp [DTree.graft, DTree.sub, ih]
      · simp [DTree.graft, DTree.sub, hab, List.cons_prefix_cons, Ne.symm hab]

theorem DTree.symAt_graft (t : DTree) (p : List Bool) (v : Word) (q : List Bool) :
    ((t.graft p v).sub q).symAt = if q = p then some v else (t.sub q).symAt := by
  induction p generalizing t q with
  | nil =>
    match q with
    | [] => simp [DTree.graft, DTree.sub, DTree.symAt]
    | b :: q => cases b <;> simp [DTree.graft, DTree.sub, DTree.child]
  | cons a p ih =>
    cases q with
    | nil => simp [DTree.graft, DTree.sub]
    | cons b q =>
      by_cases hab : a = b
      · subst hab; simp [DTree.graft, DTree.sub, ih]
      · simp [DTree.graft, DTree.sub, hab, Ne.symm hab]

/-! ### Inserting one code (R261, R262) -/

/-- What stands in the way of the code p at depth k: a symbol there (cases 1 and 2), or, at its end, a child (case 3) (R262). -/
def DTree.clash (t : DTree) (p : List Bool) (k : Nat) : Prop :=
  (t.sub (p.take k)).symAt.isSome = true ∨ (k = p.length ∧ ∃ b, (t.sub (p ++ [b])).isAbsent = false)

theorem DTree.clash_cons_zero (t : DTree) (b : Bool) (p : List Bool) :
    t.clash (b :: p) 0 ↔ t.symAt.isSome = true := by simp [DTree.clash, DTree.sub]

theorem DTree.clash_cons_succ (t : DTree) (b : Bool) (p : List Bool) (k : Nat) :
    t.clash (b :: p) (k + 1) ↔ (t.child b).clash p k := by simp [DTree.clash, DTree.sub]

theorem DTree.clash_nil_zero (t : DTree) :
    t.clash [] 0 ↔ t.symAt.isSome = true ∨ ∃ b, (t.child b).isAbsent = false := by simp [DTree.clash, DTree.sub]

theorem DTree.not_clash_absent (p : List Bool) (k : Nat) : ¬ DTree.absent.clash p k := by
  simp [DTree.clash, DTree.sub_absent, DTree.symAt, DTree.isAbsent]

theorem DTree.clash_bare (p : List Bool) (k : Nat) : DTree.bare.clash p k ↔ DTree.absent.clash p k := by
  match p, k with
  | [], k => simp [DTree.clash, DTree.sub, DTree.symAt, DTree.child]
  | b :: p, 0 => simp [DTree.clash_cons_zero, DTree.symAt]
  | b :: p, k + 1 => cases b <;> simp only [DTree.clash_cons_succ] <;> rfl

/-- The node the loop of R261 goes on from: a new one where there was none. -/
def DTree.entered (t : DTree) : DTree := if t.isAbsent then .bare else t

@[simp] theorem DTree.isAbsent_entered (t : DTree) : t.entered.isAbsent = false := by cases t <;> rfl

@[simp] theorem DTree.graft_entered (t : DTree) (p : List Bool) (v : Word) : t.entered.graft p v = t.graft p v := by
  cases t with
  | absent => exact DTree.graft_bare p v
  | node sy l r => rfl

theorem DTree.clash_entered (t : DTree) (p : List Bool) (k : Nat) : t.entered.clash p k ↔ t.clash p k := by
  cases t with
  | absent => exact DTree.clash_bare p k
  | node sy l r => rfl

/-- |nodes| once the loop has gone into the child: one more where the child is new. -/
def DTree.countIn (t : DTree) (b : Bool) (count : Nat) : Nat := if (t.child b).isAbsent then count + 1 else count

theorem DTree.countIn_size (t : DTree) (b : Bool) (count : Nat) :
    t.countIn b count + (t.child b).size = count + (t.child b).entered.size := by
  unfold DTree.countIn
  cases t.child b with
  | absent => rfl
  | node sy l r => rfl

/-- One turn of the loop of R261, where no symbol stands in the way. -/
theorem insertCode_cons (x : Entry) {b : Bool} (p : List Bool) (d : Nat) {t : DTree} (count : Nat)
    (hs : t.symAt.isSome = false) (hroom : (t.child b).isAbsent = false ∨ count ≠ x.cap) :
    insertCode x (b :: p) d t count =
      (insertCode x p (d + 1) (t.child b).entered (t.countIn b count)).map fun r => (t.withChild b r.1, r.2) := by
  rw [insertCode]
  cases hb : t.child b with
  | absent =>
    have hcap : count ≠ x.cap := hroom.resolve_left (by simp [hb, DTree.isAbsent])
    simp only [hs, hcap, DTree.countIn, DTree.entered, hb, DTree.isAbsent, Bool.false_eq_true, if_true, if_false]
    cases insertCode x p (d + 1) .bare (count + 1) <;> rfl
  | node sy l r =>
    simp only [hs, DTree.countIn, DTree.entered, hb, DTree.isAbsent, Bool.false_eq_true, if_false]
    cases insertCode x p (d + 1) (.node sy l r) count <;> rfl

/-- What inserting the code p below t may answer: the tree with the code grafted on, where nothing clashes and the nodes suffice; else that they do not, or a clash at the depth the record names (R261, R262). -/
inductive Inserted (x : Entry) (p : List Bool) (d : Nat) (t : DTree) (count : Nat) :
    Except Raise (DTree × Nat) → Prop where
  | grafted (n : Nat) (hfree : ∀ k ≤ p.length, ¬ t.clash p k) (hn : n ≤ x.cap)
      (hsize : n + t.size = count + (t.graft p x.sym).size) : Inserted x p d t count (.ok (t.graft p x.sym, n))
  | full (hfull : x.cap + t.size < count + (t.graft p x.sym).size) : Inserted x p d t count (.error x.full)
  | clashes (k : Nat) (hk : k ≤ p.length) (hclash : t.clash p k) :
      Inserted x p d t count (.error (x.invalid (d + k)))

/-- The checks after the loop of R261: the code ends at t. -/
theorem insertCode_nil_inserted (x : Entry) {d : Nat} {t : DTree} {count : Nat} (ht : t.isAbsent = false)
    (hd : d = x.len) (hc : count ≤ x.cap) : Inserted x [] d t count (insertCode x [] d t count) := by
  subst hd
  rw [insertCode]
  by_cases hs : t.symAt.isSome = true
  · rw [if_pos hs]
    exact .clashes 0 le_rfl (t.clash_nil_zero.2 (.inl hs))
  rw [if_neg hs]
  by_cases hchild : ∃ b, (t.child b).isAbsent = false
  · rw [if_pos (by simpa [Bool.exists_bool] using hchild)]
    exact .clashes 0 le_rfl (t.clash_nil_zero.2 (.inr hchild))
  rw [if_neg (by simpa [Bool.exists_bool] using hchild)]
  have habs (b : Bool) : t.child b = .absent := DTree.isAbsent_iff.1 (by simpa using not_exists.1 hchild b)
  have hgraft : t.graft [] x.sym = .node (some x.sym) .absent .absent := by simp [DTree.graft, habs]
  have hsize : t.size = 1 := by
    cases t with
    | absent => cases ht
    | node sy l r =>
      obtain rfl : l = .absent := habs false
      obtain rfl : r = .absent := habs true
      rfl
  rw [← hgraft]
  refine .grafted count (fun k hk => ?_) hc (by rw [hsize, hgraft]; rfl)
  obtain rfl : k = 0 := Nat.le_zero.1 hk
  exact mt t.clash_nil_zero.1 (not_or.2 ⟨hs, hchild⟩)

/-- One turn of the loop brings the answer from below up to t. -/
theorem Inserted.of_entered {x : Entry} {b : Bool} {p : List Bool} {d : Nat} {t : DTree} {count : Nat}
    {r : Except Raise (DTree × Nat)} (ht : t.isAbsent = false) (hs : t.symAt.isSome = false)
    (h : Inserted x p (d + 1) (t.child b).entered (t.countIn b count) r) :
    Inserted x (b :: p) d t count (r.map fun r => (t.withChild b r.1, r.2)) := by
  have hcount := t.countIn_size b count
  have hgraft := DTree.size_graft_cons ht b p x.sym
  cases h with
  | grafted n hfree hn hsize =>
    rw [DTree.graft_entered] at hsize ⊢
    refine .grafted n (fun k hk => ?_) hn (by omega)
    cases k with
    | zero => simp [DTree.clash_cons_zero, hs]
    | succ k => rw [DTree.clash_cons_succ, ← DTree.clash_entered]; exact hfree k (by simpa using hk)
  | full hfull =>
    rw [DTree.graft_entered] at hfull
    exact .full (by omega)
  | clashes k hk hclash =>
    rw [Nat.add_assoc, Nat.add_comm 1]
    exact .clashes (k + 1) (by simpa using hk) (by rwa [DTree.clash_cons_succ, ← DTree.clash_entered])

theorem insertCode_inserted (x : Entry) (p : List Bool) : ∀ {d : Nat} {t : DTree} {count : Nat},
    t.isAbsent = false → d + p.length = x.len → count ≤ x.cap → Inserted x p d t count (insertCode x p d t count) := by
  induction p with
  | nil => exact fun ht hd hc => insertCode_nil_inserted x ht hd hc
  | cons b p ih =>
    intro d t count ht hd hc
    by_cases hs : t.symAt.isSome = true
    · rw [insertCode, if_pos hs]
      exact .clashes 0 (Nat.zero_le _) ((t.clash_cons_zero b p).2 hs)
    rw [Bool.not_eq_true] at hs
    by_cases hroom : (t.child b).isAbsent = false ∨ count ≠ x.cap
    case pos =>
      rw [insertCode_cons x p d count hs hroom]
      refine .of_entered ht hs (ih (by simp) (by rw [← hd, List.length_cons]; omega) ?_)
      unfold DTree.countIn
      split_ifs with habs
      · have : count ≠ x.cap := hroom.resolve_left (by simp [habs])
        omega
      · exact hc
    case neg =>
      obtain ⟨habs, rfl⟩ : (t.child b).isAbsent = true ∧ count = x.cap := by simpa using hroom
      have hgraft := DTree.size_graft_cons ht b p x.sym
      have hnew := DTree.size_pos ((t.child b).isAbsent_graft p x.sym)
      have hold : (t.child b).size = 0 := by rw [DTree.isAbsent_iff.1 habs]; rfl
      rw [show insertCode x (b :: p) d t x.cap = .error x.full by simp [insertCode, hs, habs]]
      exact .full (by omega)

/-! ### The tree of a table (R260) -/

theorem FMap.mem_nodePaths (ct : FMap BitSeq) (p : List Bool) : p ∈ ct.nodePaths ↔ ∃ e ∈ ct, p <+: e.2.toBits := by
  simp [FMap.nodePaths]

@[simp] theorem FMap.mem_nodePaths_concat (ct : FMap BitSeq) (v : Word) (c : BitSeq) (p : List Bool) :
    p ∈ FMap.nodePaths (ct ++ [(v, c)]) ↔ p ∈ ct.nodePaths ∨ p <+: c.toBits := by
  simp [FMap.nodePaths]

theorem FMap.length_nodePaths_le {ct ct' : FMap BitSeq} (h : ct ⊆ ct') :
    ct.nodePaths.length ≤ ct'.nodePaths.length := by
  refine (List.subperm_of_subset (List.nodup_dedup _) fun p hp => ?_).length_le
  obtain ⟨e, he, hpe⟩ := (ct.mem_nodePaths p).1 hp
  exact (ct'.mem_nodePaths p).2 ⟨e, h he, hpe⟩

theorem FMap.nil_mem_nodePaths {ct : FMap BitSeq} (hne : ct ≠ []) : [] ∈ ct.nodePaths := by
  obtain ⟨e, he⟩ := List.exists_mem_of_ne_nil ct hne
  exact (ct.mem_nodePaths []).2 ⟨e, he, List.nil_prefix⟩

/-- The nodes are the root and those the table needs: the paths its codes begin with (R260). -/
def DTree.spans (t : DTree) (ct : FMap BitSeq) : Prop :=
  ∀ p, (t.sub p).isAbsent = false ↔ p = [] ∨ p ∈ ct.nodePaths

/-- The symbols stand at their codes, and nowhere else (R60). -/
def DTree.labelled (t : DTree) (ct : FMap BitSeq) : Prop :=
  ∀ p v, (t.sub p).symAt = some v ↔ ∃ e ∈ ct, e.1 = v ∧ e.2.toBits = p

theorem DTree.spans_bare : DTree.bare.spans [] := by
  intro p
  match p with
  | [] => simp [DTree.sub, DTree.isAbsent]
  | b :: p => cases b <;> simp [DTree.sub, DTree.child, DTree.sub_absent, DTree.isAbsent, FMap.nodePaths]

theorem DTree.labelled_bare : DTree.bare.labelled [] := by
  intro p v
  match p with
  | [] => simp [DTree.sub, DTree.symAt]
  | b :: p => cases b <;> simp [DTree.sub, DTree.child, DTree.sub_absent, DTree.symAt]

section
variable {t : DTree} {ct : FMap BitSeq}

theorem DTree.spans.root (h : t.spans ct) : t.isAbsent = false := (h []).2 (.inl rfl)

theorem DTree.spans.size_eq (h : t.spans ct) (hne : ct ≠ []) : t.size = ct.nodePaths.length := by
  have hmem (p : List Bool) : p ∈ t.nodes ↔ p ∈ ct.nodePaths := by
    rw [DTree.mem_nodes, h p, or_iff_right_iff_imp]
    rintro rfl
    exact FMap.nil_mem_nodePaths hne
  rw [← DTree.length_nodes]
  exact ((List.perm_ext_iff_of_nodup t.nodup_nodes (List.nodup_dedup _)).2 hmem).length_eq

theorem DTree.spans.present (h : t.spans ct) {e : Word × BitSeq} (he : e ∈ ct) {p : List Bool} (hp : p <+: e.2.toBits) :
    (t.sub p).isAbsent = false := (h p).2 (.inr ((ct.mem_nodePaths p).2 ⟨e, he, hp⟩))

/-- The grafted tree has the nodes of the longer table, whether or not something clashed. -/
theorem DTree.spans.graft (h : t.spans ct) (v : Word) (c : BitSeq) : (t.graft c.toBits v).spans (ct ++ [(v, c)]) := by
  intro p
  rw [DTree.graft_present_iff, h p, FMap.mem_nodePaths_concat, or_assoc]

theorem DTree.labelled.symAt_code (h : t.labelled ct) {e : Word × BitSeq} (he : e ∈ ct) :
    (t.sub e.2.toBits).symAt = some e.1 := (h _ _).2 ⟨e, he, rfl, rfl⟩

theorem DTree.labelled.graft (h : t.labelled ct) {v : Word} {c : BitSeq} (hfree : (t.sub c.toBits).symAt = none) :
    (t.graft c.toBits v).labelled (ct ++ [(v, c)]) := by
  intro p w
  simp only [DTree.symAt_graft, List.mem_append, List.mem_singleton, or_and_right, exists_or, exists_eq_left, ← h p w]
  by_cases hp : p = c.toBits
  · simp [hp, hfree]
  · simp [hp, Ne.symm hp]

/-! ### Clashes and earlier codes (R262) -/

/-- A clash at depth k is with an earlier code: the first k bits are one, or the whole code begins one (R262). -/
theorem DTree.exists_earlier_of_clash (hs : t.spans ct) (hl : t.labelled ct) {c : BitSeq} {k : Nat}
    (h : t.clash c.toBits k) :
    ∃ x ∈ ct, x.2.toBits = c.toBits.take k ∨ (k = c.len ∧ c.toBits <+: x.2.toBits) := by
  rcases h with h | ⟨hk, b, hb⟩
  · obtain ⟨v, hv⟩ := Option.isSome_iff_exists.1 h
    obtain ⟨x, hx, -, he⟩ := (hl _ v).1 hv
    exact ⟨x, hx, .inl he⟩
  · obtain ⟨x, hx, hp⟩ := (ct.mem_nodePaths _).1 (((hs _).1 hb).resolve_left (by simp))
    exact ⟨x, hx, .inr ⟨by simpa using hk, (List.prefix_append _ _).trans hp⟩⟩

/-- An earlier code that begins the code, or that the code begins, clashes. -/
theorem DTree.exists_clash_of_earlier (hs : t.spans ct) (hl : t.labelled ct) {x : Word × BitSeq} (hx : x ∈ ct)
    {p : List Bool} (h : x.2.toBits <+: p ∨ p <+: x.2.toBits) : ∃ k ≤ p.length, t.clash p k := by
  have hsym := hl.symAt_code hx
  rcases h with h | ⟨q, hq⟩
  · refine ⟨_, h.length_le, .inl ?_⟩
    rw [← List.prefix_iff_eq_take.1 h, hsym]
    rfl
  · refine ⟨p.length, le_rfl, ?_⟩
    cases q with
    | nil => exact .inl (by rw [List.take_length, ← List.append_nil p, hq, hsym]; rfl)
    | cons b q => exact .inr ⟨rfl, b, hs.present hx ⟨q, by simpa using hq⟩⟩

theorem DTree.prefixFree_concat (hs : t.spans ct) (hl : t.labelled ct) (hpf : ct.prefixFree) {v : Word} {c : BitSeq}
    (hfree : ∀ k ≤ c.toBits.length, ¬ t.clash c.toBits k) : FMap.prefixFree (ct ++ [(v, c)]) := by
  refine List.pairwise_append.2 ⟨hpf, List.pairwise_singleton _ _, fun x hx y hy => ?_⟩
  rw [List.mem_singleton.1 hy, ← not_or]
  intro hcmp
  obtain ⟨k, hk, hclash⟩ := DTree.exists_clash_of_earlier hs hl hx hcmp
  exact hfree k hk hclash

/-- A table with an entry that clashes with an earlier one is not `prefixFree`. -/
theorem FMap.not_prefixFree_of_clash {e d : Nat} {v : Word} {c : BitSeq} (he : ct[e]? = some (v, c))
    {x : Word × BitSeq} (hx : x ∈ ct.take e)
    (h : x.2.toBits = c.toBits.take d ∨ (d = c.len ∧ c.toBits <+: x.2.toBits)) : ¬ ct.prefixFree := by
  intro hpf
  obtain ⟨hlt, hget⟩ := List.getElem?_eq_some_iff.1 he
  have hmem : (v, c) ∈ ct.drop e := by rw [List.drop_eq_getElem_cons hlt, hget]; exact List.mem_cons_self
  rw [← List.take_append_drop e ct, FMap.prefixFree, List.pairwise_append] at hpf
  obtain ⟨hxc, hcx⟩ := hpf.2.2 x hx _ hmem
  rcases h with h | ⟨-, h⟩
  · exact hxc (h ▸ List.take_prefix d c.toBits)
  · exact hcx h

end

/-! ### Inserting all codes (R261) -/

/-- What RECON_TREE refuses a table for: an entry at which the nodes do not suffice, or one whose code clashes with an earlier one (R261, R262). -/
def FMap.refusedFor (ct : FMap BitSeq) (cap : Nat) (r : Raise) : Prop :=
  ∃ e v c, ct[e]? = some (v, c) ∧
    ((cap < ct.nodePaths.length ∧ r = Entry.full ⟨cap, e, v, c.len⟩) ∨
     ∃ d, d ≤ c.len ∧ r = Entry.invalid ⟨cap, e, v, c.len⟩ d ∧
       ∃ x ∈ ct.take e, x.2.toBits = c.toBits.take d ∨ (d = c.len ∧ c.toBits <+: x.2.toBits))

/-- The loop of R261 from entry e = |done| on, the tree being that of the entries before. -/
theorem insertAll_cases (cap : Nat) (rest : FMap BitSeq) : ∀ (done : FMap BitSeq) (t : DTree) (maxd : Nat),
    t.spans done → t.labelled done → done.prefixFree → t.size ≤ cap →
    (∃ t', insertAll cap rest done.length t t.size maxd = .ok (t', t'.size, (rest.map fun e => e.2.len).foldl max maxd) ∧
      t'.spans (done ++ rest) ∧ t'.labelled (done ++ rest) ∧ FMap.prefixFree (done ++ rest) ∧ t'.size ≤ cap) ∨
    ∃ r, insertAll cap rest done.length t t.size maxd = .error r ∧ FMap.refusedFor (done ++ rest) cap r := by
  induction rest with
  | nil =>
    intro done t maxd hs hl hpf hcap
    exact .inl ⟨t, rfl, by simpa using hs, by simpa using hl, by simpa using hpf, hcap⟩
  | cons e rest ih =>
    intro done t maxd hs hl hpf hcap
    obtain ⟨v, c⟩ := e
    have hget : (done ++ (v, c) :: rest)[done.length]? = some (v, c) := by simp
    have hsize := (hs.graft v c).size_eq (by simp)
    rw [insertAll]
    have hins := insertCode_inserted ⟨cap, done.length, v, c.len⟩ c.toBits (d := 0) (count := t.size)
      hs.root (by simp) hcap
    generalize insertCode _ _ _ _ _ = r at hins
    cases hins with
    | grafted n hfree hn hcount =>
      obtain rfl : n = (t.graft c.toBits v).size := by dsimp only at hcount; omega
      have hsym : (t.sub c.toBits).symAt = none := by
        have hend := hfree c.toBits.length le_rfl
        rw [DTree.clash, List.take_length] at hend
        simpa using (not_or.1 hend).1
      simpa using ih (done ++ [(v, c)]) (t.graft c.toBits v) (max maxd c.len) (hs.graft v c) (hl.graft hsym)
        (DTree.prefixFree_concat hs hl hpf hfree) hn
    | full hfull =>
      have hle : (FMap.nodePaths (done ++ [(v, c)])).length ≤ (FMap.nodePaths (done ++ (v, c) :: rest)).length :=
        FMap.length_nodePaths_le (by simp)
      dsimp only at hfull
      exact .inr ⟨_, rfl, done.length, v, c, hget, .inl ⟨by omega, rfl⟩⟩
    | clashes k hk hclash =>
      obtain ⟨x, hx, hcmp⟩ := DTree.exists_earlier_of_clash hs hl hclash
      exact .inr ⟨_, rfl, done.length, v, c, hget, .inr ⟨k, by simpa using hk, by simp,
        x, by simpa using hx, hcmp⟩⟩

/-- RECON_TREE builds the tree of a `prefixFree` table that fits, or says what it refuses the table for (R260 to R262). -/
theorem reconTree_cases {cap : Nat} (hcap : 1 ≤ cap) (ct : FMap BitSeq) :
    (∃ t, reconTree cap ct = .ok (t, t.size, (ct.map fun e => e.2.len).foldl max 0) ∧ t.spans ct ∧ t.labelled ct ∧
      ct.prefixFree ∧ t.size ≤ cap) ∨
    ∃ r, reconTree cap ct = .error r ∧ ct.refusedFor cap r :=
  insertAll_cases cap ct [] .bare 0 DTree.spans_bare DTree.labelled_bare .nil hcap

/-- A refused table does not fit, or is not `prefixFree`. -/
theorem FMap.refusedFor.not_fits {ct : FMap BitSeq} {cap : Nat} {r : Raise} (h : ct.refusedFor cap r) :
    ¬ ct.prefixFree ∨ cap < ct.nodePaths.length := by
  obtain ⟨e, v, c, he, ⟨hfull, -⟩ | ⟨d, -, -, x, hx, hcmp⟩⟩ := h
  · exact .inr hfull
  · exact .inl (FMap.not_prefixFree_of_clash he hx hcmp)

/-! ### The tree built (R260) -/

section
variable {t : DTree} {ct : FMap BitSeq} (hs : t.spans ct) (hl : t.labelled ct)
include hs hl

/-- Each code of a `prefixFree` table is a leaf: a child of its node would be on the way to a longer code. -/
theorem DTree.holds_of_prefixFree (hpf : ct.prefixFree) {e : Word × BitSeq} (he : e ∈ ct) : t.holds e.1 e.2 := by
  have hchild (b : Bool) : (t.sub e.2.toBits).child b = .absent := by
    change ((t.sub e.2.toBits).sub [b]) = .absent
    rw [← DTree.sub_append, ← DTree.isAbsent_iff]
    by_contra hb
    obtain ⟨x, hx, hp⟩ := (ct.mem_nodePaths _).1 (((hs _).1 (by simpa using hb)).resolve_left (by simp))
    have hne : e ≠ x := by
      rintro rfl
      simpa using hp.length_le
    have : Std.Symm fun a b : Word × BitSeq => ¬ a.2.toBits <+: b.2.toBits ∧ ¬ b.2.toBits <+: a.2.toBits :=
      ⟨fun _ _ h => h.symm⟩
    exact (hpf.forall he hx hne).1 ((List.prefix_append _ _).trans hp)
  have hsym := hl.symAt_code he
  change t.sub e.2.toBits = _
  cases hsub : t.sub e.2.toBits with
  | absent => rw [hsub] at hsym; cases hsym
  | node sy l r =>
    rw [hsub] at hchild hsym
    obtain rfl : l = .absent := hchild false
    obtain rfl : r = .absent := hchild true
    obtain rfl : sy = some e.1 := hsym
    rfl

/-- A leaf is at the end of a code: else the next bit's node is its child. -/
theorem DTree.leafSym_of_labelled (hne : ct ≠ []) : t.leafSym = true := by
  refine DTree.leafSym_of_sub fun p hleaf => ?_
  simp only [DTree.isLeaf, Bool.and_eq_true, Bool.not_eq_true'] at hleaf
  obtain ⟨⟨hp, hleft⟩, hright⟩ := hleaf
  obtain ⟨e, he, q, hq⟩ : ∃ e ∈ ct, p <+: e.2.toBits := by
    refine (ct.mem_nodePaths p).1 (((hs p).1 hp).elim (fun h => ?_) id)
    exact h ▸ FMap.nil_mem_nodePaths hne
  cases q with
  | nil =>
    obtain rfl : p = e.2.toBits := by simpa using hq
    rw [hl.symAt_code he]
    exact Option.some_ne_none _
  | cons b q =>
    have hchild := hs.present he (p := p ++ [b]) ⟨q, by simpa using hq⟩
    rw [DTree.sub_append] at hchild
    cases b
    · exact absurd hleft (by simpa [DTree.sub] using hchild)
    · exact absurd hright (by simpa [DTree.sub] using hchild)

end

/-! ### The command (R261) -/

/-- RECON_TREE past its checks (R329). -/
theorem exec_reconTree_ok {s : State} (hw : s.width ≠ 0) (hct : s.ct ≠ []) {t : DTree} {count maxd : Nat}
    (h : reconTree s.params.nodeCap s.ct = .ok (t, count, maxd)) :
    exec .reconTree s = .next
      (((s.setDtree (some t)).setDecoder .init).setRes (BitVec.ofNat 64 count) (BitVec.ofNat 64 maxd)).complete := by
  change execReconTree s = _
  rw [execReconTree, s.needWidth_ok 0x50 hw, s.needCt_ok 0x50 (s.ctValid_of_ne hct), h]
  rfl

/-- RECON_TREE raises with DTREE none and the decoder reset (R261). -/
theorem exec_reconTree_error {s : State} (hw : s.width ≠ 0) (hct : s.ct ≠ []) {r : Raise}
    (h : reconTree s.params.nodeCap s.ct = .error r) :
    exec .reconTree s = .next (((s.setDtree none).setDecoder .init).raise r) := by
  change execReconTree s = _
  rw [execReconTree, s.needWidth_ok 0x50 hw, s.needCt_ok 0x50 (s.ctValid_of_ne hct), h]
  rfl

theorem State.sameBut_resetDecoderAndTree (s : State) (o : Option DTree) :
    s.sameBut ((s.setDtree o).setDecoder .init) ([.dtree] ++ decoderParts) :=
  State.sameBut_append (s.sameBut_setDtree o) (State.sameBut_setDecoder _ _)

/-- Settles O36: a `prefixFree` table that fits is not refused (`FMap.refusedFor.not_fits`), so its tree is built (`reconTree_cases`), and each code is a leaf of it (`DTree.holds_of_prefixFree`). -/
theorem reconTreeHoldsEveryCode : Obligations.ReconTreeHoldsEveryCode := by
  intro s hw hct hcodes hpf hfits
  have hpos : 1 ≤ s.params.nodeCap := (List.length_pos_of_mem (FMap.nil_mem_nodePaths hct)).trans_le hfits
  rcases reconTree_cases hpos s.ct with ⟨dt, hok, hs, hl, -, -⟩ | ⟨r, -, hr⟩
  · obtain ⟨-, hsym, -⟩ := reconTree_shaped hok hcodes
    have hsize := hs.size_eq hct
    refine ⟨_, dt, exec_reconTree_ok hw hct hok, ⟨rfl, rfl, rfl, rfl, rfl⟩, rfl,
      fun e he => DTree.holds_of_prefixFree hs hl hpf he, hsym, DTree.leafSym_of_labelled hs hl hct, hsize,
      by rw [← hsize]; rfl, rfl, rfl, ?_⟩
    exact State.sameBut_complete_of (State.sameBut_mono
      (State.sameBut_append (s.sameBut_resetDecoderAndTree (some dt)) (State.sameBut_setRes _ _ _)) (by decide))
  · exact absurd hr.not_fits (by simp [hpf, hfits])

/-- Settles O37: the tree built is that of a `prefixFree` table that fits, so any other one is refused (`reconTree_cases`); a clash with an earlier code is why a table is not `prefixFree` (`FMap.not_prefixFree_of_clash`). -/
theorem reconTreeRefusesEveryOtherTable : Obligations.ReconTreeRefusesEveryOtherTable := by
  intro s hw _ hcap hbad
  have hct : s.ct ≠ [] := by
    intro h
    rw [h] at hbad
    simp [FMap.nodePaths] at hbad
  rcases reconTree_cases hcap s.ct with ⟨dt, -, hs, -, hpf, hfits⟩ | ⟨r, herr, e, v, c, he, hwhy⟩
  · rw [hs.size_eq hct] at hfits
    exact absurd hbad (by simp [hpf, hfits])
  · refine ⟨_, e, v, c, exec_reconTree_error hw hct herr, rfl, rfl, rfl, he, ?_, rfl, rfl,
      State.sameBut_mono
        (State.sameBut_append (s.sameBut_resetDecoderAndTree none) (State.sameBut_raise _ r)) (by decide)⟩
    rcases hwhy with ⟨hfull, rfl⟩ | ⟨d, hd, rfl, x, hx, hcmp⟩
    · exact .inl ⟨hfull, rfl⟩
    · exact .inr ⟨FMap.not_prefixFree_of_clash he hx hcmp, d, hd, rfl, x, hx, hcmp⟩

end Sys2Proof.Machine
end

section
/-! The packer's bit stream (R280): EmitBit from any state of PB a run reaches (log 10), and PACK_SYM and PACK_BS, which emit one code. -/

namespace Sys2Proof.Machine

/-! ### A bit that an aborted EmitBit left in PB (log 10) -/

/-- The packer without the bit that an aborted EmitBit left at position 7 of PB. -/
def Packer.withoutTop (p : Packer) : Packer := { p with pb := (p.pb.setWidth 7).setWidth 8 }

theorem Packer.withoutTop_getLsbD (p : Packer) {i : Nat} (hi : i < 8) :
    p.withoutTop.pb.getLsbD i = (decide (i < 7) && p.pb.getLsbD i) := by
  simp [Packer.withoutTop, hi]

section
variable {p : Packer} (h7 : p.pbn = 7)
include h7

theorem Packer.clean_withoutTop : p.withoutTop.clean := by
  refine (Packer.clean_iff _).2 fun i hi => ?_
  have hi : 7 ≤ i := by simpa [Packer.withoutTop, h7] using hi
  simp [Packer.withoutTop, Nat.not_lt.2 hi]

theorem Packer.pending_withoutTop : p.withoutTop.pending = p.pending := by
  refine List.map_congr_left fun i hi => ?_
  have hi : i < 7 := by simpa [Packer.withoutTop, h7] using hi
  simp [p.withoutTop_getLsbD (Nat.lt_succ_of_lt hi), hi]

/-- With all bits but the last in PB, only the last one can be left there. -/
theorem Packer.top_of_not_clean (h : ¬ p.clean) : p.pb.getLsbD 7 = true := by
  by_contra htop
  refine h ((Packer.clean_iff p).2 fun i hi => ?_)
  have hi : 7 ≤ i := by simpa [h7] using hi
  rcases hi.eq_or_lt with rfl | hi
  · simpa using htop
  · exact BitVec.getLsbD_of_ge _ _ hi

/-- EmitBit where a bit is left: that bit stands in place of the new one (R280's PB | (b << PBN)). -/
theorem Packer.push_of_top (htop : p.pb.getLsbD 7 = true) (b : Bool) : p.push b = p.withoutTop.push true := by
  have hfill : p.filled b = p.withoutTop.filled true := by
    refine BitVec.eq_of_getLsbD_eq fun i hi => ?_
    have h7' : p.withoutTop.pbn = 7 := h7
    rw [Packer.filled_getLsbD _ _ _ hi, Packer.filled_getLsbD _ _ _ hi, p.withoutTop_getLsbD hi, h7, h7']
    rcases (Nat.le_of_lt_succ hi).eq_or_lt with rfl | hi
    · simp [htop]
    · simp [hi, hi.ne]
  have h7' : p.withoutTop.pbn = 7 := h7
  rw [Packer.push, Packer.push, if_pos h7, if_pos h7', hfill]
  rfl

end

/-! ### EmitBits from any state of PB -/

theorem Packer.merged_of_clean {p : Packer} (h : p.clean) (bits : List Bool) : p.merged bits = bits := by
  refine if_neg fun ⟨h7, htop⟩ => ?_
  have hlow := (Packer.clean_iff p).1 h 7 (by simp [h7])
  rw [htop] at hlow
  cases hlow

/-- EmitBits append their bits to the stream, as merged with a bit left in PB (R280, log 10). -/
theorem Packer.pushAll_merged {p : Packer} (h : p.pbn ≠ 7 → p.clean) (bits : List Bool) :
    (p.pushAll bits).2.flatMap byteBits ++ (p.pushAll bits).1.pending = p.pending ++ p.merged bits ∧
      (p.clean ∨ bits ≠ [] → (p.pushAll bits).1.clean) := by
  by_cases hc : p.clean
  case pos =>
    obtain ⟨hstream, hclean, -⟩ := Packer.pushAll_stream bits p hc
    rw [Packer.merged_of_clean hc]
    exact ⟨hstream, fun _ => hclean⟩
  case neg =>
    have h7 : p.pbn = 7 := by_contra fun h7 => hc (h h7)
    have htop := Packer.top_of_not_clean h7 hc
    cases bits with
    | nil => simp [Packer.pushAll, Packer.merged, hc]
    | cons b bits =>
      have hpush : p.pushAll (b :: bits) = p.withoutTop.pushAll (true :: bits) := by
        rw [Packer.pushAll, Packer.pushAll, Packer.push_of_top h7 htop]
      obtain ⟨hstream, hclean, -⟩ := Packer.pushAll_stream (true :: bits) _ (Packer.clean_withoutTop h7)
      have hmerged : p.merged (b :: bits) = true :: bits := if_pos ⟨h7, htop⟩
      rw [hpush, hstream, hmerged, Packer.pending_withoutTop h7]
      exact ⟨rfl, fun _ => hclean⟩

@[simp] theorem Packer.push_bits (p : Packer) (b : Bool) : (p.push b).1.bits = p.bits + 1 := by
  unfold Packer.push; split <;> rfl

@[simp] theorem Packer.push_syms (p : Packer) (b : Bool) : (p.push b).1.syms = p.syms := by
  unfold Packer.push; split <;> rfl

theorem Packer.pushAll_bits (bits : List Bool) : ∀ p : Packer,
    (p.pushAll bits).1.bits = p.bits + BitVec.ofNat 64 bits.length := by
  induction bits with
  | nil => intro p; exact (BitVec.add_zero p.bits).symm
  | cons b bits ih => intro p; rw [Packer.pushAll, ih, Packer.push_bits, List.length_cons, word_add_ofNat_succ]

@[simp] theorem Packer.pushAll_syms (bits : List Bool) : ∀ p : Packer, (p.pushAll bits).1.syms = p.syms := by
  induction bits with
  | nil => exact fun _ => rfl
  | cons b bits ih => intro p; rw [Packer.pushAll, ih, Packer.push_syms]

/-! ### A command that emits one code (R282, R283) -/

/-- The state once these bits have been emitted, by a command that has written nothing else (R280, R331). -/
def State.emitted (s : State) (bits : List Bool) : State :=
  (s.fresh.setPacker (s.packer.pushAll bits).1).wroteAll (s.packer.pushAll bits).2

theorem State.sameBut_emitted (s : State) (bits : List Bool) : s.sameBut (s.emitted bits) [.pb, .pkBits, .outq] :=
  State.sameBut_append
    (State.sameBut_append s.sameBut_fresh (s.fresh.sameBut_setPacker_of_syms _ (Packer.pushAll_syms _ _)))
    (State.sameBut_wroteAll _ _)

theorem State.start_emitAll {s : State} {c : BitSeq} (f : Finish) (hs : s.quiet)
    (hb : s.packer.bits.toNat + c.len < 2 ^ 64) (hr : s.room ((s.packer.pbn.toNat + c.len) / 8)) :
    s.start (emitAll c ++ [.finish f]) =
      .next (((s.emitted c.toBits).goOn [.finish f]).writeResults f).complete := by
  refine State.start_completes s _ _ _ hs.2 (bounded_append (bounded_emits c) (by simp [Micro.bounded]))
    (moves_emits c.toBits s.fresh _ hs.1 (by simpa using hb) ?_) hs.1
  rw [Packer.pushAll_length, BitSeq.toBits_length]
  exact hr

/-- Settles O38: the command emits the register's bits (`State.start_emitAll`), which the packer appends as merged (`Packer.pushAll_merged`). -/
theorem packBsAppendsTheBits : Obligations.PackBsAppendsTheBits := by
  intro s rs hs hpb hb hr
  obtain ⟨hstream, hclean⟩ := Packer.pushAll_merged hpb (s.bsAt rs).toBits
  have hf : s.sameBut ((s.emitted (s.bsAt rs).toBits).goOn [.finish .packBs]) [.pb, .pkBits, .outq] :=
    State.sameBut_goOn_of (s.sameBut_emitted _) _
  refine ⟨_, (s.packer.pushAll (s.bsAt rs).toBits).2, State.start_emitAll .packBs hs hb hr,
    State.completes_finished s _ .packBs rfl rfl rfl, rfl, hstream, hclean, ?_, rfl,
    State.sameBut_complete_of (State.sameBut_append hf (State.sameBut_setRes0 _ _))⟩
  have hbits := Packer.pushAll_bits (s.bsAt rs).toBits s.packer
  rwa [BitSeq.toBits_length] at hbits

/-- PACK_SYM past its checks (R282, R329). -/
theorem execPackSym_checked {s : State} (hs : s.symbolOk) (hct : s.ct ≠ []) :
    execPackSym s = s.packCode (s.ct.get s.latch.a0) := by
  rw [execPackSym, s.needWidth_ok 0x61 hs.1, s.needCt_ok 0x61 (s.ctValid_of_ne hct), s.needSymbol_ok hs.2]
  rfl

theorem FMap.ne_nil_of_get {α : Type} {m : FMap α} {k : Word} {v : α} (h : m.get k = some v) : m ≠ [] :=
  List.ne_nil_of_mem (m.mem_of_get k v h)

/-- Settles O39: past its checks PACK_SYM counts the symbol and emits its code (`State.start_emitAll`), which the packer appends as merged (`Packer.pushAll_merged`). -/
theorem packSymAppendsTheCode : Obligations.PackSymAppendsTheCode := by
  intro s c hs hsym hc hpb hsyms hb hr
  let p := s.packer.withSyms (s.packer.syms + 1)
  have hexec : exec .packSym s = (s.setPacker p).start (emitAll c ++ [.finish (.packSym (BitVec.ofNat 64 c.len))]) := by
    change execPackSym s = _
    rw [execPackSym_checked hsym (FMap.ne_nil_of_get hc), hc, State.packCode]
    simp only [incCount_ok _ _ hsyms]
    rfl
  obtain ⟨hstream, hclean⟩ := Packer.pushAll_merged (p := p) hpb c.toBits
  have hf : s.sameBut ((s.setPacker p).emitted c.toBits) ([.outq] ++ packerParts) :=
    State.sameBut_mono (State.sameBut_append (s.sameBut_setPacker p) (State.sameBut_emitted _ _)) (by decide)
  refine ⟨_, (p.pushAll c.toBits).2, hexec.trans (State.start_emitAll _ hs hb hr),
    State.completes_finished s _ _ rfl rfl rfl, rfl, hstream, hclean, ?_, Packer.pushAll_syms c.toBits p, rfl, rfl,
    State.sameBut_mono (State.sameBut_finished s _ _ _ hf) (by decide)⟩
  have hbits := Packer.pushAll_bits c.toBits p
  rwa [BitSeq.toBits_length] at hbits

end Sys2Proof.Machine
end

section
/-! PACK_FLUSH and PACK (R284 to R286): the codes of a stream as bytes and bits held back, and the flush that pads the last byte. -/

namespace Sys2Proof.Machine

/-! ### The partial byte (R284) -/

/-- Settles O40: with PBN = 0 the command only ends, else it is one OutWrite of PB (`moves_outPB`) and its end. -/
theorem packFlushWritesThePartialByte : Obligations.PackFlushWritesThePartialByte := by
  intro s hs hr
  by_cases h0 : s.packer.pbn = 0
  case pos =>
    have hexec : exec .packFlush s = s.start [.finish (.packFlush 0)] := if_pos h0
    have hmoves : Moves (s.fresh.goOn [.finish (.packFlush 0)]) (s.fresh.goOn [.finish (.packFlush 0)]) := .refl _
    simp only [if_pos h0]
    exact ⟨_, hexec.trans (State.start_completes s _ _ _ hs.2 (by simp [Micro.bounded]) hmoves hs.1),
      State.completes_finished s _ _ rfl rfl rfl, rfl, rfl, rfl, rfl,
      State.sameBut_mono (State.sameBut_finished s _ _ _ s.sameBut_fresh) (by decide)⟩
  case neg =>
    have hexec : exec .packFlush s = s.start [.outPB, .finish (.packFlush 1)] := if_neg h0
    have hmoves := moves_outPB s.fresh [.finish (.packFlush 1)] hs.1 (hr h0)
    have hf := State.sameBut_append (State.sameBut_append s.sameBut_fresh s.fresh.sameBut_clearPB)
      (State.sameBut_wroteAll _ [s.packer.pb])
    simp only [if_neg h0]
    exact ⟨_, hexec.trans (State.start_completes s _ _ _ hs.2 (by simp [Micro.bounded]) hmoves hs.1),
      State.completes_finished s _ _ rfl rfl rfl, rfl, rfl, rfl, rfl,
      State.sameBut_mono (State.sameBut_finished s _ _ _ hf) (by decide)⟩

/-- The byte the packer holds back, if it holds back any bit. -/
def Packer.partialByte (p : Packer) : List Byte := if p.pbn = 0 then [] else [p.pb]

/-- A packer without a bit at PBN or above has written its partial byte, if any (R284). -/
def State.flushed (s : State) : State := s.clearPB.wroteAll s.packer.partialByte

@[simp] theorem State.flushed_iof (s : State) : s.flushed.iof = s.iof := rfl
@[simp] theorem State.flushed_inq (s : State) : s.flushed.inq = s.inq := rfl
@[simp] theorem State.flushed_packer (s : State) : s.flushed.packer = { s.packer with pb := 0, pbn := 0 } := rfl
@[simp] theorem State.flushed_outq (s : State) : s.flushed.outq = s.outq ++ s.packer.partialByte := rfl

theorem State.sameBut_flushed (s : State) : s.sameBut s.flushed [.pb, .outq] :=
  State.sameBut_append s.sameBut_clearPB (State.sameBut_wroteAll _ _)

theorem State.clearPB_of_clean {s : State} (hc : s.packer.clean) (h0 : s.packer.pbn = 0) : s.clearPB = s := by
  have hpb : s.packer.pb = 0 := by simpa [Packer.clean, h0] using hc
  rw [State.clearPB, ← hpb, ← h0]
  rfl

/-- The flush at the end of PACK (R285). -/
theorem moves_pad {s : State} (rest : List Micro) (hi : s.iof = false) (hc : s.packer.clean)
    (hr : s.room s.packer.partialByte.length) : Moves (s.goOn (.pad :: rest)) (s.flushed.goOn rest) := by
  by_cases h0 : s.packer.pbn = 0
  · refine Moves.one rfl ?_
    rw [State.flushed, State.clearPB_of_clean hc h0, Packer.partialByte, if_pos h0, State.wroteAll_nil]
    exact if_pos h0
  · rw [Packer.partialByte, if_neg h0] at hr
    have hpad : (s.goOn (.pad :: rest)).microStep = s.goOn (.outPB :: rest) := if_neg h0
    refine .step _ _ rfl ?_
    rw [hpad, State.flushed, Packer.partialByte, if_neg h0]
    exact moves_outPB s rest hi hr

/-- The bytes written and the partial byte are the payload (R244). -/
theorem Packer.payloadBytes_of_holds {p : Packer} {out : List Byte} {bits : List Bool} (h : p.holds out bits) :
    payloadBytes bits = out ++ p.partialByte := by
  obtain ⟨rfl, hclean⟩ := h
  have hnil : p.pending = [] ↔ p.pbn = 0 := by
    rw [← List.length_eq_zero_iff, p.pending_length, ← BitVec.toNat_inj]
    rfl
  rw [payloadBytes_bytes _ _ (p.pending_length ▸ p.pbn.isLt), p.pb_of_clean hclean, Packer.partialByte]
  simp only [hnil]

/-! ### The packer after the codes of some symbols (R285) -/

theorem Packer.clean_init : Packer.init.clean := by decide

/-- The packer after PACK_INIT and one symbol for each of these codes, and the bytes it has written. -/
def packCodes (codes : List BitSeq) : Packer × List Byte :=
  ((Packer.init.pushAll (codeBits codes)).1.withSyms (BitVec.ofNat 64 codes.length),
    (Packer.init.pushAll (codeBits codes)).2)

theorem packCodes_holds (codes : List BitSeq) : (packCodes codes).1.holds (packCodes codes).2 (codeBits codes) := by
  obtain ⟨hstream, hclean, -⟩ := Packer.pushAll_stream (codeBits codes) .init Packer.clean_init
  exact ⟨hstream, hclean⟩

theorem packCodes_bits (codes : List BitSeq) : (packCodes codes).1.bits = BitVec.ofNat 64 (codeBits codes).length :=
  (Packer.pushAll_bits _ _).trans (zero_add _)

theorem packCodes_length (codes : List BitSeq) : (packCodes codes).2.length = (codeBits codes).length / 8 :=
  (Packer.pushAll_length _ _).trans (by simp)

/-- PACK at work on s: these codes packed, q in IN. -/
def State.packing (s : State) (codes : List BitSeq) (q : List Token) (k : Nat) : State :=
  ((s.setPacker (packCodes codes).1).fresh.wroteAll (packCodes codes).2).atInq q k

@[simp] theorem State.packing_iof (s : State) (codes : List BitSeq) (q : List Token) (k : Nat) :
    (s.packing codes q k).iof = s.iof := rfl
@[simp] theorem State.packing_inq (s : State) (codes : List BitSeq) (q : List Token) (k : Nat) :
    (s.packing codes q k).inq = q := rfl
@[simp] theorem State.packing_packer (s : State) (codes : List BitSeq) (q : List Token) (k : Nat) :
    (s.packing codes q k).packer = (packCodes codes).1 := rfl
@[simp] theorem State.packing_outq (s : State) (codes : List BitSeq) (q : List Token) (k : Nat) :
    (s.packing codes q k).outq = s.outq ++ (packCodes codes).2 := rfl

theorem State.sameBut_packing (s : State) (codes : List BitSeq) (q : List Token) (k : Nat) :
    s.sameBut (s.packing codes q k) ([.inq, .outq] ++ packerParts) := by
  have hp := State.sameBut_append (s.sameBut_setPacker (packCodes codes).1) (State.sameBut_fresh _)
  exact State.sameBut_mono (State.sameBut_append (State.sameBut_append hp (State.sameBut_wroteAll _ _))
    (State.sameBut_atInq _ q k)) (by decide)

/-! ### The command over a whole stream (R285, R286) -/

theorem execPack_starts {s : State} (hw : s.width ≠ 0) (hct : s.ct ≠ []) :
    execPack s = (s.setPacker .init).start [.packIn 0 0 []] := by
  rw [execPack, s.needWidth_ok 0x64 hw, s.needCt_ok 0x64 (s.ctValid_of_ne hct)]
  rfl

/-- There are no more symbols than bytes, so a stream that can be counted has symbols that can. -/
theorem length_codes_lt {n : Nat} {bytes : List Byte} {ct : FMap BitSeq} {codes : List BitSeq} (hn : 0 < n)
    (hl : bytes.length < 2 ^ 64) (hcodes : (chunkWords n bytes).map ct.get = codes.map some) :
    codes.length < 2 ^ 64 := by
  have hlen := congrArg List.length hcodes
  rw [List.length_map, List.length_map] at hlen
  exact hlen ▸ (chunkWords_length_le n hn bytes).trans_lt hl

/-- Over a stream whose symbols all have codes PACK packs them, flushes and comes to its end (R285). -/
theorem execPack_eos {s : State} {bytes : List Byte} {codes : List BitSeq} {rest : List Token} (hs : s.quiet)
    (hw : s.width ≠ 0) (hct : s.ct ≠ []) (hq : s.inq = byteTokens bytes ++ .eos :: rest) (hl : bytes.length < 2 ^ 64)
    (hcodes : (chunkWords s.symWidth bytes).map s.ct.get = codes.map some)
    (hb : (codeBits codes).length < 2 ^ 64) (hr : s.room (payloadBytes (codeBits codes)).length) :
    ∃ u, execPack s = .next ((u.goOn [.finish .pack]).writeResults .pack).complete ∧ u.inq = rest ∧
      u.outq = s.outq ++ payloadBytes (codeBits codes) ∧ u.packer = { (packCodes codes).1 with pb := 0, pbn := 0 } ∧
      s.sameBut u ([.inq, .outq] ++ packerParts) := by
  have hn := s.symWidth_pos hw
  have hholds := packCodes_holds codes
  rw [Packer.payloadBytes_of_holds hholds, State.room, List.length_append] at hr
  have hrun : (chunkRun s.symWidth [] bytes).map s.ct.get = codes.map some := by rwa [chunkRun_eq _ hn bytes [] hn]
  have hbits : ((s.setPacker .init).fresh.packer.bits).toNat + (codes.flatMap BitSeq.toBits).length < 2 ^ 64 :=
    (Nat.zero_add _).trans_lt hb
  obtain ⟨k, hk⟩ := moves_pack bytes (s.setPacker .init).fresh 0 0 [] codes rest hs.1 hn hq hrun (by simpa using hl)
    (by simpa using length_codes_lt hn hl hcodes) hbits Packer.clean_init
    (le_trans (Nat.add_le_add_left (Nat.le_add_right _ _) _) hr)
  rw [show (s.setPacker .init).fresh.packer.syms = 0 from rfl, zero_add] at hk
  have hpad := moves_pad (s := s.packing codes rest k) [.finish .pack] hs.1 hholds.2
    (by rw [State.room, State.packing_outq, List.length_append, Nat.add_assoc]; exact hr)
  refine ⟨(s.packing codes rest k).flushed, (execPack_starts hw hct).trans
    (State.start_completes _ _ _ .pack hs.2 (by simp [Micro.bounded]) (hk.trans hpad) (by simpa using hs.1)),
    by simp, ?_, by simp, ?_⟩
  · simp [Packer.payloadBytes_of_holds hholds]
  · exact State.sameBut_then (s.sameBut_packing codes rest k) (State.sameBut_flushed _) (by decide)

/-- Settles O41: the loop packs the stream's codes and the flush pads them (`execPack_eos`); the bytes written then and before are the payload (`Packer.payloadBytes_of_holds`). -/
theorem packWritesThePayload : Obligations.PackWritesThePayload := by
  intro s bytes codes rest hs hw hct hq hl hcodes hb hr
  obtain ⟨u, hexec, hin, hout, hpacker, hf⟩ := execPack_eos hs hw hct hq hl hcodes hb hr
  have herr : Part.error.same s u := hf .error (by decide)
  have hbits : u.packer.bits = BitVec.ofNat 64 (codeBits codes).length := by rw [hpacker]; exact packCodes_bits codes
  have hsyms : u.packer.syms = BitVec.ofNat 64 codes.length := by rw [hpacker]; rfl
  have hpb : u.packer.pb = 0 := by rw [hpacker]
  have hpbn : u.packer.pbn = 0 := by rw [hpacker]
  exact ⟨_, hexec, State.completes_finished s u .pack herr.1 herr.2 (hf .ovr (by decide)), hin, hout, hpb, hpbn, hbits,
    hsyms, rfl, rfl, State.sameBut_mono (State.sameBut_finished s u _ _ hf) (by decide)⟩

end Sys2Proof.Machine
end

section
/-! PACK over a stream it cannot pack to its end (R285, R330): from which position, over which tokens, the core gets to which end. The rules are stated backwards, from what the tokens read lead to, so that a stream is read by chaining them. -/

namespace Sys2Proof.Machine

/-! ### Positions -/

@[simp] theorem State.packing_symWidth (s : State) (codes : List BitSeq) (q : List Token) (k : Nat) :
    (s.packing codes q k).symWidth = s.symWidth := rfl

theorem State.packing_nil (s : State) : s.packing [] s.inq s.iofSkip = (s.setPacker .init).fresh := by
  rw [State.packing, show (packCodes []).2 = [] from rfl, State.wroteAll_nil]
  rfl

/-- One symbol more is its code's bits more, and one in PK_SYMS (R285). -/
theorem packCodes_concat (codes : List BitSeq) (c : BitSeq) :
    packCodes (codes ++ [c]) =
      (((packCodes codes).1.pushAll c.toBits).1.withSyms ((packCodes codes).1.syms + 1),
        (packCodes codes).2 ++ ((packCodes codes).1.pushAll c.toBits).2) := by
  have hbits : codeBits (codes ++ [c]) = codeBits codes ++ c.toBits := by simp [codeBits]
  simp [packCodes, hbits, Packer.pushAll_append, Packer.pushAll_withSyms, BitVec.ofNat_add]

theorem State.packing_concat (s : State) (codes : List BitSeq) (c : BitSeq) (q : List Token) (k : Nat) :
    s.packing (codes ++ [c]) q k = ((s.packing codes q k).setPacker (packCodes (codes ++ [c])).1).wroteAll
      ((packCodes codes).1.pushAll c.toBits).2 := by
  rw [State.packing, packCodes_concat, ← State.wroteAll_wroteAll]
  rfl

/-- From the position at which the symbols with these codes are packed and `chunk`, from offset `start` on, is read, with q in IN, the core gets to u. -/
def State.packs (s : State) (codes : List BitSeq) (start : Nat) (chunk : List Byte) (q : List Token) (u : State) : Prop :=
  ∀ k st, (chunk ≠ [] → st = BitVec.ofNat 64 start) →
    Moves ((s.packing codes q k).goOn [.packIn (BitVec.ofNat 64 (start + chunk.length)) st chunk]) u

theorem chunkStart_eq {start : Nat} {chunk : List Byte} {st : Word} (h : chunk ≠ [] → st = BitVec.ofNat 64 start) :
    chunkStart chunk (BitVec.ofNat 64 (start + chunk.length)) st = BitVec.ofNat 64 start := by
  cases chunk with
  | nil => rfl
  | cons b chunk => exact h (List.cons_ne_nil _ _)

/-- The symbols with these codes can be counted, their bits too, and OUT has room for the whole bytes of their bits. -/
def State.canPack (s : State) (codes : List BitSeq) : Prop :=
  codes.length < 2 ^ 64 ∧ (codeBits codes).length < 2 ^ 64 ∧ s.room ((codeBits codes).length / 8)

theorem State.canPack_of_append {s : State} {ds cs : List BitSeq} (h : s.canPack (ds ++ cs)) : s.canPack ds := by
  obtain ⟨hcount, hbits, hroom⟩ := h
  simp only [codeBits, List.flatMap_append, List.length_append] at hcount hbits hroom
  exact ⟨by omega, by unfold codeBits; omega, by unfold codeBits; omega⟩

/-! ### One token -/

theorem packToken_holds (u : State) {nb : Word} (start : Word) {chunk : List Byte} {b : Byte} (hnb : nb ≠ maxWord)
    (hl : (chunk ++ [b]).length ≠ u.symWidth) :
    u.packToken nb start chunk (.byte b) = u.goOn [.packIn (nb + 1) (chunkStart chunk nb start) (chunk ++ [b])] := by
  simp only [State.packToken, incCount_ok _ _ hnb, if_neg hl]

theorem packToken_completes (u : State) {nb : Word} (start : Word) {chunk : List Byte} {b : Byte} (hnb : nb ≠ maxWord)
    (hl : (chunk ++ [b]).length = u.symWidth) :
    u.packToken nb start chunk (.byte b) =
      u.packSymbol (chunkStart chunk nb start) (beWord (chunk ++ [b]))
        [.packIn (nb + 1) (chunkStart chunk nb start) []] := by
  simp only [State.packToken, incCount_ok _ _ hnb, if_pos hl]

theorem packToken_eos (u : State) (nb start : Word) {chunk : List Byte} (hne : chunk ≠ []) :
    u.packToken nb start chunk .eos =
      u.packSymbol start (beWord (padChunk u.symWidth chunk)) [.pad, .finish .pack] :=
  if_neg (by simpa using hne)

/-- sym(v) of PACK for a symbol without a code (R285). -/
theorem packSymbol_unknown {u : State} {v : Word} (start : Word) (rest : List Micro) (hc : u.ct.get v = none) :
    u.packSymbol start v rest = u.raise { cause := .unknownSymbol, offset := start, symbol := v } := by
  rw [State.packSymbol, hc]

/-- What was left to do before has no effect on sym(v). -/
theorem packSymbol_goOn (u : State) (todo : List Micro) (start v : Word) (rest : List Micro) :
    (u.goOn todo).packSymbol start v rest = u.packSymbol start v rest := by
  unfold State.packSymbol
  rw [State.goOn_ct, State.goOn_packer]
  cases u.ct.get v with
  | none => rfl
  | some c => cases incCount u.packer.syms 4 <;> rfl

theorem packToken_goOn (u : State) (todo : List Micro) (nb start : Word) (chunk : List Byte) (t : Token) :
    (u.goOn todo).packToken nb start chunk t = u.packToken nb start chunk t := by
  have hw : (u.goOn todo).symWidth = u.symWidth := rfl
  cases t with
  | err => rfl
  | eos => simp only [State.packToken, packSymbol_goOn, hw]; rfl
  | byte b => simp only [State.packToken, packSymbol_goOn, hw]; cases incCount nb 7 <;> rfl

theorem ofNat_ne_max {n : Nat} (h : n + 1 < 2 ^ 64) : BitVec.ofNat 64 n ≠ maxWord := by
  refine word_ne_max_of_lt _ 0 ?_
  rwa [BitVec.toNat_ofNat, Nat.mod_eq_of_lt (by omega)]

section
variable {s u : State} {codes : List BitSeq} {start : Nat} {chunk : List Byte} {b : Byte} {q : List Token}
variable (hi : s.iof = false)
include hi

/-- PACK's next InRead, with a token in IN. -/
theorem State.packs_token (t : Token)
    (h : ∀ k st, (chunk ≠ [] → st = BitVec.ofNat 64 start) →
      Moves ((s.packing codes q k).packToken (BitVec.ofNat 64 (start + chunk.length)) st chunk t) u) :
    s.packs codes start chunk (t :: q) u := by
  intro k st hst
  refine (moves_pack_token (s.packing codes (t :: q) k) _ st chunk t q hi rfl).trans ?_
  have htook (todo : List Micro) :
      ((s.packing codes (t :: q) k).goOn todo).took q = (s.packing codes q (k - 1)).goOn todo := rfl
  rw [htook, packToken_goOn]
  exact h (k - 1) st hst

/-- PACK's loop at an Err (R330). -/
theorem State.packs_err : s.packs codes start chunk (.err :: q)
    ((s.packing codes q 0).raise { cause := .ioError, offset := BitVec.ofNat 64 (start + chunk.length) }) :=
  State.packs_token hi .err fun _ _ _ => .refl _

/-- PACK's loop at the EOS after a short last chunk whose symbol has no code (R89, R285). -/
theorem State.packs_eos_unknown (hne : chunk ≠ []) (hc : s.ct.get (beWord (padChunk s.symWidth chunk)) = none) :
    s.packs codes start chunk (.eos :: q)
      ((s.packing codes q 0).raise
        { cause := .unknownSymbol, offset := BitVec.ofNat 64 start, symbol := beWord (padChunk s.symWidth chunk) }) := by
  refine State.packs_token hi .eos fun k st hst => ?_
  rw [packToken_eos _ _ _ hne, State.packing_symWidth, packSymbol_unknown (u := s.packing codes q k) _ _ hc, hst hne]
  exact .refl _

section
variable (hlen : start + chunk.length + 1 < 2 ^ 64)
include hlen

/-- PACK's next byte leaves its chunk incomplete (R285). -/
theorem State.packs_byte (hn : (chunk ++ [b]).length ≠ s.symWidth) (h : s.packs codes start (chunk ++ [b]) q u) :
    s.packs codes start chunk (.byte b :: q) u := by
  refine State.packs_token hi (.byte b) fun k st hst => ?_
  have hk := h k _ fun _ => rfl
  rw [List.length_append, List.length_singleton, ← Nat.add_assoc, BitVec.ofNat_add] at hk
  rw [packToken_holds (s.packing codes q k) st (ofNat_ne_max hlen) hn, chunkStart_eq hst]
  exact hk

/-- PACK's next byte completes a chunk (R285). -/
theorem State.packs_chunk (hn : (chunk ++ [b]).length = s.symWidth)
    (h : ∀ k, Moves ((s.packing codes q k).packSymbol (BitVec.ofNat 64 start) (beWord (chunk ++ [b]))
      [.packIn (BitVec.ofNat 64 (start + s.symWidth)) (BitVec.ofNat 64 start) []]) u) :
    s.packs codes start chunk (.byte b :: q) u := by
  refine State.packs_token hi (.byte b) fun k st hst => ?_
  have hk := h k
  rw [← hn, List.length_append, List.length_singleton, ← Nat.add_assoc, BitVec.ofNat_add] at hk
  rw [packToken_completes (s.packing codes q k) st (ofNat_ne_max hlen) hn, chunkStart_eq hst]
  exact hk

end

/-! ### Many tokens -/

/-- Bytes that leave the chunk incomplete (R285). -/
theorem State.packs_bytes (part : List Byte) : ∀ {chunk : List Byte}, (chunk ++ part).length < s.symWidth →
    start + (chunk ++ part).length < 2 ^ 64 → s.packs codes start (chunk ++ part) q u →
    s.packs codes start chunk (byteTokens part ++ q) u := by
  induction part with
  | nil => intro chunk _ _ h; simpa [byteTokens] using h
  | cons b part ih =>
    intro chunk hn hlen h
    rw [List.append_cons] at hn hlen h
    have hb := ih hn hlen h
    simp only [List.length_append, List.length_singleton] at hn hlen
    exact State.packs_byte hi (by omega) (by simp; omega) hb

section
variable {w : List Byte} (hn : 0 < s.symWidth) (hw : w.length = s.symWidth) (hlen : start + w.length < 2 ^ 64)
include hn hw hlen

/-- A whole chunk (R89, R285). -/
theorem State.packs_word
    (h : ∀ k, Moves ((s.packing codes q k).packSymbol (BitVec.ofNat 64 start) (beWord w)
      [.packIn (BitVec.ofNat 64 (start + s.symWidth)) (BitVec.ofNat 64 start) []]) u) :
    s.packs codes start [] (byteTokens w ++ q) u := by
  obtain rfl | ⟨part, b, rfl⟩ := w.eq_nil_or_concat'
  · exact absurd hw hn.ne
  · have htok : byteTokens (part ++ [b]) ++ q = byteTokens part ++ .byte b :: q := by simp [byteTokens]
    have hlast : s.packs codes start part (.byte b :: q) u :=
      State.packs_chunk hi (by simpa [Nat.add_assoc] using hlen) hw h
    rw [List.length_append, List.length_singleton] at hw hlen
    rw [htok]
    exact State.packs_bytes hi part (by rw [List.nil_append]; omega) (by rw [List.nil_append]; omega) hlast

/-- A whole chunk whose symbol has no code (R285). -/
theorem State.packs_unknown (hc : s.ct.get (beWord w) = none) :
    s.packs codes start [] (byteTokens w ++ q)
      ((s.packing codes q 0).raise
        { cause := .unknownSymbol, offset := BitVec.ofNat 64 start, symbol := beWord w }) := by
  refine State.packs_word hi hn hw hlen fun k => ?_
  rw [packSymbol_unknown (u := s.packing codes q k) _ _ hc]
  exact .refl _

/-- A whole chunk whose symbol has the code c (R285). -/
theorem State.packs_code {c : BitSeq} (hc : s.ct.get (beWord w) = some c) (hcan : s.canPack (codes ++ [c]))
    (h : s.packs (codes ++ [c]) (start + s.symWidth) [] q u) : s.packs codes start [] (byteTokens w ++ q) u := by
  refine State.packs_word hi hn hw hlen fun k => ?_
  obtain ⟨hcount, hbits, hroom⟩ := hcan
  have hwritten := packCodes_length (codes ++ [c])
  have hcb : (codeBits (codes ++ [c])).length = (codeBits codes).length + c.len := by simp [codeBits]
  rw [packCodes_concat, List.length_append] at hwritten
  rw [List.length_append, List.length_singleton] at hcount
  have hsyms : (packCodes codes).1.syms ≠ maxWord := ofNat_ne_max hcount
  have hcountBits : (packCodes codes).1.bits.toNat + c.len < 2 ^ 64 := by
    rw [packCodes_bits, BitVec.toNat_ofNat, Nat.mod_eq_of_lt (by omega)]
    omega
  have hfits : (s.packing codes q k).outq.length + ((packCodes codes).1.pushAll c.toBits).2.length ≤
      s.params.outCap := by
    rw [State.packing_outq, List.length_append, Nat.add_assoc, hwritten]
    exact hroom
  have hk := h k (BitVec.ofNat 64 start) fun hne => absurd rfl hne
  rw [State.packing_concat, packCodes_concat] at hk
  exact (moves_packSymbol (s.packing codes q k) _ _ _ c hi hc hsyms hcountBits hfits).trans hk

end

/-- Whole chunks whose symbols have codes (R285). -/
theorem State.packs_codes (hn : 0 < s.symWidth) (cs : List BitSeq) :
    ∀ {codes : List BitSeq} {start : Nat} {pre : List Byte}, pre.length = s.symWidth * cs.length →
    (chunkWords s.symWidth pre).map s.ct.get = cs.map some →
    start + pre.length < 2 ^ 64 → s.canPack (codes ++ cs) → s.packs (codes ++ cs) (start + pre.length) [] q u →
    s.packs codes start [] (byteTokens pre ++ q) u := by
  induction cs with
  | nil =>
    intro codes start pre hpre _ _ _ h
    obtain rfl : pre = [] := List.length_eq_zero_iff.1 hpre
    simpa [byteTokens] using h
  | cons c cs ih =>
    intro codes start pre hpre hcodes hlen hcan h
    rw [List.length_cons, Nat.mul_succ] at hpre
    obtain ⟨w, pre, rfl, hw⟩ : ∃ w pre', pre = w ++ pre' ∧ w.length = s.symWidth :=
      ⟨_, _, (List.take_append_drop s.symWidth pre).symm, List.length_take_of_le (by omega)⟩
    rw [chunkWords_cons _ _ _ hn hw, List.map_cons, List.map_cons, List.cons.injEq] at hcodes
    rw [List.append_cons] at hcan h
    rw [List.length_append, hw] at hpre hlen h
    have htok : byteTokens (w ++ pre) ++ q = byteTokens w ++ (byteTokens pre ++ q) := by simp [byteTokens]
    rw [htok]
    exact State.packs_code hi hn hw (by omega) hcodes.1 (State.canPack_of_append hcan)
      (ih (by omega) hcodes.2 (by omega) hcan (by rwa [Nat.add_assoc]))

end

/-! ### The command (R282, R285, R330) -/

section
variable {s : State} {pre last : List Byte} {codes : List BitSeq} {q rest : List Token} {r : Raise} {rec : ErrRec}

/-- PACK fails where its loop raises, once the whole chunks `pre` are packed. -/
theorem State.packFails_of_packs (hs : s.quiet) (hw : s.width ≠ 0) (hct : s.ct ≠ [])
    (hpre : pre.length = s.symWidth * codes.length)
    (hcodes : (chunkWords s.symWidth pre).map s.ct.get = codes.map some) (hlen : pre.length < 2 ^ 64)
    (hb : (codeBits codes).length < 2 ^ 64) (hroom : s.room ((codeBits codes).length / 8))
    (hq : s.inq = byteTokens (pre ++ last) ++ q)
    (h : s.packs codes pre.length [] (byteTokens last ++ q) ((s.packing codes rest 0).raise r))
    (hr : ((s.packing codes rest 0).raise r).errRec = rec) : s.packFails codes rec rest := by
  have hn := s.symWidth_pos hw
  have htok : s.inq = byteTokens pre ++ (byteTokens last ++ q) := by simp [hq, byteTokens]
  have hpacks : s.packs [] 0 [] s.inq ((s.packing codes rest 0).raise r) := by
    rw [htok]
    exact State.packs_codes hs.1 hn codes hpre hcodes (by omega) ⟨length_codes_lt hn hlen hcodes, hb, hroom⟩
      (by simpa using h)
  have hmoves := hpacks s.iofSkip 0 fun hne => absurd rfl hne
  rw [State.packing_nil] at hmoves
  have hexec : execPack s = .next ((s.packing codes rest 0).raise r) :=
    (execPack_starts hw hct).trans (State.start_eq _ _ _ hs.2 (by simp [Micro.bounded]) hmoves rfl)
  exact ⟨_, (packCodes codes).2, hexec, rfl, rfl, rfl, hr, rfl, rfl, packCodes_holds codes, packCodes_bits codes, rfl,
    State.sameBut_mono (State.sameBut_append (s.sameBut_packing codes rest 0) (State.sameBut_raise _ r)) (by decide)⟩

end

/-- Settles O42: PACK_SYM raises at its look-up; PACK packs the codes of the chunks before (`State.packFails_of_packs`) and raises at the next whole chunk (`State.packs_unknown`), at the EOS after a short one (`State.packs_eos_unknown`), or at the Err (`State.packs_err`). -/
theorem unknownSymbolIsRefused : Obligations.UnknownSymbolIsRefused := by
  intro s hs hw hct
  refine ⟨fun hsym hc => ?packSym, fun pre last codes rest hpre hcodes hlen hb hr => ?pack⟩
  case packSym =>
    have hexec : exec .packSym s = s.fail { cause := .unknownSymbol, symbol := s.latch.a0 } := by
      change execPackSym s = _
      rw [execPackSym_checked hsym hct, hc, State.packCode]
    exact ⟨_, hexec, rfl, rfl, rfl, rfl, s.sameBut_raise _⟩
  case pack =>
    rw [List.length_append] at hlen
    refine ⟨?unknown, fun hl hq => ?err⟩
    case unknown =>
      rintro (⟨hl, hq⟩ | ⟨h0, hl, hq⟩) hc
      · have hfull : padChunk s.symWidth last = last := by simp [padChunk, hl]
        rw [hfull] at hc ⊢
        exact State.packFails_of_packs hs hw hct hpre hcodes (by omega) hb hr hq
          (State.packs_unknown hs.1 (s.symWidth_pos hw) hl hlen hc) rfl
      · exact State.packFails_of_packs hs hw hct hpre hcodes (by omega) hb hr hq
          (State.packs_bytes hs.1 last hl hlen (State.packs_eos_unknown hs.1 (List.length_pos_iff.1 h0) hc)) rfl
    case err =>
      rw [List.length_append]
      exact State.packFails_of_packs hs hw hct hpre hcodes (by omega) hb hr hq
        (State.packs_bytes hs.1 last hl hlen (State.packs_err hs.1)) rfl

end Sys2Proof.Machine
end

section
/-! The decoder's commands (R300 to R303, R330): what UNPACK_BYTE and UNPACK have done to the state, said by what the bits read do to the decoder, and UNPACK over the payload of codes its tree holds. -/

namespace Sys2Proof.Machine

/-! ### Bits in two parts -/

theorem Decoder.feedAll_cons (e : DecodeEnv) (d : Decoder) (b : Bool) (bits : List Bool) :
    Decoder.feedAll e d (b :: bits) = (Decoder.feed e d b).bind fun r =>
      (Decoder.feedAll e r.1 bits).map fun r' => (r'.1, r.2 ++ r'.2) := by
  rw [Decoder.feedAll]
  cases Decoder.feed e d b with
  | none => rfl
  | some r =>
    simp only [Option.bind_some]
    cases Decoder.feedAll e r.1 bits <;> rfl

theorem Decoder.feedAll_cons_eq_some {e : DecodeEnv} {d d' : Decoder} {b : Bool} {bits : List Bool} {o : List Byte} :
    Decoder.feedAll e d (b :: bits) = some (d', o) ↔ ∃ d₁ o₁ o₂, Decoder.feed e d b = some (d₁, o₁) ∧
      Decoder.feedAll e d₁ bits = some (d', o₂) ∧ o₁ ++ o₂ = o := by
  simp [Decoder.feedAll_cons, Option.bind_eq_some_iff, Option.map_eq_some_iff]

theorem Decoder.feedAll_append_eq_some {e : DecodeEnv} {l k : List Bool} : ∀ {d d' : Decoder} {o : List Byte},
    Decoder.feedAll e d (l ++ k) = some (d', o) ↔ ∃ d₁ o₁ o₂, Decoder.feedAll e d l = some (d₁, o₁) ∧
      Decoder.feedAll e d₁ k = some (d', o₂) ∧ o₁ ++ o₂ = o := by
  induction l with
  | nil => intro d d' o; simp [Decoder.feedAll]
  | cons b l ih =>
    intro d d' o
    simp only [List.cons_append, Decoder.feedAll_cons_eq_some, ih]
    constructor
    · rintro ⟨d₁, o₁, -, hb, ⟨d₂, o₂, o₃, hl, hk, rfl⟩, rfl⟩
      exact ⟨d₂, o₁ ++ o₂, o₃, ⟨d₁, o₁, o₂, hb, hl, rfl⟩, hk, List.append_assoc _ _ _⟩
    · rintro ⟨d₂, -, o₃, ⟨d₁, o₁, o₂, hb, hl, rfl⟩, hk, rfl⟩
      exact ⟨d₁, o₁, o₂ ++ o₃, hb, ⟨d₂, o₂, o₃, hl, hk, rfl⟩, (List.append_assoc _ _ _).symm⟩

/-! ### What the commands leave -/

/-- The decoder has become d and these bytes have been written, by a command that has written nothing else (R300, R331). -/
def State.decoded (s : State) (d : Decoder) (o : List Byte) : State := (s.fresh.setDecoder d).wroteAll o

theorem State.sameBut_decoded (s : State) (d : Decoder) (o : List Byte) :
    s.sameBut (s.decoded d o) ([.outq] ++ decoderParts) :=
  State.sameBut_mono (State.sameBut_append (State.sameBut_append s.sameBut_fresh (s.fresh.sameBut_setDecoder d))
    (State.sameBut_wroteAll _ o)) (by decide)

/-- The command that has done so completes, and reports DC_SYMS and ACC.len (R302, R303). -/
def State.unpacked (s : State) (d : Decoder) (o : List Byte) : State :=
  ((s.decoded d o).setRes d.syms (BitVec.ofNat 64 d.acc.len)).complete

@[simp] theorem State.unpacked_dtree (s : State) (d : Decoder) (o : List Byte) : (s.unpacked d o).dtree = s.dtree := by
  cases s; rfl
@[simp] theorem State.unpacked_width (s : State) (d : Decoder) (o : List Byte) : (s.unpacked d o).width = s.width := by
  cases s; rfl
@[simp] theorem State.unpacked_params (s : State) (d : Decoder) (o : List Byte) : (s.unpacked d o).params = s.params := by
  cases s; rfl
@[simp] theorem State.unpacked_decoder (s : State) (d : Decoder) (o : List Byte) : (s.unpacked d o).decoder = d := by
  cases s; rfl
@[simp] theorem State.unpacked_outq (s : State) (d : Decoder) (o : List Byte) : (s.unpacked d o).outq = s.outq ++ o := by
  cases s; rfl
@[simp] theorem State.unpacked_decodeEnv (s : State) (d : Decoder) (o : List Byte) :
    (s.unpacked d o).decodeEnv = s.decodeEnv := by
  cases s; rfl

/-- The end of UNPACK_BYTE and UNPACK (R302, R303). -/
theorem State.unpacked_eq (s : State) (d : Decoder) (o : List Byte) :
    (((s.decoded d o).goOn [.finish .unpack]).writeResults .unpack).complete = s.unpacked d o := by
  cases s; rfl

theorem State.completes_unpacked (s : State) (d : Decoder) (o : List Byte) : s.completes (s.unpacked d o) := by
  simp [State.completes, State.unpacked, State.decoded]

theorem State.sameBut_unpacked (s : State) (d : Decoder) (o : List Byte) :
    s.sameBut (s.unpacked d o) ([.outq, .res0, .res1] ++ decoderParts) :=
  State.sameBut_mono (State.sameBut_complete_of (State.sameBut_append (s.sameBut_decoded d o) (State.sameBut_setRes _ _ _)))
    (by decide)

/-! ### UNPACK_BYTE (R302) -/

/-- UNPACK_BYTE past its checks decodes the bits of its byte (R302, R329). -/
theorem execUnpackByte_completes {s : State} {d : Decoder} {o : List Byte} (hs : s.quiet) (hw : s.width ≠ 0)
    (hdt : s.dtreeV = true) (ha : s.latch.a0.toNat ≤ 0xFF)
    (hd : Decoder.feedAll s.decodeEnv s.decoder (byteBits (s.latch.a0.setWidth 8)) = some (d, o))
    (hr : s.room o.length) : execUnpackByte s = .next (s.unpacked d o) := by
  rw [execUnpackByte, s.needWidth_ok 0x71 hw, s.needDtree_ok 0x71 hdt, if_neg (Nat.not_lt.2 ha)]
  rw [← State.unpacked_eq]
  exact State.start_completes s (s.decoded d o) _ .unpack hs.2
    (bounded_append (bounded_bits _) (by simp [Micro.bounded])) (moves_decodes _ s.fresh _ d o hs.1 hd hr) hs.1

/-! ### UNPACK's loop (R303) -/

/-- UNPACK's next byte: its eight bits are decoded (R303). -/
theorem moves_unpack_byte {s : State} {nb : Word} {b : Byte} {q : List Token} {d : Decoder} {o : List Byte}
    (hi : s.iof = false) (hq : s.inq = .byte b :: q) (hnb : nb ≠ maxWord)
    (hd : Decoder.feedAll s.decodeEnv s.decoder (byteBits b) = some (d, o)) (hr : s.room o.length) :
    Moves (s.goOn [.unpackIn nb])
      ((((s.setDecoder d).wroteAll o).atInq q (s.iofSkip - 1)).goOn [.unpackIn (nb + 1)]) := by
  have htok := moves_unpack_token s nb (.byte b) q hi hq
  simp only [State.unpackToken, incCount_ok _ _ hnb] at htok
  exact htok.trans (moves_decodes (byteBits b) (s.atInq q (s.iofSkip - 1)) [.unpackIn (nb + 1)] d o hi hd hr)

/-- UNPACK's loop over bytes whose bits the decoder takes without an overflow, whatever follows them (R303). -/
theorem moves_unpack_bytes (bytes : List Byte) : ∀ {s : State} {nb : Word} {q : List Token} {d : Decoder} {o : List Byte},
    s.iof = false → s.inq = byteTokens bytes ++ q → nb.toNat + bytes.length < 2 ^ 64 →
    Decoder.feedAll s.decodeEnv s.decoder (bytes.flatMap byteBits) = some (d, o) → s.room o.length →
    ∃ k, Moves (s.goOn [.unpackIn nb]) ((((s.setDecoder d).wroteAll o).atInq q k).goOn
      [.unpackIn (nb + BitVec.ofNat 64 bytes.length)]) := by
  induction bytes with
  | nil =>
    intro s nb q d o _ hq _ hd _
    cases hd
    subst hq
    refine ⟨s.iofSkip, ?_⟩
    rw [List.length_nil, BitVec.add_zero, State.wroteAll_nil]
    exact .refl _
  | cons b bytes ih =>
    intro s nb q d o hi hq hnb hd hr
    obtain ⟨d₁, o₁, o₂, hb, hrest, rfl⟩ := Decoder.feedAll_append_eq_some.1 hd
    rw [State.room, List.length_append] at hr
    have hnb' := word_add_one_toNat _ _ hnb
    rw [List.length_cons] at hnb
    have hbyte := moves_unpack_byte hi hq (word_ne_max_of_lt _ _ hnb) hb (le_trans (by omega) hr)
    obtain ⟨k, hk⟩ := ih (s := ((s.setDecoder d₁).wroteAll o₁).atInq (byteTokens bytes ++ q) (s.iofSkip - 1))
      (nb := nb + 1) hi rfl (by omega) hrest (by simpa [State.room, Nat.add_assoc] using hr)
    refine ⟨k, hbyte.trans ?_⟩
    rw [List.length_cons, word_add_ofNat_succ, ← State.wroteAll_wroteAll]
    exact hk

/-! ### UNPACK over a stream (R303, R330) -/

theorem execUnpack_starts {s : State} (hw : s.width ≠ 0) (hdt : s.dtreeV = true) :
    execUnpack s = (s.setDecoder .init).start [.unpackIn 0] := by
  rw [execUnpack, s.needWidth_ok 0x72 hw, s.needDtree_ok 0x72 hdt]
  rfl

section
variable {s : State} {bytes : List Byte} {rest : List Token} {d : Decoder} {o : List Byte}
variable (hs : s.quiet) (hw : s.width ≠ 0) (hdt : s.dtreeV = true) (hl : bytes.length < 2 ^ 64)
variable (hd : Decoder.feedAll s.decodeEnv .init (bytes.flatMap byteBits) = some (d, o)) (hr : s.room o.length)
include hs hl hd hr

/-- UNPACK comes to the token after the bytes with their bits decoded. -/
theorem moves_unpack_to {q : List Token} (hq : s.inq = byteTokens bytes ++ q) :
    ∃ k, Moves ((s.setDecoder .init).fresh.goOn [.unpackIn 0])
      (((s.decoded d o).atInq q k).goOn [.unpackIn (BitVec.ofNat 64 bytes.length)]) := by
  obtain ⟨k, hk⟩ := moves_unpack_bytes bytes (s := (s.setDecoder .init).fresh) (nb := 0) hs.1 hq (by simpa using hl) hd hr
  rw [zero_add] at hk
  exact ⟨k, hk⟩

include hw hdt

/-- Over a stream with its EOS UNPACK completes (R303). -/
theorem execUnpack_eos (hq : s.inq = byteTokens bytes ++ .eos :: rest) :
    ∃ k, execUnpack s = .next ((s.atInq rest k).unpacked d o) := by
  obtain ⟨k, hk⟩ := moves_unpack_to hs hl hd hr hq
  have heos : Moves (((s.decoded d o).atInq (.eos :: rest) k).goOn [.unpackIn (BitVec.ofNat 64 bytes.length)])
      (((s.atInq rest (k - 1)).decoded d o).goOn [.finish .unpack]) :=
    moves_unpack_token ((s.decoded d o).atInq (.eos :: rest) k) (BitVec.ofNat 64 bytes.length) .eos rest hs.1 rfl
  have hend := State.start_completes (s.setDecoder .init) _ _ .unpack hs.2 (by simp [Micro.bounded]) (hk.trans heos) hs.1
  rw [State.unpacked_eq] at hend
  exact ⟨k - 1, (execUnpack_starts hw hdt).trans hend⟩

/-- Over a stream that breaks off with an Err UNPACK raises at the Err (R330). -/
theorem execUnpack_err (hq : s.inq = byteTokens bytes ++ .err :: rest) :
    ∃ k, execUnpack s = .next (((s.atInq rest k).decoded d o).raise
      { cause := .ioError, offset := BitVec.ofNat 64 bytes.length }) := by
  obtain ⟨k, hk⟩ := moves_unpack_to hs hl hd hr hq
  have herr : Moves (((s.decoded d o).atInq (.err :: rest) k).goOn [.unpackIn (BitVec.ofNat 64 bytes.length)])
      (((s.atInq rest (k - 1)).decoded d o).raise { cause := .ioError, offset := BitVec.ofNat 64 bytes.length }) :=
    moves_unpack_token ((s.decoded d o).atInq (.err :: rest) k) (BitVec.ofNat 64 bytes.length) .err rest hs.1 rfl
  exact ⟨k - 1, (execUnpack_starts hw hdt).trans
    (State.start_eq (s.setDecoder .init) _ _ hs.2 (by simp [Micro.bounded]) (hk.trans herr) rfl)⟩

end

/-! ### The payload of held codes (R244, R305) -/

/-- There are no more codes than bits of codes. -/
theorem length_le_codeBits {codes : List BitSeq} (h : ∀ c ∈ codes, c.isCode) : codes.length ≤ (codeBits codes).length := by
  induction codes with
  | nil => exact Nat.le_refl _
  | cons c codes ih =>
    obtain ⟨⟨-, hlen⟩, hcodes⟩ := List.forall_mem_cons.1 h
    have hrest := ih hcodes
    have hsplit : (codeBits (c :: codes)).length = c.len + (codeBits codes).length := by simp [codeBits]
    rw [hsplit, List.length_cons]
    omega

/-- A reset decoder with the payload's bit length as limit takes the codes' bits for their symbols, and of the pad bits notes only that there were some (R300, R305). -/
theorem Decoder.feedAll_payload {e : DecodeEnv} {items : List (Word × BitSeq)} {bits : List Bool}
    (hx : ∀ x ∈ items, x.2.isCode ∧ e.tree.holds x.1 x.2) (hbits : bits = codeBits (items.map Prod.snd))
    (hlim : e.lim = BitVec.ofNat 64 bits.length) (hb : bits.length < 2 ^ 64 - 1) :
    Decoder.feedAll e .init ((payloadBytes bits).flatMap byteBits) =
      some (⟨.empty, .empty, e.lim, BitVec.ofNat 64 items.length, false, bits.length % 8 != 0⟩,
        items.flatMap fun x => beBytes e.n x.1) := by
  have hcount : items.length ≤ bits.length := by
    rw [hbits, ← List.length_map (f := Prod.snd)]
    exact length_le_codeBits (by simpa using fun c v h => (hx (v, c) h).1)
  have hlimNat : e.lim.toNat = bits.length := by rw [hlim, BitVec.toNat_ofNat, Nat.mod_eq_of_lt (by omega)]
  have hlimMax : e.lim ≠ maxWord := word_ne_max_of_lt _ 0 (by omega)
  have hflat : bits = items.flatMap fun x => x.2.toBits := by rw [hbits, codeBits, List.flatMap_map]
  have hcodes := Decoder.feedAll_items e items .init hx rfl rfl
    (by rw [← hflat]; simpa using hb) (by rw [← hflat, hlimNat]; simp) (by simp; omega)
  rw [← hflat, ← hlim, zero_add, zero_add] at hcodes
  have hpad : (8 * ((bits.length + 7) / 8) - bits.length != 0) = (bits.length % 8 != 0) := by
    rw [Bool.eq_iff_iff, bne_iff_ne, bne_iff_ne]
    omega
  rw [payloadBytes_bits, Decoder.feedAll_append _ _ _ _ _ _ hcodes, Decoder.feedAll_pad _ _ _ hlimMax rfl, hpad]
  simp

/-- Settles O43: the decoder takes the payload's bits for the codes' symbols (`Decoder.feedAll_payload`), and UNPACK ends at the EOS (`execUnpack_eos`) or at the Err (`execUnpack_err`) with them written. -/
theorem unpackDecodesThePayload : Obligations.UnpackDecodesThePayload := by
  intro s dt items rest bits hs hw hdt hx hbits hlim hb hr
  have hv := s.dtreeV_of_some dt hdt
  have hl : (payloadBytes bits).length < 2 ^ 64 := by
    rw [payloadBytes, List.length_map, List.length_range]
    omega
  have hd := Decoder.feedAll_payload (e := s.decodeEnv) (by simpa [State.decodeEnv, hdt] using hx) hbits hlim hb
  have hroom : s.room (items.flatMap fun x => beBytes s.symWidth x.1).length := by
    simpa [List.length_flatMap, Nat.mul_comm] using hr
  refine ⟨fun hq => ?eos, fun hq => ?err⟩
  case eos =>
    obtain ⟨k, hk⟩ := execUnpack_eos hs hw hv hl hd hroom hq
    exact ⟨_, hk, (s.atInq rest k).completes_unpacked _ _, rfl, rfl, rfl, rfl, rfl,
      State.sameBut_mono (State.sameBut_append (s.sameBut_atInq rest k) (State.sameBut_unpacked _ _ _)) (by decide)⟩
  case err =>
    obtain ⟨k, hk⟩ := execUnpack_err hs hw hv hl hd hroom hq
    exact ⟨_, hk, rfl, rfl, rfl, rfl, rfl, rfl, rfl,
      State.sameBut_mono (State.sameBut_append (State.sameBut_append (s.sameBut_atInq rest k)
        (State.sameBut_decoded _ _ _)) (State.sameBut_raise _ _)) (by decide)⟩

end Sys2Proof.Machine
end

section
/-! UNPACK after PACK (R286, R304): the symbols of a stream written as bytes are the stream with its padding. -/

namespace Sys2Proof.Machine

/-! ### Symbols as bytes (R15, R89) -/

theorem padChunk_length {n : Nat} {l : List Byte} (h : l.length ≤ n) : (padChunk n l).length = n := by
  simp [padChunk, h]

theorem beBytes_beWord_of_length {n : Nat} {l : List Byte} (h8 : n ≤ 8) (hl : l.length = n) : beBytes n (beWord l) = l := by
  subst hl
  exact beBytes_beWord l h8

/-- The bytes of a stream's symbols are the stream, padded to whole symbols (R89). -/
theorem flatMap_beBytes_chunkWords {n : Nat} (hn : 0 < n) (h8 : n ≤ 8) (l : List Byte) :
    (chunkWords n l).flatMap (beBytes n) =
      l ++ List.replicate (n * ((l.length + n - 1) / n) - l.length) 0#8 := by
  induction hk : l.length / n generalizing l with
  | zero =>
    have hlt : l.length < n := (Nat.div_eq_zero_iff_lt hn).1 hk
    rcases eq_or_ne l [] with rfl | hne
    · simp [chunkWords_nil n hn, hn]
    · have hpos := List.length_pos_iff.2 hne
      have h1 : (l.length + n - 1) / n = 1 := by rw [Nat.div_eq_iff hn]; omega
      rw [chunkWords_short n l hne hlt, List.flatMap_singleton,
        beBytes_beWord_of_length h8 (padChunk_length hlt.le), h1, Nat.mul_one]
      rfl
  | succ k ih =>
    have hle : n ≤ l.length := by
      by_contra hlt
      rw [Nat.div_eq_of_lt (by omega)] at hk
      cases hk
    obtain ⟨w, l, rfl, hw⟩ : ∃ w l', l = w ++ l' ∧ w.length = n :=
      ⟨_, _, (List.take_append_drop n l).symm, List.length_take_of_le hle⟩
    have hsum : (w ++ l).length = n + l.length := by rw [List.length_append, hw]
    have hround : (n + l.length + n - 1) / n = (l.length + n - 1) / n + 1 := by
      rw [← Nat.add_div_right _ hn]
      congr 1
      omega
    rw [hsum, Nat.add_div_left _ hn, Nat.succ_inj] at hk
    rw [chunkWords_cons n w l hn hw, List.flatMap_cons, beBytes_beWord_of_length h8 hw, ih l hk, hsum, hround,
      Nat.mul_succ, Nat.add_comm n, Nat.add_sub_add_right, List.append_assoc]

/-! ### The stream packed (R285) -/

theorem get_of_mem_zip {ct : FMap BitSeq} {ws : List Word} {codes : List BitSeq} (h : ws.map ct.get = codes.map some)
    {e : Word × BitSeq} (he : e ∈ ws.zip codes) : ct.get e.1 = some e.2 := by
  induction ws generalizing codes with
  | nil => cases he
  | cons w ws ih =>
    cases codes with
    | nil => cases he
    | cons c codes =>
      obtain ⟨hw, hws⟩ := List.cons.inj h
      rcases List.mem_cons.1 he with rfl | he
      · exact hw
      · exact ih hws he

/-- Settles O46: PACK writes the payload of the codes (`packWritesThePayload`), UNPACK the symbols of the payload (`unpackDecodesThePayload`), whose bytes are the stream with its padding (`flatMap_beBytes_chunkWords`). -/
theorem unpackInvertsPack : Obligations.UnpackInvertsPack := by
  intro s dt bytes codes q hs hw h8 hct hcode hq hl hcodes hb hr hholds
  obtain ⟨t, hexec, hdone, hin, hout, -, -, hres, -⟩ :=
    packWritesThePayload s bytes codes q hs hw hct hq hl hcodes (by omega) hr
  refine ⟨t, _, hexec, hdone, hout, hin, fun u rest hu huw hut hlim huq hur => ?_⟩
  have hn : u.symWidth = s.symWidth := congrArg BitVec.toNat huw
  let items := (chunkWords s.symWidth bytes).zip codes
  have hlen : (chunkWords s.symWidth bytes).length = codes.length := by simpa using congrArg List.length hcodes
  have hsyms : items.map Prod.fst = chunkWords s.symWidth bytes := List.map_fst_zip hlen.le
  have hsnd : items.map Prod.snd = codes := List.map_snd_zip hlen.ge
  have hitems : ∀ e ∈ items, e.2.isCode ∧ dt.holds e.1 e.2 := fun e he =>
    have hmem := FMap.mem_of_get s.ct e.1 e.2 (get_of_mem_zip hcodes he)
    ⟨hcode e hmem, hholds e hmem⟩
  have hcount : items.length = (bytes.length + s.symWidth - 1) / s.symWidth := by
    rw [← chunkWords_length, ← hsyms, List.length_map]
  obtain ⟨x, hx, hxdone, hxin, hxout, -⟩ := (unpackDecodesThePayload u dt items rest (codeBits codes) hu (huw ▸ hw) hut
    hitems (by rw [hsnd]) (hlim.trans hres) hb (by rw [hn, hcount]; exact hur)).1 huq
  refine ⟨x, hx, hxdone, hxin, ?_⟩
  rw [hxout, hn, List.append_assoc, ← flatMap_beBytes_chunkWords (s.symWidth_pos hw) h8, ← hsyms, List.flatMap_map]

end Sys2Proof.Machine
end

section
/-! UNPACK_BYTE byte by byte, and one UNPACK over the same bytes (R306): both feed the decoder the bytes' bits in turn. -/

namespace Sys2Proof.Machine

/-- Feeding the bytes feeds the decoder their bits (R302, R306). -/
theorem feedBytes_completes (bytes : List Byte) : ∀ {s : State} {d : Decoder} {o : List Byte}, s.quiet → s.width ≠ 0 →
    s.dtreeV = true → Decoder.feedAll s.decodeEnv s.decoder (bytes.flatMap byteBits) = some (d, o) → s.room o.length →
    ∃ t, feedBytes bytes s = .next t ∧ t.decoder = d ∧ t.outq = s.outq ++ o := by
  induction bytes with
  | nil =>
    intro s d o _ _ _ hd _
    cases hd
    exact ⟨s, rfl, rfl, (List.append_nil _).symm⟩
  | cons x bytes ih =>
    intro s d o hs hw hdt hd hr
    obtain ⟨d₁, o₁, o₂, hb, hrest, rfl⟩ := Decoder.feedAll_append_eq_some.1 hd
    rw [State.room, List.length_append] at hr
    let s₁ := { s with latch := { s.latch with a0 := x.setWidth 64 } }
    have hx : s₁.latch.a0.setWidth 8 = x := by simp [s₁]
    have ha : s₁.latch.a0.toNat ≤ 0xFF := by
      have hlt := x.isLt
      simp only [s₁, BitVec.toNat_setWidth]
      omega
    have hbyte : execUnpackByte s₁ = .next (s₁.unpacked d₁ o₁) :=
      execUnpackByte_completes hs hw hdt ha (by rw [hx]; exact hb) (show s.room o₁.length by omega)
    obtain ⟨t, ht, htd, hto⟩ := ih (s := s₁.unpacked d₁ o₁) (d := d) (o := o₂) ⟨rfl, hs.2⟩ (by simpa using hw)
      (by simpa [State.dtreeV] using hdt) (by rw [State.unpacked_decodeEnv, State.unpacked_decoder]; exact hrest)
      (by simpa [State.room, Nat.add_assoc] using hr)
    refine ⟨t, ?_, htd, by simp [hto, s₁]⟩
    rw [feedBytes, hbyte]
    exact ht

/-- Settles O45: the bytes' bits do not overflow a reset decoder (`Decoder.feedAll_some`), so what they make of it is what the UNPACK_BYTEs leave (`feedBytes_completes`) and what UNPACK leaves (`execUnpack_eos`). -/
theorem unpackIsIndependentOfBuffers : Obligations.UnpackIsIndependentOfBuffers := by
  intro s bytes rest hs hw hdt hl hr
  have hbits : (bytes.flatMap byteBits).length = 8 * bytes.length := by simp [List.length_flatMap, Nat.mul_comm]
  obtain ⟨d, o, hd, -, hsyms, ho, -⟩ := Decoder.feedAll_some s.decodeEnv (bytes.flatMap byteBits) .init
    (by simpa [hbits] using hl) (by simpa [hbits] using hl)
  have hroom : s.room o.length := by
    refine le_trans (Nat.add_le_add_left ?_ _) hr
    rw [ho, Nat.mul_comm 8, Nat.mul_assoc, ← hbits]
    exact Nat.mul_le_mul_left _ (by simpa using hsyms)
  obtain ⟨t, ht, htd, hto⟩ := feedBytes_completes bytes (s := { s with decoder := .init }) hs hw hdt hd hroom
  obtain ⟨k, hk⟩ := execUnpack_eos (s := { s with inq := byteTokens bytes ++ .eos :: rest }) hs hw hdt (by omega) hd hroom rfl
  exact ⟨t, _, ht, hk, s.completes_unpacked d o, htd, hto, rfl⟩

end Sys2Proof.Machine
end

section
/-! UNPACK_BYTE's bits (R300, R302): what one bit can do to the decoder, and so how many bits it counts up to LIM, that MISMATCH stays, and that a path off the tree sets it. -/

namespace Sys2Proof.Machine

/-! ### One bit (R300) -/

/-- LIM is met: no further bit is processed (R45, R300). -/
def DecodeEnv.stops (e : DecodeEnv) (d : Decoder) : Prop := e.lim ≠ maxWord ∧ d.bits = e.lim

/-- The node at CUR is an inner one, and the decoder stays; or it is a leaf, and the decoder goes back to the root with MISMATCH or with a symbol counted (R300). -/
theorem Decoder.arrive_cases {e : DecodeEnv} {d d' : Decoder} {o : List Byte} (h : Decoder.arrive e d = some (d', o)) :
    (e.tree.sub d.cur.toBits).isLeaf = false ∧ d' = d ∨
    (e.tree.sub d.cur.toBits).isLeaf = true ∧
      (d' = { d with cur := .empty, acc := .empty, mismatch := true } ∨
        d' = { d with syms := d.syms + 1, cur := .empty, acc := .empty }) := by
  rw [Decoder.arrive] at h
  by_cases hleaf : (e.tree.sub d.cur.toBits).isLeaf = true
  case neg =>
    rw [if_neg hleaf] at h
    cases h
    exact .inl ⟨by simpa using hleaf, rfl⟩
  case pos =>
    rw [if_pos hleaf] at h
    refine .inr ⟨hleaf, ?_⟩
    cases hsym : (e.tree.sub d.cur.toBits).symAt with
    | none =>
      rw [hsym] at h
      cases h
      exact .inl rfl
    | some sy =>
      rw [hsym] at h
      dsimp only at h
      split_ifs at h <;> cases h
      · exact .inr rfl
      · exact .inl rfl

/-- What a bit does to the decoder (R300): at the limit it sets LIMIT_HIT only; else it is counted, and leads off the tree, to an inner node, or to a leaf. -/
theorem Decoder.feed_cases {e : DecodeEnv} {d d' : Decoder} {b : Bool} {o : List Byte}
    (h : Decoder.feed e d b = some (d', o)) :
    e.stops d ∧ d' = { d with limitHit := true } ∨
    ¬ e.stops d ∧
      ((e.tree.sub (d.cur.append b).toBits).isAbsent = true ∧
          d' = { d with bits := d.bits + 1, cur := .empty, acc := .empty, mismatch := true } ∨
        (e.tree.sub (d.cur.append b).toBits).isAbsent = false ∧
          ((e.tree.sub (d.cur.append b).toBits).isLeaf = false ∧
              d' = { d with bits := d.bits + 1, cur := d.cur.append b, acc := d.acc.append b } ∨
            (e.tree.sub (d.cur.append b).toBits).isLeaf = true ∧
              (d' = { d with bits := d.bits + 1, cur := .empty, acc := .empty, mismatch := true } ∨
                d' = { d with bits := d.bits + 1, syms := d.syms + 1, cur := .empty, acc := .empty }))) := by
  rw [Decoder.feed] at h
  split_ifs at h with hstop _ habs
  · cases h
    exact .inl ⟨hstop, rfl⟩
  · cases h
    exact .inr ⟨hstop, .inl ⟨habs, rfl⟩⟩
  · have hnode := Decoder.arrive_cases h
    dsimp only at hnode
    exact .inr ⟨hstop, .inr ⟨by simpa using habs, hnode⟩⟩

section
variable {e : DecodeEnv} {d d' : Decoder} {b : Bool} {o : List Byte} (h : Decoder.feed e d b = some (d', o))
include h

/-- A bit is counted unless the limit is met. -/
theorem Decoder.feed_bits : e.stops d ∧ d'.bits = d.bits ∨ ¬ e.stops d ∧ d'.bits = d.bits + 1 := by
  rcases Decoder.feed_cases h with ⟨hs, rfl⟩ | ⟨hs, ⟨-, rfl⟩ | ⟨-, ⟨-, rfl⟩ | ⟨-, rfl | rfl⟩⟩⟩
  · exact .inl ⟨hs, rfl⟩
  all_goals exact .inr ⟨hs, rfl⟩

/-- MISMATCH is sticky (R47). -/
theorem Decoder.feed_keeps_mismatch (hm : d.mismatch = true) : d'.mismatch = true := by
  rcases Decoder.feed_cases h with ⟨-, rfl⟩ | ⟨-, ⟨-, rfl⟩ | ⟨-, ⟨-, rfl⟩ | ⟨-, rfl | rfl⟩⟩⟩
  · exact hm
  · rfl
  · exact hm
  · rfl
  · exact hm

end

/-! ### Many bits -/

theorem Decoder.feedAll_keeps_mismatch {e : DecodeEnv} (bits : List Bool) : ∀ {d d' : Decoder} {o : List Byte},
    Decoder.feedAll e d bits = some (d', o) → d.mismatch = true → d'.mismatch = true := by
  induction bits with
  | nil =>
    intro d d' o h hm
    cases h
    exact hm
  | cons b bits ih =>
    intro d d' o h hm
    obtain ⟨d₁, o₁, o₂, hb, hrest, -⟩ := Decoder.feedAll_cons_eq_some.1 h
    exact ih hrest (Decoder.feed_keeps_mismatch hb hm)

/-- The bits are counted up to the limit, if it is not passed already (R45, R300). -/
theorem Decoder.feedAll_bits {e : DecodeEnv} (bits : List Bool) : ∀ {d d' : Decoder} {o : List Byte},
    Decoder.feedAll e d bits = some (d', o) → d.bits.toNat + bits.length < 2 ^ 64 →
    d'.bits.toNat = if e.lim = maxWord ∨ e.lim.toNat < d.bits.toNat then d.bits.toNat + bits.length
      else min (d.bits.toNat + bits.length) e.lim.toNat := by
  induction bits with
  | nil =>
    intro d d' o h _
    cases h
    rw [List.length_nil, Nat.add_zero]
    split_ifs with hfree
    · rfl
    · omega
  | cons b bits ih =>
    intro d d' o h hlen
    obtain ⟨d₁, o₁, o₂, hb, hrest, -⟩ := Decoder.feedAll_cons_eq_some.1 h
    rw [List.length_cons] at hlen ⊢
    have hsucc := word_add_one_toNat _ _ hlen
    rcases Decoder.feed_bits hb with ⟨⟨hmax, hlim⟩, hb₁⟩ | ⟨hgo, hb₁⟩
    · rw [ih hrest (by rw [hb₁]; omega), hb₁, hlim]
      simp [hmax]
    · have hne : e.lim = maxWord ∨ d.bits.toNat ≠ e.lim.toNat :=
        (not_and_or.1 hgo).imp not_not.1 fun hne heq => hne (BitVec.eq_of_toNat_eq heq)
      rw [ih hrest (by rw [hb₁, hsucc]; omega), hb₁, hsucc]
      by_cases hmax : e.lim = maxWord
      · simp only [hmax, true_or, if_true]
        omega
      · have hne := hne.resolve_left hmax
        simp only [hmax, false_or]
        split_ifs <;> omega

/-- The bit k places further on is still processed: there is no limit, it is passed already, or it is not met by then (R45). -/
def DecodeEnv.allows (e : DecodeEnv) (d : Decoder) (k : Nat) : Prop :=
  e.lim = maxWord ∨ e.lim.toNat < d.bits.toNat ∨ d.bits.toNat + k < e.lim.toNat

theorem DecodeEnv.not_stops_of_allows {e : DecodeEnv} {d : Decoder} {k : Nat} (h : e.allows d k) : ¬ e.stops d := by
  rintro ⟨hmax, hlim⟩
  rcases h with h | h | h
  · exact hmax h
  all_goals rw [hlim] at h; omega

theorem DecodeEnv.allows.of_succ {e : DecodeEnv} {d d' : Decoder} {k : Nat} (h : e.allows d (k + 1))
    (hb : d'.bits.toNat = d.bits.toNat + 1) : e.allows d' k :=
  h.imp_right fun h => by omega

/-- A path that leads over no leaf to a child not in the tree sets MISMATCH (R47, R300). -/
theorem Decoder.feedAll_off_tree {e : DecodeEnv} (hdepth : e.tree.depthLe 64 = true) (bits : List Bool) :
    ∀ {d d' : Decoder} {o : List Byte} {k : Nat}, Decoder.feedAll e d bits = some (d', o) →
    d.bits.toNat + bits.length < 2 ^ 64 → d.cur.wf → k < bits.length → e.allows d k →
    (∀ j ≤ k, (e.tree.sub (d.cur.toBits ++ bits.take j)).isLeaf = false) →
    (e.tree.sub (d.cur.toBits ++ bits.take (k + 1))).isAbsent = true → d'.mismatch = true := by
  induction bits with
  | nil =>
    intro d d' o k _ _ _ hk
    cases hk
  | cons b bits ih =>
    intro d d' o k h hlen hwf hk hlim hinner habs
    obtain ⟨d₁, o₁, o₂, hb, hrest, -⟩ := Decoder.feedAll_cons_eq_some.1 h
    rw [List.length_cons] at hlen hk
    have hsucc := word_add_one_toNat _ _ hlen
    rcases Decoder.feed_cases hb with ⟨hs, -⟩ | ⟨-, ⟨-, rfl⟩ | ⟨hin, hnode⟩⟩
    case inl => exact absurd hs (DecodeEnv.not_stops_of_allows hlim)
    case inr.inl => exact Decoder.feedAll_keeps_mismatch bits hrest rfl
    case inr.inr =>
      have hwf₁ := append_len_wf d.cur b hwf e.tree hdepth hin
      have hbits : (d.cur.append b).toBits = d.cur.toBits ++ [b] := BitSeq.toBits_append _ _ hwf hwf₁.1
      have hpath (j : Nat) : d.cur.toBits ++ (b :: bits).take (j + 1) = (d.cur.append b).toBits ++ bits.take j := by
        simp [hbits]
      cases k with
      | zero =>
        rw [hpath, List.take_zero, List.append_nil, hin] at habs
        cases habs
      | succ k =>
        have hleaf : (e.tree.sub (d.cur.append b).toBits).isLeaf = false := by
          simpa [hbits] using hinner 1 (by omega)
        rcases hnode with ⟨-, rfl⟩ | ⟨hl, -⟩
        · refine ih (k := k) hrest ?_ hwf₁ (by omega) ?_ (fun j hj => ?_) ?_
          · simp only [hsucc]
            omega
          · exact hlim.of_succ hsucc
          · simpa only [hpath] using hinner (j + 1) (by omega)
          · simpa only [hpath] using habs
        · rw [hleaf] at hl
          cases hl

/-- Settles O44: UNPACK_BYTE completes with its eight bits decoded (`execUnpackByte_completes`); they are counted up to LIM (`Decoder.feedAll_bits`), write N bytes for each symbol (`Decoder.feedAll_some`), and set MISMATCH off the tree (`Decoder.feedAll_off_tree`). -/
theorem unpackByteProcessesEightBits : Obligations.UnpackByteProcessesEightBits := by
  intro s hs hw hdt ha hb hsy hr
  have hlen := byteBits_length (s.latch.a0.setWidth 8)
  obtain ⟨d, o, hd, -, hsyms, ho, -⟩ := Decoder.feedAll_some s.decodeEnv (byteBits (s.latch.a0.setWidth 8)) s.decoder
    (by rwa [hlen]) (by rwa [hlen])
  have hcount := Decoder.feedAll_bits _ hd (by rwa [hlen])
  have hroom : s.room o.length := by
    refine le_trans (Nat.add_le_add_left ?_ _) hr
    rw [ho, Nat.mul_comm 8]
    exact Nat.mul_le_mul_left _ (by omega)
  rw [hlen] at hcount
  refine ⟨_, o, execUnpackByte_completes hs hw hdt ha hd hroom, s.completes_unpacked d o, hcount, s.unpacked_outq d o, ho,
    rfl, rfl, Decoder.feedAll_keeps_mismatch _ hd, ?_, s.sameBut_unpacked d o⟩
  rintro hinv dt - k htree rfl hk hlim hinner habs
  have henv : s.decodeEnv.tree = dt := by rw [State.decodeEnv, htree, Option.getD_some]
  obtain ⟨-, -, hdepth, -⟩ := hinv.dtree dt htree
  subst henv
  exact Decoder.feedAll_off_tree hdepth _ hd (by rwa [hlen]) hinv.cur (by rwa [hlen]) hlim hinner habs

end Sys2Proof.Machine
end

section
/-! Reset and the hazards of a busy core (R360, R367): what a hardware reset gives, that the reset state has the invariant, and what the host reads while a command runs. -/

namespace Sys2Proof.Machine

/-! ### The hardware reset (R360) -/

theorem State.resetWith_bsAt (p : Params) (i : BsIdx) : (State.resetWith p).bsAt i = .empty := by
  fin_cases i <;> rfl

/-- After reset no status bit is set, and WIDTH is 0 (R35). -/
theorem State.resetWith_statusWord (p : Params) : (State.resetWith p).statusWord = 0 := by
  simp [State.statusWord, flagAt, bitWord, State.busy, State.etreeV, State.ctValid, State.dtreeV, State.resetWith]

/-- IRQ is low after reset: neither cause is enabled, and neither holds (R332). -/
theorem State.resetWith_irq (p : Params) : (State.resetWith p).irq = false := by
  simp [State.irq, State.resetWith]

/-- Settles O14: the host's move (`step_idle`, `step_busy_host`) is `State.hardReset`, and the reset columns of R30 and R31 are those of `State.resetWith`. -/
theorem hardwareResetGivesTheResetState : Obligations.HardwareResetGivesTheResetState :=
  ⟨fun _ ha => ⟨fun hr => step_idle hr ha rfl rfl, fun hr ht => step_busy_host hr ha rfl rfl ht⟩,
    fun p => ⟨rfl, rfl, State.resetWith_bsAt p, rfl, rfl, rfl, rfl, rfl, rfl, rfl, rfl,
      State.resetWith_statusWord p, rfl, rfl, rfl, rfl, State.resetWith_irq p⟩⟩

/-- The parameters of an implementation are among those R8 and R9 allow. -/
theorem configParams_ok : Config.params.ok := by
  have hsym : Config.rawSymCap % 4294967295 < 4294967295 := Nat.mod_lt _ (by decide)
  have hnode : Config.rawNodeCap % (2 ^ 64 - 2 * Config.symCap) < 2 ^ 64 - 2 * Config.symCap :=
    Nat.mod_lt _ (by unfold Config.symCap; omega)
  simp only [Params.ok, Config.params, Config.nodeCap]
  unfold Config.symCap at hnode ⊢
  omega

/-- Settles O50: `inv_resetWith`, at the parameters of every implementation (`configParams_ok`). -/
theorem resetHasTheInvariant : Obligations.ResetHasTheInvariant :=
  ⟨fun _ => inv_resetWith, inv_resetWith configParams_ok, rfl⟩

/-! ### Reads while BUSY = 1 (R367) -/

/-- While BUSY = 1 the current STATUS is recorded, 0 for a reserved index, and else a free value (R54, R367; logs 3, 21). -/
theorem State.regRead_busy_rdRec {s : State} (hr : s.run ≠ .idle) (idx : BitVec 8) :
    (s.regRead idx).host.rdRec = s.host.rdRec ++ [if idx = 0x01#8 then s.readReg 0x01
      else if 0x1A ≤ idx.toNat then 0 else Config.freeRead s.host.draws] := by
  have hb : s.busy = true := by simp [State.busy, hr]
  unfold State.regRead
  by_cases h1 : idx = 0x01#8
  · simp [h1]
  · by_cases h2 : 0x1A ≤ idx.toNat
    · simp [h1, h2, Nat.not_lt.2 h2, s.readReg_reserved h2]
    · simp [hb, h1, h2, Nat.lt_of_not_le h2]

/-- A read moves neither the core nor the host's program. -/
theorem State.regRead_keeps (s : State) (idx : BitVec 8) :
    (s.regRead idx).run = s.run ∧ (s.regRead idx).done = s.done ∧ (s.regRead idx).host.pc = s.host.pc := by
  unfold State.regRead
  split_ifs <;> exact ⟨rfl, rfl, rfl⟩

/-- Settles O60: the host moves (`step_busy_host`), and what it records is `State.regRead_busy_rdRec`. -/
theorem readsWhileBusy : Obligations.ReadsWhileBusy := by
  intro s idx hr ha ht
  obtain ⟨hrun, hdone, hpc⟩ := s.popTurn.regRead_keeps idx
  have hframe : s.sameBut (s.popTurn.regRead idx).advance [.host] :=
    State.sameBut_trans (State.sameBut_trans s.sameBut_popTurn (s.popTurn.sameBut_regRead idx)) (State.sameBut_advance _)
  exact ⟨_, step_busy_host hr ha rfl rfl ht, hrun, hdone, hframe, congrArg (· + 1) hpc,
    State.regRead_busy_rdRec (s := s.popTurn) hr idx⟩

end Sys2Proof.Machine
end

section
/-! The order of the checks (R329): the first one that fails raises its record, and nothing else happens. -/

namespace Sys2Proof.Machine

section
variable {s : State} {check first second : Option Raise} {r : Raise} {k : Out}

theorem State.checked_of_fails (h : check = some r) : s.checked check k = .next (s.raise r) := by rw [h]; rfl

/-- Of two checks the first counts if it fails. -/
theorem State.checked_first (h : first = some r) : s.checked (first.or second) k = .next (s.raise r) :=
  State.checked_of_fails (Option.or_eq_some_iff.2 (.inl h))

/-- The second counts if the first does not fail. -/
theorem State.checked_second (h₁ : first = none) (h₂ : second = some r) :
    s.checked (first.or second) k = .next (s.raise r) :=
  State.checked_of_fails (Option.or_eq_some_iff.2 (.inr ⟨h₁, h₂⟩))

/-- WIDTH comes first, for every command that depends on it (check 2, id 1). -/
theorem exec_noWidth {i : Instr} (hi : i.needsWidth = true) (hw : s.width = 0) :
    exec i s = .next (s.raise (stateError 1 i.op)) := by
  have fails : ∀ op, s.needWidth op = some (stateError 1 op) := fun op => s.needWidth_fail op hw
  cases i with
  | freqScan | buildTree | assignCodes | deserTable => exact State.checked_of_fails (fails _)
  | freqAdd | freqSet | freqGet | codeGet | codeSet | serTable | reconTree | pack | unpackByte | unpack =>
    exact State.checked_first (fails _)
  | packSym => exact State.checked_first (Option.or_eq_some_iff.2 (.inl (fails _)))
  | _ => cases hi

/-- With WIDTH set, an empty CT comes next (check 3, id 3). -/
theorem exec_noCt {i : Instr} (hi : i ∈ [Instr.serTable, .reconTree, .packSym, .pack]) (hw : s.width ≠ 0)
    (hct : s.ctValid = false) : exec i s = .next (s.raise (stateError 3 i.op)) := by
  have ok : ∀ op, s.needWidth op = none := fun op => s.needWidth_ok op hw
  have fails : ∀ op, s.needCt op = some (stateError 3 op) := fun op => s.needCt_fail op hct
  simp only [List.mem_cons, List.not_mem_nil, or_false] at hi
  rcases hi with rfl | rfl | rfl | rfl
  case inr.inr.inl => exact State.checked_first (Option.or_eq_some_iff.2 (.inr ⟨ok _, fails _⟩))
  all_goals exact State.checked_second (ok _) (fails _)

/-- So does a missing decode tree (check 3, id 4). -/
theorem exec_noDtree {i : Instr} (hi : i ∈ [Instr.unpackByte, .unpack]) (hw : s.width ≠ 0) (hdt : s.dtreeV = false) :
    exec i s = .next (s.raise (stateError 4 i.op)) := by
  simp only [List.mem_cons, List.not_mem_nil, or_false] at hi
  rcases hi with rfl | rfl
  all_goals exact State.checked_second (s.needWidth_ok _ hw) (s.needDtree_fail _ hdt)

/-- So does a missing encoder tree (check 3, id 2; log 27). -/
theorem exec_noEtree (hw : s.width ≠ 0) (het : s.etreeV = false) :
    exec .assignCodes s = .next (s.raise (stateError 2 0x31)) := by
  have hn : s.etree = none := by simpa [State.etreeV] using het
  simp [exec, execAssignCodes, s.needWidth_ok _ hw, hn, State.fail]

/-- With the preconditions met, the symbol operand is checked (check 4, R120). -/
theorem exec_badSymbol {i : Instr} (hi : i.takesSymbol = true) (hw : s.width ≠ 0)
    (hct : i = .packSym → s.ctValid = true) (ha : 2 ^ (8 * s.symWidth) ≤ s.latch.a0.toNat) :
    exec i s = .next (s.raise ⟨.illegalArgument, 0, BitVec.ofNat 64 (2 ^ (8 * s.symWidth) - 1), s.latch.a0, 0⟩) := by
  have ok : ∀ op, s.needWidth op = none := fun op => s.needWidth_ok op hw
  cases i with
  | freqAdd | freqSet | freqGet | codeGet | codeSet => exact State.checked_second (ok _) (s.needSymbol_fail ha)
  | packSym =>
    exact State.checked_second (Option.or_eq_none_iff.2 ⟨ok _, s.needCt_ok _ (hct rfl)⟩) (s.needSymbol_fail ha)
  | _ => cases hi

/-- CODE_SET's own argument comes after its symbol: the code has a bit (R218). -/
theorem exec_codeSet_noCode {rs : BsIdx} (h : s.symbolOk) (hl : (s.bsAt rs).len = 0) :
    exec (.codeSet rs) s = .next (s.raise ⟨.illegalArgument, 0, 1, 0, s.latch.a0⟩) :=
  (State.checked_symbolOk h 0x33 _).trans (if_pos hl)

/-- UNPACK_BYTE's own argument comes last: A0 is a byte (R302). -/
theorem exec_unpackByte_noByte (hw : s.width ≠ 0) (hdt : s.dtreeV = true) (ha : 0xFF < s.latch.a0.toNat) :
    exec .unpackByte s = .next (s.raise ⟨.illegalArgument, 0, 0xFF, s.latch.a0, 0⟩) := by
  simp [exec, execUnpackByte, s.needWidth_ok _ hw, s.needDtree_ok _ hdt, ha, State.fail]

end

/-- Settles O10: one lemma for each check, in the order of R329. -/
theorem checksComeInOrder : Obligations.ChecksComeInOrder := fun _ =>
  ⟨fun _ => exec_noWidth, fun hw =>
    ⟨exec_noEtree hw, fun hct _ hi => exec_noCt hi hw hct, fun hdt _ hi => exec_noDtree hi hw hdt,
      fun _ hi hct => exec_badSymbol hi hw hct, fun _ ha => exec_codeSet_noCode ⟨hw, ha⟩,
      exec_unpackByte_noByte hw⟩⟩

end Sys2Proof.Machine
end

section
/-! The error record (R328): in error only SRESET and ERR_CLR are run, which clear it, and of the host's actions only the hardware reset touches it. -/

namespace Sys2Proof.Machine

/-- The error and its record are as before, or cleared. -/
def State.recordKept (s t : State) : Prop :=
  (t.err = s.err ∧ t.errRec = s.errRec) ∨ (t.err = false ∧ t.errRec = .zero)

/-- If the outcome is a next state, the record is kept or cleared in it. -/
def Out.keepsRecord (s : State) (o : Out) : Prop := ∀ t, o = .next t → s.recordKept t

section
variable {s : State}

theorem keepsRecord_next {t : State} (h : s.recordKept t) : Out.keepsRecord s (.next t) := fun _ e => by cases e; exact h

theorem keepsRecord_fault (f : Fault) : Out.keepsRecord s (.fault f) := fun _ e => by cases e

theorem State.recordKept_of_sameBut {t : State} {ps : List Part} (h : s.sameBut t ps) (he : .error ∉ ps) :
    s.recordKept t := .inl (h .error he)

theorem State.hostAct_recordKept (s : State) (a : HostAction) : s.recordKept (s.hostAct a) := by
  cases a with
  | wr idx v =>
    simp only [State.hostAct]
    split_ifs
    · exact State.recordKept_of_sameBut (s.sameBut_ioFail v) (by decide)
    · exact State.recordKept_of_sameBut (s.sameBut_writeReg idx v) (by decide)
  | rd idx => exact State.recordKept_of_sameBut (s.sameBut_regRead idx) (by decide)
  | wait => exact .inl ⟨rfl, rfl⟩
  | push t => exact .inl ⟨rfl, rfl⟩
  | pop => exact State.recordKept_of_sameBut s.sameBut_popOut (by decide)
  | drain => exact State.recordKept_of_sameBut s.sameBut_drainOut (by decide)
  | hwReset => exact .inr ⟨rfl, rfl⟩

/-- The word accepted in error is SRESET's or ERR_CLR's (R326), and either clears the record (R141, R142). -/
theorem runWord_keepsRecord {w : BitVec 32} (hi : s.Inv) (he : s.err = true) (hr : s.run = .accepted w) :
    Out.keepsRecord s (s.runWord w) := by
  have hw := hi.errQuiet he
  simp only [hr, Run.accepted.injEq, reduceCtorEq, false_or] at hw
  rcases hw with rfl | rfl
  · exact keepsRecord_next (t := s.softReset.complete) (.inr ⟨rfl, rfl⟩)
  · exact keepsRecord_next (t := s.clearError.complete) (.inr ⟨rfl, rfl⟩)

/-- In error the core runs an accepted word or nothing. -/
theorem coreStep_keepsRecord (hi : s.Inv) (he : s.err = true) : Out.keepsRecord s s.coreStep := by
  unfold State.coreStep
  split
  · exact keepsRecord_next (.inl ⟨rfl, rfl⟩)
  · next hr => exact runWord_keepsRecord hi he hr
  · next todo hr => rw [err_of_running hi todo hr] at he; cases he

theorem hostStep_keepsRecord (hi : s.Inv) (he : s.err = true) (a : HostAction) :
    Out.keepsRecord s (s.hostStep a) := by
  unfold State.hostStep
  split
  · next w _ =>
    split_ifs with hd
    · exact keepsRecord_next (.inl ⟨rfl, rfl⟩)
    · have hacc : (s.advance.accept w).Inv := inv_accept (inv_advance hi) (Bool.eq_false_iff.2 hd)
      exact runWord_keepsRecord hacc he rfl
    · exact keepsRecord_next (.inl ⟨rfl, rfl⟩)
  · exact keepsRecord_next (s.hostAct_recordKept a)

/-- A step of a machine in error keeps the record or clears it, whoever moves. -/
theorem step_keepsRecord (hi : s.Inv) (he : s.err = true) : Out.keepsRecord s (step s) := by
  have ht := inv_popTurn hi
  unfold step State.cycle
  split
  · dsimp only
    split
    · exact coreStep_keepsRecord ht he
    · split
      · exact hostStep_keepsRecord ht he _
      · exact keepsRecord_fault _
    · split
      · exact coreStep_keepsRecord (s := { s.popTurn with iofSkip := 0 }) (inv_outside ht) he
      · exact keepsRecord_fault _
  · split
    · exact keepsRecord_next (.inl ⟨rfl, rfl⟩)
    · split
      · exact hostStep_keepsRecord hi he _
      · exact keepsRecord_fault _

end

/-- Settles O9: whoever moves in error keeps the record or clears it (`step_keepsRecord`). -/
theorem recordIsKeptUntilCleared : Obligations.RecordIsKeptUntilCleared := by
  intro s t hi he h
  have hk : s.recordKept t := step_keepsRecord hi he t h
  rwa [State.recordKept, he] at hk

end Sys2Proof.Machine
end

section
/-! Where a command stops (R102, R375; log 5): with no turns given the core runs until its command has ended or waits. -/

namespace Sys2Proof.Machine

/-- With no turns given the core goes on as long as it can (R375). -/
theorem State.settle_stops {s : State} (ht : s.host.turns = []) (hb : s.bounded) : s.settle.canMove = false := by
  rw [State.settle, ht, List.isEmpty_nil, if_pos rfl]
  exact runMicro_stops _ _ hb le_rfl

/-- No command writes the host's side, its turns included (R84). -/
theorem State.within_host {i : Instr} {s u : State} (h : s.within u i.mayWrite) : u.host = s.host :=
  h.1 .host (by cases i <;> simp [Instr.mayWrite, packerParts, decoderParts])

/-- Only DESER_TABLE's micro-operations can exceed the bound of `State.work`. -/
theorem State.bounded_of_doing {i : Instr} {u : State} (hi : i ≠ .deserTable) (hd : u.doing i) : u.bounded := by
  intro todo hr m hm
  have hdoes : i.does m = true := (State.doing_running hr).1 hd m hm
  cases m with
  | deser d => cases i <;> first | exact absurd rfl hi | cases hdoes
  | _ => trivial

/-- DESER_TABLE begins within the bound: it has no code to read yet. -/
theorem State.bounded_deserStart (s : State) : (s.begin [.deser deserStart]).bounded := by
  intro todo hr m hm
  cases hr
  rw [List.mem_singleton.1 hm]
  exact fun hf => by cases hf

/-- A command's beginning runs until the core cannot move. -/
theorem exec_stops {i : Instr} {s t : State} (ht : s.host.turns = []) (h : exec i s = .next t) : t.canMove = false := by
  by_cases hi : i = .deserTable
  · subst hi
    by_cases hw : s.width = 0
    · cases h.symm.trans (exec_noWidth rfl hw)
      exact canMove_of_idle rfl
    · have hstart : execDeserTable s = (s.setCt []).start [.deser deserStart] := by
        rw [execDeserTable, s.needWidth_ok 0x41 hw, State.checked_none]
      cases h.symm.trans hstart
      exact State.settle_stops ht (State.bounded_deserStart _)
  · obtain ⟨u, hu, hd, hf⟩ := exec_begins i s
    cases h.symm.trans hu
    exact State.settle_stops (State.within_host hf ▸ ht) (State.bounded_of_doing hi hd)

theorem exec_doing {i : Instr} {s t : State} (h : exec i s = .next t) : t.doing i := by
  obtain ⟨u, hu, hd, -⟩ := exec_begins i s
  cases h.symm.trans hu
  exact State.settle_doing hd

/-- A later move of the core leaves the command's own to do, and runs until the core cannot move. -/
theorem State.coreStep_stops {i : Instr} {s t : State} (hi : s.Inv) (hd : s.doing i) (h : s.coreStep = .next t) :
    t.doing i ∧ (s.host.turns = [] → t.canMove = false) := by
  unfold State.coreStep at h
  split at h
  · next hr =>
    cases h
    exact ⟨hd, fun _ => canMove_of_idle hr⟩
  · next w hr => simp [State.doing, hr] at hd
  · cases h
    have hh : s.microStep.host = s.host := State.within_host (State.microStep_within hd)
    exact ⟨State.settle_doing (State.microStep_doing hd),
      fun ht => State.settle_stops (hh ▸ ht) (State.bounded_of_inv (inv_micro hi))⟩

/-- Settles O52: the core stops (`exec_stops`, `State.coreStep_stops`), and a command that cannot go on has ended or waits (`State.waits_of_stuck`). -/
theorem commandsEndOrWait : Obligations.CommandsEndOrWait := by
  refine fun i s t => ⟨fun h => ?_, fun hi hd h => ?_⟩
  · have hdoing := exec_doing h
    exact ⟨hdoing, fun ht => State.waits_of_stuck hdoing (exec_stops ht h)⟩
  · obtain ⟨hdoing, hstop⟩ := State.coreStep_stops hi hd h
    exact ⟨hdoing, fun ht => State.waits_of_stuck hdoing (hstop ht)⟩

end Sys2Proof.Machine
end

section
/-! How a micro-operation ends (R145, R323, R331): it goes on or waits, raises one of its own causes with the registers as they were, or is the end of its command. -/

namespace Sys2Proof.Machine

/-! ### Going on and raising -/

/-- From s to t the command has not ended: no error is raised, no register written, and a pending IOFAIL abort stays. -/
def State.goesOn (s t : State) : Prop :=
  t.err = s.err ∧ t.regs = s.regs ∧ t.iof = s.iof ∧ (t.run = .idle → s.run = .idle)

/-- t is an error with one of these causes, raised with the registers as in s (R323, R34). -/
def State.raisesIn (s : State) (cs : List Cause) (t : State) : Prop :=
  ∃ (u : State) (r : Raise), t = u.raise r ∧ u.regs = s.regs ∧ r.cause ∈ cs

/-- The command goes on, or raises one of these causes. -/
def State.goesOnOr (s : State) (cs : List Cause) (t : State) : Prop := s.goesOn t ∨ s.raisesIn cs t

section
variable {s u : State} {cs : List Cause} {r : Raise}

theorem State.goesOnOr_refl (s : State) (cs : List Cause) : s.goesOnOr cs s := .inl ⟨rfl, rfl, rfl, id⟩

theorem State.goesOnOr_goOn (he : u.err = s.err) (hr : u.regs = s.regs) (hi : u.iof = s.iof) (todo : List Micro) :
    s.goesOnOr cs (u.goOn todo) := .inl ⟨he, hr, hi, fun h => by cases h⟩

theorem State.goesOnOr_raise (hr : u.regs = s.regs) (hc : r.cause ∈ cs) : s.goesOnOr cs (u.raise r) :=
  .inr ⟨u, r, rfl, hr, hc⟩

/-- Only what is left to do changes. -/
theorem State.goesOnOr_then (s : State) (cs : List Cause) (todo : List Micro) : s.goesOnOr cs (s.goOn todo) :=
  State.goesOnOr_goOn rfl rfl rfl todo

theorem incCount_cause {x id : Word} (h : incCount x id = .error r) : r.cause = .countOverflow := by
  unfold incCount at h
  split_ifs at h
  cases h
  rfl

theorem bumpCount_cause {cap : Nat} {ft : FMap Word} {start v : Word} (h : bumpCount cap ft start v = .error r) :
    r.cause = .capacity ∨ r.cause = .countOverflow := by
  unfold bumpCount at h
  split at h
  · split_ifs at h
    cases h
    exact .inl rfl
  · split_ifs at h
    cases h
    exact .inr rfl

/-- A count that overflows is the only error of `incCount` (R17). -/
theorem State.goesOnOr_overflow {x id : Word} (hr : u.regs = s.regs) (h : incCount x id = .error r)
    (hc : .countOverflow ∈ cs) : s.goesOnOr cs (u.raise r) := State.goesOnOr_raise hr (incCount_cause h ▸ hc)

/-! ### InRead and OutWrite (R82, R83) -/

theorem State.inRead_goesOnOr {a : State} {k : Token → State → State} (ha : s.raisesIn cs a)
    (hk : ∀ (v : State) (t : Token), v.goesOnOr cs (k t v)) : s.goesOnOr cs (s.inRead a k) := by
  rcases s.inRead_cases a k with ⟨-, -, e⟩ | ⟨-, e⟩ | ⟨t, rest, -, -, e⟩ <;> rw [e]
  · exact .inr ha
  · exact s.goesOnOr_refl cs
  · exact hk (s.took rest) t

theorem State.raisesIn_abortIO (hc : .ioError ∈ cs) : s.raisesIn cs s.abortIO := ⟨s, _, rfl, rfl, hc⟩

theorem State.raisesIn_abortDeser (hc : .ioError ∈ cs) : s.raisesIn cs s.abortDeser := ⟨s.putCt [], _, rfl, rfl, hc⟩

theorem State.outWrite_goesOnOr {b : Byte} {k : State → State} (hc : .ioError ∈ cs)
    (hk : ∀ v : State, v.goesOnOr cs (k v)) : s.goesOnOr cs (s.outWrite b k) := by
  rcases s.outWrite_cases b k with ⟨-, e⟩ | ⟨-, -, e⟩ | ⟨-, -, e⟩ <;> rw [e]
  · exact .inr (State.raisesIn_abortIO hc)
  · exact hk (s.wroteByte b)
  · exact s.goesOnOr_refl cs

end

/-! ### The packer (R280, R285) -/

theorem State.emitBit_goesOnOr (s : State) (b : Bool) (rest : List Micro) :
    s.goesOnOr [.countOverflow] (s.emitBit b rest) := by
  rcases s.emitBit_cases b rest with ⟨-, e⟩ | ⟨-, -, e⟩ | ⟨-, -, e⟩ <;> rw [e]
  · exact State.goesOnOr_raise rfl (by decide)
  · exact State.goesOnOr_goOn rfl rfl rfl _
  · exact State.goesOnOr_goOn rfl rfl rfl _

/-- What PACK's loop can raise (R285). -/
abbrev packCauses : List Cause := [.ioError, .countOverflow, .unknownSymbol]

theorem State.packSymbol_goesOnOr (s : State) (start v : Word) (rest : List Micro) :
    s.goesOnOr packCauses (s.packSymbol start v rest) := by
  unfold State.packSymbol
  split
  · exact State.goesOnOr_raise rfl (by simp)
  · split
    · next h => exact State.goesOnOr_overflow rfl h (by decide)
    · exact State.goesOnOr_goOn rfl rfl rfl _

theorem State.packToken_goesOnOr (s : State) (nbytes start : Word) (chunk : List Byte) (t : Token) :
    s.goesOnOr packCauses (s.packToken nbytes start chunk t) := by
  unfold State.packToken
  split
  · exact State.goesOnOr_raise rfl (by simp)
  · split
    · next h => exact State.goesOnOr_overflow rfl h (by decide)
    · dsimp only
      split_ifs
      · exact s.packSymbol_goesOnOr _ _ _
      · exact s.goesOnOr_then _ _
  · split_ifs
    · exact s.goesOnOr_then _ _
    · exact s.packSymbol_goesOnOr _ _ _

/-! ### The frequency scan (R196) -/

/-- What FREQ_SCAN's loop can raise (R196). -/
abbrev scanCauses : List Cause := [.ioError, .capacity, .countOverflow]

theorem State.scanCount_goesOnOr (s : State) (nsym start v : Word) {k : Word → State → State}
    (hk : ∀ (n : Word) (u : State), u.goesOnOr scanCauses (k n u)) :
    s.goesOnOr scanCauses (s.scanCount nsym start v k) := by
  unfold State.scanCount
  split
  · next h =>
    refine State.goesOnOr_raise rfl ?_
    rcases bumpCount_cause h with hc | hc <;> rw [hc] <;> decide
  · next m _ =>
    split
    · next h => exact State.goesOnOr_overflow rfl h (by decide)
    · exact hk _ (s.putFt m)

theorem State.scanToken_goesOnOr (s : State) (nsym nbytes start : Word) (chunk : List Byte) (t : Token) :
    s.goesOnOr scanCauses (s.scanToken nsym nbytes start chunk t) := by
  unfold State.scanToken
  split
  · exact State.goesOnOr_raise rfl (by simp)
  · split
    · next h => exact State.goesOnOr_overflow rfl h (by decide)
    · dsimp only
      split_ifs
      · exact s.scanCount_goesOnOr _ _ _ fun _ u => u.goesOnOr_then _ _
      · exact s.goesOnOr_then _ _
  · split_ifs
    · exact s.goesOnOr_then _ _
    · exact s.scanCount_goesOnOr _ _ _ fun _ u => u.goesOnOr_then _ _

/-! ### The decoder (R300, R303) -/

theorem State.deliver_goesOnOr (s : State) (sy : Word) (rest : List Micro) :
    s.goesOnOr [.countOverflow] (s.deliver sy rest) := by
  unfold State.deliver
  split
  · next h => exact State.goesOnOr_overflow rfl h (by decide)
  · exact State.goesOnOr_goOn rfl rfl rfl _

theorem State.arrive_goesOnOr (s : State) (rest : List Micro) : s.goesOnOr [.countOverflow] (s.arrive rest) := by
  rcases s.arrive_cases rest with ⟨-, e⟩ | ⟨-, -, e⟩ | ⟨sy, -, -, -, e⟩ <;> rw [e]
  · exact s.goesOnOr_then _ _
  · exact State.goesOnOr_goOn rfl rfl rfl _
  · exact s.deliver_goesOnOr sy rest

theorem State.follow_goesOnOr (s : State) (b : Bool) (rest : List Micro) :
    s.goesOnOr [.countOverflow] (s.follow b rest) := by
  unfold State.follow
  split_ifs
  · exact State.goesOnOr_goOn rfl rfl rfl _
  · exact State.arrive_goesOnOr (s.setDecoder _) rest

theorem State.decodeBit_goesOnOr (s : State) (b : Bool) (rest : List Micro) :
    s.goesOnOr [.countOverflow] (s.decodeBit b rest) := by
  rcases s.decodeBit_cases b rest with ⟨-, -, e⟩ | ⟨-, -, e⟩ | ⟨-, -, e⟩ <;> rw [e]
  · exact State.goesOnOr_goOn rfl rfl rfl _
  · exact State.goesOnOr_raise rfl (by decide)
  · exact State.follow_goesOnOr (s.setDecoder _) b rest

theorem State.unpackToken_goesOnOr (s : State) (nbytes : Word) (t : Token) :
    s.goesOnOr [.ioError, .countOverflow] (s.unpackToken nbytes t) := by
  unfold State.unpackToken
  split
  · exact State.goesOnOr_raise rfl (by simp)
  · exact s.goesOnOr_then _ _
  · split
    · next h => exact State.goesOnOr_overflow rfl h (by decide)
    · exact s.goesOnOr_then _ _

/-! ### The table reader (R247) -/

/-- What DESER_TABLE's reader can raise (R247). -/
abbrev deserCauses : List Cause := [.malformedTable, .ioError, .codeOverflow, .capacity]

theorem State.failDeser_goesOnOr (s : State) {r : Raise} (hc : r.cause ∈ deserCauses) :
    s.goesOnOr deserCauses (s.failDeser r) := State.goesOnOr_raise (u := s.putCt []) rfl hc

theorem State.deserField_goesOnOr (s : State) (d : Deser) : s.goesOnOr deserCauses (s.deserField d) := by
  unfold State.deserField
  split
  case h_1 | h_3 =>
    dsimp only
    split_ifs
    · exact s.failDeser_goesOnOr (by simp)
    · exact s.failDeser_goesOnOr (by simp)
    · exact s.goesOnOr_then _ _
  case h_2 =>
    dsimp only
    split_ifs
    · exact s.failDeser_goesOnOr (by simp)
    · exact s.goesOnOr_then _ _
  case h_4 =>
    dsimp only
    split_ifs
    · exact State.goesOnOr_goOn rfl rfl rfl _
    · exact State.goesOnOr_goOn rfl rfl rfl _

theorem State.deserToken_goesOnOr (s : State) (d : Deser) (t : Token) :
    s.goesOnOr deserCauses (s.deserToken d t) := by
  unfold State.deserToken
  split
  · exact s.failDeser_goesOnOr (by simp)
  · exact s.failDeser_goesOnOr (by simp)
  · dsimp only
    split_ifs
    · exact s.deserField_goesOnOr _
    · exact s.goesOnOr_then _ _

/-! ### Every micro-operation -/

/-- The causes a micro-operation can raise: each end of a command, each InRead and each OutWrite is a boundary of an IOFAIL abort (R331). -/
def Micro.raises : Micro → List Cause
  | .emitBit _ => [.countOverflow]
  | .outPB => [.ioError]
  | .pad => []
  | .decodeBit _ => [.countOverflow]
  | .out _ => [.ioError]
  | .toRoot => []
  | .scan _ _ _ _ => scanCauses
  | .packIn _ _ _ => packCauses
  | .unpackIn _ => [.ioError, .countOverflow]
  | .deser _ => deserCauses
  | .finish _ => [.ioError]

theorem State.abortFinish_raisesIn (s : State) (f : Finish) : s.raisesIn [.ioError] (s.abortFinish f) := by
  cases f with
  | deserTable n t => exact State.raisesIn_abortDeser (by decide)
  | _ => exact State.raisesIn_abortIO (by decide)

/-- A micro-operation goes on or raises, or it is the end of a command that no IOFAIL abort is pending for (R145, R331). -/
theorem State.perform_cases (s : State) (m : Micro) (rest : List Micro) :
    s.goesOnOr m.raises (s.perform m rest) ∨
    ∃ f, s.iof = false ∧ s.perform m rest = (s.writeResults f).complete := by
  cases m with
  | finish f =>
    unfold State.perform State.finish
    cases hi : s.iof with
    | true => exact .inl (.inr (s.abortFinish_raisesIn f))
    | false => exact .inr ⟨f, rfl, rfl⟩
  | emitBit b => exact .inl (s.emitBit_goesOnOr b rest)
  | outPB => exact .inl (State.outWrite_goesOnOr (by decide) fun _ => State.goesOnOr_goOn rfl rfl rfl _)
  | pad =>
    refine .inl ?_
    unfold State.perform
    split_ifs
    · exact s.goesOnOr_then _ _
    · exact s.goesOnOr_then _ _
  | decodeBit b => exact .inl (s.decodeBit_goesOnOr b rest)
  | out b => exact .inl (State.outWrite_goesOnOr (by simp [Micro.raises]) fun v => v.goesOnOr_then _ _)
  | toRoot => exact .inl (State.goesOnOr_goOn rfl rfl rfl _)
  | scan nsym nbytes start chunk =>
    exact .inl (State.inRead_goesOnOr (State.raisesIn_abortIO (by simp [Micro.raises])) fun v t => v.scanToken_goesOnOr _ _ _ _ t)
  | packIn nbytes start chunk =>
    exact .inl (State.inRead_goesOnOr (State.raisesIn_abortIO (by simp [Micro.raises])) fun v t => v.packToken_goesOnOr _ _ _ t)
  | unpackIn nbytes =>
    exact .inl (State.inRead_goesOnOr (State.raisesIn_abortIO (by simp [Micro.raises])) fun v t => v.unpackToken_goesOnOr _ t)
  | deser d =>
    exact .inl (State.inRead_goesOnOr (State.raisesIn_abortDeser (by simp [Micro.raises])) fun v t => v.deserToken_goesOnOr d t)

/-- A command's micro-operations raise only causes listed for it (R321); the other pairs of a command and a micro-operation do not occur. -/
theorem Micro.raises_subset {i : Instr} {m : Micro} (h : i.does m = true) : m.raises ⊆ i.raises := by
  cases m with
  | finish f =>
    cases i <;> cases f <;> first | exact absurd h Bool.false_ne_true | simp [Micro.raises, Instr.raises]
  | _ => cases i <;> first | exact absurd h Bool.false_ne_true | simp [Micro.raises, Instr.raises]

end Sys2Proof.Machine
end

section
/-! How a command ends in an error (R321, R323, R34): each begins by raising a cause of its list, by completing, or with its own micro-operations to do, and what these raise is in its list too. -/

namespace Sys2Proof.Machine

/-! ### The causes of the checks and of the tree commands (R329, R212, R214, R261) -/

/-- A check raises only these causes. -/
def checkRaises (check : Option Raise) (cs : List Cause) : Prop := ∀ r, check = some r → r.cause ∈ cs

section
variable {s : State} {op : BitVec 8} {cs : List Cause}

theorem checkRaises_none : checkRaises none cs := fun _ h => by cases h

theorem checkRaises_some {r : Raise} (hc : r.cause ∈ cs) : checkRaises (some r) cs := fun _ h => by cases h; exact hc

theorem checkRaises_ite {p : Prop} [Decidable p] {a b : Option Raise} (ha : checkRaises a cs) (hb : checkRaises b cs) :
    checkRaises (if p then a else b) cs := by
  split_ifs
  · exact ha
  · exact hb

theorem checkRaises_needWidth (hc : .stateError ∈ cs) : checkRaises (s.needWidth op) cs :=
  checkRaises_ite (checkRaises_some hc) checkRaises_none

theorem checkRaises_needCt (hc : .stateError ∈ cs) : checkRaises (s.needCt op) cs :=
  checkRaises_ite checkRaises_none (checkRaises_some hc)

theorem checkRaises_needDtree (hc : .stateError ∈ cs) : checkRaises (s.needDtree op) cs :=
  checkRaises_ite checkRaises_none (checkRaises_some hc)

theorem checkRaises_needSymbol (hc : .illegalArgument ∈ cs) : checkRaises s.needSymbol cs :=
  checkRaises_ite checkRaises_none (checkRaises_some hc)

theorem checkRaises_or {first second : Option Raise} (h₁ : checkRaises first cs) (h₂ : checkRaises second cs) :
    checkRaises (first.or second) cs := fun r h =>
  (Option.or_eq_some_iff.1 h).elim (h₁ r) fun h => h₂ r h.2

end

theorem mergeAll_cause (n : Nat) : ∀ (seq : Nat) (q : List QEntry) {r : Raise}, mergeAll n seq q = .error r →
    r.cause = .countOverflow := by
  induction n with
  | zero => intro seq q r h; cases h
  | succ n ih =>
    intro seq q r h
    match q with
    | [] => cases h
    | [_] => cases h
    | _ :: _ :: _ =>
      rw [mergeAll] at h
      split_ifs at h
      · cases h; rfl
      · exact ih _ _ h

theorem buildTree_cause {ft : FMap Word} {r : Raise} (h : buildTree ft = .error r) :
    r.cause = .emptyInput ∨ r.cause = .countOverflow := by
  unfold buildTree at h
  split at h
  · cases h; exact .inl rfl
  · cases h
  · split at h
    · next hm => cases h; exact .inr (mergeAll_cause _ _ _ hm)
    · cases h
    · cases h; exact .inl rfl

theorem visit_cause (t : ETree) : ∀ (p : List Bool) (ct : FMap BitSeq) (m : Nat) {r : Raise},
    visit t p ct m = .error r → r.cause = .codeOverflow := by
  induction t with
  | leaf v f =>
    intro p ct m r h
    rw [visit] at h
    split_ifs at h
    cases h
    rfl
  | node f left right ihl ihr =>
    intro p ct m r h
    rw [visit] at h
    split at h
    · next hl => cases h; exact ihl _ _ _ hl
    · exact ihr _ _ _ h
  | wrap f child ih => intro p ct m r h; exact ih _ _ _ h

theorem insertCode_cause (x : Entry) (p : List Bool) : ∀ (d : Nat) (t : DTree) (count : Nat) {r : Raise},
    insertCode x p d t count = .error r → r.cause = .invalidCodeTable ∨ r.cause = .capacity := by
  induction p with
  | nil =>
    intro d t count r h
    rw [insertCode] at h
    split_ifs at h
    · cases h; exact .inl rfl
    · cases h; exact .inl rfl
  | cons b p ih =>
    intro d t count r h
    rw [insertCode] at h
    split_ifs at h
    · cases h; exact .inl rfl
    · cases h; exact .inr rfl
    · split at h
      · next hi => cases h; exact ih _ _ _ hi
      · cases h
    · split at h
      · next hi => cases h; exact ih _ _ _ hi
      · cases h

theorem insertAll_cause (cap : Nat) (ct : FMap BitSeq) : ∀ (e : Nat) (t : DTree) (count maxd : Nat) {r : Raise},
    insertAll cap ct e t count maxd = .error r → r.cause = .invalidCodeTable ∨ r.cause = .capacity := by
  induction ct with
  | nil => intro e t count maxd r h; cases h
  | cons x ct ih =>
    intro e t count maxd r h
    rw [insertAll] at h
    split at h
    · next hi => cases h; exact insertCode_cause _ _ _ _ _ hi
    · exact ih _ _ _ _ h

/-! ### How a command begins -/

/-- What a command i answers in state s: an error of its list with the registers as they were, a success, or the run of its own micro-operations. -/
inductive Answers (i : Instr) (s : State) : Out → Prop where
  | raised (u : State) (r : Raise) (hr : u.regs = s.regs) (hc : r.cause ∈ i.raises) : Answers i s (u.fail r)
  | ended (u : State) (he : s.err = false → u.err = false) : Answers i s u.succeed
  | begun (u : State) (todo : List Micro) (he : u.err = s.err) (hr : u.regs = s.regs)
      (hd : (u.begin todo).doing i) : Answers i s (u.start todo)

section
variable {i : Instr} {s u : State}

theorem answers_checked {check : Option Raise} {k : Out} (hc : checkRaises check i.raises) (hk : Answers i s k) :
    Answers i s (s.checked check k) := by
  cases check with
  | none => exact hk
  | some r => exact .raised s r rfl (hc r rfl)

/-- A check of a command's own. -/
theorem answers_unless {p : Prop} [Decidable p] {r : Raise} {k : Out} (hc : r.cause ∈ i.raises) (hk : Answers i s k) :
    Answers i s (if p then s.fail r else k) := by
  split_ifs
  · exact .raised s r rfl hc
  · exact hk

/-- A stream command of one micro-operation. -/
theorem answers_startOne {m : Micro} (he : u.err = s.err) (hr : u.regs = s.regs) (hd : i.does m = true) :
    Answers i s (u.start [m]) := .begun u _ he hr (State.doing_one rfl hd)

/-- A stream command that does one micro-operation for each element of a list, and ends. -/
theorem answers_startMap {α : Type} (l : List α) {f : α → Micro} {e : Finish} (he : u.err = s.err)
    (hr : u.regs = s.regs) (hf : ∀ a, i.does (f a) = true) (hd : i.does (.finish e) = true) :
    Answers i s (u.start (l.map f ++ [.finish e])) := by
  refine .begun u _ he hr (State.doing_goOn (s := u.fresh) fun m hm => ?_)
  rcases List.mem_append.1 hm with hm | hm
  · obtain ⟨a, -, rfl⟩ := List.mem_map.1 hm; exact hf a
  · rw [List.mem_singleton.1 hm]; exact hd

end

section
variable (s : State)

theorem execFreqAdd_answers : Answers .freqAdd s (execFreqAdd s) := by
  refine answers_checked (checkRaises_or (checkRaises_needWidth (by decide)) (checkRaises_needSymbol (by decide))) ?_
  split
  · next h =>
    refine .raised s _ rfl ?_
    rcases bumpCount_cause h with hc | hc <;> rw [hc] <;> decide
  · exact .ended _ id

theorem execFreqSet_answers : Answers .freqSet s (execFreqSet s) :=
  answers_checked (checkRaises_or (checkRaises_needWidth (by decide)) (checkRaises_needSymbol (by decide)))
    (answers_unless (by simp [Instr.raises, capacityRaise]) (.ended _ id))

theorem execFreqGet_answers : Answers .freqGet s (execFreqGet s) := by
  refine answers_checked (checkRaises_or (checkRaises_needWidth (by decide)) (checkRaises_needSymbol (by decide))) ?_
  split
  · exact .ended _ id
  · exact .ended _ id

theorem execBuildTree_answers : Answers .buildTree s (execBuildTree s) := by
  refine answers_checked (checkRaises_needWidth (by decide)) ?_
  split
  · next h =>
    refine .raised (s.setEtree none) _ rfl ?_
    rcases buildTree_cause h with hc | hc <;> rw [hc] <;> decide
  · exact .ended _ id

theorem execAssignCodes_answers : Answers .assignCodes s (execAssignCodes s) := by
  refine answers_checked (checkRaises_needWidth (by decide)) ?_
  split
  · exact .raised s _ rfl (by decide)
  · unfold State.assignFrom
    split
    · next h =>
      refine .raised (s.setCt []) _ rfl ?_
      rw [visit_cause _ _ _ _ h]
      decide
    · exact .ended _ id

theorem execCodeGet_answers : Answers .codeGet s (execCodeGet s) := by
  refine answers_checked (checkRaises_or (checkRaises_needWidth (by decide)) (checkRaises_needSymbol (by decide))) ?_
  split
  · exact .ended _ id
  · exact .ended _ id

theorem execCodeSet_answers (rs : BsIdx) : Answers (.codeSet rs) s (execCodeSet rs s) :=
  answers_checked (checkRaises_or (checkRaises_needWidth (by simp [Instr.raises]))
    (checkRaises_needSymbol (by simp [Instr.raises])))
    (answers_unless (by simp [Instr.raises]) (answers_unless (by simp [Instr.raises, capacityRaise]) (.ended _ id)))

theorem execReconTree_answers : Answers .reconTree s (execReconTree s) := by
  refine answers_checked (checkRaises_or (checkRaises_needWidth (by decide)) (checkRaises_needCt (by decide))) ?_
  split
  · next h =>
    refine .raised ((s.setDtree none).setDecoder .init) _ rfl ?_
    rcases insertAll_cause _ _ _ _ _ _ h with hc | hc <;> rw [hc] <;> decide
  · exact .ended _ id

theorem execPackSym_answers : Answers .packSym s (execPackSym s) := by
  refine answers_checked (checkRaises_or (checkRaises_or (checkRaises_needWidth (by decide))
    (checkRaises_needCt (by decide))) (checkRaises_needSymbol (by decide))) ?_
  unfold State.packCode
  split
  · exact .raised s _ rfl (by simp [Instr.raises])
  · split
    · next h =>
      refine .raised s _ rfl ?_
      rw [incCount_cause h]
      decide
    · exact answers_startMap _ rfl rfl (fun _ => rfl) rfl

theorem execPackFlush_answers : Answers .packFlush s (execPackFlush s) := by
  unfold execPackFlush
  split_ifs
  · exact answers_startOne rfl rfl rfl
  · exact .begun s _ rfl rfl (State.doing_goOn (s := s.fresh) (by decide))

theorem execUnpackByte_answers : Answers .unpackByte s (execUnpackByte s) :=
  answers_checked (checkRaises_or (checkRaises_needWidth (by decide)) (checkRaises_needDtree (by decide)))
    (answers_unless (by simp [Instr.raises]) (answers_startMap _ rfl rfl (fun _ => rfl) rfl))

/-- Every command answers in one of the three ways. -/
theorem exec_answers (i : Instr) : Answers i s (exec i s) := by
  cases i with
  | setWidth | bsApp | bsGet | bsLd | bsCat => exact answers_unless (by simp [Instr.raises]) (.ended _ id)
  | freqAdd => exact execFreqAdd_answers s
  | freqSet => exact execFreqSet_answers s
  | freqGet => exact execFreqGet_answers s
  | buildTree => exact execBuildTree_answers s
  | assignCodes => exact execAssignCodes_answers s
  | codeGet => exact execCodeGet_answers s
  | codeSet rs => exact execCodeSet_answers s rs
  | reconTree => exact execReconTree_answers s
  | packSym => exact execPackSym_answers s
  | packFlush => exact execPackFlush_answers s
  | unpackByte => exact execUnpackByte_answers s
  | freqScan => exact answers_checked (checkRaises_needWidth (by decide)) (answers_startOne rfl rfl rfl)
  | deserTable => exact answers_checked (checkRaises_needWidth (by decide)) (answers_startOne rfl rfl rfl)
  | serTable =>
    exact answers_checked (checkRaises_or (checkRaises_needWidth (by decide)) (checkRaises_needCt (by decide)))
      (answers_startMap _ rfl rfl (fun _ => rfl) rfl)
  | pack =>
    exact answers_checked (checkRaises_or (checkRaises_needWidth (by decide)) (checkRaises_needCt (by decide)))
      (answers_startOne rfl rfl rfl)
  | unpack =>
    exact answers_checked (checkRaises_or (checkRaises_needWidth (by decide)) (checkRaises_needDtree (by decide)))
      (answers_startOne rfl rfl rfl)
  | packBs rs => exact answers_startMap _ rfl rfl (fun _ => rfl) rfl
  | sreset | errClr => exact .ended _ fun _ => rfl
  | nop | bsClr | bsLen | bsCpy | bsEq | bsRd | freqClr | codeClr | packInit | unpackInit => exact .ended _ id

end

/-! ### How a command goes on -/

/-- The command i, without error in s, is in u still without one, its registers as in s unless it has ended, or in error with a cause of its list. -/
def State.onTrack (i : Instr) (s u : State) : Prop :=
  (u.err = false ∧ (u.run = .idle ∨ u.regs = s.regs)) ∨ s.raisesIn i.raises u

section
variable {i : Instr} {s u : State}

theorem State.onTrack_of_goesOnOr {t : State} {cs : List Cause} (he : u.err = false) (hr : u.regs = s.regs)
    (hc : cs ⊆ i.raises) (h : u.goesOnOr cs t) : s.onTrack i t := by
  rcases h with ⟨herr, hregs, -, -⟩ | ⟨v, r, ht, hv, hcause⟩
  · exact .inl ⟨herr.trans he, .inr (hregs.trans hr)⟩
  · exact .inr ⟨v, r, ht, hv.trans hr, hc hcause⟩

theorem State.microStep_onTrack (hd : u.doing i) (he : u.err = false) (hr : u.regs = s.regs) :
    s.onTrack i u.microStep := by
  unfold State.microStep
  split
  · exact .inl ⟨he, .inr hr⟩
  · exact .inl ⟨he, .inr hr⟩
  · exact .inl ⟨he, .inl rfl⟩
  · next m rest hrun =>
    have hm : i.does m = true := (State.doing_running hrun).1 hd m List.mem_cons_self
    rcases u.perform_cases m rest with h | ⟨f, -, e⟩
    · exact State.onTrack_of_goesOnOr he hr (Micro.raises_subset hm) h
    · rw [e]
      refine .inl ⟨?_, .inl rfl⟩
      cases f <;> exact he

theorem State.settle_onTrack (hd : u.doing i) (h : s.onTrack i u) : s.onTrack i u.settle := by
  refine (State.settle_induct (fun v => v.doing i ∧ s.onTrack i v) (fun v ⟨hd, h⟩ hc => ?_) u ⟨hd, h⟩).2
  have busy : v.run ≠ .idle := fun hv => by simp [canMove_of_idle hv] at hc
  rcases h with ⟨he, hv | hr⟩ | ⟨w, r, rfl, -, -⟩
  · exact absurd hv busy
  · exact ⟨State.microStep_doing hd, State.microStep_onTrack hd he hr⟩
  · exact absurd rfl busy

/-- A move of the core for i, its beginning or a later one, keeps it on track. -/
theorem State.advances_onTrack {t : State} (he : s.err = false) (h : s.advances i t) : s.onTrack i t := by
  rcases h with h | ⟨hd, h⟩
  · have ha := exec_answers s i
    rw [h] at ha
    cases ha with
    | raised u r hr hc => exact .inr ⟨u, r, rfl, hr, hc⟩
    | ended u hu => exact .inl ⟨hu he, .inl rfl⟩
    | begun u todo hu hr hd => exact State.settle_onTrack hd (.inl ⟨hu.trans he, .inr hr⟩)
  · unfold State.coreStep at h
    split at h
    · cases h; exact .inl ⟨he, .inr rfl⟩
    · next hr => simp [State.doing, hr] at hd
    · cases h
      exact State.settle_onTrack (State.microStep_doing hd) (State.microStep_onTrack hd he rfl)

end

/-- Settles O8: a command is on track after every move of the core (`State.advances_onTrack`), so an error is one it has raised (`State.raisesIn`). -/
theorem errorsAreListedAndKeepResults : Obligations.ErrorsAreListedAndKeepResults := by
  intro i s t he h ht
  rcases State.advances_onTrack he h with ⟨hf, -⟩ | ⟨u, r, rfl, hr, hc⟩
  · rw [hf] at ht; cases ht
  · exact ⟨rfl, rfl, congrArg HostRegs.res0 hr, congrArg HostRegs.res1 hr, r.cause, hc, rfl⟩

end Sys2Proof.Machine
end

section
/-! The IOFAIL abort (R331, R369): while one is pending no byte is written, and the command can end only in an error. -/

namespace Sys2Proof.Machine

/-! ### A micro-operation with the abort pending -/

section
variable {s : State}

theorem State.outWrite_aborts (hi : s.iof = true) (b : Byte) (k : State → State) : s.outWrite b k = s.abortIO := if_pos hi

theorem State.inRead_aborts (hi : s.iof = true) (h0 : s.iofSkip = 0) (a : State) (k : Token → State → State) :
    s.inRead a k = a := if_pos (by simp [hi, h0])

/-- An OutWrite aborts, so nothing is appended to OUT. -/
theorem State.perform_outq {m : Micro} (hi : s.iof = true) (rest : List Micro) : (s.perform m rest).outq = s.outq := by
  have frame (h : .outq ∉ m.parts) : (s.perform m rest).outq = s.outq := (s.perform_within m rest).1 .outq h
  cases m with
  | outPB | out =>
    rw [State.perform, State.outWrite_aborts hi]
    rfl
  | finish f => exact frame fun h => (f.parts_offStream _ h).2 rfl
  | _ => exact frame (by simp [Micro.parts, decoderParts])

/-- Where a micro-operation cannot go on with the abort pending, it is an InRead before a later boundary (log 4). -/
theorem Micro.reads_of_not_ready {m : Micro} (hi : s.iof = true) (h : m.ready s = false) : m.reads = true := by
  cases m <;> simp_all [Micro.ready, Micro.reads, State.writeReady]

/-- At its boundary the abort is taken in the InRead (R331). -/
theorem State.perform_aborts {m : Micro} (hi : s.iof = true) (h0 : s.iofSkip = 0) (hm : m.reads = true)
    (rest : List Micro) : s.perform m rest = s.abortIO ∨ s.perform m rest = s.abortDeser := by
  cases m with
  | scan | packIn | unpackIn =>
    left
    rw [State.perform, State.inRead_aborts hi h0]
  | deser =>
    right
    rw [State.perform, State.inRead_aborts hi h0]
  | _ => cases hm

/-! ### A run of the core with the abort pending -/

/-- From s, with the abort pending, to u nothing has been written to OUT, and the abort is pending still unless the command has ended with an error. -/
def State.failing (s u : State) : Prop :=
  u.outq = s.outq ∧ (u.run = .idle → u.err = true) ∧ (u.run ≠ .idle → u.iof = true)

/-- The last micro-operation is the command's end, so the invariant leaves no other way to complete. -/
theorem State.microStep_failing {u : State} {todo : List Micro} (hu : u.Inv) (hr : u.run = .running todo)
    (hi : u.iof = true) (ho : u.outq = s.outq) : s.failing u.microStep := by
  have hok := hu.runOk
  simp only [State.runOk, hr] at hok
  cases todo with
  | nil => cases hok.2
  | cons m rest =>
    have hstep : u.microStep = u.perform m rest := by simp [State.microStep, hr]
    rw [hstep]
    refine ⟨(State.perform_outq hi rest).trans ho, ?_⟩
    rcases u.perform_cases m rest with (⟨-, -, hiof, hidle⟩ | ⟨v, r, e, -, -⟩) | ⟨f, hiof, -⟩
    · have busy : (u.perform m rest).run ≠ .idle := fun h => by simp [hidle h] at hr
      exact ⟨fun h => absurd h busy, fun _ => hiof.trans hi⟩
    · rw [e]
      exact ⟨fun _ => rfl, fun h => absurd rfl h⟩
    · rw [hi] at hiof
      cases hiof

theorem State.settle_failing {u : State} (hu : u.Inv) (h : s.failing u) : s.failing u.settle := by
  refine (State.settle_induct (fun v => v.Inv ∧ s.failing v) (fun v ⟨hv, ho, _, hrun⟩ hc => ?_) u ⟨hu, h⟩).2
  refine ⟨inv_micro hv, ?_⟩
  cases hr : v.run with
  | idle => simp [canMove_of_idle hr] at hc
  | accepted w => simp [State.canMove, hr] at hc
  | running todo => exact State.microStep_failing hv hr (hrun (by simp [hr])) ho

theorem State.coreStep_failing {t : State} {todo : List Micro} (hs : s.Inv) (hr : s.run = .running todo)
    (hi : s.iof = true) (h : s.coreStep = .next t) : s.failing t := by
  simp only [State.coreStep, hr] at h
  cases h
  exact State.settle_failing (inv_micro hs) (State.microStep_failing hs hr hi rfl)

/-! ### Where the abort is taken -/

/-- The core's move for a micro-operation that ends the command. -/
theorem State.coreStep_ends {t : State} {m : Micro} {rest : List Micro} (hr : s.run = .running (m :: rest))
    (e : s.perform m rest = t) (ht : t.run = .idle) : s.coreStep = .next t := by
  have hstep : s.microStep = t := by simp [State.microStep, hr, e]
  simp only [State.coreStep, hr, hstep, State.settle_of_idle ht]

/-- A run whose next micro-step ends the command is that micro-step (R375). -/
theorem State.settle_ends {t : State} {m : Micro} {rest : List Micro} (hr : s.run = .running (m :: rest))
    (hturns : s.host.turns = []) (hm : m.ready s = true) (e : s.perform m rest = t) (ht : t.run = .idle) :
    s.settle = t := by
  have hmove : s.canMove = true := by simpa [State.canMove, hr] using hm
  have hstep : s.microStep = t := by simp [State.microStep, hr, e]
  have stays (n : Nat) : runMicro n t = t := by
    cases n with
    | zero => rfl
    | succ n => simp [runMicro, canMove_of_idle ht]
  obtain ⟨n, hn⟩ : ∃ n, s.work = n + 1 := Nat.exists_eq_succ_of_ne_zero (by rw [s.work_running _ hr]; omega)
  simp [State.settle, hturns, hn, runMicro, hmove, hstep, stays]

/-- A command that waits where nobody can end the wait takes its pending abort there (R369; log 4). -/
theorem step_stuck_aborts {todo : List Micro} (hr : s.run = .running todo) (hi : s.iof = true)
    (hc : s.coreReady = false) (hh : s.hostCanAct = false) :
    ∃ u : State, (step s = .next u.abortIO ∨ step s = .next u.abortDeser) ∧ u.wrote = s.wrote ∧ u.inq = s.inq ∧
      u.outq = s.outq := by
  have hstep : step s = s.popTurn.abortWait := by
    simp [step, State.cycle, State.busy, hr, s.mover_eq_none.2 ⟨hc, hh⟩, hi]
  have hmove : s.canMove = false := by simpa [State.coreReady, hr] using hc
  cases todo with
  | nil => simp [State.canMove, hr] at hmove
  | cons m rest =>
    have hm : m.reads = true := Micro.reads_of_not_ready hi (by simpa [State.canMove, hr] using hmove)
    refine ⟨{ s.popTurn with iofSkip := 0 }, ?_, rfl, rfl, rfl⟩
    rw [hstep]
    exact (State.perform_aborts (s := { s.popTurn with iofSkip := 0 }) hi rfl hm rest).imp
      (fun e => State.coreStep_ends hr e rfl) (fun e => State.coreStep_ends hr e rfl)

/-- The OutWrite of the packer's byte aborts (R331). -/
theorem State.perform_outPB_aborts (hi : s.iof = true) (rest : List Micro) : s.perform .outPB rest = s.abortIO := by
  rw [State.perform, State.outWrite_aborts hi]

/-- The state in which EmitBit has filled PB and comes to its OutWrite (R280). -/
def State.filled (s : State) (b : Bool) : State :=
  s.setPacker { s.packer with bits := s.packer.bits + 1, pb := s.packer.filled b }

theorem State.sameBut_filled (s : State) (b : Bool) : s.sameBut (s.filled b) [.pb, .pkBits] :=
  s.sameBut_setPacker_of_syms _ rfl

/-- The eighth bit stands at position 7 (R280). -/
theorem Packer.filled_eighth {p : Packer} (h : p.pbn = 7) (b : Bool) :
    p.filled b = if b then p.pb ||| 0x80#8 else p.pb := by
  cases b <;> simp [Packer.filled, h]

/-- The OutWrite of EmitBit's eighth bit aborts, after PB and PK_BITS have taken the bit (R280, R324, D46; log 10). -/
theorem State.coreStep_emitBit_aborts {b : Bool} {rest : List Micro} (hr : s.run = .running (.emitBit b :: rest))
    (h7 : s.packer.pbn = 7) (hb : s.packer.bits ≠ maxWord) (hi : s.iof = true) (ht : s.host.turns = []) :
    s.coreStep = .next ((s.filled b).goOn (.outPB :: rest)).abortIO := by
  have hemit : s.emitBit b rest = (s.filled b).goOn (.outPB :: rest) := by
    rcases s.emitBit_cases b rest with ⟨h, -⟩ | ⟨-, -, e⟩ | ⟨-, h, -⟩
    · exact absurd h hb
    · exact e
    · exact absurd h7 h
  have hstep : s.microStep = (s.filled b).goOn (.outPB :: rest) := by simp [State.microStep, hr, State.perform, hemit]
  have hset : ((s.filled b).goOn (.outPB :: rest)).settle = ((s.filled b).goOn (.outPB :: rest)).abortIO :=
    State.settle_ends rfl ht (by simp [Micro.ready, State.writeReady, State.filled, hi])
      (State.perform_outPB_aborts (s := (s.filled b).goOn (.outPB :: rest)) hi rest) rfl
  simp only [State.coreStep, hr, hstep, hset]

end

/-- Settles O55: each micro-step with the abort pending keeps OUT and can end only in an error (`State.coreStep_failing`); at a wait that nobody ends (`step_stuck_aborts`) and at the packer's OutWrite the state after the abort is written out. -/
theorem noOutputAfterSinkFailure : Obligations.NoOutputAfterSinkFailure := by
  refine ⟨fun s t todo hs hr hi h => ?running, fun s todo hr hi hc hh => ?stuck, fun s rest hr hi => ?outPB,
    fun s b rest hr h7 hb hi ht => ?eighth⟩
  case running =>
    obtain ⟨ho, herr, -⟩ := State.coreStep_failing hs hr hi h
    exact ⟨ho, herr⟩
  case stuck =>
    obtain ⟨u, hstep, hw, hin, hout⟩ := step_stuck_aborts hr hi hc hh
    rw [← hw, ← hin, ← hout]
    rcases hstep with e | e
    · exact ⟨_, e, rfl, rfl, rfl, rfl, rfl, rfl⟩
    · exact ⟨_, e, rfl, rfl, rfl, rfl, rfl, rfl⟩
  case outPB =>
    exact ⟨_, State.coreStep_ends hr (State.perform_outPB_aborts hi rest) rfl, rfl, rfl, rfl, rfl, rfl, s.sameBut_raise _⟩
  case eighth =>
    have hframe : s.sameBut ((s.filled b).goOn (.outPB :: rest)) [.pb, .pkBits, .error] :=
      State.sameBut_goOn_of (State.sameBut_mono (s.sameBut_filled b) (by decide)) _
    exact ⟨_, State.coreStep_emitBit_aborts hr h7 hb hi ht, rfl, rfl, rfl, rfl, Packer.filled_eighth h7 b, h7, rfl,
      State.sameBut_raise_of hframe _ (by decide)⟩

end Sys2Proof.Machine
end
